-- ==== Sys2Proof/Word.lean ====
section
/-! DEFINITION. The words the part handles: bytes of frames and images, epochs, acquisition numbers, lane time,
raw samples; and the fixed group of four that stations, setup windows and record slots come in. -/

namespace Sys2Proof

/-- A byte of a frame, of an image or of the store's array. -/
abbrev Byte := BitVec 8

/-- An epoch, 32-bit unsigned (R116). -/
abbrev Epoch := BitVec 32

/-- An acquisition number, an unsigned 32-bit count that wraps (R32). -/
abbrev AcqNumber := BitVec 32

/-- A lane time, an unsigned 48-bit count of lane ticks that wraps (R180). -/
abbrev LaneTick := BitVec 48

/-- A raw sample of a sample port, signed 8-bit (R22). -/
abbrev Sample := BitVec 8

/-- Four like things, numbered 0 to 3: stations (R169), setup windows (R5), record slots (R33). -/
structure Quad (α : Type) where
  a0 : α
  a1 : α
  a2 : α
  a3 : α
deriving DecidableEq, Repr

end Sys2Proof
end

