-- ==== Sys2Proof/Syntax.lean ====
section
/-! DEFINITION. The commands of the part, one constructor per row of spec/opcode_table.json, with what each event
brings with it. A command that takes an accepted frame has no operand: the frame stands at the head of the receive
list (R176). -/

namespace Sys2Proof

/-- The panel role strap (00_scope.md). -/
inductive PanelRole where
  | common
  | channel
deriving DecidableEq, Repr

/-- The chain role strap (R80). -/
inductive ChainRole where
  | head
  | link
  | tail
  | sole
deriving DecidableEq, Repr

/-- The four straps, read once at power-on reset (R186). -/
structure Straps where
  station : Nat
  count : Nat
  panel : PanelRole
  chain : ChainRole
deriving DecidableEq, Repr

/-- A pixel of the raster link (R79). -/
structure Pixel where
  colour : BitVec 4
  intensity : BitVec 8
deriving DecidableEq, Repr

/-- The LEDs of the two panel roles (R110, R112). -/
inductive Led where
  | run
  | stop
  | single
  | save
  | recall
  | triggered
  | standby
  | enableA
  | enableB
  | clipA
  | clipB
deriving DecidableEq, Repr

/-- The blocks that offer a kept frame again when the transmit list loses an entry (R178). -/
inductive Offerer where
  | panel
  | setup
  | chain
  | trigger
  | enrol
  | report
deriving DecidableEq, Repr

/-- The commands. -/
inductive Instr where
  /-- POWER_ON_RESET (R186): the straps as they stand. -/
  | powerOnReset (straps : Straps)
  /-- POWER_ON_SCAN (R130). -/
  | powerOnScan
  /-- ANNOUNCE_TIMER_EXPIRY (R188). -/
  | announceTimerExpiry
  /-- FAULT_TIMER_EXPIRY (R190). -/
  | faultTimerExpiry
  /-- CLAIM_PHASE (R170): the claim positions the other nodes pulse or would pulse in the phase. -/
  | claimPhase (others : List Nat)
  /-- FRAME_END (R171): the bytes received, header, body and CRC; whether another node pulls VOID. -/
  | frameEnd (bytes : List Byte) (otherVoid : Bool)
  /-- TRANSMIT_LIST_ROOM (R178): the block whose kept frame is offered next. -/
  | transmitListRoom (block : Offerer)
  /-- RESTART (R194). -/
  | restart
  /-- RUNCTL_RUN (R57). -/
  | runctlRun
  /-- RUNCTL_STOP (R58). -/
  | runctlStop
  /-- RUNCTL_SINGLE (R57). -/
  | runctlSingle
  /-- RUNCTL_FORCE (R51). -/
  | runctlForce
  /-- RUNCTL_CLEARDISPLAY (R67). -/
  | runctlCleardisplay
  /-- RUNCTL_STANDBY (R195). -/
  | runctlStandby
  /-- RUNCTL_WAKE (R196). -/
  | runctlWake
  /-- TRIGGERED (R54). -/
  | triggered
  /-- RECALL (R149). -/
  | recall
  /-- LISTED (R150). -/
  | listed
  /-- STAGED (R156). -/
  | staged
  /-- SAVE (R161). -/
  | save
  /-- SAVED (R163). -/
  | saved
  /-- MAP_HOLD (R165). -/
  | mapHold
  /-- MAP_RELEASE (R167). -/
  | mapRelease
  /-- SETTING_SET (R8). -/
  | settingSet
  /-- SETTING_STEP (R9). -/
  | settingStep
  /-- ENROL (R189). -/
  | enrol
  /-- STORE_OPEN (R142). -/
  | storeOpen
  /-- STORE_GUARD (R142). -/
  | storeGuard
  /-- STORE_PIN (R142). -/
  | storePin
  /-- STORE_KEEP (R145). -/
  | storeKeep
  /-- STORE_DISCARD (R145). -/
  | storeDiscard
  /-- STORE_OVERRIDE_ON (R143). -/
  | storeOverrideOn
  /-- STORE_OVERRIDE_OFF (R144). -/
  | storeOverrideOff
  /-- STORE_CLEAR_STATUS (R141). -/
  | storeClearStatus
  /-- ANNOT (R91). -/
  | annot
  /-- QUERY_STATION (R183). -/
  | queryStation
  /-- QUERY_SETTING (R184). -/
  | querySetting
  /-- QUERY_BLOCK (R184). -/
  | queryBlock
  /-- QUERY_WINDOWS (R184). -/
  | queryWindows
  /-- REPORT (R175). -/
  | report
  /-- ILL_FITTING_FRAME (R198). -/
  | illFittingFrame
  /-- READY_RISING_EDGE (R43). -/
  | readyRisingEdge
  /-- GROUP_COMPLETION (R27): the D raw samples of the group, of channel A and of channel B. -/
  | groupCompletion (samplesA samplesB : List Sample)
  /-- TRIGGER (R49): a raw sample of the source channel in this lane tick and its sample offset. -/
  | trigger (sample : Sample) (offset : Nat)
  /-- TRIG (R52): a TRIG pulse in this lane tick. -/
  | trig
  /-- AUTO_TIMER_EXPIRY (R50). -/
  | autoTimerExpiry
  /-- ALIGNMENT_TIMER_EXPIRY (R55). -/
  | alignmentTimerExpiry
  /-- SETTLING_TIMER_EXPIRY (R16). -/
  | settlingTimerExpiry
  /-- SETTLE_TIMER_EXPIRY (R17). -/
  | settleTimerExpiry
  /-- OPERATION_WINDOW_EXPIRY (R151). -/
  | operationWindowExpiry
  /-- SST_QUEUE_ROOM (R132). -/
  | sstQueueRoom
  /-- SEQUENCER_TAKE (R134). -/
  | sequencerTake
  /-- READ_END (R135). -/
  | readEnd
  /-- WRITE_END (R136): the bytes the verify reads back. -/
  | writeEnd (readBack : List Byte)
  /-- CLEAR_END (R138): what the verify finds not erased, as offsets within the block with their bytes. -/
  | clearEnd (left : List Host.Cell)
  /-- CLEAR_SUSPEND (R139). -/
  | clearSuspend
  /-- STORE_TIME_LIMIT (R140). -/
  | storeTimeLimit
  /-- RESCAN_END (R129). -/
  | rescanEnd
  /-- DRAW_COMPLETION (R72). -/
  | drawCompletion
  /-- DECAY_TIMER_EXPIRY (R75). -/
  | decayTimerExpiry
  /-- DECAY_PASS_END (R76). -/
  | decayPassEnd
  /-- FRAME_TIMER_EXPIRY (R81). -/
  | frameTimerExpiry
  /-- ROW_MERGE (R84): the 800 pixels that arrive on the raster link input. -/
  | rowMerge (upstream : List Pixel)
  /-- FRAME_START_MARKER (R82). -/
  | frameStartMarker
  /-- LOSS_TIMER_EXPIRY (R82). -/
  | lossTimerExpiry
  /-- SCAN_TIMER_EXPIRY (R94): the raw key states read and the detents of the eight encoders. -/
  | scanTimerExpiry (keys : BitVec 64) (detents : List Int)
  /-- PANEL_DISPATCH (R102). -/
  | panelDispatch
  /-- SEQUENCE_DEADLINE (R104). -/
  | sequenceDeadline
  /-- LED_OVERLAY_END (R109): the LED whose overlay's time has run. -/
  | ledOverlayEnd (led : Led)
  /-- QUAL_DRIVE (R47): sample (t, 24) of each channel for the tick t before this one; whether every other
  driver of the line releases it. -/
  | qualDrive (sampleA sampleB : Sample) (othersRelease : Bool)
  /-- TRIGGER_CROSSING (R45): a raw sample of the source channel in this lane tick and its sample offset. -/
  | triggerCrossing (sample : Sample) (offset : Nat)
  /-- COMPACTION_READ_END (R137). -/
  | compactionReadEnd
  /-- POWER_LOSS (R147). -/
  | powerLoss
deriving DecidableEq, Repr

end Sys2Proof
end

