-- ==== Sys2Proof/Decode.lean ====
section
/-! DEFINITION. The words of the command table: spec/opcode_table.json gives no row any bits, so no word spells a
command. -/

namespace Sys2Proof

/-- No row of the command table gives its command bits, so every word is refused. -/
def decodeTableWord (_nbits _w : Nat) : Option Instr := none

end Sys2Proof
end

