-- ==== Sys2Proof/Config.lean ====
section
/-! DEFINITION. What the part fixes (durations, sizes, markers) and what the manual leaves open (free values, each
an opaque constant without a body, applied to the counter `State.free` and to what it concerns). -/

namespace Sys2Proof.Config

/-- One millisecond is 100 000 lane ticks (R11). -/
abbrev ms : Nat := 100000

/-- The settle timer runs for 10 s (R11). -/
abbrev settleTicks : Nat := 10000 * ms

/-- The settling timer runs for 1 ms (R16). -/
abbrev settlingTicks : Nat := 1 * ms

/-- A follower's alignment timer runs for 1 ms (R53). -/
abbrev alignTicks : Nat := 1 * ms

/-- The auto timer runs for at least 50 ms (R50). -/
abbrev autoTicks : Nat := 50 * ms

/-- The window of a RECALL is 500 ms (R149). -/
abbrev recallTicks : Nat := 500 * ms

/-- The window of a SAVE is 2000 ms (R149). -/
abbrev saveTicks : Nat := 2000 * ms

/-- The announce timer runs for 500 ms (R188). -/
abbrev announceTicks : Nat := 500 * ms

/-- The fault timer runs for 1500 ms (R190). -/
abbrev laneFaultTicks : Nat := 1500 * ms

/-- The decay timer runs for 25 ms (R75). -/
abbrev decayTicks : Nat := 25 * ms

/-- The loss timer runs for 50 ms (R82). -/
abbrev lossTicks : Nat := 50 * ms

/-- A frame period is 1 666 667 lane ticks (R81). -/
abbrev frameTicks : Nat := 1666667

/-- A row period is 4000 lane ticks (R81). -/
abbrev rowTicks : Nat := 4000

/-- A pixel takes two lane ticks (R81). -/
abbrev pixelTicks : Nat := 2

/-- The scan timer runs for 4 ms (R94). -/
abbrev scanTicks : Nat := 4 * ms

/-- A key is HELD after 2 s (R95). -/
abbrev holdTicks : Nat := 2000 * ms

/-- The deadline of a slot sequence is 5 s after the stamp of the last event it took (R104). -/
abbrev sequenceTicks : Nat := 5000 * ms

/-- A write is abandoned 5 ms after its start (R140). -/
abbrev writeLimit : Nat := 5 * ms

/-- A clear is abandoned after 1000 ms spent in CLEARING (R140). -/
abbrev clearLimit : Nat := 1000 * ms

/-- The highest epoch there is (R17). -/
abbrev maxEpoch : Epoch := 0xFFFFFFFF

/-- The valid marker of an image (12, section 12.2). -/
abbrev validMarker : Nat := 0xD2B4

/-- The pattern of a set keep mark word (12, section 12.2). -/
abbrev keepPattern : Nat := 0x3C5AA5C3

/-- The part code of REPORT STATION (R183). -/
abbrev partCode : Nat := 0x2208

/-- FREE VALUE (log 11): whether the font's glyph of a code has its pixel set at a row and column of the cell.
The set pixels are given in the data sheet, outside the manual (12, section 12.3). -/
opaque glyphPixel (code row column : Nat) : Bool

/-- FREE VALUE (log 7): whether an abandoned or cut-off write had programmed the byte at this offset. -/
opaque programReached (n offset : Nat) : Bool

/-- FREE VALUE (log 7): whether an abandoned or cut-off clear had erased the byte at this array address. -/
opaque eraseReached (n address : Nat) : Bool

/-- FREE VALUE (log 10): whether the draw in progress has reached a cell of a layer by now. -/
opaque drawReached (n layer cell : Nat) : Bool

/-- FREE VALUE (log 10): whether the draw in progress has finished layer A by now. -/
opaque layerFinished (n : Nat) : Bool

/-- FREE VALUE (log 10): whether the decay pass in progress has reached a cell of a layer by now. -/
opaque decayReached (n layer cell : Nat) : Bool

/-- FREE VALUE (log 9): of a draw and a decay pass that both change a cell, whether the draw reaches it first. -/
opaque drawFirst (n layer cell : Nat) : Bool

/-- FREE VALUE (log 12): whether a VOID window that opens in the tick of a take from a full receive list opens
before that take. -/
opaque windowFirst (n : Nat) : Bool

end Sys2Proof.Config
end

