-- ==== Sys2Proof/Machine/Basic.lean ====
section
/-! DEFINITION. Small shared helpers: the group of four, bytes and byte order, signed values, the 1-2-5 sequence,
the modulo order of R32, and the one sparse form in which every addressed memory of the part is held. -/

namespace Sys2Proof

namespace Quad

/-- The entry of a number; a number above 3 names no entry and reads as entry 3. -/
def get {α : Type} (q : Quad α) : Nat → α
  | 0 => q.a0
  | 1 => q.a1
  | 2 => q.a2
  | _ => q.a3

/-- Replace the entry of a number; a number above 3 changes nothing. -/
def set {α : Type} (q : Quad α) (i : Nat) (v : α) : Quad α :=
  match i with
  | 0 => { q with a0 := v }
  | 1 => { q with a1 := v }
  | 2 => { q with a2 := v }
  | 3 => { q with a3 := v }
  | _ => q

/-- The four entries in number order. -/
def toList {α : Type} (q : Quad α) : List α := [q.a0, q.a1, q.a2, q.a3]

/-- The same value four times. -/
def fill {α : Type} (v : α) : Quad α := ⟨v, v, v, v⟩

/-- Apply a function to the four entries. -/
def map {α β : Type} (f : α → β) (q : Quad α) : Quad β := ⟨f q.a0, f q.a1, f q.a2, f q.a3⟩

/-- The lowest number whose entry passes the test. -/
def find {α : Type} (p : α → Bool) (q : Quad α) : Option Nat :=
  if p q.a0 then some 0
  else if p q.a1 then some 1
  else if p q.a2 then some 2
  else if p q.a3 then some 3
  else none

/-- How many entries pass the test. -/
def count {α : Type} (p : α → Bool) (q : Quad α) : Nat :=
  (if p q.a0 then 1 else 0) + (if p q.a1 then 1 else 0) + (if p q.a2 then 1 else 0) + (if p q.a3 then 1 else 0)

end Quad

namespace Machine

/-- The value's least significant bytes, least significant first (00_scope.md, "Byte order and layouts"). -/
def leBytes : Nat → Nat → List Byte
  | 0, _ => []
  | n + 1, v => BitVec.ofNat 8 v :: leBytes n (v / 256)

/-- The number that bytes give, least significant byte first. -/
def leNat : List Byte → Nat
  | [] => 0
  | b :: bs => b.toNat + 256 * leNat bs

/-- The two's complement value of a number of so many bits. -/
def signedOf (bits v : Nat) : Int :=
  if v < 2 ^ (bits - 1) then (v : Int) else (v : Int) - 2 ^ bits

/-- The number that holds a value in two's complement in so many bits. -/
def unsignedOf (bits : Nat) (v : Int) : Nat := (v % (2 ^ bits : Int)).toNat

/-- A byte with the given value, modulo 256. -/
def byteOf (n : Nat) : Byte := BitVec.ofNat 8 n

/-- So many bytes of 0. -/
def zeros (n : Nat) : List Byte := List.replicate n 0

/-- So many bytes from an offset; bytes beyond the end read as 0. -/
def slice (bs : List Byte) (offset n : Nat) : List Byte :=
  (List.range n).map (fun i => bs.getD (offset + i) 0)

/-- Limit a value to a range (R9, R71, R96). -/
def clampTo (lo hi x : Int) : Int := max lo (min hi x)

/-- Pack with signed saturation into 16 bits (R24). -/
def pack16 (x : Int) : Int := clampTo (-32768) 32767 x

/-- Whether packing into 16 bits saturates (R24). -/
def saturates16 (x : Int) : Bool := decide (x < -32768) || decide (32767 < x)

/-- Member i of a 1-2-5 sequence whose first member is given (00_scope.md, "1-2-5 sequences"). -/
def seq125 (first i : Nat) : Nat :=
  first * (if i % 3 = 0 then 1 else if i % 3 = 1 then 2 else 5) * 10 ^ (i / 3)

/-- a is greater than b in the modulo order of R32: (a - b) mod 2^32 lies from 1 to 2^31 - 1. -/
def acqGreater (a b : AcqNumber) : Bool :=
  decide (1 ≤ (a - b).toNat) && decide ((a - b).toNat ≤ 2 ^ 31 - 1)

/-! The sparse form: a list of address and value pairs, addresses strictly rising, no value equal to the default,
which is what an unlisted address reads as. The store's array, the layers and the annotation grid are held so. -/

namespace Sparse

variable {β : Type} [DecidableEq β]

/-- What an address reads as. -/
def read (dflt : β) : List (Nat × β) → Nat → β
  | [], _ => dflt
  | e :: m, a => if a = e.1 then e.2 else read dflt m a

/-- Write a value at an address; writing the default removes the entry. -/
def write (dflt : β) : List (Nat × β) → Nat → β → List (Nat × β)
  | [], a, v => if v = dflt then [] else [(a, v)]
  | e :: m, a, v =>
    if a < e.1 then (if v = dflt then e :: m else (a, v) :: e :: m)
    else if a = e.1 then (if v = dflt then m else (a, v) :: m)
    else e :: write dflt m a v

/-- Addresses strictly rising from a bound. -/
def rising : Nat → List (Nat × β) → Bool
  | _, [] => true
  | lo, e :: m => decide (lo ≤ e.1) && rising (e.1 + 1) m

/-- The canonical form. -/
def wf (dflt : β) (m : List (Nat × β)) : Bool := rising 0 m && m.all (fun e => decide (e.2 ≠ dflt))

/-- Write a run of values from an address on. -/
def writeRun (dflt : β) : List (Nat × β) → Nat → List β → List (Nat × β)
  | m, _, [] => m
  | m, a, v :: vs => writeRun dflt (write dflt m a v) (a + 1) vs

/-- Read a run of values from an address on. -/
def readRun (dflt : β) (m : List (Nat × β)) (a : Nat) : Nat → List β
  | 0 => []
  | n + 1 => read dflt m a :: readRun dflt m (a + 1) n

/-- Apply a function to every listed value, dropping those that become the default. -/
def mapValues (dflt : β) (f : Nat → β → β) (m : List (Nat × β)) : List (Nat × β) :=
  (m.map (fun e => (e.1, f e.1 e.2))).filter (fun e => decide (e.2 ≠ dflt))

end Sparse

end Machine

end Sys2Proof
end

