-- ==== Sys2Proof/Machine/Setup.lean ====
section
/-! DEFINITION. The setting catalogue (R1 to R4, R8, R9): the common settings, the channel settings, their ranges,
defaults and steps, and the outcome codes (R168). -/

namespace Sys2Proof.Machine

/-- The run state (R57). -/
inductive RunState where
  | running
  | stopped
  | single
deriving DecidableEq, Repr

/-- The code of a run state (12, section 12.2). -/
def RunState.code : RunState → Nat
  | .running => 0
  | .stopped => 1
  | .single => 2

/-- The run state a code names. -/
def RunState.ofCode : Nat → Option RunState
  | 0 => some .running
  | 1 => some .stopped
  | 2 => some .single
  | _ => none

/-- The outcome codes (R168). -/
inductive OutcomeCode where
  | ok
  | empty
  | damaged
  | incompatible
  | protect
  | storeFault
  | noWindow
  | inconsistent
  | timeout
  | epoch
  | absent
deriving DecidableEq, Repr

/-- The number of an outcome (R168). -/
def OutcomeCode.code : OutcomeCode → Nat
  | .ok => 0
  | .empty => 1
  | .damaged => 2
  | .incompatible => 3
  | .protect => 4
  | .storeFault => 5
  | .noWindow => 6
  | .inconsistent => 7
  | .timeout => 8
  | .epoch => 9
  | .absent => 10

/-- The outcome a number names; above 10 none (R198). -/
def OutcomeCode.ofCode : Nat → Option OutcomeCode
  | 0 => some .ok
  | 1 => some .empty
  | 2 => some .damaged
  | 3 => some .incompatible
  | 4 => some .protect
  | 5 => some .storeFault
  | 6 => some .noWindow
  | 7 => some .inconsistent
  | 8 => some .timeout
  | 9 => some .epoch
  | 10 => some .absent
  | _ => none

/-- A common section: the sixteen common settings as their catalogue value codes (R1). -/
structure Common where
  timebase : Nat
  hpos : Nat
  reclen : Nat
  acqmode : Nat
  avgcount : Nat
  trigsrc : Nat
  trigtype : Nat
  slope : Nat
  pulsecond : Nat
  pulsew : Nat
  holdoff : Nat
  runmode : Nat
  qualmode : Nat
  persist : Nat
  intensity : Nat
  graticule : Nat
deriving DecidableEq, Repr

/-- A channel section: the nine channel settings (R2); a label is its codes in order (R3). -/
structure Channel where
  enable : Nat
  vscale : Nat
  voffset : Int
  coupling : Nat
  bwlimit : Nat
  invert : Nat
  triglevel : Int
  qualstate : Nat
  label : List Nat
deriving DecidableEq, Repr

/-- The step kinds of the catalogue (section 1.1). -/
inductive StepKind where
  | clamp (size : Int)
  | wrap
deriving DecidableEq, Repr

/-- Range and step kind of a setting. -/
structure SettingSpec where
  lo : Int
  hi : Int
  kind : StepKind
deriving DecidableEq, Repr

/-- The catalogue of the common settings (R1) for a station count. -/
def commonSpec (count : Nat) : Nat → Option SettingSpec
  | 1 => some ⟨0, 32, .clamp 1⟩
  | 2 => some ⟨0, 1000, .clamp 10⟩
  | 3 => some ⟨0, 5, .clamp 1⟩
  | 4 => some ⟨0, 2, .wrap⟩
  | 5 => some ⟨1, 8, .clamp 1⟩
  | 6 => some ⟨1, 2 * count, .wrap⟩
  | 7 => some ⟨0, 1, .wrap⟩
  | 8 => some ⟨0, 2, .wrap⟩
  | 9 => some ⟨0, 1, .wrap⟩
  | 10 => some ⟨0, 18, .clamp 1⟩
  | 11 => some ⟨0, 25, .clamp 1⟩
  | 12 => some ⟨0, 1, .wrap⟩
  | 13 => some ⟨0, 1, .wrap⟩
  | 14 => some ⟨0, 8, .clamp 1⟩
  | 15 => some ⟨1, 16, .clamp 1⟩
  | 16 => some ⟨0, 2, .wrap⟩
  | _ => none

/-- The catalogue of the channel settings but LABEL (R2). -/
def channelSpec : Nat → Option SettingSpec
  | 1 => some ⟨0, 1, .wrap⟩
  | 2 => some ⟨0, 11, .clamp 1⟩
  | 3 => some ⟨-500, 500, .clamp 10⟩
  | 4 => some ⟨0, 2, .wrap⟩
  | 5 => some ⟨0, 1, .wrap⟩
  | 6 => some ⟨0, 1, .wrap⟩
  | 7 => some ⟨-127, 127, .clamp 1⟩
  | 8 => some ⟨0, 2, .wrap⟩
  | _ => none

/-- The value of a common setting by its number. -/
def Common.value (c : Common) : Nat → Int
  | 1 => c.timebase
  | 2 => c.hpos
  | 3 => c.reclen
  | 4 => c.acqmode
  | 5 => c.avgcount
  | 6 => c.trigsrc
  | 7 => c.trigtype
  | 8 => c.slope
  | 9 => c.pulsecond
  | 10 => c.pulsew
  | 11 => c.holdoff
  | 12 => c.runmode
  | 13 => c.qualmode
  | 14 => c.persist
  | 15 => c.intensity
  | 16 => c.graticule
  | _ => 0

/-- Replace a common setting by its number. -/
def Common.put (c : Common) (number : Nat) (v : Int) : Common :=
  match number with
  | 1 => { c with timebase := v.toNat }
  | 2 => { c with hpos := v.toNat }
  | 3 => { c with reclen := v.toNat }
  | 4 => { c with acqmode := v.toNat }
  | 5 => { c with avgcount := v.toNat }
  | 6 => { c with trigsrc := v.toNat }
  | 7 => { c with trigtype := v.toNat }
  | 8 => { c with slope := v.toNat }
  | 9 => { c with pulsecond := v.toNat }
  | 10 => { c with pulsew := v.toNat }
  | 11 => { c with holdoff := v.toNat }
  | 12 => { c with runmode := v.toNat }
  | 13 => { c with qualmode := v.toNat }
  | 14 => { c with persist := v.toNat }
  | 15 => { c with intensity := v.toNat }
  | 16 => { c with graticule := v.toNat }
  | _ => c

/-- The value of a channel setting but LABEL by its number. -/
def Channel.value (c : Channel) : Nat → Int
  | 1 => c.enable
  | 2 => c.vscale
  | 3 => c.voffset
  | 4 => c.coupling
  | 5 => c.bwlimit
  | 6 => c.invert
  | 7 => c.triglevel
  | 8 => c.qualstate
  | _ => 0

/-- Replace a channel setting but LABEL by its number. -/
def Channel.put (c : Channel) (number : Nat) (v : Int) : Channel :=
  match number with
  | 1 => { c with enable := v.toNat }
  | 2 => { c with vscale := v.toNat }
  | 3 => { c with voffset := v }
  | 4 => { c with coupling := v.toNat }
  | 5 => { c with bwlimit := v.toNat }
  | 6 => { c with invert := v.toNat }
  | 7 => { c with triglevel := v }
  | 8 => { c with qualstate := v.toNat }
  | _ => c

/-- The Default column of R1. -/
def Common.default : Common :=
  { timebase := 15, hpos := 500, reclen := 3, acqmode := 0, avgcount := 4, trigsrc := 1, trigtype := 0, slope := 0,
    pulsecond := 0, pulsew := 6, holdoff := 0, runmode := 0, qualmode := 0, persist := 0, intensity := 8,
    graticule := 0 }

/-- The Default column of R2 with the given ENABLE (R4). -/
def Channel.default (enable : Nat) : Channel :=
  { enable := enable, vscale := 9, voffset := 0, coupling := 0, bwlimit := 0, invert := 0, triglevel := 0,
    qualstate := 0, label := [] }

/-- The value lies within the setting's range (R8). -/
def SettingSpec.holds (sp : SettingSpec) (v : Int) : Bool := decide (sp.lo ≤ v) && decide (v ≤ sp.hi)

/-- The value after a SET: the frame's value when within range, else unchanged (R8). -/
def SettingSpec.setValue (sp : SettingSpec) (x v : Int) : Int := if sp.holds v then v else x

/-- The value after a STEP of k (R9). -/
def SettingSpec.stepValue (sp : SettingSpec) (x k : Int) : Int :=
  match sp.kind with
  | .clamp size => clampTo sp.lo sp.hi (x + k * size)
  | .wrap => sp.lo + (x - sp.lo + k) % (sp.hi - sp.lo + 1)

/-- A SET of LABEL (R3). -/
def setLabel (label : List Nat) (v : Int) : List Nat :=
  if 0 ≤ v ∧ v ≤ 575 then
    let p := v.toNat / 64
    let c := v.toNat % 64
    if p < label.length then label.set p c
    else if p = label.length ∧ label.length < 8 then label ++ [c]
    else label
  else if -9 ≤ v ∧ v ≤ -1 then label.take (-v - 1).toNat
  else label

/-- The operation of a SETTING frame (section 1.3). -/
inductive SettingOp where
  | set
  | step
deriving DecidableEq, Repr

/-- The value of a setting after the operation (R8, R9). -/
def SettingSpec.apply (sp : SettingSpec) (op : SettingOp) (x v : Int) : Int :=
  match op with
  | .set => sp.setValue x v
  | .step => if v = 0 then x else sp.stepValue x v

/-- A common section after a SETTING of the common setting of this number (R8, R9). -/
def Common.applySetting (count : Nat) (op : SettingOp) (number : Nat) (v : Int) (c : Common) : Common :=
  match commonSpec count number with
  | some sp => c.put number (sp.apply op (c.value number) v)
  | none => c

/-- A channel section after a SETTING of the channel setting of this number; a STEP of LABEL is ignored
(R2, R3, R8, R9). -/
def Channel.applySetting (op : SettingOp) (number : Nat) (v : Int) (c : Channel) : Channel :=
  if number = 9 then
    match op with
    | .set => { c with label := setLabel c.label v }
    | .step => c
  else
    match channelSpec number with
    | some sp => c.put number (sp.apply op (c.value number) v)
    | none => c

/-- Each of the sixteen settings lies within its range of R1 for the station count (R122). -/
def Common.inRange (count : Nat) (c : Common) : Bool :=
  (List.range 17).all fun number =>
    match commonSpec count number with
    | some sp => sp.holds (c.value number)
    | none => true

/-- Each of the eight settings lies within its range of R2, and the label holds 0 to 8 codes 0 to 63 (R122). -/
def Channel.inRange (c : Channel) : Bool :=
  ((List.range 9).all fun number =>
    match channelSpec number with
    | some sp => sp.holds (c.value number)
    | none => true)
  && decide (c.label.length ≤ 8) && c.label.all (fun code => decide (code ≤ 63))

/-- A setting outside its range takes its built-in default instead (R124). -/
def Common.orDefaults (count : Nat) (c : Common) : Common :=
  (List.range 17).foldl
    (fun acc number =>
      match commonSpec count number with
      | some sp => if sp.holds (acc.value number) then acc else acc.put number (Common.default.value number)
      | none => acc)
    c

end Sys2Proof.Machine
end

