-- ==== Sys2Proof/Machine/Record.lean ====
section
/-! DEFINITION. Captures, record geometry, point groups and finished records (R13, R25 to R27, R31, R35). -/

namespace Sys2Proof.Machine

/-- The captured settings of one local channel: ACQ's, TGU's and the front-end's part (R13). -/
structure ChannelCapture where
  enable : Nat
  vscale : Nat
  voffset : Int
  coupling : Nat
  bwlimit : Nat
  invert : Nat
  triglevel : Int
  qualstate : Nat
deriving DecidableEq, Repr

/-- The capture: the LIVE values of the settings of R13. -/
structure Capture where
  timebase : Nat
  hpos : Nat
  reclen : Nat
  acqmode : Nat
  avgcount : Nat
  trigsrc : Nat
  trigtype : Nat
  slope : Nat
  pulsecond : Nat
  pulsew : Nat
  holdoff : Nat
  runmode : Nat
  qualmode : Nat
  a : ChannelCapture
  b : ChannelCapture
deriving DecidableEq, Repr

/-- The captured part of a channel section (R13). -/
def Channel.capture (c : Channel) : ChannelCapture :=
  { enable := c.enable, vscale := c.vscale, voffset := c.voffset, coupling := c.coupling, bwlimit := c.bwlimit,
    invert := c.invert, triglevel := c.triglevel, qualstate := c.qualstate }

/-- The capture of a common section and two channel sections (R13). -/
def captureOf (c : Common) (a b : Channel) : Capture :=
  { timebase := c.timebase, hpos := c.hpos, reclen := c.reclen, acqmode := c.acqmode, avgcount := c.avgcount,
    trigsrc := c.trigsrc, trigtype := c.trigtype, slope := c.slope, pulsecond := c.pulsecond, pulsew := c.pulsew,
    holdoff := c.holdoff, runmode := c.runmode, qualmode := c.qualmode, a := a.capture, b := b.capture }

/-- A control word of the front-end control port: VSCALE, VOFFSET, COUPLING and BWLIMIT of a channel (R15). -/
structure FrontWord where
  vscale : Nat
  voffset : Int
  coupling : Nat
  bwlimit : Nat
deriving DecidableEq, Repr

/-- The control word of a captured channel (R15). -/
def ChannelCapture.word (c : ChannelCapture) : FrontWord := ⟨c.vscale, c.voffset, c.coupling, c.bwlimit⟩

/-- The settings of one channel in a record's snapshot (R35). -/
structure ChannelSnapshot where
  enable : Nat
  vscale : Nat
  voffset : Int
  invert : Nat
deriving DecidableEq, Repr

/-- The settings snapshot of a record (R35). -/
structure Snapshot where
  timebase : Nat
  hpos : Nat
  reclen : Nat
  acqmode : Nat
  a : ChannelSnapshot
  b : ChannelSnapshot
deriving DecidableEq, Repr

/-- The snapshot part of a captured channel. -/
def ChannelCapture.snapshot (c : ChannelCapture) : ChannelSnapshot := ⟨c.enable, c.vscale, c.voffset, c.invert⟩

/-- The record's snapshot of a capture (R35). -/
def Capture.snapshot (c : Capture) : Snapshot :=
  ⟨c.timebase, c.hpos, c.reclen, c.acqmode, c.a.snapshot, c.b.snapshot⟩

/-- The last armed snapshot: ACQ's part of the capture (R31). -/
structure ArmedSnapshot where
  snapshot : Snapshot
  avgcount : Nat
deriving DecidableEq, Repr

/-- ACQ's part of a capture (R31). -/
def Capture.armed (c : Capture) : ArmedSnapshot := ⟨c.snapshot, c.avgcount⟩

/-! Record geometry. -/

/-- The horizontal scale in nanoseconds (R1, R25). -/
def tdiv (timebase : Nat) : Nat := seq125 1 timebase

/-- The effective length Le (R25). -/
def effectiveLength (timebase reclen : Nat) : Nat := min (1024 * 2 ^ reclen) (25 * tdiv timebase)

/-- The decimation D (R25). -/
def decimation (timebase reclen : Nat) : Nat :=
  max 1 (25 * tdiv timebase / effectiveLength timebase reclen)

/-- The number of pre-trigger points P (R26). -/
def preTrigger (timebase reclen hpos : Nat) : Nat :=
  min (effectiveLength timebase reclen * hpos / 1000) (effectiveLength timebase reclen - 1)

/-- Le of a capture. -/
def Capture.le (c : Capture) : Nat := effectiveLength c.timebase c.reclen

/-- D of a capture. -/
def Capture.d (c : Capture) : Nat := decimation c.timebase c.reclen

/-- P of a capture. -/
def Capture.p (c : Capture) : Nat := preTrigger c.timebase c.reclen c.hpos

/-- The auto timer's run in lane ticks: the greater of 50 ms and four record durations (R50), rounded up to a whole
lane tick (log 39). -/
def Capture.autoTicks (c : Capture) : Nat := max Config.autoTicks ((4 * c.le * c.d + 24) / 25)

/-! Groups and records. -/

/-- The kind of a trigger (R35). -/
inductive TriggerKind where
  | edge
  | pulse
  | auto
  | force
deriving DecidableEq, Repr

/-- The code of a trigger kind (12, section 12.1). -/
def TriggerKind.code : TriggerKind → Nat
  | .edge => 0
  | .pulse => 1
  | .auto => 2
  | .force => 3

/-- The trigger kind a code names. -/
def TriggerKind.ofCode : Nat → Option TriggerKind
  | 0 => some .edge
  | 1 => some .pulse
  | 2 => some .auto
  | 3 => some .force
  | _ => none

/-- What a point group gives for one channel: the first, least and greatest working value, and whether a raw sample
was clipped (R23, R28, R29). -/
structure ChannelGroup where
  first : Int
  least : Int
  greatest : Int
  clipped : Bool
deriving DecidableEq, Repr

/-- A completed point group with its number, counted from group 0 at the arm origin (R52). -/
structure Group where
  index : Nat
  a : ChannelGroup
  b : ChannelGroup
deriving DecidableEq, Repr

/-- The trigger of a record being filled: its group, stamp and kind; the tick of TRIG at a follower (R52, R54). -/
structure FillTrigger where
  group : Nat
  tick : LaneTick
  offset : Nat
  kind : TriggerKind
  trigTick : Nat
deriving DecidableEq, Repr

/-- The FILLING record (R27): its slot, acquisition number, arm origin e as an elapsed sample index, the groups
completed since the arm, the alignment margin, the held pre-trigger groups and the post-trigger groups, and the
trigger once taken. -/
structure Fill where
  slot : Nat
  number : AcqNumber
  origin : Nat
  completed : Nat
  margin : List Group
  pre : List Group
  post : List Group
  trigger : Option FillTrigger
deriving DecidableEq, Repr

/-- A point as drawn: the minimum and the maximum; the two are equal outside PEAK mode (R28, R29). -/
abbrev Point := Int × Int

/-- A finished record: the header of R35 and the points of both channels. A disabled channel has no points (R27). -/
structure Record where
  number : AcqNumber
  tick : LaneTick
  offset : Nat
  kind : TriggerKind
  clippedA : Bool
  clippedB : Bool
  saturatedA : Bool
  saturatedB : Bool
  coarse : Bool
  shortPretrig : Bool
  first : Nat
  average : Option Nat
  le : Nat
  snapshot : Snapshot
  pointsA : List Point
  pointsB : List Point
deriving DecidableEq, Repr

/-- The state of a record slot (R33). -/
inductive Slot where
  | free
  | filling
  | done (r : Record)
  | drawing (r : Record)
deriving DecidableEq, Repr

end Sys2Proof.Machine
end

