-- ==== Sys2Proof/Machine/Flags.lean ====
section
/-! DEFINITION. Working values, point groups, the flags CLIPPED and SATURATED, averaging, and the assembly of a
finished record (R22 to R24, R27 to R30, R34, R55); the trigger conditions on samples (R45 to R48). -/

namespace Sys2Proof.Machine

/-- The working value of a raw sample (R23). -/
def workingValue (invert : Nat) (s : Sample) : Int := if invert = 1 then -s.toInt else s.toInt

/-- A raw sample is clipped when it is -128 or +127 (R23). -/
def sampleClipped (s : Sample) : Bool := decide (s.toInt = -128) || decide (s.toInt = 127)

/-- What a group of raw samples gives for its channel (R28, R29, R34). -/
def formGroup (invert : Nat) (samples : List Sample) : ChannelGroup :=
  let xs := samples.map (workingValue invert)
  let x0 := xs.headD 0
  { first := x0, least := xs.foldl min x0, greatest := xs.foldl max x0, clipped := samples.any sampleClipped }

/-- The groups that a record with trigger group g holds: g - P to g + Le - P - 1, as far as they exist (R55). -/
def heldGroups (c : Capture) (g : Nat) (f : Fill) : List Group :=
  (f.margin ++ f.pre ++ f.post).filter (fun gr => decide (g - c.p ≤ gr.index) && decide (gr.index < g + c.le - c.p))

/-- The first valid point F of a record with trigger group g (R27, R55). Of a FORCE in PRETRIG the groups that complete
between the command and the trigger sample count as pre-trigger points too, which is the model's choice (log 45). -/
def firstPoint (c : Capture) (g : Nat) : Nat := c.p - g

/-- The accumulator's sums of one channel: point number and sum, default 0 (R30). -/
abbrev Sums := List (Nat × Int)

/-- The new sum of a point (R30). -/
def foldSum (k a : Nat) (sum x : Int) : Int := if k < a then sum + x else sum - sum.tdiv a + x

/-- The average count after a fold (R30). -/
def foldCount (k a : Nat) : Nat := if k < a then k + 1 else k

/-- Fold a channel's points, from point i on, into its sums (R30). -/
def foldSums (k a : Nat) : Sums → Nat → List Int → Sums
  | m, _, [] => m
  | m, i, x :: xs => foldSums k a (Sparse.write 0 m i (foldSum k a (Sparse.read 0 m i) x)) (i + 1) xs

/-- The products that a channel's points pack (R24, R28 to R30): for each point the least and the greatest. -/
def pointProducts (c : Capture) (folded : Bool) (k : Nat) (sums : Sums) (first : Nat) (gs : List ChannelGroup) :
    List (Int × Int) :=
  if c.acqmode = 1 then gs.map (fun g => (g.least * 256, g.greatest * 256))
  else if folded then
    (List.range gs.length).map (fun i =>
      let v := (Sparse.read 0 sums (first + i) * 256).tdiv k
      (v, v))
  else gs.map (fun g => (g.first * 256, g.first * 256))

/-- One channel of a finished record: its points, CLIPPED and SATURATED (R34); nothing for a disabled channel. -/
def channelPoints (c : Capture) (enable : Nat) (folded : Bool) (k : Nat) (sums : Sums) (first : Nat)
    (gs : List ChannelGroup) : List Point × Bool × Bool :=
  if enable = 1 then
    let products := pointProducts c folded k sums first gs
    (List.replicate first (0, 0) ++ products.map (fun v => (pack16 v.1, pack16 v.2)),
      gs.any (·.clipped), products.any (fun v => saturates16 v.1 || saturates16 v.2))
  else ([], false, false)

/-- What the completion of a record leaves: the record and the accumulator (R34). -/
structure Finished where
  record : Record
  sumsA : Sums
  sumsB : Sums
  count : Nat
deriving DecidableEq, Repr

/-- The completion work of R34 on a FILLING record whose trigger stands at group g. -/
def finishRecord (c : Capture) (f : Fill) (t : FillTrigger) (coarse : Bool) (sumsA sumsB : Sums) (k : Nat) :
    Finished :=
  let gs := heldGroups c t.group f
  let first := firstPoint c t.group
  let short := decide (0 < first)
  let average := decide (c.acqmode = 2)
  let folded := average && !short
  let a := 2 ^ c.avgcount
  let fold (enable : Nat) (m : Sums) (xs : List Int) : Sums :=
    if folded && decide (enable = 1) then foldSums k a m first xs else m
  let mA := fold c.a.enable sumsA (gs.map (·.a.first))
  let mB := fold c.b.enable sumsB (gs.map (·.b.first))
  let k' := if folded then foldCount k a else k
  let rA := channelPoints c c.a.enable folded k' mA first (gs.map (·.a))
  let rB := channelPoints c c.b.enable folded k' mB first (gs.map (·.b))
  { record :=
      { number := f.number, tick := t.tick, offset := t.offset, kind := t.kind, clippedA := rA.2.1,
        clippedB := rB.2.1, saturatedA := rA.2.2, saturatedB := rB.2.2, coarse := coarse, shortPretrig := short,
        first := first, average := if average then some (if folded then k' else 0) else none, le := c.le,
        snapshot := c.snapshot, pointsA := rA.1, pointsB := rB.1 }
    sumsA := mA
    sumsB := mB
    count := k' }

/-! Trigger conditions. -/

/-- The crossing state of the source: the priming marks and the sample indices of the last crossings (R45, R46). -/
structure Crossing where
  riseMark : Bool
  fallMark : Bool
  lastRise : Option Nat
  lastFall : Option Nat
deriving DecidableEq, Repr

/-- No marks and no crossing (R43, R45). -/
def Crossing.clear : Crossing := ⟨false, false, none, none⟩

/-- A sample is a rising crossing (R45). -/
def Crossing.rises (k : Crossing) (level x : Int) : Bool := k.riseMark && decide (level ≤ x)

/-- A sample is a falling crossing (R45). -/
def Crossing.falls (k : Crossing) (level x : Int) : Bool := k.fallMark && decide (x ≤ level)

/-- The crossing state after a sample with this index (R45, R46). A pulse ends at the next crossing of the other
polarity, so that crossing forgets its start; of two crossings of one polarity with none of the other between them the
latest begins the pulse (log 44). -/
def Crossing.next (k : Crossing) (level x : Int) (index : Nat) : Crossing :=
  { riseMark := decide (x ≤ level - 2) || (k.riseMark && !k.rises level x)
    fallMark := decide (level + 2 ≤ x) || (k.fallMark && !k.falls level x)
    lastRise := if k.rises level x then some index else if k.falls level x then none else k.lastRise
    lastFall := if k.falls level x then some index else if k.rises level x then none else k.lastFall }

/-- A pulse from a start to an end sample meets PULSECOND and PULSEW: w samples are w x 0.4 ns (R46). -/
def pulseMeets (pulsecond pulsew : Nat) (start : Option Nat) (index : Nat) : Bool :=
  match start with
  | none => false
  | some i0 =>
    let w := index - i0
    if pulsecond = 0 then decide (2 * w < 5 * seq125 1 pulsew) else decide (5 * seq125 1 pulsew < 2 * w)

/-- The sample is a candidate trigger sample by TRIGTYPE and SLOPE (R45, R46). -/
def candidate (c : Capture) (k : Crossing) (level x : Int) (index : Nat) : Bool :=
  let rise := k.rises level x
  let fall := k.falls level x
  if c.trigtype = 0 then
    (decide (c.slope ≠ 1) && rise) || (decide (c.slope ≠ 0) && fall)
  else
    (decide (c.slope ≠ 1) && fall && pulseMeets c.pulsecond c.pulsew k.lastRise index) ||
    (decide (c.slope ≠ 0) && rise && pulseMeets c.pulsecond c.pulsew k.lastFall index)

/-- The holdoff in samples: 1 is 100 ns in a 1-2-5 sequence, and one sample is 0.4 ns (R48). -/
def holdoffSamples (h : Nat) : Nat := if h = 0 then 0 else seq125 100 (h - 1) * 5 / 2

/-- The period of sample indices that carry lane time: 25 samples of each of 2^48 ticks (R22, R180). -/
def indexPeriod : Nat := 25 * 2 ^ 48

/-- A stamp as a sample index. -/
def stampIndex (tick : LaneTick) (offset : Nat) : Nat := 25 * tick.toNat + offset

/-- A candidate is eligible under holdoff; indices compare modulo their period as R180 lays down (R48). -/
def eligible (holdoff : Nat) (last : Option (LaneTick × Nat)) (tick : LaneTick) (offset : Nat) : Bool :=
  match last with
  | none => true
  | some l =>
    decide (holdoff = 0) ||
    decide ((stampIndex tick offset + 2 * indexPeriod - (stampIndex l.1 l.2 + holdoffSamples holdoff)) % indexPeriod
      < indexPeriod / 2)

/-- A channel meets its QUALSTATE with a raw sample; a disabled channel always does (R47). -/
def qualMet (c : ChannelCapture) (s : Sample) : Bool :=
  decide (c.enable = 0) || decide (c.qualstate = 0) ||
  (if c.qualstate = 1 then decide (c.triglevel ≤ workingValue c.invert s)
   else decide (workingValue c.invert s < c.triglevel))

end Sys2Proof.Machine
end

