-- ==== Sys2Proof/Machine/Image.lean ====
section
/-! DEFINITION. Setup images (R116 to R124) in the layout of 12, section 12.2, and the two CRCs (R197). -/

namespace Sys2Proof.Machine

/-- One bit of the CRC-16, most significant bit first (R197). -/
def crc16Shift (c : BitVec 16) : BitVec 16 :=
  if c.msb then (c <<< 1) ^^^ 0x1021#16 else c <<< 1

/-- One byte of the CRC-16 (R197). -/
def crc16Byte (c : BitVec 16) (b : Byte) : BitVec 16 :=
  crc16Shift (crc16Shift (crc16Shift (crc16Shift (crc16Shift (crc16Shift (crc16Shift (crc16Shift
    (c ^^^ (b.zeroExtend 16 <<< 8)))))))))

/-- The CRC-16 of a byte sequence (R197). -/
def crc16 (bs : List Byte) : BitVec 16 := bs.foldl crc16Byte 0xFFFF#16

/-- One bit of the CRC-32, least significant bit first (R197). -/
def crc32Shift (c : BitVec 32) : BitVec 32 :=
  if c.getLsbD 0 then (c >>> 1) ^^^ 0xEDB88320#32 else c >>> 1

/-- One byte of the CRC-32 (R197). -/
def crc32Byte (c : BitVec 32) (b : Byte) : BitVec 32 :=
  crc32Shift (crc32Shift (crc32Shift (crc32Shift (crc32Shift (crc32Shift (crc32Shift (crc32Shift
    (c ^^^ b.zeroExtend 32))))))))

/-- The CRC-32 of a byte sequence, the final register inverted (R197). -/
def crc32 (bs : List Byte) : BitVec 32 := ~~~ (bs.foldl crc32Byte 0xFFFFFFFF#32)

/-- What an image carries for a window (R121): the sections and the epoch. -/
structure Contents where
  common : Common
  chA : Channel
  chB : Channel
  runMode : Nat
  runState : RunState
  epoch : Epoch
deriving DecidableEq, Repr

/-- The 48 bytes of a common section (12, section 12.2). -/
def Common.bytes (c : Common) : List Byte :=
  [byteOf c.timebase] ++ leBytes 2 c.hpos ++
  [byteOf c.reclen, byteOf c.acqmode, byteOf c.avgcount, byteOf c.trigsrc, byteOf c.trigtype, byteOf c.slope,
   byteOf c.pulsecond, byteOf c.pulsew, byteOf c.holdoff, byteOf c.runmode, byteOf c.qualmode, byteOf c.persist,
   byteOf c.intensity, byteOf c.graticule] ++ zeros 31

/-- The 64 bytes of a channel section, always tagged PRESENT (R119). -/
def Channel.bytes (c : Channel) : List Byte :=
  [1, byteOf c.enable, byteOf c.vscale] ++ leBytes 2 (unsignedOf 16 c.voffset) ++
  [byteOf c.coupling, byteOf c.bwlimit, byteOf c.invert, byteOf (unsignedOf 8 c.triglevel), byteOf c.qualstate,
   byteOf c.label.length] ++ (List.range 8).map (fun i => byteOf (c.label.getD i 0)) ++ zeros 45

/-- The 16 bytes of a run section (12, section 12.2). -/
def runBytes (runMode : Nat) (runState : RunState) : List Byte :=
  [byteOf runMode, byteOf runState.code] ++ zeros 14

/-- Image bytes 0 to 251 (R119, steps 1 to 5). -/
def packBody (station slot : Nat) (w : Contents) : List Byte :=
  leBytes 2 Config.validMarker ++ [1, byteOf station, byteOf slot, 0] ++ leBytes 4 w.epoch.toNat ++ zeros 6 ++
  w.common.bytes ++ w.chA.bytes ++ w.chB.bytes ++ runBytes w.runMode w.runState ++ zeros 44

/-- Pack a setup into an image of 256 bytes (R119). -/
def packImage (station slot : Nat) (w : Contents) : List Byte :=
  let body := packBody station slot w
  body ++ leBytes 4 (crc32 body).toNat

/-- A byte of an image or frame as a number. -/
def byteAt (bs : List Byte) (i : Nat) : Nat := (bs.getD i 0).toNat

/-- Every byte of a run is 0. -/
def allZero (bs : List Byte) (offset n : Nat) : Bool := (slice bs offset n).all (fun b => decide (b = 0))

/-- The valid marker holds its value and the CRC-32 matches (check 1 of R121, VALID of R127). -/
def imageValid (bs : List Byte) : Bool :=
  decide (bs.length = 256) && decide (leNat (slice bs 0 2) = Config.validMarker) &&
  decide (leNat (slice bs 252 4) = (crc32 (bs.take 252)).toNat)

/-- The epoch field of an image (R116). -/
def imageEpoch (bs : List Byte) : Epoch := BitVec.ofNat 32 (leNat (slice bs 6 4))

/-- Decode the 48 bytes of a common section field by field. -/
def commonOfBytes (bs : List Byte) : Common :=
  { timebase := byteAt bs 0, hpos := leNat (slice bs 1 2), reclen := byteAt bs 3, acqmode := byteAt bs 4,
    avgcount := byteAt bs 5, trigsrc := byteAt bs 6, trigtype := byteAt bs 7, slope := byteAt bs 8,
    pulsecond := byteAt bs 9, pulsew := byteAt bs 10, holdoff := byteAt bs 11, runmode := byteAt bs 12,
    qualmode := byteAt bs 13, persist := byteAt bs 14, intensity := byteAt bs 15, graticule := byteAt bs 16 }

/-- Decode the settings of a PRESENT channel section; the label has as many codes as its length says. -/
def channelOfBytes (bs : List Byte) : Channel :=
  { enable := byteAt bs 1, vscale := byteAt bs 2, voffset := signedOf 16 (leNat (slice bs 3 2)),
    coupling := byteAt bs 5, bwlimit := byteAt bs 6, invert := byteAt bs 7, triglevel := signedOf 8 (byteAt bs 8),
    qualstate := byteAt bs 9, label := (List.range (byteAt bs 10)).map (fun i => byteAt bs (11 + i)) }

/-- The reserved bytes of a channel section are 0 (check 5, R122): of a PRESENT one those behind the label and the
label positions from the length on, of an EMPTY one every byte after the tag. -/
def channelReservedZero (bs : List Byte) : Bool :=
  if byteAt bs 0 = 1 then
    allZero bs 19 45 && (if byteAt bs 10 ≤ 8 then allZero bs (11 + byteAt bs 10) (8 - byteAt bs 10) else true)
  else if byteAt bs 0 = 2 then allZero bs 1 63
  else true

/-- A channel section passes the settings check (check 6, R122). -/
def channelSectionInRange (bs : List Byte) : Bool :=
  if byteAt bs 0 = 1 then decide (byteAt bs 10 ≤ 8) && (channelOfBytes bs).inRange
  else decide (byteAt bs 0 = 2)

/-- The channel settings a section unpacks to (R121, R123). -/
def unpackChannel (bs : List Byte) : Channel :=
  if byteAt bs 0 = 1 then channelOfBytes bs else Channel.default 0

/-- Check 5 of R121: every reserved byte of the image is 0 (R122). -/
def reservedZero (bs : List Byte) : Bool :=
  allZero bs 5 1 && allZero bs 10 6 && allZero bs (16 + 17) 31 && channelReservedZero (slice bs 64 64) &&
  channelReservedZero (slice bs 128 64) && allZero bs (192 + 2) 14 && allZero bs 208 44

/-- Check 6 of R121: every field lies within its range under the station count (R122). -/
def settingsInRange (count : Nat) (bs : List Byte) : Bool :=
  (commonOfBytes (slice bs 16 48)).inRange count && channelSectionInRange (slice bs 64 64) &&
  channelSectionInRange (slice bs 128 64) && decide (byteAt bs 192 ≤ 1) &&
  decide (byteAt bs 192 = (commonOfBytes (slice bs 16 48)).runmode) && (RunState.ofCode (byteAt bs 193)).isSome

/-- Unpack an image for a slot: the checks of R121 in their order, then its contents. -/
def unpackImage (station count slot : Nat) (bs : List Byte) : Except OutcomeCode Contents :=
  if !imageValid bs then .error .damaged
  else if byteAt bs 2 ≠ 1 then .error .incompatible
  else if byteAt bs 3 ≠ station then .error .damaged
  else if byteAt bs 4 ≠ slot then .error .damaged
  else if !reservedZero bs then .error .damaged
  else if !settingsInRange count bs then .error .incompatible
  else .ok
    { common := commonOfBytes (slice bs 16 48)
      chA := unpackChannel (slice bs 64 64)
      chB := unpackChannel (slice bs 128 64)
      runMode := byteAt bs 192
      runState := (RunState.ofCode (byteAt bs 193)).getD .running
      epoch := imageEpoch bs }

/-! The addresses of the store's array (R126) and the image that manufacture writes. -/

/-- The array's default: the erased byte. -/
abbrev erasedByte : Byte := 0xFF

/-- The address of a position's first byte. -/
def positionAddress (block position : Nat) : Nat := block * 4096 + position * 256

/-- The address of a keep mark word's first byte, behind the positions (log 32). -/
def keepAddress (block : Nat) : Nat := 131072 + 4 * block

/-- The 64 bytes of an EMPTY channel section (R117, R123). -/
def emptySection : List Byte := 2 :: zeros 63

/-- Bytes 0 to 251 of a station's factory image (section 7.7): the catalogue defaults as common section, and station 0's
section A PRESENT with ENABLE 1, every other section EMPTY. Its epoch, 0, and its run section, AUTO and RUNNING, are
the model's choice (log 2). -/
def factoryBody (station : Nat) : List Byte :=
  leBytes 2 Config.validMarker ++ [1, byteOf station, 31, 0] ++ leBytes 4 0 ++ zeros 6 ++ Common.default.bytes ++
  (if station = 0 then (Channel.default 1).bytes else emptySection) ++ emptySection ++
  runBytes Common.default.runmode .running ++ zeros 44

/-- A station's factory image (section 7.7). -/
def factoryImage (station : Nat) : List Byte :=
  factoryBody station ++ leBytes 4 (crc32 (factoryBody station)).toNat

/-- The array as manufacture leaves it: the factory image at position 0 of block 31, that block's keep mark word set,
every other byte erased (R126). -/
def factoryArray (station : Nat) : List Host.Cell :=
  Sparse.writeRun erasedByte
    (Sparse.writeRun erasedByte [] (positionAddress 31 0) (factoryImage station))
    (keepAddress 31) (leBytes 4 Config.keepPattern)

/-- The common digest: the CRC-16 of the 48 bytes of the common section (R124). -/
def commonDigest (sectionBytes : List Byte) : Nat := (crc16 sectionBytes).toNat

end Sys2Proof.Machine
end

