-- ==== Sys2Proof/Machine/Operands.lean ====
section
/-! DEFINITION. The frames of the lane with their fields (section 10.3), their bodies (12, section 12.1), the test
of R198 whether a frame fits its kind, and their ranks. A field that is one byte of the body is a Nat 0 to 255. -/

namespace Sys2Proof.Machine

/-- A frame's kind and fields (section 10.3). -/
inductive Msg where
  | restart
  | runctl (action : Nat)
  | triggered (number : AcqNumber) (tick : LaneTick) (offset kind : Nat)
  | recall (slot : Nat)
  | listed (slot : Nat) (epochs : List Epoch)
  /-- STAGED: digest, common section and run state are present only with outcome 0. -/
  | staged (outcome : Nat) (digest : Nat) (common : List Byte) (run : Nat)
  | save (slot : Nat) (epoch : Epoch)
  | saved (slot : Nat) (epoch : Epoch) (outcome : Nat)
  | map (slot action : Nat)
  | setting (channel number op : Nat) (value : Int)
  | enrol (count heard : Nat) (epoch : Epoch) (noLive : Nat)
  | store (target action block : Nat)
  | annot (target row column attr : Nat) (text : List Nat)
  | query (target kind arg0 arg1 : Nat)
  | report (body : List Byte)
  /-- A frame whose kind is unknown or that does not fit its kind (R198). -/
  | illFitting (kind : Nat) (body : List Byte)
deriving DecidableEq, Repr

/-- The rank of a frame (section 10.3). -/
def Msg.rank : Msg → Nat
  | .restart | .runctl _ | .triggered _ _ _ _ => 0
  | .recall _ | .listed _ _ | .staged _ _ _ _ | .save _ _ | .saved _ _ _ | .map _ _ => 1
  | .setting _ _ _ _ => 2
  | .enrol _ _ _ _ | .store _ _ _ | .annot _ _ _ _ _ | .query _ _ _ _ | .report _ | .illFitting _ _ => 3

/-- RECALL, SAVE, LISTED, STAGED and SAVED are the setup-protocol frames (section 10.3). -/
def Msg.isSetupProtocol : Msg → Bool
  | .recall _ | .listed _ _ | .staged _ _ _ _ | .save _ _ | .saved _ _ _ => true
  | _ => false

/-- LISTED, STAGED and SAVED: the frames of an operation that R151 withdraws at its close. -/
def Msg.isAnswer : Msg → Bool
  | .listed _ _ | .staged _ _ _ _ | .saved _ _ _ => true
  | _ => false

/-- An ENROL frame. -/
def Msg.isEnrol : Msg → Bool
  | .enrol _ _ _ _ => true
  | _ => false

/-- The kind code of a frame (12, section 12.1). -/
def Msg.kindCode : Msg → Nat
  | .restart => 0
  | .runctl _ => 1
  | .triggered _ _ _ _ => 2
  | .recall _ => 3
  | .listed _ _ => 4
  | .staged _ _ _ _ => 5
  | .save _ _ => 6
  | .saved _ _ _ => 7
  | .map _ _ => 8
  | .setting _ _ _ _ => 9
  | .enrol _ _ _ _ => 10
  | .store _ _ _ => 11
  | .annot _ _ _ _ _ => 12
  | .query _ _ _ _ => 13
  | .report _ => 14
  | .illFitting kind _ => kind

/-- The body of a frame (12, section 12.1). -/
def Msg.body : Msg → List Byte
  | .restart => []
  | .runctl action => [byteOf action]
  | .triggered number tick offset kind =>
    leBytes 4 number.toNat ++ leBytes 6 tick.toNat ++ [byteOf offset, byteOf kind]
  | .recall slot => [byteOf slot]
  | .listed slot epochs => [byteOf slot, byteOf epochs.length] ++ epochs.flatMap (fun e => leBytes 4 e.toNat)
  | .staged outcome digest common run =>
    if outcome = 0 then [0] ++ leBytes 2 digest ++ common ++ [byteOf run] else [byteOf outcome]
  | .save slot epoch => [byteOf slot] ++ leBytes 4 epoch.toNat
  | .saved slot epoch outcome => [byteOf slot] ++ leBytes 4 epoch.toNat ++ [byteOf outcome]
  | .map slot action => [byteOf slot, byteOf action]
  | .setting channel number op value =>
    [byteOf channel, byteOf number, byteOf op] ++ leBytes 4 (unsignedOf 32 value)
  | .enrol count heard epoch noLive =>
    [byteOf count, byteOf heard] ++ leBytes 4 epoch.toNat ++ [byteOf noLive]
  | .store target action block => [byteOf target, byteOf action, byteOf block]
  | .annot target row column attr text =>
    [byteOf target, byteOf row, byteOf column, byteOf attr] ++ text.map byteOf
  | .query target kind arg0 arg1 => [byteOf target, byteOf kind, byteOf arg0, byteOf arg1]
  | .report body => body
  | .illFitting _ body => body

/-- A frame as sent: header, body and CRC-16, least significant byte of the CRC first (12, section 12.1, R197). -/
def Msg.frame (sender : Nat) (m : Msg) : List Byte :=
  let headed := [byteOf m.kindCode, byteOf sender, byteOf m.body.length] ++ m.body
  headed ++ leBytes 2 (crc16 headed).toNat

/-- The epochs of a LISTED body from an offset on. -/
def epochsOfBytes (bs : List Byte) (offset : Nat) : Nat → List Epoch
  | 0 => []
  | n + 1 => BitVec.ofNat 32 (leNat (slice bs offset 4)) :: epochsOfBytes bs (offset + 4) n

/-- The body fits the kind: the body-length column of 12, section 12.1, and R198. -/
def bodyFits (kind : Nat) (body : List Byte) : Bool :=
  match kind with
  | 0 => decide (body.length = 0)
  | 1 => decide (body.length = 1)
  | 2 => decide (body.length = 12)
  | 3 => decide (body.length = 1)
  | 4 => decide (body.length = 2 + 4 * byteAt body 1) && decide (byteAt body 1 ≤ 16)
  | 5 => if byteAt body 0 = 0 then decide (body.length = 52) else decide (body.length = 1)
  | 6 => decide (body.length = 5)
  | 7 => decide (body.length = 6)
  | 8 => decide (body.length = 2)
  | 9 => decide (body.length = 7)
  | 10 => decide (body.length = 7)
  | 11 => decide (body.length = 3)
  | 12 => decide (5 ≤ body.length) && decide (body.length ≤ 44)
  | 13 => decide (body.length = 4)
  | 14 => decide (9 ≤ body.length) && decide (body.length ≤ 80)
  | _ => false

/-- The frame that a kind code and a body spell (12, section 12.1); one that does not fit its kind is kept as
such (R198). -/
def Msg.ofBody (kind : Nat) (body : List Byte) : Msg :=
  if !bodyFits kind body then .illFitting kind body
  else
    match kind with
    | 0 => .restart
    | 1 => .runctl (byteAt body 0)
    | 2 => .triggered (BitVec.ofNat 32 (leNat (slice body 0 4))) (BitVec.ofNat 48 (leNat (slice body 4 6)))
        (byteAt body 10) (byteAt body 11)
    | 3 => .recall (byteAt body 0)
    | 4 => .listed (byteAt body 0) (epochsOfBytes body 2 (byteAt body 1))
    | 5 =>
      if byteAt body 0 = 0 then .staged 0 (leNat (slice body 1 2)) (slice body 3 48) (byteAt body 51)
      else .staged (byteAt body 0) 0 [] 0
    | 6 => .save (byteAt body 0) (BitVec.ofNat 32 (leNat (slice body 1 4)))
    | 7 => .saved (byteAt body 0) (BitVec.ofNat 32 (leNat (slice body 1 4))) (byteAt body 5)
    | 8 => .map (byteAt body 0) (byteAt body 1)
    | 9 => .setting (byteAt body 0) (byteAt body 1) (byteAt body 2) (signedOf 32 (leNat (slice body 3 4)))
    | 10 => .enrol (byteAt body 0) (byteAt body 1) (BitVec.ofNat 32 (leNat (slice body 2 4))) (byteAt body 6)
    | 11 => .store (byteAt body 0) (byteAt body 1) (byteAt body 2)
    | 12 => .annot (byteAt body 0) (byteAt body 1) (byteAt body 2) (byteAt body 3) ((body.drop 4).map BitVec.toNat)
    | 13 => .query (byteAt body 0) (byteAt body 1) (byteAt body 2) (byteAt body 3)
    | 14 => .report body
    | _ => .illFitting kind body

/-- The fields of a frame fit the bytes of its body: what a decoded frame always holds, and what an encoder needs
to spell it back. -/
def Msg.wf : Msg → Bool
  | .restart => true
  | .runctl action => decide (action < 256)
  | .triggered _ _ offset kind => decide (offset < 256) && decide (kind < 256)
  | .recall slot => decide (slot < 256)
  | .listed slot epochs => decide (slot < 256) && decide (epochs.length ≤ 16)
  | .staged outcome digest common run =>
    if outcome = 0 then decide (digest < 65536) && decide (common.length = 48) && decide (run < 256)
    else decide (outcome < 256) && decide (digest = 0) && decide (common = []) && decide (run = 0)
  | .save slot _ => decide (slot < 256)
  | .saved slot _ outcome => decide (slot < 256) && decide (outcome < 256)
  | .map slot action => decide (slot < 256) && decide (action < 256)
  | .setting channel number op value =>
    decide (channel < 256) && decide (number < 256) && decide (op < 256) && decide (-(2 ^ 31 : Int) ≤ value) &&
    decide (value < (2 ^ 31 : Int))
  | .enrol count heard _ noLive => decide (count < 256) && decide (heard < 256) && decide (noLive < 256)
  | .store target action block => decide (target < 256) && decide (action < 256) && decide (block < 256)
  | .annot target row column attr text =>
    decide (target < 256) && decide (row < 256) && decide (column < 256) && decide (attr < 256) &&
    decide (1 ≤ text.length) && decide (text.length ≤ 40) && text.all (fun c => decide (c < 256))
  | .query target kind arg0 arg1 =>
    decide (target < 256) && decide (kind < 256) && decide (arg0 < 256) && decide (arg1 < 256)
  | .report body => decide (9 ≤ body.length) && decide (body.length ≤ 80)
  | .illFitting kind body => !bodyFits kind body

end Sys2Proof.Machine
end

