-- ==== Sys2Proof/Machine/Raster.lean ====
section
/-! DEFINITION. Layers, spans, increments, decay (R63 to R71, R76) and the pixels of a merged row (R79, R83 to R85). -/

namespace Sys2Proof.Machine

/-- The drawn snapshot of a layer (R63). -/
structure DrawnSnapshot where
  timebase : Nat
  hpos : Nat
  reclen : Nat
  acqmode : Nat
  vscale : Nat
  voffset : Int
  invert : Nat
deriving DecidableEq, Repr

/-- The values of a record's snapshot that a layer's drawn snapshot takes (R63, R64). -/
def Snapshot.drawn (s : Snapshot) (c : ChannelSnapshot) : DrawnSnapshot :=
  ⟨s.timebase, s.hpos, s.reclen, s.acqmode, c.vscale, c.voffset, c.invert⟩

/-- A layer (R63): its cells in sparse form with default 0, its drawn snapshot, its clear-pending, the cells of the
draw in progress that still await their increment, and the cells the decay pass in progress has reached (R76). -/
structure Layer where
  cells : List (Nat × BitVec 8)
  snapshot : Option DrawnSnapshot
  clearPending : Bool
  todo : List Nat
  decayed : List Nat
deriving DecidableEq, Repr

/-- A layer after power-on reset and RESTART (R78). -/
def Layer.reset : Layer := ⟨[], none, false, [], []⟩

/-- The address of a layer's cell: 800 columns a row (R63). -/
def cellAddress (row column : Nat) : Nat := row * 800 + column

/-- What a layer's cell holds. -/
def Layer.cell (L : Layer) (a : Nat) : BitVec 8 := Sparse.read 0 L.cells a

/-- A clear: every cell 0, the snapshot absent, clear-pending clear (R65). -/
def Layer.clear (L : Layer) : Layer := { L with cells := [], snapshot := none, clearPending := false }

/-- A cell's value after an increment, limited to 255 (R71). -/
def increment (amount : Nat) (v : BitVec 8) : BitVec 8 := BitVec.ofNat 8 (min 255 (v.toNat + amount))

/-- A cell's value after a decay pass: floor(3v / 4) (R76). -/
def decay (v : BitVec 8) : BitVec 8 := BitVec.ofNat 8 (3 * v.toNat / 4)

/-- Let the draw in progress reach the cells that `drawn` picks of those still to do, and the decay pass in progress,
when there is one, the cells that `decays` picks of those it has not reached; of a cell that both reach, `first`
says whether the draw comes first (R72, R76). -/
def Layer.advance (amount : Nat) (pass : Bool) (drawn decays first : Nat → Bool) (L : Layer) : Layer :=
  let now := L.todo.filter drawn
  let dec := fun a => pass && !L.decayed.contains a && decays a
  let value := fun a v =>
    if dec a then (if first a then decay (increment amount v) else increment amount (decay v)) else increment amount v
  let added := now.foldl (fun m a => Sparse.write 0 m a (value a (Sparse.read 0 m a))) L.cells
  { L with
    cells := Sparse.mapValues 0 (fun a v => if dec a && !now.contains a then decay v else v) added
    todo := L.todo.filter (fun a => !drawn a)
    decayed := L.decayed ++ (L.todo ++ (L.cells.map (·.1)).filter (fun a => !L.todo.contains a)).filter dec }

/-! Mapping points to cells. -/

/-- The row of a point value (R69). -/
def rowOf (v : Int) : Nat := (clampTo 0 399 (200 - 2 * v.tdiv 256)).toNat

/-- A span: the rows from top to bottom in one column (R70). -/
structure Span where
  column : Nat
  top : Nat
  bottom : Nat
deriving DecidableEq, Repr

/-- Add a point's rows to the spans found so far, newest first (R68, R70). -/
def addPoint (le i : Nat) (p : Point) (acc : List Span) : List Span :=
  let x := i * 800 / le
  let sp : Span := ⟨x, rowOf p.2, rowOf p.1⟩
  match acc with
  | prev :: rest =>
    if prev.column = x then ⟨x, min prev.top sp.top, max prev.bottom sp.bottom⟩ :: rest else sp :: prev :: rest
  | [] => [sp]

/-- The spans of the points from point i on, newest first. -/
def gatherSpans (le : Nat) : Nat → List Point → List Span → List Span
  | _, [], acc => acc
  | i, p :: ps, acc => gatherSpans le (i + 1) ps (addPoint le i p acc)

/-- Join a span to the span of the previous column reached, as that was drawn (R70). -/
def joinSpan (prev sp : Span) : Span :=
  if sp.bottom + 1 < prev.top then { sp with bottom := prev.top - 1 }
  else if prev.bottom + 1 < sp.top then { sp with top := prev.bottom + 1 }
  else sp

/-- Join spans from left to right, each to the one drawn before it (R70). -/
def joinSpans : Span → List Span → List Span
  | _, [] => []
  | prev, sp :: rest => joinSpan prev sp :: joinSpans (joinSpan prev sp) rest

/-- The spans that a trace draws: Le points of which the first F are not drawn (R68, R70). -/
def traceSpans (le first : Nat) (points : List Point) : List Span :=
  match (gatherSpans le first (points.drop first) []).reverse with
  | [] => []
  | sp :: rest => sp :: joinSpans sp rest

/-- The cells of a span. -/
def Span.cells (sp : Span) : List Nat :=
  (List.range (sp.bottom + 1 - sp.top)).map (fun k => cellAddress (sp.top + k) sp.column)

/-- The cells that a trace increments, each once (R71). -/
def traceCells (le first : Nat) (points : List Point) : List Nat :=
  (traceSpans le first points).flatMap Span.cells

/-! Pixels. -/

/-- Black (R79). -/
def blackPixel : Pixel := ⟨0, 0⟩

/-- FRAME's pixels (R83). -/
def onFrame (r x : Nat) : Bool := decide (x = 0) || decide (x = 799) || decide (r = 0) || decide (r = 399)

/-- GRID's pixels (R83). -/
def onGrid (r x : Nat) : Bool :=
  onFrame r x || (decide (0 < x) && decide (x % 80 = 0) && decide (r % 4 = 0)) ||
  (decide (0 < r) && decide (r % 50 = 0) && decide (x % 4 = 0))

/-- FULL's pixels (R83). -/
def onFull (r x : Nat) : Bool :=
  onGrid r x || decide (x = 400) || decide (r = 200) ||
  (decide (198 ≤ r) && decide (r ≤ 202) && decide (x % 16 = 0)) ||
  (decide (398 ≤ x) && decide (x ≤ 402) && decide (r % 10 = 0))

/-- A pixel of the generated stream under a GRATICULE (R83). -/
def graticulePixel (graticule r x : Nat) : Pixel :=
  if (if graticule = 0 then onFull r x else if graticule = 1 then onGrid r x else onFrame r x) then ⟨0, 48⟩
  else blackPixel

/-- The local candidate of a pixel (R84): the brighter of the layers that take part, layer A when equal. -/
def candidatePixel (station : Nat) (enableA enableB : Bool) (a b : BitVec 8) : Option Pixel :=
  let pa : Pixel := ⟨BitVec.ofNat 4 (2 * station + 1), a⟩
  let pb : Pixel := ⟨BitVec.ofNat 4 (2 * station + 2), b⟩
  if enableA && (!enableB || decide (b.toNat ≤ a.toNat)) then some pa
  else if enableB then some pb
  else none

/-- The candidate replaces the upstream pixel only when strictly brighter (R85). -/
def overUpstream (c : Option Pixel) (up : Pixel) : Pixel :=
  match c with
  | some p => if up.intensity.toNat < p.intensity.toNat then p else up
  | none => up

end Sys2Proof.Machine
end

