-- ==== Sys2Proof/Machine/Text.lean ====
section
/-! DEFINITION. The annotation grid's cells and the readouts' text (R86 to R89, R199): pure functions from settings,
run state and last drawn flags to the cells they write. -/

namespace Sys2Proof.Machine

/-- A character cell of the annotation grid (R86). -/
structure GridCell where
  code : Nat
  colour : BitVec 4
  dim : Bool
  inverse : Bool
deriving DecidableEq, Repr

/-- The transparent cell: what a cell of the grid holds after a reset (R93). Its attribute, colour 0, BRIGHT and not
inverse, is the model's choice (log 48). -/
def GridCell.blank : GridCell := ⟨0, 0, false, false⟩

/-- The address of a character cell: 100 columns a row (R86). -/
def gridAddress (row column : Nat) : Nat := row * 100 + column

/-- The font codes of a text (12, section 12.3: codes 32 to 126 stand in the order of the characters). -/
def fontCodes (t : String) : List Nat := t.toList.map Char.toNat

/-- The decimal digits of a number as font codes, with so many digits at most. -/
def digitsAux : Nat → Nat → List Nat
  | 0, _ => []
  | fuel + 1, n => if n < 10 then [48 + n] else digitsAux fuel (n / 10) ++ [48 + n % 10]

/-- A number in decimal as font codes. -/
def decimal (n : Nat) : List Nat := digitsAux 8 n

/-- Right-align in a field: leading spaces; a longer text keeps its last characters. -/
def alignRight (width : Nat) (t : List Nat) : List Nat :=
  List.replicate (width - t.length) 32 ++ t.drop (t.length - width)

/-- Left-align in a field: trailing spaces; a longer text keeps its first characters. -/
def alignLeft (width : Nat) (t : List Nat) : List Nat := t.take width ++ List.replicate (width - t.length) 32

/-- A member of a 1-2-5 sequence from 1 with the unit of its thousand (R88, R89). -/
def scaleText (units : List String) (i : Nat) : List Nat :=
  decimal (seq125 1 (i % 9)) ++ fontCodes (units.getD (i / 9) "")

/-- A time of a 1-2-5 sequence from 1 ns (TIMEBASE, PULSEW; R89). -/
def timeText (i : Nat) : List Nat := scaleText ["ns", "us", "ms", "s"] i

/-- The font code of a label code (R199). -/
def labelFont (code : Nat) : Nat :=
  if code = 0 then 32
  else if code ≤ 10 then 47 + code
  else if code ≤ 36 then 54 + code
  else
    [43, 45, 46, 47, 58, 95, 35, 37, 40, 41, 61, 60, 62, 42, 38, 33, 63, 44, 39, 34, 64, 91, 93, 1, 2, 4, 5].getD
      (code - 37) 0

/-- A readout cell; a cell of code 0 is the transparent one, whatever the readout's colour (log 48). -/
def textCell (colour : Nat) (code : Nat) : GridCell :=
  if code = 0 then GridCell.blank else ⟨code, BitVec.ofNat 4 colour, false, false⟩

/-- Cells 0 to 2 of a channel readout: the name (R88). -/
def nameText (channel : Nat) (label : List Nat) : List Nat :=
  if label = [] then fontCodes "CH" ++ [48 + channel] else alignLeft 3 ((label.take 3).map labelFont)

/-- Cells 0 to 10 of an enabled channel's readout (R88). -/
def channelText (channel : Nat) (c : Channel) : List Nat :=
  nameText channel c.label ++
  [if c.invert = 1 then 45 else 32] ++
  alignRight 4 (scaleText ["m", "V"] c.vscale) ++
  (if c.coupling = 0 then [68] else if c.coupling = 1 then [65] else [71]) ++
  [if c.bwlimit = 1 then 66 else 32] ++
  [if 0 < c.voffset then 1 else if c.voffset < 0 then 2 else 32]

/-- Cell 11 of a channel readout: the clip mark (R88). -/
def clipCell (channel : Nat) (clipped saturated : Bool) : GridCell :=
  if saturated then ⟨83, BitVec.ofNat 4 channel, false, true⟩
  else if clipped then ⟨67, BitVec.ofNat 4 channel, false, true⟩
  else textCell channel 32

/-- The twelve cells of a channel's readout (R88). -/
def channelReadout (channel : Nat) (c : Channel) (clipped saturated : Bool) : List GridCell :=
  if c.enable = 1 then (channelText channel c).map (textCell channel) ++ [clipCell channel clipped saturated]
  else List.replicate 12 GridCell.blank

/-- The name of a run state in the common readout (R89). -/
def RunState.text : RunState → List Nat
  | .running => fontCodes "RUNNING"
  | .stopped => fontCodes "STOPPED"
  | .single => fontCodes "SINGLE"

/-- The ACQMODE field of the common readout (R89). -/
def acqmodeText (c : Common) : List Nat :=
  if c.acqmode = 0 then fontCodes "SAMPLE"
  else if c.acqmode = 1 then fontCodes "PEAK"
  else fontCodes "AVG" ++ decimal (2 ^ c.avgcount)

/-- The trigger field of the common readout (R89). -/
def triggerText (c : Common) : List Nat :=
  fontCodes (if c.trigtype = 0 then "EDG" else "PLS") ++ [c.slope + 1] ++
  (if c.trigtype = 0 then [] else [if c.pulsecond = 0 then 60 else 62])

/-- The HPOS field of the common readout: a percentage with one decimal (R89). -/
def hposText (h : Nat) : List Nat := decimal (h / 10) ++ [46, 48 + h % 10, 37]

/-- The fifty cells of the common readout, row 0 from column 0 (R89). -/
def commonReadout (c : Common) (run : RunState) : List GridCell :=
  (alignRight 5 (timeText c.timebase) ++ [0] ++ alignRight 6 (hposText c.hpos) ++ [0] ++
    alignLeft 6 (acqmodeText c) ++ [0]).map (textCell 9) ++
  (fontCodes "CH" ++ [48 + c.trigsrc]).map (textCell c.trigsrc) ++
  ([0] ++ alignLeft 5 (triggerText c) ++ [0] ++
    alignLeft 5 (if c.trigtype = 0 then [] else timeText c.pulsew) ++ [0] ++
    fontCodes (if c.runmode = 0 then "AUTO" else "NORM") ++ [0] ++
    alignLeft 7 run.text ++ [0, 0]).map (textCell 9)

/-- Write the readout of a local channel into a grid: row 24, from column 25s or 25s + 12 (R88). -/
def writeChannelReadout (station : Nat) (isB : Bool) (c : Channel) (clipped saturated : Bool)
    (grid : List (Nat × GridCell)) : List (Nat × GridCell) :=
  Sparse.writeRun GridCell.blank grid (gridAddress 24 (25 * station + if isB then 12 else 0))
    (channelReadout (if isB then 2 * station + 2 else 2 * station + 1) c clipped saturated)

/-- Write the common readout into a grid: row 0, columns 0 to 49 (R89). -/
def writeCommonReadout (c : Common) (run : RunState) (grid : List (Nat × GridCell)) : List (Nat × GridCell) :=
  Sparse.writeRun GridCell.blank grid (gridAddress 0 0) (commonReadout c run)

/-- The readouts that a station writes in a blank grid (R87, R90, R93). -/
def readoutGrid (straps : Straps) (c : Common) (a b : Channel) (run : RunState) (clipA satA clipB satB : Bool) :
    List (Nat × GridCell) :=
  let channels :=
    writeChannelReadout straps.station true b clipB satB (writeChannelReadout straps.station false a clipA satA [])
  if straps.panel = .common then writeCommonReadout c run channels else channels

/-- A cell of the grid lies in a reserved area (R87). -/
def reservedCell (count row column : Nat) : Bool :=
  (decide (row = 24) && decide (column < 25 * count)) || (decide (row = 0) && decide (column < 50))

/-- Whether a glyph's pixel is set: the font's free set pixels (log 11) within what 12, section 12.3 states; codes 21
to 31 are the cross, code 16, again. -/
def glyphSet (code row column : Nat) : Bool :=
  if code = 127 then true
  else if code = 32 then false
  else if 21 ≤ code ∧ code ≤ 31 then Config.glyphPixel 16 row column
  else if 6 ≤ code ∧ code ≤ 20 then Config.glyphPixel code row column
  else if 1 ≤ row ∧ row ≤ 13 then Config.glyphPixel code row column
  else false

/-- The result of a character cell over a merged pixel at its glyph row and column (R86). -/
def GridCell.over (g : GridCell) (row column : Nat) (merged : Pixel) : Pixel :=
  let lit : Pixel := ⟨g.colour, if g.dim then 128 else 255⟩
  if g.code = 0 then merged
  else if glyphSet g.code row column then (if g.inverse then ⟨0, 0⟩ else lit)
  else if g.inverse then lit
  else merged

end Sys2Proof.Machine
end

