-- ==== Sys2Proof/Machine/State.lean ====
section
/-! DEFINITION. The state of one PJ2208 station and its values at power-on reset. Every instant and deadline is an
elapsed lane tick (R180: every timer counts elapsed lane ticks). -/

namespace Sys2Proof.Machine

/-! LIF: the station lane and enrolment. -/

/-- The block that placed a frame in the transmit list. -/
inductive Origin where
  | panel
  | setup
  | chain
  | trigger
  | lif
deriving DecidableEq, Repr

/-- A frame of the transmit list (R178): when it was placed, and whether its transfer has begun. -/
structure TxEntry where
  msg : Msg
  origin : Origin
  placedAt : Nat
  sending : Bool
deriving DecidableEq, Repr

/-- A frame of the receive list (R176): its sender, its acceptance instant, and whether it is this station's own
RECALL of the boot recall chain (R193). -/
structure RxEntry where
  msg : Msg
  sender : Nat
  acceptedAt : Nat
  fromChain : Bool
deriving DecidableEq, Repr

/-- The lane (R170, R171): idle since the start of a claim phase, or a frame transfer of a winner, with the frame when
this station sends it. -/
inductive Lane where
  | idle (phaseStart : Nat)
  | transfer (winner : Nat) (sent : Option Msg) (start : Nat)
deriving DecidableEq, Repr

/-- The enrolment state (R187). -/
inductive EnrolState where
  | unenrolled
  | enrolled
  | laneFault
deriving DecidableEq, Repr

/-- The enrolment record (R187). -/
structure Enrol where
  state : EnrolState
  heard : Quad Bool
  heardEpoch : Epoch
  heardNoLive : Bool
  ownNoLive : Bool
  announce : Option Nat
  fault : Option Nat
deriving DecidableEq, Repr

/-- The pending REPORT answer (R182): the addressee, the report kind and the argument's two bytes. -/
structure Answer where
  addressee : Nat
  kind : Nat
  arg0 : Nat
  arg1 : Nat
deriving DecidableEq, Repr

/-- An event of the wired lines or of the samples that a station acts on in lane-time order (R177): the READY rising edge,
a TRIG pulse, a sample of the source channel at an offset in its tick, the samples and the other drivers' level of a QUAL
drive. -/
inductive LineEvent where
  | readyEdge
  | trig
  | sample (s : Sample) (offset : Nat)
  | qual (sampleA sampleB : Sample) (othersRelease : Bool)
deriving DecidableEq, Repr

/-- LIF (R185, R187): start-up period, transmit list, kept ENROL, receive list, the last take from a full receive
list, the lane, the elapsed tick at which lane time was 0, the enrolment record, the pending answer, this station's
own READY drive as sampled at the start of the present tick, the tick of the last READY rising edge (R181), and the line
events that wait to be acted on, each with its lane instant, in their order (R177). -/
structure Lif where
  startUp : Bool
  tx : List TxEntry
  keptEnrol : Bool
  rx : List RxEntry
  rxFullTake : Option Nat
  lane : Lane
  laneZero : Nat
  enrol : Enrol
  answer : Option Answer
  readyOwn : Bool
  edgeAt : Option Nat
  waiting : List (Nat × LineEvent)
deriving DecidableEq, Repr

/-! SMG: the setup windows and the setup operation. -/

/-- The role of a setup window (R5). -/
inductive WindowRole where
  | free
  | live
  | staged
  | held
deriving DecidableEq, Repr

/-- A setup window (R5). -/
structure Window where
  role : WindowRole
  mapped : Option Nat
  epoch : Option Epoch
  dirty : Bool
  loading : Bool
  flipPending : Bool
  common : Common
  chA : Channel
  chB : Channel
  runMode : Nat
  runState : RunState
deriving DecidableEq, Repr

/-- A FREE window: its other fields have no meaning (R5) and stand at fixed values (log 20). -/
def Window.blank : Window :=
  { role := .free, mapped := none, epoch := none, dirty := false, loading := false, flipPending := false,
    common := Common.default, chA := Channel.default 0, chB := Channel.default 0, runMode := 0, runState := .running }

/-- A window with the built-in defaults of a station (R4): channel A of station 0 is enabled. -/
def Window.builtIn (station : Nat) : Window :=
  { Window.blank with chA := Channel.default (if station = 0 then 1 else 0) }

/-- The kind of a setup operation (R148). -/
inductive OpKind where
  | recall
  | save
deriving DecidableEq, Repr

/-- The round of a RECALL (R148). -/
inductive Round where
  | listing
  | staging
deriving DecidableEq, Repr

/-- A station's result in a setup operation (R148). -/
inductive OpResult where
  | listed (epochs : List Epoch)
  | staged (outcome : OutcomeCode) (digest : Nat) (common : List Byte) (run : Nat)
  | saved (outcome : OutcomeCode)
deriving DecidableEq, Repr

/-- The setup-operation record (R148). -/
structure Op where
  kind : OpKind
  slot : Nat
  epoch : Option Epoch
  openedAt : Nat
  round : Round
  chosen : Option Epoch
  results : Quad (Option OpResult)
deriving DecidableEq, Repr

/-- The last-outcome record (R148). -/
structure LastOutcome where
  kind : OpKind
  slot : Nat
  outcome : OutcomeCode
deriving DecidableEq, Repr

/-- The kind of a store request (R131). -/
inductive ReqKind where
  | read
  | append
  | discard
  | mark
deriving DecidableEq, Repr

/-- To whom SST's outcome of a request goes (R131): to no one, to the staging round, to the fill of a HELD window, to
no one but held back as a tracking image (R18), or to the SAVE that it answers. -/
inductive Purpose where
  | none
  | staging
  | fill (window : Nat)
  | tracking
  | save
deriving DecidableEq, Repr

/-- A store request (R131): READ carries the epoch asked for, APPEND its image and the image's epoch. -/
structure Request where
  kind : ReqKind
  block : Nat
  epoch : Epoch
  image : List Byte
  purpose : Purpose
  orphaned : Bool
deriving DecidableEq, Repr

/-- The boot recall chain's state (R193). -/
inductive Chain where
  | idle
  | slot0
  | slot31
deriving DecidableEq, Repr

/-- What the chain waits for: nothing, the close of the operation its RECALL opened, or that of another one (R193). -/
inductive ChainWait where
  | nothing
  | own
  | other
deriving DecidableEq, Repr

/-- SMG (R19, R148, R150, R193). -/
structure Smg where
  windows : Quad Window
  op : Option Op
  lastOutcome : Option LastOutcome
  highest : Epoch
  settle : Option Nat
  untracked : Bool
  due : Bool
  kept : List Request
  wordA : Option FrontWord
  wordB : Option FrontWord
  settling : Option Nat
  keptProto : Option Msg
  stageWait : Bool
  chain : Chain
  chainWait : ChainWait
  keptChain : Bool
deriving DecidableEq, Repr

/-! SST: the setup store. -/

/-- A block's guard state (R142). -/
inductive Guard where
  | opened
  | guarded
  | pinned
deriving DecidableEq, Repr

/-- An entry of the generation index (R129): position and epoch of each generation, the next blank position, and the
note that the block's last clear did not end verified, which keeps DISORDERED set over a later rescan (R140). -/
structure IndexEntry where
  generations : List (Nat × Epoch)
  next : Option Nat
  disordered : Bool
  guard : Guard
  keep : Bool
  unverified : Bool
deriving DecidableEq, Repr

/-- The entry of an erased block. -/
def IndexEntry.erased : IndexEntry := ⟨[], some 0, false, .opened, false, false⟩

/-- The sequencer's state (R133). -/
inductive SeqState where
  | ready
  | reading
  | writing
  | clearing
  | held
  | readingInHold
deriving DecidableEq, Repr

/-- The stage a current request has reached (R135 to R141): a read of a position, the copy of a position into the
page buffer, a clear with the CLEARING ticks spent before its present run and the start of that run, the write of an
image at a position with its start, the write of the keep mark word, or the rescan that ends a failed operation. -/
inductive Stage where
  | reading (position : Nat)
  | copying (position : Nat)
  | clearing (spent since : Nat)
  | writing (position : Nat) (image : List Byte) (last : Bool) (start : Nat)
  | marking (start : Nat)
  | rescanning
deriving DecidableEq, Repr

/-- The current request (R133), with the block's keep mark as it stood at the take (R144). -/
structure Current where
  request : Request
  stage : Stage
  keepAtTake : Bool
deriving DecidableEq, Repr

/-- The last request of the status record; no outcome is the note QUEUE_FULL (R146). -/
structure LastRequest where
  kind : ReqKind
  block : Nat
  outcome : Option OutcomeCode
deriving DecidableEq, Repr

/-- SST (R126, R129, R132, R133, R139, R146). The array is sparse with the erased byte 0xFF as default. -/
structure Sst where
  array : List Host.Cell
  page : Option (List Byte)
  index : List IndexEntry
  queue : List Request
  seq : SeqState
  current : Option Current
  holdRead : Option (Request × Nat)
  abandonAfterRead : Bool
  writeFault : Bool
  clearFault : Bool
  timeFault : Bool
  faultBlock : Option Nat
  override : Bool
  lastRequest : Option LastRequest
deriving DecidableEq, Repr

/-! ACQ and TGU: acquisition and triggering. -/

/-- The acquisition state (R40). -/
inductive AcqState where
  | idle
  | preparing
  | prepared
  | pretrig
  | armed
  | posttrig
  | aligning
deriving DecidableEq, Repr

/-- ACQ (R33, R37). -/
structure Acq where
  state : AcqState
  capture : Option Capture
  slots : Quad Slot
  reserved : Option Nat
  fill : Option Fill
  sumsA : Sums
  sumsB : Sums
  avgCount : Nat
  lastArmed : Option ArmedSnapshot
  restartPending : Bool
  number : AcqNumber
  armedNumber : AcqNumber
deriving DecidableEq, Repr

/-- The trigger role (R44). -/
inductive TriggerRole where
  | source
  | follower
deriving DecidableEq, Repr

/-- A held TRIGGERED frame: its stamp and trigger kind (R54). -/
structure HeldFrame where
  tick : LaneTick
  offset : Nat
  kind : TriggerKind
deriving DecidableEq, Repr

/-- TGU (R47, R61). `trigDrives` are the lane ticks in which it drives TRIG, from the instant of its last trigger on: a
station can trigger again before the drive of its last trigger has ended (R49, R51). -/
structure Tgu where
  run : RunState
  savedRun : Option RunState
  role : Option TriggerRole
  crossing : Crossing
  lastStamp : Option (LaneTick × Nat)
  auto : Option Nat
  align : Option Nat
  heldFrame : Option HeldFrame
  keptFrame : Option Msg
  trigDrives : List Nat
  qualReleased : Bool
  qualHigh : Bool
deriving DecidableEq, Repr

/-! RSE: drawing, composition and annotation. -/

/-- The draw parameters and the slot being drawn (R63, R64). -/
structure DrawParams where
  slot : Nat
  intensity : Nat
  persist : Nat
deriving DecidableEq, Repr

/-- A frame in progress on the input (R81, R82): the graticule held for it, when the station generates its stream, the
next row, and the start of its output frame. -/
structure Frame where
  graticule : Option Nat
  next : Nat
  outStart : Nat
deriving DecidableEq, Repr

/-- A frame on the output (R80, R92): its start, and the blank request that stood then, once noted. -/
structure OutFrame where
  start : Nat
  blank : Option Bool
deriving DecidableEq, Repr

/-- A merged row (R79, R80): the row, its pixels, when it is sent, and the start of the output frame it belongs to. -/
structure MergedRow where
  row : Nat
  pixels : List Pixel
  sendAt : Nat
  out : Nat
deriving DecidableEq, Repr

/-- RSE (R63, R78, R80, R93): among the rest the output frames and the merged rows whose row period has not ended, each
newest first. -/
structure Rse where
  layerA : Layer
  layerB : Layer
  draw : Option DrawParams
  clipA : Bool
  clipB : Bool
  satA : Bool
  satB : Bool
  decayTimer : Nat
  decayCount : Nat
  decayPass : Bool
  frameTimer : Option Nat
  freeRunning : Bool
  lossTimer : Option Nat
  frame : Option Frame
  outs : List OutFrame
  rows : List MergedRow
  blank : Bool
  grid : List (Nat × GridCell)
deriving DecidableEq, Repr

/-! PNS: the front panel. -/

/-- The kind of a panel event (R97). -/
inductive EventKind where
  | down
  | hold
  | turn
deriving DecidableEq, Repr

/-- A panel event (R97). Its stamp is held as an elapsed tick. -/
structure PanelEvent where
  kind : EventKind
  control : Nat
  detents : Int
  level : Nat
  stamp : Nat
deriving DecidableEq, Repr

/-- An open slot sequence (R104). -/
structure Sequence where
  kind : OpKind
  digits : List Nat
  deadline : Nat
deriving DecidableEq, Repr

/-- A base mode (R109). -/
inductive LedMode where
  | off
  | on
  | slow
  | fast
deriving DecidableEq, Repr

/-- An overlay's pattern (R109). -/
inductive Pattern where
  | code (n : Nat)
  | flash
  | sequence
  | range
deriving DecidableEq, Repr

/-- An entry of the LED table (R109): the base mode and the instant it was set, the overlay and its start. -/
structure LedEntry where
  led : Led
  mode : LedMode
  since : Nat
  overlay : Option (Pattern × Nat)
deriving DecidableEq, Repr

/-- PNS (R94 to R98, R104, R109, R115). -/
structure Pns where
  scanTimer : Nat
  accepted : BitVec 64
  raw : BitVec 64
  firstScan : Bool
  holdSave : Option Nat
  holdPower : Option Nat
  counts : List Int
  queue : List PanelEvent
  sequence : Option Sequence
  leds : List LedEntry
deriving DecidableEq, Repr

/-! The station and the machine. -/

/-- Everything the spec gives one station. `ticks` counts elapsed lane ticks; `free` is the model's own counter for
free values (log 6). -/
structure Station where
  powered : Bool
  straps : Straps
  standby : Bool
  ticks : Nat
  free : Nat
  lif : Lif
  smg : Smg
  sst : Sst
  acq : Acq
  tgu : Tgu
  rse : Rse
  pns : Pns
deriving DecidableEq, Repr

/-- The machine: the queue of commands that wait, first in first out, and the station they act on. -/
structure State where
  pending : List Instr
  station : Station
deriving DecidableEq, Repr

/-- Why a step can stop with a fault: the spec names no event that stops the part, so there is no fault. -/
inductive Fault : Type
deriving DecidableEq, Repr

/-- Why a step can be refused. -/
inductive Refusal where
  /-- Raised by an arm of exec that has no meaning yet, with the command's mnemonic; safe: nothing is executed. -/
  | notModelled (mnemonic : String)
deriving DecidableEq, Repr

/-! Values at power-on reset. -/

/-- LIF at power-on reset (R185 to R187). The record starts afresh at the end of the start-up period (R187); until then
the heard set holds the station's own id alone, the heard epoch is 0 and the heard no-live flag 1: the model's choice
(log 72). -/
def Lif.powerOn (station : Nat) : Lif :=
  { startUp := true, tx := [], keptEnrol := false, rx := [], rxFullTake := none, lane := .idle 0, laneZero := 0,
    enrol :=
      { state := .unenrolled, heard := (Quad.fill false).set station true, heardEpoch := 0, heardNoLive := true,
        ownNoLive := true, announce := none, fault := none },
    answer := none, readyOwn := false, edgeAt := none, waiting := [] }

/-- SMG at power-on reset; the highest epoch follows at the scan's end (R19). -/
def Smg.powerOn (station : Nat) : Smg :=
  { windows := ⟨{ Window.builtIn station with role := .live }, Window.blank, Window.blank, Window.blank⟩,
    op := none, lastOutcome := none, highest := 0, settle := none, untracked := false, due := false, kept := [],
    wordA := none, wordB := none, settling := none, keptProto := none, stageWait := false, chain := .idle,
    chainWait := .nothing, keptChain := false }

/-- SST at power-on reset over an array; the index follows at the scan's end (R130, R147, log 26). R147 gives the
sequencer READY after the scan and no state before it: that it is READY from power-on reset on is the model's choice
(DESIGN CHOICE, log 76). -/
def Sst.powerOn (array : List Host.Cell) : Sst :=
  { array := array, page := none, index := List.replicate 32 IndexEntry.erased, queue := [], seq := .ready,
    current := none, holdRead := none, abandonAfterRead := false, writeFault := false, clearFault := false,
    timeFault := false, faultBlock := none, override := false, lastRequest := none }

/-- ACQ at power-on reset and at RESTART (R37). -/
def Acq.reset : Acq :=
  { state := .idle, capture := none, slots := Quad.fill .free, reserved := none, fill := none, sumsA := [],
    sumsB := [], avgCount := 0, lastArmed := none, restartPending := false, number := 0, armedNumber := 0 }

/-- TGU at power-on reset (R61). -/
def Tgu.powerOn : Tgu :=
  { run := .running, savedRun := none, role := none, crossing := Crossing.clear, lastStamp := none, auto := none,
    align := none, heldFrame := none, keptFrame := none, trigDrives := [], qualReleased := false, qualHigh := false }

/-- RSE at power-on reset (R78, R81, R82, R93): the readouts are built from the defaults of W0 and RUNNING. -/
def Rse.powerOn (straps : Straps) : Rse :=
  { layerA := Layer.reset, layerB := Layer.reset, draw := none, clipA := false, clipB := false, satA := false,
    satB := false, decayTimer := Config.decayTicks, decayCount := 0, decayPass := false,
    frameTimer :=
      (match straps.chain with
       | .head | .sole => some Config.frameTicks
       | .link | .tail => none),
    freeRunning := false,
    lossTimer :=
      (match straps.chain with
       | .head | .sole => none
       | .link | .tail => some Config.lossTicks),
    frame := none, outs := [], rows := [], blank := false,
    grid :=
      readoutGrid straps (Window.builtIn straps.station).common (Window.builtIn straps.station).chA
        (Window.builtIn straps.station).chB .running false false false false }

/-- The LED set of a panel role (R110, R112). -/
def ledSet : PanelRole → List Led
  | .common => [.run, .stop, .single, .save, .recall, .triggered, .standby]
  | .channel => [.enableA, .enableB, .clipA, .clipB]

/-- An LED with base mode OFF from an instant on, without overlay (R115). -/
def LedEntry.dark (at_ : Nat) (led : Led) : LedEntry := ⟨led, .off, at_, none⟩

/-- PNS at power-on reset (R115). -/
def Pns.powerOn (role : PanelRole) : Pns :=
  { scanTimer := Config.scanTicks, accepted := 0, raw := 0, firstScan := true, holdSave := none, holdPower := none,
    counts := List.replicate 8 0, queue := [], sequence := none, leds := (ledSet role).map (LedEntry.dark 0) }

/-- A station at power-on reset, with the straps as read, over an array as the last power loss left it (R186). -/
def Station.powerOn (straps : Straps) (array : List Host.Cell) : Station :=
  { powered := true, straps := straps, standby := false, ticks := 0, free := 0, lif := Lif.powerOn straps.station,
    smg := Smg.powerOn straps.station, sst := Sst.powerOn array, acq := Acq.reset, tgu := Tgu.powerOn,
    rse := Rse.powerOn straps, pns := Pns.powerOn straps.panel }

/-- The straps of State.reset: station 0 of 1, COMMON, SOLE (log 1). -/
def resetStraps : Straps := ⟨0, 1, .common, .sole⟩

/-- The machine right after power-on reset: the array as manufacture leaves it (R126, log 2), the start-up period
running, no command waiting. -/
def State.reset : State :=
  { pending := [], station := Station.powerOn resetStraps (factoryArray resetStraps.station) }

end Sys2Proof.Machine
end

