-- ==== Sys2Proof/Machine/Ops.lean ====
section
/-! DEFINITION. The shared operations of the station: instants and order, frames of the two lists, LEDs, setup
windows and images, store requests, readouts, layers and draws, and the acquisition state with its boundary and the
flip. A block has no exception entry: raising a flag, an LED or a line is each operation's effect on the state. -/

namespace Sys2Proof.Machine

/-- What a command answers. -/
abbrev Answered := Host.Outcome State Fault Refusal

/-- A command's effect on the station of a machine; an unpowered station does nothing (log 25). The queue of
commands is left alone. -/
def State.on (s : State) (f : Station → Station) : Answered :=
  .next { s with station := if s.station.powered then f s.station else s.station }

/-- How long an overlay's pattern runs (R109). -/
def Pattern.ticks : Pattern → Nat
  | .code n => if n = 0 then 5400 * Config.ms else 3 * (400 * n + 800) * Config.ms
  | .flash => 50 * Config.ms
  | .sequence => 1000 * Config.ms
  | .range => 1500 * Config.ms

/-- When an LED's overlay ends (R109). -/
def LedEntry.overlayEnd (e : LedEntry) : Option Nat := e.overlay.map (fun o => o.2 + o.1.ticks)

/-- When the operation's window expires (R149). -/
def Op.deadline (o : Op) : Nat :=
  o.openedAt +
    (match o.kind with
     | .recall => Config.recallTicks
     | .save => Config.saveTicks)

/-- When the act in progress in the array reaches its limit (R140). -/
def Sst.limit (s : Sst) : Option Nat :=
  match s.current with
  | none => none
  | some c =>
    match c.stage with
    | .writing _ _ _ start => some (start + Config.writeLimit)
    | .marking start => some (start + Config.writeLimit)
    | .clearing spent since =>
      if s.seq = .clearing then some (since + (Config.clearLimit - spent)) else none
    | .reading _ | .copying _ | .rescanning => none

/-- The lowest-numbered slot in state FREE (R33). -/
def lowestFree (q : Quad Slot) : Option Nat := q.find (fun sl => decide (sl = .free))

/-- The record of a DONE slot. -/
def Slot.doneRecord : Slot → Option Record
  | .done r => some r
  | _ => none

/-- The DONE slots with their records, by slot number. -/
def doneRecords (q : Quad Slot) : List (Nat × Record) :=
  [(0, q.a0), (1, q.a1), (2, q.a2), (3, q.a3)].filterMap (fun p => p.2.doneRecord.map (fun r => (p.1, r)))

/-- The older of two records by acquisition number (R32, R36). -/
def olderRecord (a b : Nat × Record) : Nat × Record := if acqGreater a.2.number b.2.number then b else a

/-- The head of the draw queue (R36). -/
def oldestDone (q : Quad Slot) : Option (Nat × Record) :=
  match doneRecords q with
  | [] => none
  | r :: rest => some (rest.foldl olderRecord r)

/-- How far the draw in progress has come in a layer; it draws layer A before layer B (R64). -/
inductive DrawReach where
  | notBegun
  | underWay
  | finished
deriving DecidableEq, Repr

/-- The draw has reached a cell of the layer, where `picked` says so of a layer under way. -/
def DrawReach.draws (reach : DrawReach) (picked : Bool) : Bool :=
  match reach with
  | .notBegun => false
  | .underWay => picked
  | .finished => true

/-- TRIG is to be driven for the whole of the tick x, by a trigger of the instant `at_`, however late that is acted on
(R177); drives of that tick and of later ones stand, those of earlier ticks are forgotten (R49). -/
def Tgu.driveTrig (at_ x : Nat) (g : Tgu) : Tgu :=
  { g with trigDrives := x :: g.trigDrives.filter (fun y => decide (at_ ≤ y)) }

/-- When a frame of so many bytes whose transfer began at `start` ends: 16 ticks a byte and the VOID window (R171). -/
def frameEndAt (start length : Nat) : Nat := start + 16 * length + 4

/-- The first of the claim phases that begin at `start` and every 64 ticks after it at whose start a frame waits in this
transmit list (R170), one placed in that very tick included (log 75). -/
def firstContended (start : Nat) (tx : List TxEntry) : Option Nat :=
  ((tx.filter (fun e => !e.sending)).map (fun e => (e.placedAt - start + 63) / 64)).min?

namespace Station

/-! Instants and order. -/

/-- The station is ENROLLED. -/
def enrolled (t : Station) : Bool := decide (t.lif.enrol.state = .enrolled)

/-- Lane time at an elapsed tick (R180). -/
def laneTimeAt (x : Nat) (t : Station) : LaneTick := BitVec.ofNat 48 (x - t.lif.laneZero)

/-- Lane time now (R180). -/
def laneTime (t : Station) : LaneTick := t.laneTimeAt t.ticks

/-- The deadlines of the lane-time timers that run (R177). The frame timer is not tied to lane time (R81). -/
def deadlines (t : Station) : List Nat :=
  [t.lif.enrol.announce, t.lif.enrol.fault, t.smg.settle, t.smg.settling, t.smg.op.map Op.deadline, t.sst.limit,
   t.tgu.auto, t.tgu.align, t.rse.lossTimer, t.pns.sequence.map (·.deadline)].filterMap id ++
  [t.rse.decayTimer, t.pns.scanTimer] ++ t.pns.leds.filterMap LedEntry.overlayEnd

/-- The instant before which no frame that this station sends or contends with can be accepted: the end of its own
transfer, or on an idle lane the end of the shortest frame that can win the first phase it contends in (2 ticks of
claim, 80 of data, 4 of VOID window; R170, R171). -/
def laneDue (t : Station) : Option Nat :=
  match t.lif.lane with
  | .transfer _ (some m) start => some (frameEndAt start (m.frame t.straps.station).length)
  | .transfer _ none _ => none
  | .idle start => (firstContended start t.lif.tx).map (fun k => start + 64 * k + 86)

/-- An event of instant x may be acted on: every frame accepted before x has been taken, every timer that expired
before x and every line event of before x has been acted on, and no frame that this station knows to come is accepted
before x (R177, log 5). -/
def inOrder (x : Nat) (t : Station) : Bool :=
  t.lif.rx.all (fun e => decide (x ≤ e.acceptedAt)) && t.deadlines.all (fun d => decide (x ≤ d)) &&
  t.laneDue.all (fun d => decide (x ≤ d)) && t.lif.waiting.all (fun w => decide (x ≤ w.1))

/-- No line event of the tick x is still to be acted on: a READY rising edge of it can no longer come, because this
station held READY low at the start of the tick, its edge has come, or the tick has passed (R181), and no line event of
it waits. Frames and timer expiries of the tick of an edge act after it (R14, R42, log 52). -/
def edgePast (x : Nat) (t : Station) : Bool :=
  (!t.lif.readyOwn || decide (t.lif.edgeAt = some t.ticks) || decide (x < t.ticks)) &&
  t.lif.waiting.all (fun w => decide (x < w.1))

/-- The tick x has ended for this station: no frame accepted in it or before can still come (R177). -/
def closedTick (x : Nat) (t : Station) : Bool := decide (x < t.ticks) && t.laneDue.all (fun d => decide (x < d))

/-- Act on the expiry of a timer at its deadline, once that has come and is next in order (R177). -/
def expire (deadline : Option Nat) (f : Nat → Station → Station) (t : Station) : Station :=
  match deadline with
  | some d => if decide (d ≤ t.ticks) && t.inOrder d && t.edgePast d then f d t else t
  | none => t

/-- A line event of the present tick waits, with its lane instant, until what comes before it has been acted on (R177).
-/
def await (ev : LineEvent) (t : Station) : Station :=
  { t with lif := { t.lif with waiting := t.lif.waiting ++ [(t.ticks, ev)] } }

/-- A line event of the present tick is acted on when it is next in order, and waits when it is not (R177, log 68). -/
def occur (ev : LineEvent) (f : Nat → Station → Station) (t : Station) : Station :=
  if t.inOrder t.ticks && t.lif.waiting.isEmpty then f t.ticks t else t.await ev

/-! The receive list. -/

/-- The head of the receive list is taken; a take from a full list is noted with its tick (R172, R176). -/
def pop (rest : List RxEntry) (t : Station) : Station :=
  { t with
    lif :=
      { t.lif with
        rx := rest
        rxFullTake := if 8 ≤ t.lif.rx.length then some t.ticks else t.lif.rxFullTake } }

/-- Take the frame at the head of the receive list when it is of the kind picked, `ready`, and next in order; its
effect is as of its acceptance instant (R176, R177). -/
def takeHead {α : Type} (pick : Msg → Option α) (ready : RxEntry → Station → Bool)
    (f : α → RxEntry → Station → Station) (t : Station) : Station :=
  match t.lif.rx with
  | [] => t
  | e :: rest =>
    match pick e.msg with
    | none => t
    | some a => if t.inOrder e.acceptedAt && t.edgePast e.acceptedAt && ready e t then f a e (t.pop rest) else t

/-- Take a frame that only an enrolled station acts on (R175). -/
def takeFrame {α : Type} (pick : Msg → Option α) (f : α → RxEntry → Station → Station) (t : Station) : Station :=
  t.takeHead pick (fun _ _ => true) (fun a e u => if u.enrolled then f a e u else u)

/-! The transmit list. -/

/-- The transmit list has room for a frame (R178). -/
def room (m : Msg) (t : Station) : Bool :=
  decide (t.lif.tx.length < 16) &&
  (decide (m.rank < 2) || decide ((t.lif.tx.filter (fun e => decide (2 ≤ e.msg.rank))).length < 14)) &&
  (!m.isSetupProtocol || t.lif.tx.all (fun e => !e.msg.isSetupProtocol))

/-- Place a frame in the transmit list (R178). -/
def place (m : Msg) (origin : Origin) (t : Station) : Station :=
  { t with
    lif := { t.lif with tx := t.lif.tx ++ [{ msg := m, origin := origin, placedAt := t.ticks, sending := false }] } }

/-! Setup windows and images. -/

/-- The number of the LIVE window (R5). -/
def liveIndex (t : Station) : Nat := (t.smg.windows.find (fun w => decide (w.role = .live))).getD 0

/-- The LIVE window (R5). -/
def live (t : Station) : Window := t.smg.windows.get t.liveIndex

/-- The number of the STAGED window (R5). -/
def stagedIndex (t : Station) : Option Nat := t.smg.windows.find (fun w => decide (w.role = .staged))

/-- The number of the STAGED window whose flip is pending (R157). -/
def flipIndex (t : Station) : Option Nat :=
  t.smg.windows.find (fun w => decide (w.role = .staged) && w.flipPending)

/-- A flip is pending at this station. -/
def flipPending (t : Station) : Bool := t.flipIndex.isSome

/-- The lowest-numbered FREE window. -/
def freeIndex (t : Station) : Option Nat := t.smg.windows.find (fun w => decide (w.role = .free))

/-- The number of the HELD window mapped to a slot (R165). -/
def heldIndex (slot : Nat) (t : Station) : Option Nat :=
  t.smg.windows.find (fun w => decide (w.role = .held) && decide (w.mapped = some slot))

/-- Replace a window. -/
def setWindow (i : Nat) (w : Window) (t : Station) : Station :=
  { t with smg := { t.smg with windows := t.smg.windows.set i w } }

/-- Free every window that passes a test. -/
def freeWindows (p : Window → Bool) (t : Station) : Station :=
  { t with smg := { t.smg with windows := t.smg.windows.map (fun w => if p w then Window.blank else w) } }

/-- The run state that an image of the LIVE window carries (R6, R195). -/
def imageRun (t : Station) : RunState := if t.standby then t.tgu.savedRun.getD t.tgu.run else t.tgu.run

/-- Pack the LIVE window for a slot and an epoch (R119). -/
def packLive (slot : Nat) (epoch : Epoch) (t : Station) : List Byte :=
  packImage t.straps.station slot
    { common := t.live.common, chA := t.live.chA, chB := t.live.chB, runMode := t.live.common.runmode,
      runState := t.imageRun, epoch := epoch }

/-- Pack a HELD window with its mapped slot and epoch (R119). -/
def packHeld (w : Window) (t : Station) : List Byte :=
  packImage t.straps.station (w.mapped.getD 0)
    { common := w.common, chA := w.chA, chB := w.chB, runMode := w.runMode, runState := w.runState,
      epoch := w.epoch.getD 0 }

/-- Unpack an image for a slot at this station (R121). -/
def unpack (slot : Nat) (image : List Byte) (t : Station) : Except OutcomeCode Contents :=
  unpackImage t.straps.station t.straps.count slot image

/-! Requests that SMG makes. -/

/-- Hand kept requests to SST's queue in the order SMG made them, as far as it has room (R132). -/
def drainKept (t : Station) : Station :=
  let n := 4 - t.sst.queue.length
  { t with
    smg := { t.smg with kept := t.smg.kept.drop n }
    sst := { t.sst with queue := t.sst.queue ++ t.smg.kept.take n } }

/-- SMG makes a request: it goes behind those it keeps, and what finds room is handed over (R132). -/
def offerRequest (r : Request) (t : Station) : Station :=
  drainKept { t with smg := { t.smg with kept := t.smg.kept ++ [r] } }

/-- The APPEND of an image of a slot. -/
def appendRequest (slot : Nat) (epoch : Epoch) (image : List Byte) (purpose : Purpose) : Request :=
  { kind := .append, block := slot, epoch := epoch, image := image, purpose := purpose, orphaned := false }

/-- The READ of an epoch of a slot. -/
def readRequest (slot : Nat) (epoch : Epoch) (purpose : Purpose) : Request :=
  { kind := .read, block := slot, epoch := epoch, image := [], purpose := purpose, orphaned := false }

/-- Change every request SST holds: queued, current and served in a hold. -/
def mapStored (f : Request → Request) (t : Station) : Station :=
  { t with
    sst :=
      { t.sst with
        queue := t.sst.queue.map f
        current := t.sst.current.map (fun c => { c with request := f c.request })
        holdRead := t.sst.holdRead.map (fun r => (f r.1, r.2)) } }

/-- A tracking save (R18); a tracking image still held is replaced (log 19). -/
def trackingSave (t : Station) : Station :=
  let e := t.smg.highest + 1
  let image := t.packLive 0 e
  offerRequest (appendRequest 0 e image .tracking)
    { t with
      smg :=
        { t.smg with
          highest := e
          untracked := false
          due := false
          kept := t.smg.kept.filter (fun r => decide (r.purpose ≠ .tracking)) } }

/-- Restart the settle timer at 10 s, set the untracked flag, clear a due save (R11). -/
def restartSettle (x : Nat) (t : Station) : Station :=
  { t with smg := { t.smg with settle := some (x + Config.settleTicks), untracked := true, due := false } }

/-- Hand every dirty HELD window to SST as an APPEND (R20, R21), in the order of their window numbers: the model's choice
(log 69). -/
def writeBackDirty (t : Station) : Station :=
  (t.smg.windows.toList.filter (fun w => decide (w.role = .held) && w.dirty)).foldl
    (fun u w => u.offerRequest (appendRequest (w.mapped.getD 0) (w.epoch.getD 0) (u.packHeld w) .none)) t

/-! The panel level and the LEDs. -/

/-- The panel level PL (R101). -/
def panelLevel (t : Station) : Nat :=
  if !t.enrolled then 3 else if t.smg.op.isSome || t.flipPending then 2 else 0

/-- The kind of the open setup operation. -/
def opKind (t : Station) : Option OpKind := t.smg.op.map (·.kind)

/-- The kind of the open slot sequence. -/
def sequenceKind (t : Station) : Option OpKind := t.pns.sequence.map (·.kind)

/-- ON while a condition holds, OFF otherwise. -/
def onWhile (b : Bool) : LedMode := if b then .on else .off

/-- The base mode that the conditions of R110, R112 and R114 give an LED. -/
def ledMode (led : Led) (t : Station) : LedMode :=
  match led with
  | .run => onWhile (t.enrolled && decide (t.tgu.run = .running))
  | .stop => onWhile (t.enrolled && decide (t.tgu.run = .stopped))
  | .single => onWhile (t.enrolled && decide (t.tgu.run = .single))
  | .save => if t.sequenceKind = some .save then .slow else onWhile (decide (t.opKind = some .save))
  | .recall => if t.sequenceKind = some .recall then .slow else onWhile (decide (t.opKind = some .recall))
  | .triggered => .off
  | .standby => if t.lif.enrol.state = .laneFault then .fast else onWhile t.standby
  | .enableA => onWhile (t.enrolled && decide (t.live.chA.enable = 1))
  | .enableB => onWhile (t.enrolled && decide (t.live.chB.enable = 1))
  | .clipA => if t.rse.clipA then .slow else .off
  | .clipB => if t.rse.clipB then .slow else .off

/-- Let the base modes follow their conditions; one that changes starts at the given instant (R109), also while an overlay
hides it, which is the model's choice (log 59). -/
def refreshLeds (x : Nat) (t : Station) : Station :=
  { t with
    pns :=
      { t.pns with
        leds := t.pns.leds.map (fun e =>
          if t.ledMode e.led = e.mode then e else { e with mode := t.ledMode e.led, since := x }) } }

/-- Start an overlay on an LED of the table; none is started in standby (R109, R113). -/
def startOverlay (led : Led) (p : Pattern) (x : Nat) (t : Station) : Station :=
  if t.standby then t
  else
    { t with
      pns :=
        { t.pns with leds := t.pns.leds.map (fun e => if e.led = led then { e with overlay := some (p, x) } else e) } }

/-- End every running overlay (R113, R115). -/
def endOverlays (t : Station) : Station :=
  { t with pns := { t.pns with leds := t.pns.leds.map (fun e => { e with overlay := none }) } }

/-- The LED that shows the operations and sequences of a kind (R110). -/
def kindLed : OpKind → Led
  | .save => .save
  | .recall => .recall

/-! Readouts. -/

/-- Rebuild the readout of a local channel (R88, R90). -/
def rebuildChannel (isB : Bool) (t : Station) : Station :=
  { t with
    rse :=
      { t.rse with
        grid :=
          writeChannelReadout t.straps.station isB (if isB then t.live.chB else t.live.chA)
            (if isB then t.rse.clipB else t.rse.clipA) (if isB then t.rse.satB else t.rse.satA) t.rse.grid } }

/-- Rebuild the common readout, on a COMMON-role station (R89, R90). -/
def rebuildCommon (t : Station) : Station :=
  if t.straps.panel = .common then
    { t with rse := { t.rse with grid := writeCommonReadout t.live.common t.tgu.run t.rse.grid } }
  else t

/-- Rebuild every readout the station writes (R90). -/
def rebuildAll (t : Station) : Station := (t.rebuildChannel false |>.rebuildChannel true).rebuildCommon

/-! Layers and draws. -/

/-- Perform the clears that are pending (R65, R67). -/
def performClears (t : Station) : Station :=
  { t with
    rse :=
      { t.rse with
        layerA := if t.rse.layerA.clearPending then t.rse.layerA.clear else t.rse.layerA
        layerB := if t.rse.layerB.clearPending then t.rse.layerB.clear else t.rse.layerB } }

/-- Set the clear-pending of layers; the clear is performed at once when RSE is not drawing (R67). -/
def requestClear (a b : Bool) (t : Station) : Station :=
  let u :=
    { t with
      rse :=
        { t.rse with
          layerA := { t.rse.layerA with clearPending := t.rse.layerA.clearPending || a }
          layerB := { t.rse.layerB with clearPending := t.rse.layerB.clearPending || b } } }
  if t.rse.draw.isNone then u.performClears else u

/-- Prepare a layer for a record, set its drawn snapshot and note the cells to draw (R64 to R66). -/
def prepareLayer (persist : Nat) (drawn : DrawnSnapshot) (enable : Nat) (cells : List Nat) (L : Layer) : Layer :=
  if enable = 1 then
    let differs := L.snapshot.isSome && decide (L.snapshot ≠ some drawn)
    let cleared := if differs || decide (persist = 0) || L.clearPending then L.clear else L
    { cleared with snapshot := some drawn, todo := cells }
  else { L.clear with todo := [] }

/-- RSE takes a record: the five steps of R64. -/
def startDraw (i : Nat) (r : Record) (t : Station) : Station :=
  let persist := t.live.common.persist
  let u := t.performClears
  { u with
    acq := { u.acq with slots := u.acq.slots.set i (.drawing r) }
    rse :=
      { u.rse with
        draw := some { slot := i, intensity := t.live.common.intensity, persist := persist }
        layerA :=
          prepareLayer persist (r.snapshot.drawn r.snapshot.a) r.snapshot.a.enable
            (traceCells r.le r.first r.pointsA) u.rse.layerA
        layerB :=
          prepareLayer persist (r.snapshot.drawn r.snapshot.b) r.snapshot.b.enable
            (traceCells r.le r.first r.pointsB) u.rse.layerB } }

/-- Set the last drawn flags from a record; a channel whose flags change has its readout rebuilt (R73). -/
def setDrawnFlags (r : Record) (t : Station) : Station :=
  let cA := decide (r.snapshot.a.enable = 1) && r.clippedA
  let sA := decide (r.snapshot.a.enable = 1) && r.saturatedA
  let cB := decide (r.snapshot.b.enable = 1) && r.clippedB
  let sB := decide (r.snapshot.b.enable = 1) && r.saturatedB
  let u := { t with rse := { t.rse with clipA := cA, satA := sA, clipB := cB, satB := sB } }
  let v := if cA = t.rse.clipA ∧ sA = t.rse.satA then u else u.rebuildChannel false
  if cB = t.rse.clipB ∧ sB = t.rse.satB then v else v.rebuildChannel true

/-- The increment of the draw in progress (R71). -/
def drawAmount (t : Station) : Nat :=
  match t.rse.draw with
  | some p => 16 * p.intensity
  | none => 0

/-- How far the draw has come in layer A: a free value says whether it has finished it (log 10). -/
def reachA (t : Station) : DrawReach := if Config.layerFinished t.free then .finished else .underWay

/-- How far the draw has come in layer B, which it begins when layer A is finished (R64). -/
def reachB (t : Station) : DrawReach :=
  if t.rse.layerA.todo = [] ∨ Config.layerFinished t.free = true then .underWay else .notBegun

/-- The cells still to draw take their increments; where a decay pass runs, a free value says of each cell whether
the pass reached it before (R72, R76, log 9). -/
def finishLayer (free layer amount : Nat) (pass : Bool) (L : Layer) : Layer :=
  L.advance amount pass (fun _ => true) (fun a => L.todo.contains a && !Config.drawFirst free layer a) (fun _ => false)

/-- The state is PREPARING or PREPARED. -/
def waiting (t : Station) : Bool := decide (t.acq.state = .preparing) || decide (t.acq.state = .prepared)

/-- Reserve the lowest-numbered FREE slot when a reservation is needed (R33). -/
def reserve (t : Station) : Station :=
  if t.waiting && t.acq.reserved.isNone then { t with acq := { t.acq with reserved := lowestFree t.acq.slots } } else t

/-- The completion of the draw in progress (R72); a reservation that waits takes the slot at once (R33, R77). -/
def endDraw (t : Station) : Station :=
  match t.rse.draw with
  | none => t
  | some p =>
    let drawn :=
      { t with
        free := t.free + 1
        rse :=
          { t.rse with
            layerA := finishLayer t.free 0 (16 * p.intensity) t.rse.decayPass t.rse.layerA
            layerB := finishLayer t.free 1 (16 * p.intensity) t.rse.decayPass t.rse.layerB } }
    let flagged :=
      match t.acq.slots.get p.slot with
      | .drawing r => drawn.setDrawnFlags r
      | _ => drawn
    reserve
      (performClears
        { flagged with
          acq := { flagged.acq with slots := flagged.acq.slots.set p.slot .free }
          rse := { flagged.rse with draw := none } })

/-- Whenever RSE is idle and the draw queue is not empty it takes the head; a record with both channels disabled is
complete at once (R36, R64, R66). -/
def drawNext : Nat → Station → Station
  | 0, t => t
  | fuel + 1, t =>
    if t.rse.draw.isSome then t
    else
      match oldestDone t.acq.slots with
      | none => t
      | some (i, r) =>
        let u := t.startDraw i r
        if r.snapshot.a.enable ≠ 1 ∧ r.snapshot.b.enable ≠ 1 then drawNext fuel u.endDraw else u

/-! The acquisition state. -/

/-- An acquisition is wanted and possible: the conditions of R41. -/
def wants (t : Station) : Bool := decide (t.tgu.run ≠ .stopped) && t.enrolled && !t.standby

/-- Send a control word; a differing one starts settling and takes PREPARED back to PREPARING (R15, R16). -/
def sendWord (isB : Bool) (w : FrontWord) (x : Nat) (t : Station) : Station :=
  let last := if isB then t.smg.wordB else t.smg.wordA
  let u :=
    if last = some w then t
    else
      { t with
        smg := { t.smg with settling := some (x + Config.settlingTicks) }
        acq := { t.acq with state := if t.acq.state = .prepared then .preparing else t.acq.state } }
  if isB then { u with smg := { u.smg with wordB := some w } } else { u with smg := { u.smg with wordA := some w } }

/-- Take the capture and send both front-end words, channel A first (R13, R15). -/
def takeCapture (x : Nat) (t : Station) : Station :=
  let c := captureOf t.live.common t.live.chA t.live.chB
  sendWord true c.b.word x (sendWord false c.a.word x { t with acq := { t.acq with capture := some c } })

/-- Reserve, and enter PREPARED as soon as the conditions of R42 hold together. -/
def settleAcq (t : Station) : Station :=
  let u := t.reserve
  if decide (u.acq.state = .preparing) && u.wants && u.acq.reserved.isSome && !u.flipPending && u.smg.settling.isNone
  then { u with acq := { u.acq with state := .prepared } }
  else u

/-- Enter PREPARING (R41); a reservation already made is kept (R59). -/
def enterPreparing (x : Nat) (t : Station) : Station :=
  settleAcq (takeCapture x { t with acq := { t.acq with state := .preparing } })

/-- Go to IDLE from PREPARING or PREPARED: the reservation ends and no capture exists (R13, R33). -/
def toIdle (t : Station) : Station :=
  { t with acq := { t.acq with state := .idle, reserved := none, capture := none } }

/-- Drop the record in PRETRIG or ARMED (R58). -/
def dropRecord (t : Station) : Station :=
  match t.acq.fill with
  | none => t
  | some f =>
    { t with
      acq :=
        { t.acq with state := .idle, capture := none, fill := none, slots := t.acq.slots.set f.slot .free }
      tgu := { t.tgu with role := none, auto := none, align := none, heldFrame := none } }

/-- The acquisition state follows the run state after a flip (R59). -/
def followRun (x : Nat) (t : Station) : Station := if t.wants then t.enterPreparing x else t.toIdle

/-- Set the run state, with a run-state notice when it changes (R57). -/
def setRun (r : RunState) (t : Station) : Station :=
  if t.tgu.run = r then t else rebuildCommon { t with tgu := { t.tgu with run := r } }

/-- The window that a STAGED window becomes at its flip (R125, R159). -/
def flippedWindow (w : Window) : Window :=
  { Window.blank with role := .live, common := { w.common with runmode := w.runMode }, chA := w.chA, chB := w.chB }

/-- The flip (R125, R159). -/
def flip (t : Station) : Station :=
  match t.flipIndex with
  | none => t
  | some i =>
    let w := t.smg.windows.get i
    let u :=
      { t with
        lif := { t.lif with enrol := { t.lif.enrol with ownNoLive := false } }
        smg := { t.smg with windows := (t.smg.windows.set t.liveIndex Window.blank).set i (flippedWindow w) }
        acq := { t.acq with restartPending := true }
        tgu :=
          if t.standby then { t.tgu with savedRun := some w.runState } else { t.tgu with run := w.runState } }
    requestClear true true u.rebuildAll

/-- Flip a pending window, then follow the new run state (R59). -/
def flipNow (x : Nat) (t : Station) : Station := if t.flipPending then t.flip.followRun x else t

/-- Meet the acquisition boundary for a flip that has become pending (R59). -/
def meetBoundary (x : Nat) (t : Station) : Station :=
  match t.acq.state with
  | .idle | .preparing | .prepared => t.flipNow x
  | .pretrig | .armed => if t.flipPending then t.dropRecord.flipNow x else t
  | .posttrig | .aligning => t

/-- Leave IDLE when the conditions of R41 hold; a pending flip is performed there. -/
def tryStart (x : Nat) (t : Station) : Station :=
  if t.acq.state = .idle then
    (if t.flipPending then t.flipNow x else if t.wants then t.enterPreparing x else t)
  else t

/-- What STOP does to the acquisition state (R58); IDLE is a boundary for a pending flip (R60). -/
def stopAcq (x : Nat) (t : Station) : Station :=
  match t.acq.state with
  | .idle => t.flipNow x
  | .preparing | .prepared => t.toIdle.flipNow x
  | .pretrig | .armed => t.dropRecord.flipNow x
  | .posttrig | .aligning => t

/-! Triggers and completion. -/

/-- The station is the source of the acquisition in progress (R44). -/
def isSource (t : Station) : Bool := decide (t.tgu.role = some .source)

/-- Enter ARMED: the source starts its auto timer when RUNMODE is AUTO (R43, R50). -/
def enterArmed (x : Nat) (t : Station) : Station :=
  match t.acq.capture with
  | none => t
  | some c =>
    { t with
      acq := { t.acq with state := .armed }
      tgu :=
        { t.tgu with auto := if t.isSource && decide (c.runmode = 0) then some (x + c.autoTicks) else none } }

/-- The source takes a trigger of the instant `at_`, with a sample of an elapsed tick as trigger sample (R49). -/
def takeTrigger (at_ tick offset : Nat) (kind : TriggerKind) (t : Station) : Station :=
  match t.acq.fill, t.acq.capture with
  | some f, some c =>
    let stamp := t.laneTimeAt tick
    { t with
      acq :=
        { t.acq with
          state := .posttrig
          fill :=
            some
              { f with
                trigger :=
                  some
                    { group := (25 * tick + offset - f.origin) / c.d, tick := stamp, offset := offset, kind := kind,
                      trigTick := tick + 1 } } }
      tgu := ({ t.tgu with auto := none, lastStamp := some (stamp, offset) } : Tgu).driveTrig at_ (tick + 1) }
  | _, _ => t

/-- TGU offers a TRIGGERED frame; one that finds no room is kept in place of an earlier one (R53). -/
def offerTriggered (m : Msg) (t : Station) : Station :=
  if t.room m then { t.place m .trigger with tgu := { t.tgu with keptFrame := none } }
  else { t with tgu := { t.tgu with keptFrame := some m } }

/-- ACQ's completion work makes the FILLING slot DONE (R34); ALIGNING ends. -/
def storeRecord (f : Fill) (fin : Finished) (t : Station) : Station :=
  { t with
    acq :=
      { t.acq with
        state := .idle
        capture := none
        fill := none
        slots := t.acq.slots.set f.slot (.done fin.record)
        sumsA := fin.sumsA
        sumsB := fin.sumsB
        avgCount := fin.count }
    tgu := { t.tgu with role := none, auto := none, align := none, heldFrame := none } }

/-- On leaving ALIGNING the station flips a pending window or follows the run state, and RSE takes what it can
(R56). That the flip and the reservation come before RSE's take of the record is the model's choice (log 43). -/
def afterRecord (x : Nat) (t : Station) : Station :=
  let stopped := if t.tgu.run = .single then t.setRun .stopped else t
  let moved := if stopped.flipPending then stopped.flipNow x else stopped.tryStart x
  settleAcq (drawNext 4 moved)

/-- The completion of a record (R56); the source then queues its TRIGGERED frame (R53). -/
def completeRecord (x : Nat) (coarse : Bool) (t : Station) : Station :=
  match t.acq.fill, t.acq.capture with
  | some f, some c =>
    match f.trigger with
    | none => t
    | some tr =>
      let fin := finishRecord c f tr coarse t.acq.sumsA t.acq.sumsB t.acq.avgCount
      let done := ((t.storeRecord f fin).startOverlay .triggered .flash x).afterRecord x
      if t.isSource then done.offerTriggered (.triggered f.number tr.tick tr.offset tr.kind.code) else done
  | _, _ => t

/-- Give the FILLING record of a follower its final trigger point and stamp, and complete it (R55). -/
def alignRecord (x : Nat) (tr : FillTrigger) (coarse : Bool) (t : Station) : Station :=
  match t.acq.fill with
  | none => t
  | some f =>
    completeRecord x coarse
      { t with
        acq := { t.acq with fill := some { f with trigger := some tr } }
        tgu := { t.tgu with lastStamp := some (tr.tick, tr.offset) } }

/-- Fine alignment to a held TRIGGERED frame: the trigger point becomes the group that holds the stamped sample
(R55). The stamp lies in the tick before the TRIG tick (R54). -/
def alignFine (x : Nat) (h : HeldFrame) (t : Station) : Station :=
  match t.acq.fill, t.acq.capture with
  | some f, some c =>
    match f.trigger with
    | none => t
    | some tr =>
      t.alignRecord x
        { tr with
          group := (25 * (tr.trigTick - 1) + h.offset - f.origin) / c.d, tick := h.tick, offset := h.offset,
          kind := h.kind }
        false
  | _, _ => t

/-- COARSE alignment at the alignment timer's expiry: the tentative trigger point stands (R55). -/
def alignCoarse (x : Nat) (t : Station) : Station :=
  match t.acq.fill with
  | none => t
  | some f =>
    match f.trigger with
    | none => t
    | some tr => t.alignRecord x tr true

/-- Enter ALIGNING: the source completes at once; a follower starts its alignment timer, and aligns at once when it
holds a matching frame (R53). -/
def enterAligning (x : Nat) (t : Station) : Station :=
  let u := { t with acq := { t.acq with state := .aligning } }
  if t.isSource then u.completeRecord x false
  else
    match t.tgu.heldFrame with
    | some h => u.alignFine x h
    | none => { u with tgu := { u.tgu with align := some (x + Config.alignTicks) } }

end Station

end Sys2Proof.Machine
end

