-- ==== Sys2Proof/Machine/Acquire.lean ====
section
/-! DEFINITION. Arming, acquisition and triggering: READY_RISING_EDGE, GROUP_COMPLETION, TRIGGER, TRIGGER_CROSSING,
TRIG, TRIGGERED, AUTO_TIMER_EXPIRY, ALIGNMENT_TIMER_EXPIRY, QUAL_DRIVE. -/

namespace Sys2Proof.Machine

/-- The number of groups completed ahead of a sample index, which is the group that holds it (R52). -/
def groupOf (c : Capture) (f : Fill) (index : Nat) : Nat := (index - f.origin) / c.d

/-- The margin with one more group: at most 25 groups, the oldest discarded (R52). -/
def pushMargin (margin : List Group) (g : Group) : List Group :=
  (margin ++ [g]).drop (margin.length + 1 - 25)

/-- A group is written as the newest pre-trigger point; a group displaced from the P held enters a follower's margin
(R27, R52). -/
def pushPre (p : Nat) (follower : Bool) (g : Group) (f : Fill) : Fill :=
  match f.pre ++ [g] with
  | [] => f
  | oldest :: rest =>
    if f.pre.length < p then { f with pre := f.pre ++ [g] }
    else { f with pre := rest, margin := if follower then pushMargin f.margin oldest else f.margin }

/-- The fields of a TRIGGERED frame. -/
def Msg.triggeredFields : Msg → Option (AcqNumber × LaneTick × Nat × Nat)
  | .triggered number tick offset kind => some (number, tick, offset, kind)
  | _ => none

namespace Station

/-- Averaging restarts at an arm when the capture differs or a restart is pending (R31). -/
def armAveraging (c : Capture) (t : Station) : Station :=
  let restart := decide (t.acq.lastArmed ≠ some c.armed) || t.acq.restartPending
  { t with
    acq :=
      { t.acq with
        sumsA := if restart then [] else t.acq.sumsA
        sumsB := if restart then [] else t.acq.sumsB
        avgCount := if restart then 0 else t.acq.avgCount
        lastArmed := some c.armed
        restartPending := false } }

/-- The trigger role that a capture gives a station (R44). -/
def roleOf (c : Capture) (station : Nat) : TriggerRole := if (c.trigsrc - 1) / 2 = station then .source else .follower

/-- The arm of a station in PREPARED (R43). -/
def arm (x : Nat) (t : Station) : Station :=
  match t.acq.capture, t.acq.reserved with
  | some c, some i =>
    let u := t.armAveraging c
    let armed :=
      { u with
        acq :=
          { u.acq with
            state := .pretrig
            slots := u.acq.slots.set i .filling
            reserved := none
            armedNumber := u.acq.number
            fill :=
              some
                { slot := i, number := u.acq.number, origin := 25 * (x + 1), completed := 0, margin := [], pre := [],
                  post := [], trigger := none } }
        tgu :=
          { u.tgu with
            role := some (roleOf c u.straps.station), crossing := Crossing.clear, align := none, heldFrame := none } }
    if c.p = 0 then armed.enterArmed x else armed
  | _, _ => t

/-- READY can rise in the tick x (R181): this station released it as the tick before ended, and no edge came in this
tick or the one before, so that a low sample can lie between two edges. -/
def edgePossible (x : Nat) (t : Station) : Bool :=
  t.lif.readyOwn && t.lif.edgeAt.all (fun y => decide (y + 1 < x))

/-- The act on the READY rising edge of the tick x (R43): every enrolled station advances its acquisition number, and one
in PREPARED arms. -/
def readyEdge (x : Nat) (t : Station) : Station :=
  if t.enrolled then
    let u := { t with acq := { t.acq with number := t.acq.number + 1 } }
    if t.acq.state = .prepared then u.arm x else u
  else t

/-- READY rises in the present tick, where it can (R181): the edge is noted, and acted on or kept waiting (R177). -/
def readyRises (t : Station) : Station :=
  if t.enrolled && t.edgePossible t.ticks then
    occur .readyEdge Station.readyEdge { t with lif := { t.lif with edgeAt := some t.ticks } }
  else t

/-- The group that completes (R27). -/
def formedGroup (c : Capture) (f : Fill) (samplesA samplesB : List Sample) : Group :=
  { index := f.completed, a := formGroup c.a.invert samplesA, b := formGroup c.b.invert samplesB }

/-- The tick in which the group that completes next ends. -/
def groupEnd (c : Capture) (f : Fill) : Nat := (f.origin + (f.completed + 1) * c.d - 1) / 25

/-- The first sample that a line event of the instant x concerns. -/
def eventIndex (ev : LineEvent) (x : Nat) : Nat :=
  match ev with
  | .sample _ offset => 25 * x + offset
  | .readyEdge | .trig | .qual _ _ _ => 25 * x

/-- The group that completes next ends before the first sample that any line event that waits concerns (R177). -/
def groupAhead (c : Capture) (f : Fill) (t : Station) : Bool :=
  t.lif.waiting.all (fun w => decide (f.origin + (f.completed + 1) * c.d ≤ eventIndex w.2 w.1))

/-- A completed group goes where the acquisition state and the trigger group put it (R27). -/
def placeGroup (c : Capture) (f : Fill) (g : Group) (x : Nat) (t : Station) : Station :=
  let before :=
    match f.trigger with
    | none => true
    | some tr => decide (g.index < tr.group)
  let f' := if before then pushPre c.p (!t.isSource) g f else { f with post := f.post ++ [g] }
  let u := { t with acq := { t.acq with fill := some { f' with completed := f.completed + 1 } } }
  match t.acq.state with
  | .pretrig => if f'.pre.length = c.p then u.enterArmed x else u
  | .posttrig => if f'.post.length = c.le - c.p then u.enterAligning x else u
  | _ => u

/-- A group of D samples of each channel completes (R27), once its last sample has come and in order with what came
before; in ALIGNING samples are discarded. -/
def groupCompletion (samplesA samplesB : List Sample) (t : Station) : Station :=
  match t.acq.fill, t.acq.capture with
  | some f, some c =>
    let x := groupEnd c f
    if decide (samplesA.length = c.d) && decide (samplesB.length = c.d) && decide (x ≤ t.ticks) && t.inOrder x &&
        t.groupAhead c f && decide (t.acq.state ≠ .aligning) then
      (t.placeGroup c f (formedGroup c f samplesA samplesB) x).refreshLeds x
    else t
  | _, _ => t

/-! The source's samples. -/

/-- The captured settings of the source channel (R44). -/
def sourceChannel (c : Capture) : ChannelCapture := if c.trigsrc % 2 = 1 then c.a else c.b

/-- A sample is a candidate that the source takes: in ARMED, with QUAL high when QUALMODE is AND, and eligible under
holdoff (R45 to R49). -/
def takesCandidate (c : Capture) (v : Int) (tick offset : Nat) (t : Station) : Bool :=
  decide (t.acq.state = .armed) &&
  candidate c t.tgu.crossing (sourceChannel c).triglevel v (25 * tick + offset) &&
  (decide (c.qualmode = 0) || t.tgu.qualHigh) &&
  eligible c.holdoff t.tgu.lastStamp (t.laneTimeAt tick) offset

/-- The source evaluates a sample of a tick in PRETRIG and ARMED: `wanted` says whether it is to be one that triggers, or
leaves that open for a sample that waited. The crossing state follows every sample from the arm origin on, and none of
the arm's own tick, which is the model's choice (log 57); a taken candidate triggers (R45 to R49). -/
def sourceSample (wanted : Option Bool) (s : Sample) (offset tick : Nat) (t : Station) : Station :=
  match t.acq.fill, t.acq.capture with
  | some f, some c =>
    let v := workingValue (sourceChannel c).invert s
    let takes := t.takesCandidate c v tick offset
    if t.isSource && (decide (t.acq.state = .pretrig) || decide (t.acq.state = .armed)) && decide (offset < 25) &&
        decide (f.origin ≤ 25 * tick + offset) && wanted.all (fun w => decide (takes = w)) &&
        (!takes || decide (f.completed = groupOf c f (25 * tick + offset))) then
      let u :=
        { t with
          tgu :=
            { t.tgu with
              crossing := t.tgu.crossing.next (sourceChannel c).triglevel v (25 * tick + offset) } }
      if takes then u.takeTrigger tick tick offset (if c.trigtype = 0 then .edge else .pulse) else u
    else t
  | _, _ => t

/-! Followers. -/

/-- A follower takes a TRIG pulse of this tick: the group in progress at the tick's first sample becomes the tentative
trigger point (R52). A pulse of the arm's own tick, before the arm origin, where no group is in progress, is ignored: the
model's choice (log 71). -/
def trigPulse (x : Nat) (t : Station) : Station :=
  match t.acq.fill, t.acq.capture with
  | some f, some c =>
    let g := groupOf c f (25 * x)
    if !t.isSource && (decide (t.acq.state = .pretrig) || decide (t.acq.state = .armed)) &&
        decide (f.origin ≤ 25 * x) && decide (f.completed = g) then
      { t with
        acq :=
          { t.acq with
            state := .posttrig
            fill :=
              some
                { f with
                  trigger :=
                    some
                      { group := g, tick := t.laneTimeAt x, offset := 0,
                        kind := if c.trigtype = 0 then .edge else .pulse, trigTick := x } } } }
    else t
  | _, _ => t

/-- A TRIGGERED frame is usable for a record whose TRIG tick is given (R54). -/
def usableFrame (tr : FillTrigger) (tick : LaneTick) (offset kind : Nat) (t : Station) : Option HeldFrame :=
  match TriggerKind.ofCode kind with
  | some k =>
    if tick = t.laneTimeAt (tr.trigTick - 1) ∧ offset < 25 then some { tick := tick, offset := offset, kind := k }
    else none
  | none => none

/-- A follower takes, or ignores, a TRIGGERED frame (R54). -/
def triggeredEffect (m : AcqNumber × LaneTick × Nat × Nat) (e : RxEntry) (t : Station) : Station :=
  match t.acq.fill with
  | none => t
  | some f =>
    match f.trigger with
    | none => t
    | some tr =>
      if decide (t.tgu.role = some .follower) && t.tgu.heldFrame.isNone && decide (m.1 = f.number) &&
          (decide (t.acq.state = .posttrig) || decide (t.acq.state = .aligning)) then
        match t.usableFrame tr m.2.1 m.2.2.1 m.2.2.2 with
        | none => t
        | some h =>
          if t.acq.state = .aligning then (t.alignFine e.acceptedAt h).refreshLeds e.acceptedAt
          else { t with tgu := { t.tgu with heldFrame := some h } }
      else t

/-- The auto timer expires in ARMED: a trigger at sample (t + 1, 0) (R50). -/
def autoExpiry (x : Nat) (t : Station) : Station :=
  if t.isSource && decide (t.acq.state = .armed) then t.takeTrigger x (x + 1) 0 .auto else t

/-- The alignment timer expires in ALIGNING with no usable frame held (R55). -/
def alignExpiry (x : Nat) (t : Station) : Station :=
  if t.acq.state = .aligning then (t.alignCoarse x).refreshLeds x else t

/-- The capture that applies to QUAL: the frozen or current one, or in IDLE the LIVE window (R23, R47). -/
def qualCapture (t : Station) : Capture :=
  t.acq.capture.getD (captureOf t.live.common t.live.chA t.live.chB)

/-- The station drives QUAL for this tick from the last sample of each channel of the tick before (R47). -/
def qualDrive (sampleA sampleB : Sample) (othersRelease : Bool) (t : Station) : Station :=
  let c := t.qualCapture
  let releases := t.enrolled && (decide (c.qualmode = 0) || (qualMet c.a sampleA && qualMet c.b sampleB))
  { t with tgu := { t.tgu with qualReleased := releases, qualHigh := releases && othersRelease } }

/-! Line events that wait (R177). -/

/-- The act on a line event of the instant x. -/
def actEvent (ev : LineEvent) (x : Nat) (t : Station) : Station :=
  match ev with
  | .readyEdge => t.readyEdge x
  | .trig => t.trigPulse x
  | .sample s offset => t.sourceSample none s offset x
  | .qual sampleA sampleB othersRelease => t.qualDrive sampleA sampleB othersRelease

/-- The groups of the record being filled that end before a sample have completed, as far as the source's samples and
TRIG look at them (R49, R52). -/
def groupsBefore (index : Nat) (t : Station) : Bool :=
  match t.acq.fill, t.acq.capture with
  | some f, some c =>
    !(decide (t.acq.state = .pretrig) || decide (t.acq.state = .armed)) || decide (groupOf c f index ≤ f.completed)
  | _, _ => true

/-- A line event that waits is due: it is next in order (R177), and the groups ahead of it have completed. -/
def eventDue (w : Nat × LineEvent) (t : Station) : Bool := t.inOrder w.1 && t.groupsBefore (eventIndex w.2 w.1)

/-- The line event that waits longest is acted on with its own lane instant, when it is due (R177); none without. -/
def actWaiting (t : Station) : Option Station :=
  match t.lif.waiting with
  | [] => none
  | w :: rest =>
    if t.powered && t.eventDue w then some ({ t with lif := { t.lif with waiting := rest } }.actEvent w.2 w.1)
    else none

end Station

/-- READY_RISING_EDGE (R43). -/
def execReadyRisingEdge (s : State) : Answered := s.on Station.readyRises

/-- GROUP_COMPLETION (R27). -/
def execGroupCompletion (samplesA samplesB : List Sample) (s : State) : Answered :=
  s.on (Station.groupCompletion samplesA samplesB)

/-- TRIGGER (R49): the sample is a candidate that the source takes. -/
def execTrigger (sample : Sample) (offset : Nat) (s : State) : Answered :=
  s.on (Station.occur (.sample sample offset) (Station.sourceSample (some true) sample offset))

/-- TRIGGER_CROSSING (R45): the sample moves the crossing state and does not trigger. -/
def execTriggerCrossing (sample : Sample) (offset : Nat) (s : State) : Answered :=
  s.on (Station.occur (.sample sample offset) (Station.sourceSample (some false) sample offset))

/-- TRIG (R52). -/
def execTrig (s : State) : Answered := s.on (Station.occur .trig Station.trigPulse)

/-- TRIGGERED (R54). -/
def execTriggered (s : State) : Answered := s.on (Station.takeFrame Msg.triggeredFields Station.triggeredEffect)

/-- AUTO_TIMER_EXPIRY (R50). -/
def execAutoTimerExpiry (s : State) : Answered := s.on fun t => t.expire t.tgu.auto Station.autoExpiry

/-- ALIGNMENT_TIMER_EXPIRY (R55). -/
def execAlignmentTimerExpiry (s : State) : Answered := s.on fun t => t.expire t.tgu.align Station.alignExpiry

/-- QUAL_DRIVE (R47). -/
def execQualDrive (sampleA sampleB : Sample) (othersRelease : Bool) (s : State) : Answered :=
  s.on (Station.occur (.qual sampleA sampleB othersRelease) fun _ t => t.qualDrive sampleA sampleB othersRelease)

end Sys2Proof.Machine
end

