-- ==== Sys2Proof/Machine/Compose.lean ====
section
/-! DEFINITION. Composition and annotation: FRAME_TIMER_EXPIRY, FRAME_START_MARKER, LOSS_TIMER_EXPIRY, ROW_MERGE,
ANNOT. -/

namespace Sys2Proof.Machine

/-- The fields of an ANNOT frame. -/
def Msg.annotFields : Msg → Option (Nat × Nat × Nat × Nat × List Nat)
  | .annot target row column attr text => some (target, row, column, attr, text)
  | _ => none

/-- The cell that a font code and an attribute byte give (12, section 12.1). -/
def annotCell (attr code : Nat) : GridCell :=
  { code := code, colour := BitVec.ofNat 4 (attr % 16), dim := attr.testBit 4, inverse := attr.testBit 5 }

/-- An ANNOT frame is refused (R91, R198). -/
def annotRefused (count row column attr : Nat) (text : List Nat) : Bool :=
  decide (24 < row) || decide (99 < column) || decide (100 < column + text.length) ||
  (List.range text.length).any (fun k => reservedCell count row (column + k)) ||
  text.any (fun c => decide (127 < c)) || decide (64 ≤ attr)

namespace Station

/-- The station originates its frames: HEAD, SOLE, or free-running (R81, R82). -/
def originates (t : Station) : Bool :=
  decide (t.straps.chain = .head) || decide (t.straps.chain = .sole) || t.rse.freeRunning

/-- The station generates the graticule as its upstream stream (R80). -/
def generates (t : Station) : Bool := decide (t.straps.chain = .head) || decide (t.straps.chain = .sole)

/-- Where a station's output goes (R80). -/
inductive OutputPort where
  | rasterLink
  | lcd
deriving DecidableEq, Repr

/-- HEAD and LINK send on the raster link, to the downstream station, TAIL and SOLE to the LCD (R80). -/
def outputPort (t : Station) : OutputPort :=
  match t.straps.chain with
  | .head | .link => .rasterLink
  | .tail | .sole => .lcd

/-- The output frames that still matter at an instant: those yet to start and the newest that has. -/
def currentOuts (x : Nat) (outs : List OutFrame) : List OutFrame :=
  outs.filter (fun o => decide (x < o.start)) ++ (outs.filter (fun o => decide (o.start ≤ x))).take 1

/-- A frame starts on the input at an instant; its output starts one row period later (R80, R81). -/
def startFrame (x : Nat) (t : Station) : Station :=
  { t with
    rse :=
      { t.rse with
        frame :=
          some
            { graticule := if t.generates then some t.live.common.graticule else none, next := 0,
              outStart := x + Config.rowTicks }
        outs := { start := x + Config.rowTicks, blank := none } :: currentOuts x t.rse.outs } }

/-- A frame start of the frame timer, which restarts (R81). -/
def frameExpiry (x : Nat) (t : Station) : Station :=
  let u := t.startFrame x
  { u with rse := { u.rse with frameTimer := some (x + Config.frameTicks) } }

/-- A frame start marker is received (R82): HEAD and SOLE disregard it (R80). -/
def markerReceived (x : Nat) (t : Station) : Station :=
  if t.generates then t
  else
    let u := t.startFrame x
    { u with
      rse := { u.rse with freeRunning := false, frameTimer := none, lossTimer := some (x + Config.lossTicks) } }

/-- The loss timer expires: FREE_RUNNING, with a frame start at the expiry (R82). -/
def lossExpiry (x : Nat) (t : Station) : Station :=
  frameExpiry x { t with rse := { t.rse with freeRunning := true, lossTimer := none } }

/-- The upstream pixel of a row and column (R80, R82, R83). -/
def upstreamPixel (graticule : Option Nat) (received : List Pixel) (r x : Nat) (t : Station) : Pixel :=
  match graticule with
  | some g => graticulePixel g r x
  | none => if t.rse.freeRunning then blackPixel else received.getD x blackPixel

/-- The merged pixel of a row and column (R84 to R86). -/
def mergedPixel (graticule : Option Nat) (received : List Pixel) (r x : Nat) (t : Station) : Pixel :=
  let c :=
    candidatePixel t.straps.station (decide (t.live.chA.enable = 1)) (decide (t.live.chB.enable = 1))
      (t.rse.layerA.cell (cellAddress r x)) (t.rse.layerB.cell (cellAddress r x))
  (Sparse.read GridCell.blank t.rse.grid (gridAddress (r / 16) (x / 8))).over (r % 16) (x % 8)
    (overUpstream c (t.upstreamPixel graticule received r x))

/-- A draw and a decay pass in progress have reached some cells of the row and not others (R84): free values say
which (log 10). A draw that has finished the layer has reached its cells of the other rows as well, of which a free
value says whether a pass in progress came first (log 9). -/
def rowLayer (free layer r amount : Nat) (pass : Bool) (reach : DrawReach) (L : Layer) : Layer :=
  L.advance amount pass (fun a => reach.draws (decide (a / 800 = r) && Config.drawReached free layer a))
    (fun a =>
      if a / 800 = r then Config.decayReached free layer a
      else decide (reach = .finished) && L.todo.contains a && !Config.drawFirst free layer a)
    (fun a => Config.drawFirst free layer a)

/-- When the row merged now is sent (R80): one row period after the start of the row, which for a received row is the
instant of the merge (log 54). -/
def rowSendAt (f : Frame) (t : Station) : Nat :=
  if t.originates then f.outStart + Config.rowTicks * f.next else t.ticks + Config.rowTicks

/-- The merged rows that the output still needs at an instant: those whose row period has not ended, which more than two
can be when a frame is cut short (R80, R82). -/
def currentRows (x : Nat) (rows : List MergedRow) : List MergedRow :=
  rows.filter (fun m => decide (x < m.sendAt + Config.rowTicks))

/-- The next row of the frame is merged (R84 to R86), and joins the rows on their way out (R80). -/
def mergeRow (f : Frame) (received : List Pixel) (t : Station) : Station :=
  let r := f.next
  let reached :=
    { t with
      free := t.free + 1
      rse :=
        { t.rse with
          layerA := rowLayer t.free 0 r t.drawAmount t.rse.decayPass t.reachA t.rse.layerA
          layerB := rowLayer t.free 1 r t.drawAmount t.rse.decayPass t.reachB t.rse.layerB } }
  let pixels := (List.range 800).map (fun x => reached.mergedPixel f.graticule received r x)
  { reached with
    rse :=
      { reached.rse with
        frame := some { f with next := r + 1 }
        rows :=
          { row := r, pixels := pixels, sendAt := t.rowSendAt f, out := f.outStart } :: currentRows t.ticks t.rse.rows } }

/-- A row is merged when it has come: a generated one at its row period, a received one as it arrives (R80 to R82). With
no frame in progress, as before the first frame start marker after power-on, a received row is dropped: the model's
choice (log 65). -/
def rowMerge (received : List Pixel) (t : Station) : Station :=
  match t.rse.frame with
  | none => t
  | some f =>
    if decide (f.next < 400) &&
        (if t.originates then decide (f.outStart + Config.rowTicks * f.next ≤ t.ticks + Config.rowTicks)
         else decide (received.length = 800)) then
      t.mergeRow f received
    else t

/-- The output frame in progress: the newest that has started (R80, R92). -/
def outFrame (t : Station) : Option OutFrame := t.rse.outs.find? (fun o => decide (o.start ≤ t.ticks))

/-- The output frame in progress is blank: by the blank request that stood at its start, which stands unchanged where no
note of it has been made (R92). Before the first output frame it is not, so that the LCD's blank signal is released: the
model's choice (log 58). -/
def frameBlank (t : Station) : Bool := t.outFrame.any (fun o => o.blank.getD t.rse.blank)

/-- The LCD's blank signal, which only TAIL and SOLE have (R92). -/
def lcdBlank (t : Station) : Option Bool :=
  match t.outputPort with
  | .lcd => some t.frameBlank
  | .rasterLink => none

/-- A merged row is the one being sent: it belongs to the output frame in progress, and its row period runs (R80, R81). -/
def rowSent (o : OutFrame) (t : Station) (m : MergedRow) : Bool :=
  decide (m.out = o.start) && decide (m.sendAt ≤ t.ticks) && decide (t.ticks < m.sendAt + Config.rowTicks)

/-- The merged row whose row period runs on the output (R80, R81). -/
def sentRow (t : Station) : Option MergedRow :=
  t.outFrame.bind (fun o => t.rse.rows.find? (t.rowSent o))

/-- The pixels with which a merged row is sent: every one (0, 0) in a blank frame (R92). -/
def sentPixels (m : MergedRow) (t : Station) : List Pixel :=
  if t.frameBlank then List.replicate 800 blackPixel else m.pixels

/-- The row being sent on the output, its number and its pixels (R79, R80, R92). -/
def outputRow (t : Station) : Option (Nat × List Pixel) := t.sentRow.map (fun m => (m.row, t.sentPixels m))

/-- The pixel on the output in this tick: of the row period's 4000 ticks the first 1600 carry the row's 800 pixels in
column order, two ticks each, and the remaining 2400 carry none (R79, R81, log 73). -/
def outputPixel (t : Station) : Option Pixel :=
  t.sentRow.bind (fun m => (t.sentPixels m)[(t.ticks - m.sendAt) / Config.pixelTicks]?)

/-- A frame start marker leaves on the output in this tick, in standby as at other times (R79, R80, R92). -/
def sendsFrameStart (t : Station) : Bool := t.rse.outs.any (fun o => decide (o.start = t.ticks))

/-- A row start marker leaves on the output in this tick, in standby as at other times (R79, R80, R92). -/
def sendsRowStart (t : Station) : Bool := t.sentRow.any (fun m => decide (m.sendAt = t.ticks))

/-- An ANNOT frame writes its text into the target's grid, unless refused (R91). -/
def annotEffect (m : Nat × Nat × Nat × Nat × List Nat) (_e : RxEntry) (t : Station) : Station :=
  let row := m.2.1
  let column := m.2.2.1
  let attr := m.2.2.2.1
  let text := m.2.2.2.2
  if decide (m.1 = t.straps.station) && !annotRefused t.straps.count row column attr text then
    { t with
      rse :=
        { t.rse with
          grid :=
            Sparse.writeRun GridCell.blank t.rse.grid (gridAddress row column) (text.map (annotCell attr)) } }
  else t

end Station

/-- FRAME_TIMER_EXPIRY: the frame timer is not tied to lane time (R81), and it acts in no order against frames and
lane-time timers (log 62). -/
def execFrameTimerExpiry (s : State) : Answered :=
  s.on fun t =>
    match t.rse.frameTimer with
    | some d => if d ≤ t.ticks then t.frameExpiry d else t
    | none => t

/-- FRAME_START_MARKER (R82), once an earlier expiry of the loss timer has been acted on, and in no other order against
frames and timers (log 62). -/
def execFrameStartMarker (s : State) : Answered :=
  s.on fun t =>
    match t.rse.lossTimer with
    | some d => if t.ticks ≤ d then t.markerReceived t.ticks else t
    | none => t.markerReceived t.ticks

/-- LOSS_TIMER_EXPIRY (R82). -/
def execLossTimerExpiry (s : State) : Answered := s.on fun t => t.expire t.rse.lossTimer Station.lossExpiry

/-- ROW_MERGE (R84), in no order against frames and timers (log 62). -/
def execRowMerge (upstream : List Pixel) (s : State) : Answered := s.on (Station.rowMerge upstream)

/-- ANNOT (R91). -/
def execAnnot (s : State) : Answered := s.on (Station.takeFrame Msg.annotFields Station.annotEffect)

end Sys2Proof.Machine
end

