-- ==== Sys2Proof/Machine/Draw.lean ====
section
/-! DEFINITION. Drawing and persistence: DRAW_COMPLETION, DECAY_TIMER_EXPIRY, DECAY_PASS_END. -/

namespace Sys2Proof.Machine

namespace Station

/-- The draw in progress completes (R72, R73); the next record is taken (R64) and a slot reserved (R33, R77). -/
def drawCompletion (t : Station) : Station :=
  if t.rse.draw.isSome then ((drawNext 4 t.endDraw).settleAcq).refreshLeds t.ticks else t

/-- The decay count at an expiry with PERSIST p, and whether a pass starts (R75). -/
def decayStep (p count : Nat) : Nat × Bool :=
  if p = 0 ∨ 8 ≤ p then (0, false) else if 2 ^ (p - 1) ≤ count + 1 then (0, true) else (count + 1, false)

/-- The decay timer expires and restarts (R75). -/
def decayExpiry (x : Nat) (t : Station) : Station :=
  let next := decayStep t.live.common.persist t.rse.decayCount
  { t with
    rse :=
      { t.rse with
        decayTimer := x + Config.decayTicks
        decayCount := next.1
        decayPass := t.rse.decayPass || next.2 } }

/-- The pass reaches every cell it has not reached; where a draw is in progress, a free value says of each cell still
to be drawn whether the draw reached it before (R76, log 9). A draw that has finished the layer has reached every cell
of it, one that has not begun it none (R64). -/
def decayLayer (free layer amount : Nat) (reach : DrawReach) (L : Layer) : Layer :=
  { L.advance amount true (fun a => reach.draws (Config.drawFirst free layer a)) (fun _ => true)
      (fun a => Config.drawFirst free layer a) with
    decayed := [] }

/-- A decay pass ends (R76). -/
def decayEnd (t : Station) : Station :=
  if t.rse.decayPass then
    { t with
      free := t.free + 1
      rse :=
        { t.rse with
          layerA := decayLayer t.free 0 t.drawAmount t.reachA t.rse.layerA
          layerB := decayLayer t.free 1 t.drawAmount t.reachB t.rse.layerB
          decayPass := false } }
  else t

end Station

/-- DRAW_COMPLETION (R72). It is no frame, line event or timer expiry, so R177 does not order it, and the take of the next
record reads the LIVE window as it stands at the command (log 46). -/
def execDrawCompletion (s : State) : Answered := s.on Station.drawCompletion

/-- DECAY_TIMER_EXPIRY (R75): a pass still running ends before the next expiry (R76). -/
def execDecayTimerExpiry (s : State) : Answered :=
  s.on fun t => t.expire (some t.rse.decayTimer) (fun x u => if u.rse.decayPass then u else u.decayExpiry x)

/-- DECAY_PASS_END (R76), in no order against frames and timers (log 62). -/
def execDecayPassEnd (s : State) : Answered := s.on Station.decayEnd

end Sys2Proof.Machine
end

