-- ==== Sys2Proof/Machine/Operation.lean ====
section
/-! DEFINITION. The shared acts of the setup operations: protocol frames, listing and choice, staging, agreement,
close, the flip to built-in defaults and the boot recall chain (R148 to R168, R193). -/

namespace Sys2Proof.Machine

/-- The epoch list of a recall (R152): a HELD window's epoch first, then the index's generations, newest first; cut
to 16. -/
def epochList (held : Option Epoch) (generations : List (Nat × Epoch)) : List Epoch :=
  let newest := (generations.map (·.2)).reverse
  (match held with
   | some e => e :: newest.filter (fun g => decide (g ≠ e))
   | none => newest).take 16

/-- The epoch list of a LISTED result. -/
def OpResult.epochs : OpResult → List Epoch
  | .listed es => es
  | _ => []

/-- The results of the stations 0 to N - 1, when all are in. -/
def allResults (count : Nat) (results : Quad (Option OpResult)) : Option (List OpResult) :=
  (results.toList.take count).mapM id

/-- What the choice of R153 finds. -/
inductive Choice where
  | empty
  | chosen (e : Epoch)
  | inconsistent
deriving DecidableEq, Repr

/-- The choice of an epoch from all stations' lists in station order (R153). -/
def chooseEpoch (lists : List (List Epoch)) : Choice :=
  match lists.filter (fun l => decide (l ≠ [])) with
  | [] => .empty
  | first :: rest =>
    match first.find? (fun e => rest.all (fun l => l.contains e)) with
    | some e => .chosen e
    | none => .inconsistent

/-- The outcome of a STAGED or SAVED result. -/
def OpResult.outcome : OpResult → OutcomeCode
  | .staged o _ _ _ => o
  | .saved o => o
  | .listed _ => .ok

/-- What the staging round decides (R156). -/
inductive Decision where
  | agreed (common : List Byte) (run : Nat)
  | closes (o : OutcomeCode)
deriving DecidableEq, Repr

/-- The STAGED results with outcome OK: digest, common section and run state. -/
def okResults (rs : List OpResult) : List (Nat × List Byte × Nat) :=
  rs.filterMap (fun r =>
    match r with
    | .staged .ok d c run => some (d, c, run)
    | _ => none)

/-- The decision from all stations' STAGED results (R156). -/
def decideStaging (rs : List OpResult) : Decision :=
  match rs.find? (fun r => decide (r.outcome ≠ .ok) && decide (r.outcome ≠ .absent)) with
  | some r => .closes r.outcome
  | none =>
    match okResults rs with
    | [] => .closes .inconsistent
    | first :: rest => if rest.all (fun r => decide (r.1 = first.1)) then .agreed first.2.1 first.2.2 else .closes .inconsistent

/-- The outcome of a SAVE from all stations' answers (R163). -/
def saveOutcome (rs : List OpResult) : OutcomeCode :=
  match rs.find? (fun r => decide (r.outcome ≠ .ok)) with
  | some r => r.outcome
  | none => .ok

namespace Station

/-- Queue a protocol frame at rank 1, or keep it while there is no room (R150). -/
def queueProto (m : Msg) (t : Station) : Station :=
  if t.room m then t.place m .setup else { t with smg := { t.smg with keptProto := some m } }

/-- The RECALL of the chain's state (R193). -/
def chainSlot : Chain → Nat
  | .slot31 => 31
  | _ => 0

/-- Offer the chain's RECALL, or keep it while there is no room (R150, R193). -/
def offerChain (t : Station) : Station :=
  let m := Msg.recall (chainSlot t.smg.chain)
  if t.room m then { t.place m .chain with smg := { t.smg with keptChain := false } }
  else { t with smg := { t.smg with keptChain := true } }

/-- Put the chain into a state and offer that state's RECALL (R193). -/
def chainTo (c : Chain) (t : Station) : Station :=
  offerChain { t with smg := { t.smg with chain := c, chainWait := .nothing } }

/-- What the close of an operation does to the chain (R193). -/
def chainAtClose (kind : OpKind) (outcome : OutcomeCode) (t : Station) : Station :=
  let quiet := { t with smg := { t.smg with chain := .idle, chainWait := .nothing } }
  match t.smg.chainWait with
  | .nothing => t
  | .own =>
    match t.smg.chain with
    | .slot0 => if outcome = .ok then quiet else t.chainTo .slot31
    | .slot31 | .idle => quiet
  | .other => if kind = .recall ∧ outcome = .ok then quiet else t.chainTo t.smg.chain

/-- A window filled from an unpacked image (R121). -/
def filledWindow (role : WindowRole) (mapped : Option Nat) (dirty : Bool) (c : Contents) : Window :=
  { role := role, mapped := mapped, epoch := some c.epoch, dirty := dirty, loading := false, flipPending := false,
    common := c.common, chA := c.chA, chB := c.chB, runMode := c.runMode, runState := c.runState }

/-- Stage an image of the chosen epoch E: unpack it into the lowest-numbered FREE window and queue STAGED (R154). -/
def stageImage (e : Epoch) (slot : Nat) (image : List Byte) (t : Station) : Station :=
  match t.unpack slot image with
  | .error o => t.queueProto (.staged o.code 0 [] 0)
  | .ok c =>
    match t.freeIndex with
    | none => t.queueProto (.staged OutcomeCode.noWindow.code 0 [] 0)
    | some i =>
      let sect := slice image 16 48
      queueProto (.staged 0 (commonDigest sect) sect (byteAt image 193))
        (t.setWindow i { filledWindow .staged none false c with epoch := some e })

/-- Obtain the image of epoch E and stage it, or wait for a load or a READ (R154). -/
def obtainImage (e : Epoch) (slot : Nat) (t : Station) : Station :=
  match t.heldIndex slot with
  | some i =>
    let w := t.smg.windows.get i
    if w.epoch = some e then
      (if w.loading then { t with smg := { t.smg with stageWait := true } }
       else t.stageImage e slot (t.packHeld w))
    else t.offerRequest (readRequest slot e .staging)
  | none => t.offerRequest (readRequest slot e .staging)

/-- This station's list was empty in the listing round: it is absent (R153). -/
def absent (results : Quad (Option OpResult)) (t : Station) : Bool :=
  match results.get t.straps.station with
  | some r => decide (r.epochs = [])
  | none => true

/-- The staging round begins (R154, R155). -/
def beginStaging (o : Op) (e : Epoch) (t : Station) : Station :=
  let u := { t with smg := { t.smg with op := some { o with round := .staging, chosen := some e, results := Quad.fill none } } }
  if t.stagedIndex.isSome then u.queueProto (.staged OutcomeCode.noWindow.code 0 [] 0)
  else if t.absent o.results then u.queueProto (.staged OutcomeCode.absent.code 0 [] 0)
  else u.obtainImage e o.slot

/-- Take the lowest-numbered FREE window as STAGED, flip pending, with the given sections (R157, R158). -/
def takeStaged (w : Window) (t : Station) : Station :=
  match t.freeIndex with
  | some i => t.setWindow i { w with role := .staged, flipPending := true }
  | none => t

/-- The flip to the built-in defaults that follows a RECALL of slot 31 closed without OK (R158). -/
def defaultsFlip (x : Nat) (t : Station) : Station :=
  let w := { Window.builtIn t.straps.station with epoch := some 0 }
  match t.flipIndex with
  | some i => (t.setWindow i { w with role := .staged, flipPending := true }).restartSettle x
  | none => (t.takeStaged w |>.restartSettle x).meetBoundary x

/-- No requester waits any more for a request made for the operation (R151). -/
def Request.released (r : Request) : Request :=
  if r.purpose = .staging ∨ r.purpose = .save then { r with purpose := .none } else r

/-- Requests SMG made for the operation run on with no requester; a READ it still keeps is dropped (R151). -/
def releaseRequests (t : Station) : Station :=
  mapStored Request.released
    { t with
      smg :=
        { t.smg with
          stageWait := false
          kept := (t.smg.kept.filter (fun r => decide (r.purpose ≠ .staging))).map Request.released } }

/-- A due tracking save is made at the close (R17). Where the highest epoch is 0xFFFFFFFF none is made, and the due flag
stays set: the model's choice (log 64). -/
def dueSave (t : Station) : Station :=
  if t.smg.due && decide (t.smg.highest ≠ Config.maxEpoch) then t.trackingSave else t

/-- Withdraw the operation's answers that are kept or wait in the transmit list (R151). -/
def withdrawAnswers (t : Station) : Station :=
  { t with
    smg := { t.smg with keptProto := none }
    lif := { t.lif with tx := t.lif.tx.filter (fun e => !e.msg.isAnswer || e.sending) } }

/-- The operation closes with an outcome (R151): the steps in their order, then the chain's own (R193). -/
def closeOp (outcome : OutcomeCode) (x : Nat) (t : Station) : Station :=
  match t.smg.op with
  | none => t
  | some o =>
    let closed :=
      { t with
        smg :=
          { t.smg with
            op := none
            lastOutcome := some { kind := o.kind, slot := o.slot, outcome := outcome } } }
    let shown :=
      (closed.freeWindows (fun w => decide (w.role = .staged) && !w.flipPending)).releaseRequests
        |>.startOverlay (kindLed o.kind) (.code outcome.code) x
    let saved := shown.dueSave
    let flipped := if o.kind = .recall ∧ o.slot = 31 ∧ outcome ≠ .ok then saved.defaultsFlip x else saved
    flipped.withdrawAnswers.chainAtClose o.kind outcome

/-- The common section that an absent station decodes (R124). -/
def decodedCommon (sect : List Byte) (t : Station) : Common := (commonOfBytes sect).orDefaults t.straps.count

/-- Mark the STAGED window flip pending with the run state to bring in (R157). -/
def markPending (r : RunState) (t : Station) : Station :=
  match t.stagedIndex with
  | some i => t.setWindow i { t.smg.windows.get i with flipPending := true, runState := r }
  | none => t

/-- The recall is agreed (R157). -/
def agree (o : Op) (sect : List Byte) (run : Nat) (x : Nat) (t : Station) : Station :=
  let r := (RunState.ofCode run).getD .running
  let c := t.decodedCommon sect
  let staged :=
    if t.stagedIndex.isSome then t
    else
      t.takeStaged
        { Window.blank with
          epoch := o.chosen, common := c, chA := Channel.default 0, chB := Channel.default 0, runMode := c.runmode,
          runState := r }
  ((staged.markPending r).closeOp .ok x |>.restartSettle x).meetBoundary x

/-- Enter a station's result in the operation record. -/
def enterResult (o : Op) (sender : Nat) (r : OpResult) (t : Station) : Station :=
  { t with smg := { t.smg with op := some { o with results := o.results.set sender (some r) } } }

/-- The sender is a station of the instrument whose result is still empty (R150). -/
def awaits (o : Op) (sender : Nat) (t : Station) : Bool :=
  decide (sender < t.straps.count) && decide (sender < 4) && (o.results.get sender).isNone

/-- A LISTED result is taken; the last of them makes the choice (R150, R153). -/
def takeListed (o : Op) (sender : Nat) (epochs : List Epoch) (x : Nat) (t : Station) : Station :=
  let results := o.results.set sender (some (.listed epochs))
  let u := t.enterResult o sender (.listed epochs)
  match allResults t.straps.count results with
  | none => u
  | some rs =>
    match chooseEpoch (rs.map OpResult.epochs) with
    | .empty => u.closeOp .empty x
    | .inconsistent => u.closeOp .inconsistent x
    | .chosen e => u.beginStaging { o with results := results } e

/-- A STAGED result is taken; the last of them decides (R150, R156). -/
def takeStagedResult (o : Op) (sender : Nat) (r : OpResult) (x : Nat) (t : Station) : Station :=
  let u := t.enterResult o sender r
  match allResults t.straps.count (o.results.set sender (some r)) with
  | none => u
  | some rs =>
    match decideStaging rs with
    | .agreed sect run => u.agree o sect run x
    | .closes outcome => u.closeOp outcome x

/-- A SAVED result is taken; the last of them closes the operation (R150, R163). -/
def takeSavedResult (o : Op) (sender : Nat) (outcome : OutcomeCode) (x : Nat) (t : Station) : Station :=
  let u := t.enterResult o sender (.saved outcome)
  match allResults t.straps.count (o.results.set sender (some (.saved outcome))) with
  | none => u
  | some rs => u.closeOp (saveOutcome rs) x

/-- Open an operation (R149). -/
def openOp (kind : OpKind) (slot : Nat) (epoch : Option Epoch) (x : Nat) (t : Station) : Station :=
  { t with
    smg :=
      { t.smg with
        op :=
          some
            { kind := kind, slot := slot, epoch := epoch, openedAt := x, round := .listing, chosen := none,
              results := Quad.fill none } } }

/-- The index entry of a block (R129). -/
def entry (block : Nat) (t : Station) : IndexEntry := t.sst.index.getD block IndexEntry.erased

/-- Compose the epoch list of a slot and queue LISTED (R152). -/
def sendListed (slot : Nat) (t : Station) : Station :=
  let held := (t.heldIndex slot).bind (fun i => (t.smg.windows.get i).epoch)
  t.queueProto (.listed slot (epochList held (t.entry slot).generations))

/-- The load of a HELD window ends while the staging round waits for it (R154, R166). -/
def resumeStaging (t : Station) : Station :=
  if t.smg.stageWait then
    match t.smg.op with
    | some o =>
      match o.chosen with
      | some e => obtainImage e o.slot { t with smg := { t.smg with stageWait := false } }
      | none => t
    | none => t
  else t

end Station

end Sys2Proof.Machine
end

