-- ==== Sys2Proof/Machine/Sequencer.lean ====
section
/-! DEFINITION. The shared acts of the setup store: the array and its walk, the end of a request with what its
requester does, the acceptance checks, the stages of each operation, failures, abandonment (R126 to R147), and the
fill of HELD windows (R166). -/

namespace Sys2Proof.Machine

/-! The array (R126). -/

/-- The bytes of a position. -/
def readPosition (array : List Host.Cell) (block position : Nat) : List Byte :=
  Sparse.readRun erasedByte array (positionAddress block position) 256

/-- The keep mark word of a block is set (R126). -/
def keepSet (array : List Host.Cell) (block : Nat) : Bool :=
  decide (leNat (Sparse.readRun erasedByte array (keepAddress block) 4) = Config.keepPattern)

/-- A position is BLANK (R127). -/
def positionBlank (bs : List Byte) : Bool := bs.all (fun b => decide (b = erasedByte))

/-- An address lies in a block: in its positions or in its keep mark word. -/
def inBlock (block a : Nat) : Bool :=
  (decide (block * 4096 ≤ a) && decide (a < block * 4096 + 4096) && decide (a < 131072)) ||
  (decide (keepAddress block ≤ a) && decide (a < keepAddress block + 4))

/-- The address of an offset within a block: 0 to 4095 its positions, 4096 to 4099 its keep mark word. -/
def blockAddress (block offset : Nat) : Nat :=
  if offset < 4096 then block * 4096 + offset else keepAddress block + (offset - 4096)

/-- An address lies in a position of a block. -/
def inPosition (block position a : Nat) : Bool :=
  decide (positionAddress block position ≤ a) && decide (a < positionAddress block position + 256)

/-- Erase a block, its positions and its keep mark word together (R126). -/
def eraseBlock (array : List Host.Cell) (block : Nat) : List Host.Cell := array.filter (fun c => !inBlock block c.1)

/-- The walk of a block's positions (R128): the generations found so far, newest first, and the first BLANK
position; positions are given in order with their contents. -/
def walk : List (Nat × List Byte) → List (Nat × Epoch) → List (Nat × Epoch) × Option Nat × Bool
  | [], acc => (acc, none, false)
  | p :: ps, acc =>
    if positionBlank p.2 then (acc, some p.1, ps.any (fun q => !positionBlank q.2))
    else if imageValid p.2 then
      match acc with
      | [] => walk ps [(p.1, imageEpoch p.2)]
      | g :: _ =>
        if decide (g.2.toNat < (imageEpoch p.2).toNat) then walk ps ((p.1, imageEpoch p.2) :: acc) else walk ps acc
    else walk ps acc

/-- The index entry that a scan of a block gives, with a guard state (R128, R129). -/
def scanBlock (array : List Host.Cell) (block : Nat) (guard : Guard) : IndexEntry :=
  let found := walk ((List.range 16).map (fun p => (p, readPosition array block p))) []
  { generations := found.1.reverse, next := found.2.1, disordered := found.2.2, guard := guard,
    keep := keepSet array block, unverified := false }

/-- The entry that the power-on scan gives: GUARDED when kept, OPEN otherwise (R130). -/
def powerOnEntry (array : List Host.Cell) (block : Nat) : IndexEntry :=
  scanBlock array block (if keepSet array block then .guarded else .opened)

/-- The greatest epoch among the generations of an index, or 0 (R130). -/
def highestEpoch (index : List IndexEntry) : Epoch :=
  (index.flatMap (fun e => e.generations.map (·.2))).foldl (fun h e => if h.toNat < e.toNat then e else h) 0

/-- What a write has programmed of its bytes so far, where a test says of each byte whether it was reached. -/
def programmed (reached : Nat → Bool) (before image : List Byte) : List Byte :=
  (List.range image.length).map (fun i => if reached i then image.getD i 0 else before.getD i 0)

/-- What an abandoned write leaves of an image: a free value says of each byte whether it was programmed. The valid
marker, bytes 0 and 1, is programmed after every other byte (R126), and never the whole of it: the position is left
SPOILED, or BLANK if nothing had been programmed (R140, R144, log 7). -/
def partialImage (free : Nat) (before image : List Byte) : List Byte :=
  let body := (List.range image.length).all (fun i => decide (i < 2) || Config.programReached free i)
  let left := programmed (fun i => Config.programReached free i && (decide (2 ≤ i) || body)) before image
  if left = image then left.set 1 (before.getD 1 0) else left

/-- What a power loss during a write leaves of an image: a SPOILED position (R127, R130, R147). Of the bytes the free
values say which were programmed; where they would leave the position BLANK, the lowest byte behind the valid marker
that is not erased in the image was (log 7). -/
def cutWrite (free : Nat) (before image : List Byte) : List Byte :=
  let left := partialImage free before image
  if positionBlank left then
    match (List.range image.length).find? (fun i => decide (2 ≤ i) && decide (image.getD i 0 ≠ erasedByte)) with
    | some i => left.set i (image.getD i 0)
    | none => left
  else left

/-- The lowest offset at which two runs of bytes differ. -/
def firstDifferent (before image : List Byte) : Option Nat :=
  (List.range image.length).find? (fun i => decide (before.getD i 0 ≠ image.getD i 0))

/-- What an abandoned or cut-off write of a keep mark word leaves: a free value says of each byte whether it was
programmed, and the word does not hold the full pattern (R130, log 7). -/
def partialMark (free : Nat) (before : List Byte) : List Byte :=
  let pattern := leBytes 4 Config.keepPattern
  let left := programmed (Config.programReached free) before pattern
  if left = pattern then
    match firstDifferent before pattern with
    | some i => left.set i (before.getD i 0)
    | none => left
  else left

/-- What an abandoned or cut-off clear leaves: a free value says of each byte whether it was erased (log 7). -/
def partialErase (free block : Nat) (array : List Host.Cell) : List Host.Cell :=
  array.filter (fun c => !(inBlock block c.1 && Config.eraseReached free c.1))

/-- What a power loss during a clear leaves: a DISORDERED block (R147). The bytes erased are free values, but where they
would leave the block in order, position 0 is erased and the last position that was not BLANK stands, which is
possible whenever one behind position 0 was not (log 7). -/
def cutErase (free block : Nat) (array : List Host.Cell) : List Host.Cell :=
  let left := partialErase free block array
  if (scanBlock left block .opened).disordered then left
  else
    match ((List.range 16).filter (fun p => decide (1 ≤ p) && !positionBlank (readPosition array block p))).getLast? with
    | none => left
    | some last =>
      array.filter (fun c =>
        !inBlock block c.1 || inPosition block last c.1 ||
          (!inPosition block 0 c.1 && !Config.eraseReached free c.1))

/-- The array after the stage's act was abandoned (R140, R144). -/
def abandonedArray (free block : Nat) (stage : Stage) (array : List Host.Cell) : List Host.Cell :=
  match stage with
  | .writing position image _ _ =>
    Sparse.writeRun erasedByte array (positionAddress block position)
      (partialImage free (readPosition array block position) image)
  | .marking _ =>
    Sparse.writeRun erasedByte array (keepAddress block)
      (partialMark free (Sparse.readRun erasedByte array (keepAddress block) 4))
  | .clearing _ _ => partialErase free block array
  | .reading _ | .copying _ | .rescanning => array

/-- The stage is a clear. -/
def Stage.isClear : Stage → Bool
  | .clearing _ _ => true
  | _ => false

/-- The array after a power loss cut off the stage's act (R147): a write leaves a SPOILED position and a clear a
DISORDERED block. -/
def lostArray (free block : Nat) (stage : Stage) (array : List Host.Cell) : List Host.Cell :=
  match stage with
  | .writing position image _ _ =>
    Sparse.writeRun erasedByte array (positionAddress block position)
      (cutWrite free (readPosition array block position) image)
  | .clearing _ _ => cutErase free block array
  | .marking _ | .reading _ | .copying _ | .rescanning => abandonedArray free block stage array

/-- The operation has already failed and its block is being rescanned. -/
def Stage.isRescan : Stage → Bool
  | .rescanning => true
  | _ => false

/-! The acceptance checks (R134). -/

/-- Check 2: the guard state is OPEN. -/
def guardOpen (e : IndexEntry) : Bool := decide (e.guard = .opened)

/-- Check 3 with a keep mark: not kept, or the override is on; a MARK is not checked. -/
def keepAllows (kind : ReqKind) (keep override : Bool) : Bool := decide (kind = .mark) || !keep || override

/-- The epoch of the newest generation of an entry. -/
def IndexEntry.newest (e : IndexEntry) : Option Epoch := e.generations.getLast?.map (·.2)

/-- Check 4: the epoch is greater than that of the newest generation. -/
def epochRises (e : IndexEntry) (epoch : Epoch) : Bool :=
  match e.newest with
  | none => true
  | some n => decide (n.toNat < epoch.toNat)

/-- The outcome with which the checks of R134 refuse a request, in their order; none when it passes. -/
def refusal (fault override : Bool) (e : IndexEntry) (r : Request) : Option OutcomeCode :=
  if r.kind = .read then none
  else if fault then some .storeFault
  else if !guardOpen e then some .protect
  else if !keepAllows r.kind e.keep override then some .protect
  else if decide (r.kind = .append) && !epochRises e r.epoch then some .epoch
  else none

/-- The entry that a plain append leaves (R136). It clears nothing, so a kept block stays kept: the text under R143 has
the first change of slot 31 erase its mark, and the model follows R136 and R143 (DESIGN CHOICE, log 74). -/
def plainEntry (e : IndexEntry) (position : Nat) (epoch : Epoch) : IndexEntry :=
  { e with
    generations := e.generations ++ [(position, epoch)]
    next := if position = 15 then none else some (position + 1) }

/-- The entry that a compaction leaves (R137). -/
def compactedEntry (e : IndexEntry) (epoch : Epoch) : IndexEntry :=
  match e.newest with
  | some n => { e with generations := [(0, n), (1, epoch)], next := some 2, disordered := false, keep := false }
  | none => { e with generations := [(0, epoch)], next := some 1, disordered := false, keep := false }

/-- The entry that a DISCARD leaves (R138). -/
def discardedEntry (e : IndexEntry) : IndexEntry :=
  { e with generations := [], next := some 0, disordered := false, keep := false }

namespace Station

/-- A fault is set in the status record (R141). -/
def faulted (t : Station) : Bool := t.sst.writeFault || t.sst.clearFault || t.sst.timeFault

/-- Replace a block's index entry. -/
def setEntry (block : Nat) (e : IndexEntry) (t : Station) : Station :=
  { t with sst := { t.sst with index := t.sst.index.set block e } }

/-! What a requester does with the end of its request. -/

/-- The fill of a HELD window ends (R166): the window takes the image, or becomes empty. -/
def endFill (i : Nat) (slot : Nat) (outcome : OutcomeCode) (bytes : List Byte) (t : Station) : Station :=
  let w := t.smg.windows.get i
  let empty := { Window.blank with role := .held, mapped := w.mapped }
  let filled :=
    if outcome = .ok then
      match t.unpack slot bytes with
      | .ok c => t.setWindow i (filledWindow .held w.mapped false c)
      | .error _ => t.setWindow i empty
    else t.setWindow i empty
  filled.resumeStaging

/-- A READ for the staging round ends (R154). -/
def endStaging (outcome : OutcomeCode) (bytes : List Byte) (t : Station) : Station :=
  match t.smg.op with
  | none => t
  | some o =>
    match o.chosen with
    | none => t
    | some e =>
      if outcome = .ok then t.stageImage e o.slot bytes else t.queueProto (.staged outcome.code 0 [] 0)

/-- An APPEND for a SAVE ends: the station answers (R163). -/
def endSave (outcome : OutcomeCode) (t : Station) : Station :=
  match t.smg.op with
  | none => t
  | some o => t.queueProto (.saved o.slot (o.epoch.getD 0) outcome.code)

/-- An APPEND that ended OK clears the dirty flag of the HELD window that still holds its slot and epoch (R21, R166,
log 18). -/
def clearDirty (r : Request) (t : Station) : Station :=
  { t with
    smg :=
      { t.smg with
        windows := t.smg.windows.map (fun w =>
          if w.role = .held ∧ w.mapped = some r.block ∧ w.epoch = some r.epoch then { w with dirty := false } else w) } }

/-- The status record's last request (R146). -/
def recordLast (kind : ReqKind) (block : Nat) (outcome : Option OutcomeCode) (t : Station) : Station :=
  { t with sst := { t.sst with lastRequest := some { kind := kind, block := block, outcome := outcome } } }

/-- SST returns an outcome to the requester (R131); an orphaned request's goes to no one (R147). -/
def answerRequester (r : Request) (outcome : OutcomeCode) (bytes : List Byte) (t : Station) : Station :=
  let u := if r.kind = .append ∧ outcome = .ok then t.clearDirty r else t
  if r.orphaned then u
  else
    match r.purpose with
    | .none | .tracking => u
    | .staging => u.endStaging outcome bytes
    | .fill i => u.endFill i r.block outcome bytes
    | .save => u.endSave outcome

/-- A request ends: it is recorded, and its outcome returned (R131, R146). -/
def endRequest (r : Request) (outcome : OutcomeCode) (bytes : List Byte) (t : Station) : Station :=
  (t.recordLast r.kind r.block (some outcome)).answerRequester r outcome bytes

/-- The sequencer returns to READY (R133). -/
def toReady (t : Station) : Station :=
  { t with sst := { t.sst with seq := .ready, current := none, holdRead := none, abandonAfterRead := false } }

/-- The current request ends and the sequencer is READY (R133). -/
def finishCurrent (outcome : OutcomeCode) (bytes : List Byte) (t : Station) : Station :=
  match t.sst.current with
  | none => t
  | some c => t.toReady.endRequest c.request outcome bytes

/-- The current request becomes one with this stage, and the sequencer enters the stage's state. -/
def enterStage (seq : SeqState) (c : Current) (stage : Stage) (t : Station) : Station :=
  { t with sst := { t.sst with seq := seq, current := some { c with stage := stage } } }

/-- Note on a block's entry whether its last clear ended verified (R129, R140, R141). -/
def setUnverified (block : Nat) (b : Bool) (t : Station) : Station :=
  t.setEntry block { t.entry block with unverified := b }

/-- The current operation has failed: its request ends, and its block is rescanned (R129); a clear that failed has not
ended verified, and any other operation leaves the note of the last clear as it stands. -/
def failCurrent (c : Current) (outcome : OutcomeCode) (clear : Bool) (t : Station) : Station :=
  let u := if clear then t.setUnverified c.request.block true else t
  endRequest c.request outcome []
    { u with
      sst :=
        { u.sst with
          current := some { c with stage := .rescanning }, abandonAfterRead := false, page := none } }

/-- Abandon the act in progress of the current request (R140, R144). -/
def abandon (c : Current) (outcome : OutcomeCode) (t : Station) : Station :=
  failCurrent c outcome c.stage.isClear
    { t with
      free := t.free + 1
      sst := { t.sst with array := abandonedArray t.free c.request.block c.stage t.sst.array } }

/-- After a protection action: the current request, when it would now fail check 2 or 3, is abandoned with
PROTECTED; with a READ in progress in the hold, once that has ended (R144). -/
def testProtection (t : Station) : Station :=
  match t.sst.current with
  | none => t
  | some c =>
    let e := t.entry c.request.block
    if c.request.kind = .read ∨ c.stage.isRescan = true then t
    else if guardOpen e && keepAllows c.request.kind c.keepAtTake t.sst.override then t
    else if t.sst.seq = .readingInHold then { t with sst := { t.sst with abandonAfterRead := true } }
    else t.abandon c .protect

/-- Begin the write of an image at a position (R126, R136). -/
def beginWrite (c : Current) (position : Nat) (image : List Byte) (last : Bool) (t : Station) : Station :=
  t.enterStage .writing c (.writing position image last t.ticks)

/-- Begin a clear (R137, R138). -/
def beginClear (c : Current) (t : Station) : Station := t.enterStage .clearing c (.clearing 0 t.ticks)

/-- Start a request that has passed the checks of R134 (R135 to R138). -/
def startRequest (r : Request) (t : Station) : Station :=
  let e := t.entry r.block
  let c : Current := { request := r, stage := .rescanning, keepAtTake := e.keep }
  match r.kind with
  | .read =>
    match e.generations.find? (fun g => decide (g.2 = r.epoch)) with
    | some g => t.enterStage .reading c (.reading g.1)
    | none => t.endRequest r .empty []
  | .append =>
    match e.next, e.disordered with
    | some p, false => (t.setEntry r.block (plainEntry e p r.epoch)).beginWrite c p r.image true
    | _, _ =>
      let u := { t with sst := { t.sst with page := none } }.setEntry r.block (compactedEntry e r.epoch)
      match e.generations.getLast? with
      | some g => u.enterStage .reading c (.copying g.1)
      | none => u.beginClear c
  | .discard => (t.setEntry r.block (discardedEntry e)).beginClear c
  | .mark => if keepSet t.sst.array r.block then t.endRequest r .ok [] else t.enterStage .writing c (.marking t.ticks)

/-- The sequencer, READY, takes the oldest request and applies the checks (R132, R134). -/
def takeOldest (t : Station) : Station :=
  match t.sst.queue with
  | [] => t
  | r :: rest =>
    let u := { t with sst := { t.sst with queue := rest } }
    match refusal t.faulted t.sst.override (t.entry r.block) r with
    | some o => u.endRequest r o []
    | none => u.startRequest r

/-- A queued READ of a block other than the one being cleared (R139). -/
def overtakes (block : Nat) (r : Request) : Bool := decide (r.kind = .read) && decide (r.block ≠ block)

/-- With no further READ of another block queued, a suspended clear resumes where it stopped (R139). -/
def resumeClear (t : Station) : Station :=
  match t.sst.current with
  | none => t
  | some c =>
    match c.stage with
    | .clearing spent _ =>
      if t.sst.queue.any (overtakes c.request.block) then t else t.enterStage .clearing c (.clearing spent t.ticks)
    | _ => t

/-- In HELD the sequencer takes the oldest queued READ of another block (R139); once the suspended clear has been
abandoned nothing is taken until its rescan has ended (R129, R144). -/
def takeInHold (t : Station) : Station :=
  match t.sst.current with
  | none => t
  | some c =>
    if !c.stage.isClear then t else
    match t.sst.queue.find? (overtakes c.request.block) with
    | none => t
    | some r =>
      let u := { t with sst := { t.sst with queue := t.sst.queue.erase r } }
      match (t.entry r.block).generations.find? (fun g => decide (g.2 = r.epoch)) with
      | some g => { u with sst := { u.sst with seq := .readingInHold, holdRead := some (r, g.1) } }
      | none => (u.endRequest r .empty []).resumeClear

/-- A write's or a mark's verify has found a byte different (R141). -/
def failWrite (c : Current) (t : Station) : Station :=
  failCurrent c .storeFault false
    { t with sst := { t.sst with writeFault := true, faultBlock := some c.request.block } }

/-- A STORE frame's request is offered to the queue; a full queue drops it with QUEUE_FULL (R132). -/
def offerStore (kind : ReqKind) (block : Nat) (t : Station) : Station :=
  if t.sst.queue.length < 4 then
    { t with
      sst :=
        { t.sst with
          queue :=
            t.sst.queue ++
              [{ kind := kind, block := block, epoch := 0, image := [], purpose := .none, orphaned := false }] } }
  else t.recordLast kind block none

end Station

end Sys2Proof.Machine
end

