-- ==== Sys2Proof/Machine/Enrolment.lean ====
section
/-! DEFINITION. The shared acts of enrolment and RESTART: announcements, the enrolment record, LANE_FAULT, completion
and the restart of every block (R186 to R194, R20, R37, R61, R78, R93, R115, R147, R185). -/

namespace Sys2Proof.Machine

/-- The heard set as the byte of an ENROL frame: bit i for id i (12, section 12.1). -/
def heardByte (q : Quad Bool) : Nat :=
  (if q.a0 then 1 else 0) + (if q.a1 then 2 else 0) + (if q.a2 then 4 else 0) + (if q.a3 then 8 else 0)

/-- The flags of a heard set's byte. -/
def heardOf (b : Nat) : Quad Bool := ⟨b.testBit 0, b.testBit 1, b.testBit 2, b.testBit 3⟩

/-- The union of two heard sets. -/
def heardUnion (a b : Quad Bool) : Quad Bool := ⟨a.a0 || b.a0, a.a1 || b.a1, a.a2 || b.a2, a.a3 || b.a3⟩

/-- The heard set that holds one id. -/
def heardOnly (station : Nat) : Quad Bool := (Quad.fill false).set station true

/-- The greater of two epochs. -/
def maxEpochOf (a b : Epoch) : Epoch := if a.toNat < b.toNat then b else a

/-- RESTART keeps ENROL and RESTART frames of the receive list (R185). -/
def keptAtRestart (e : RxEntry) : Bool := decide (e.msg.kindCode = 0) || decide (e.msg.kindCode = 10)

namespace Station

/-- The station's strap fault: its number is not below its count (R186). -/
def strapFault (t : Station) : Bool := decide (t.straps.count ≤ t.straps.station)

/-- The ENROL that the enrolment record gives as it stands (R188). -/
def enrolMsg (t : Station) : Msg :=
  let r := t.lif.enrol
  if r.state = .laneFault then
    .enrol t.straps.count (2 ^ t.straps.station) t.smg.highest (if r.ownNoLive then 1 else 0)
  else .enrol t.straps.count (heardByte r.heard) r.heardEpoch (if r.heardNoLive then 1 else 0)

/-- LIF places its ENROL, unless one is in the list; without room it keeps it (R178, R188). -/
def offerEnrol (t : Station) : Station :=
  if t.lif.tx.any (fun e => e.msg.isEnrol) then t
  else if t.room t.enrolMsg then
    let u := t.place t.enrolMsg .lif
    { u with lif := { u.lif with keptEnrol := false } }
  else { t with lif := { t.lif with keptEnrol := true } }

/-- An announcement, which restarts the announce timer (R188). -/
def announce (x : Nat) (t : Station) : Station :=
  let u := t.offerEnrol
  { u with lif := { u.lif with enrol := { u.lif.enrol with announce := some (x + Config.announceTicks) } } }

/-- The enrolment record starts afresh (R187). -/
def freshRecord (t : Station) : Station :=
  { t with
    lif :=
      { t.lif with
        enrol :=
          { t.lif.enrol with
            heard := heardOnly t.straps.station
            heardEpoch := t.smg.highest
            heardNoLive := t.lif.enrol.ownNoLive } } }

/-- Set the enrolment state. -/
def setEnrolState (e : EnrolState) (t : Station) : Station :=
  { t with lif := { t.lif with enrol := { t.lif.enrol with state := e } } }

/-- The station becomes UNENROLLED: its record starts afresh and it announces (R187, R188). -/
def becomeUnenrolled (x : Nat) (t : Station) : Station := ((t.setEnrolState .unenrolled).freshRecord).announce x

/-- The station enters LANE_FAULT, or its fault timer restarts there (R190). -/
def enterLaneFault (x : Nat) (t : Station) : Station :=
  let u := (t.setEnrolState .laneFault).freshRecord
  { u with lif := { u.lif with enrol := { u.lif.enrol with fault := some (x + Config.laneFaultTicks) } } }

/-- An ENROL matches this station's straps (R189). -/
def enrolMatches (sender count heard : Nat) (t : Station) : Bool :=
  decide (count = t.straps.count) && decide (sender < count) && decide (heard < 2 ^ count)

/-- A matching ENROL's heard set holds every id (R189). -/
def heardFull (heard : Nat) (t : Station) : Bool := decide (heard + 1 = 2 ^ t.straps.count)

/-- Step 4 of R191: the settle timer and the untracked flag as R20 lays down. -/
def settleAtEnrolment (noLive : Bool) (x : Nat) (t : Station) : Station :=
  if noLive then
    { t with smg := { t.smg with untracked := false, settle := none } }
  else if t.smg.untracked then
    { t with smg := { t.smg with settle := some (x + Config.settleTicks) } }
  else t

/-- Enrolment completes (R191). -/
def completeEnrolment (epoch : Epoch) (noLive : Bool) (x : Nat) (t : Station) : Station :=
  let joined : Station :=
    { t with
      lif :=
        { t.lif with
          tx := t.lif.tx.filter (fun e => !e.msg.isEnrol || e.sending)
          keptEnrol := false
          laneZero := x
          enrol := { t.lif.enrol with state := .enrolled, announce := none } }
      smg := { t.smg with highest := maxEpochOf t.smg.highest epoch }
      pns := { t.pns with queue := t.pns.queue.map (fun e => { e with stamp := x }) } }
  let started := (joined.settleAtEnrolment noLive x).tryStart x
  if noLive && decide (t.straps.station = 0) then started.chainTo .slot0 else started

/-- A station that is not enrolled takes an ENROL from a station (R189, R190). -/
def takeEnrol (sender count heard : Nat) (epoch : Epoch) (noLive : Bool) (x : Nat) (t : Station) : Station :=
  if !t.enrolMatches sender count heard then t.enterLaneFault x
  else if t.lif.enrol.state = .laneFault then t
  else
    let r := t.lif.enrol
    let all := heardUnion (heardUnion r.heard (heardOnly sender)) (heardOf heard)
    let merged :=
      { t with
        lif :=
          { t.lif with
            enrol :=
              { r with
                heard := all, heardEpoch := maxEpochOf r.heardEpoch epoch, heardNoLive := r.heardNoLive || noLive } } }
    if t.heardFull heard then merged.completeEnrolment epoch noLive x
    else if all ≠ r.heard then merged.announce x
    else merged

/-! RESTART, block by block. -/

/-- SST at RESTART: every request it holds is orphaned (R147). -/
def restartSst (t : Station) : Station := t.mapStored (fun r => { r with orphaned := true })

/-- SMG at RESTART (R20, R193). -/
def restartSmg (t : Station) : Station :=
  let kept := (t.smg.kept.filter (fun r => decide (r.kind ≠ .read))).map Request.released
  let written := writeBackDirty { t with smg := { t.smg with kept := kept } }
  let freed := written.freeWindows (fun w => decide (w.role = .held) || decide (w.role = .staged))
  { freed with
    smg :=
      { freed.smg with
        op := none, settle := none, due := false, wordA := none, wordB := none, settling := none, keptProto := none,
        stageWait := false, chain := .idle, chainWait := .nothing, keptChain := false } }

/-- ACQ and TGU at RESTART: the run state and the saved run state are kept (R37, R61). -/
def restartAcq (t : Station) : Station :=
  { t with acq := Acq.reset, tgu := { Tgu.powerOn with run := t.tgu.run, savedRun := t.tgu.savedRun } }

/-- RSE at RESTART (R78, R93): layers and drawing state reset, the grid blanked and the readouts rebuilt. -/
def restartRse (x : Nat) (t : Station) : Station :=
  { t with
    rse :=
      { t.rse with
        layerA := Layer.reset, layerB := Layer.reset, draw := none, clipA := false, clipB := false, satA := false,
        satB := false, decayTimer := x + Config.decayTicks, decayCount := 0, decayPass := false,
        grid := readoutGrid t.straps t.live.common t.live.chA t.live.chB t.tgu.run false false false false } }

/-- PNS at RESTART (R115); the scan timer runs on. Every base mode starts anew at the instant of the RESTART, also the
FAST mode of the STANDBY LED in LANE_FAULT, lit (log 49). -/
def restartPns (x : Nat) (t : Station) : Station :=
  { t with
    pns :=
      { t.pns with
        firstScan := true, holdSave := none, holdPower := none, counts := List.replicate 8 0, queue := [],
        sequence := none, leds := (ledSet t.straps.panel).map (LedEntry.dark x) } }

/-- LIF at RESTART (R185): the transmit list is emptied, the receive list keeps ENROL and RESTART frames, the pending
answer is dropped; UNENROLLED or still LANE_FAULT, the record afresh, an announcement (R194). The lane stays: a frame on
the data pair completes its transfer, and so does one whose claim is won and whose transfer has not begun, the model's
choice (log 77). -/
def restartLif (x : Nat) (t : Station) : Station :=
  let u :=
    { t with
      lif := { t.lif with tx := [], keptEnrol := false, rx := t.lif.rx.filter keptAtRestart, answer := none } }
  if t.lif.enrol.state = .laneFault then u.freshRecord.announce x else u.becomeUnenrolled x

/-- The restart of a station, one act (R194). -/
def restartStation (x : Nat) (t : Station) : Station :=
  (((t.restartSst.restartSmg.restartAcq).restartRse x |>.restartPns x).restartLif x).refreshLeds x

end Station

end Sys2Proof.Machine
end

