-- ==== Sys2Proof/Machine/PanelOps.lean ====
section
/-! DEFINITION. The shared acts of the front panel: control maps, scanning, the event queue, dispatch and slot
sequences (R94 to R108, R113). -/

namespace Sys2Proof.Machine

/-- An action of a control map (R99, R100). A setting names its channel: the common one, or local channel A or B. -/
inductive Action where
  | runstop
  | single
  | force
  | cleardisplay
  | common (number : Nat)
  | channel (isB : Bool) (number : Nat)
  | triglevel
  | save
  | recall
  | factory
  | digit (d : Nat)
  | enter
  | power
deriving DecidableEq, Repr

/-- The action of a key position (R99, R100). -/
def keyAction (role : PanelRole) (position : Nat) : Option Action :=
  match role with
  | .common =>
    if 12 ≤ position ∧ position ≤ 21 then some (.digit (position - 12))
    else
      match position with
      | 0 => some .runstop
      | 1 => some .single
      | 2 => some .force
      | 3 => some .cleardisplay
      | 4 => some (.common 4)
      | 5 => some (.common 7)
      | 6 => some (.common 8)
      | 7 => some (.common 12)
      | 8 => some (.common 6)
      | 9 => some .save
      | 10 => some .recall
      | 11 => some .factory
      | 22 => some .enter
      | 23 => some .power
      | _ => none
  | .channel =>
    match position with
    | 0 => some (.channel false 1)
    | 1 => some (.channel false 4)
    | 2 => some (.channel false 5)
    | 3 => some (.channel false 6)
    | 4 => some (.channel true 1)
    | 5 => some (.channel true 4)
    | 6 => some (.channel true 5)
    | 7 => some (.channel true 6)
    | _ => none

/-- The action of an encoder position (R99, R100). -/
def encoderAction (role : PanelRole) (position : Nat) : Option Action :=
  match role with
  | .common =>
    match position with
    | 0 => some (.common 1)
    | 1 => some (.common 2)
    | 2 => some (.common 11)
    | 3 => some (.common 15)
    | 4 => some (.common 14)
    | 5 => some .triglevel
    | _ => none
  | .channel =>
    match position with
    | 0 => some (.channel false 2)
    | 1 => some (.channel false 3)
    | 2 => some (.channel true 2)
    | 3 => some (.channel true 3)
    | _ => none

/-- The level of an action (R97). -/
def Action.level : Action → Nat
  | .runstop | .single | .force | .power => 3
  | .save | .recall | .factory | .digit _ | .enter => 2
  | .cleardisplay | .common _ | .channel _ _ | .triglevel => 1

/-- The action of an event under a panel role. -/
def PanelEvent.action (role : PanelRole) (e : PanelEvent) : Option Action :=
  match e.kind with
  | .turn => encoderAction role e.control
  | .down | .hold => keyAction role e.control

/-- The number that a list of digits reads as (R106). -/
def slotNumber (digits : List Nat) : Nat := digits.foldl (fun n d => 10 * n + d) 0

/-- What ENTER does in an open sequence (R106). -/
inductive EnterPlan where
  | range
  | epoch
  | frame (m : Msg)
deriving DecidableEq, Repr

/-- The frames of a panel's actions (12, section 12.1). -/
def Action.frame (station trigsrc : Nat) (run : RunState) (standby : Bool) (detents : Int) : Action → Option Msg
  | .runstop => some (.runctl (if run = .stopped then 0 else 1))
  | .single => some (.runctl 2)
  | .force => some (.runctl 3)
  | .cleardisplay => some (.runctl 4)
  | .power => some (.runctl (if standby then 6 else 5))
  | .common number => some (.setting 0 number 1 detents)
  | .channel isB number => some (.setting (if isB then 2 * station + 2 else 2 * station + 1) number 1 detents)
  | .triglevel => some (.setting trigsrc 7 1 detents)
  | .factory => some (.recall 31)
  | .save | .recall | .digit _ | .enter => none

namespace Station

/-! Scanning. -/

/-- The accepted key states after a scan: where two scans in a row read alike, the state read (R94). -/
def debounce (keys raw accepted : BitVec 64) : BitVec 64 :=
  (keys &&& ~~~ (keys ^^^ raw)) ||| (accepted &&& (keys ^^^ raw))

/-- A DOWN or HELD event joins the tail; with sixteen events queued it is discarded (R98); in standby only POWER
DOWN is queued (R113). -/
def raiseKeyEvent (e : PanelEvent) (isPowerDown : Bool) (t : Station) : Station :=
  if (t.standby && !isPowerDown) || decide (16 ≤ t.pns.queue.length) then t
  else { t with pns := { t.pns with queue := t.pns.queue ++ [e] } }

/-- The hold timing of a timed action (R95). -/
def holdOf (a : Action) (t : Station) : Option Nat :=
  match a with
  | .save => t.pns.holdSave
  | .power => t.pns.holdPower
  | _ => none

/-- Set the hold timing of a timed action; other actions have none (R95). -/
def setHold (a : Action) (h : Option Nat) (t : Station) : Station :=
  match a with
  | .save => { t with pns := { t.pns with holdSave := h } }
  | .power => { t with pns := { t.pns with holdPower := h } }
  | _ => t

/-- The hold noted has lasted its time at a scan of instant x (R95). -/
def heldFor (x : Nat) (hold : Option Nat) : Bool := hold.any (fun noted => decide (noted + Config.holdTicks ≤ x))

/-- What a scan of instant x does for one key position, with the accepted states before and after (R94, R95). -/
def scanKey (x : Nat) (was now : BitVec 64) (t : Station) (position : Nat) : Station :=
  match keyAction t.straps.panel position with
  | none => t
  | some a =>
    let event (kind : EventKind) : PanelEvent :=
      { kind := kind, control := position, detents := 0, level := a.level, stamp := x }
    if now.getLsbD position then
      if !was.getLsbD position then
        (t.setHold a (some x)).raiseKeyEvent (event .down) (decide (a = .power))
      else if heldFor x (t.holdOf a) then (t.setHold a none).raiseKeyEvent (event .hold) false
      else t
    else t.setHold a none

/-- The count of an encoder. -/
def countOf (position : Nat) (t : Station) : Int := t.pns.counts.getD position 0

/-- Set the count of an encoder. -/
def setCount (position : Nat) (v : Int) (t : Station) : Station :=
  { t with pns := { t.pns with counts := t.pns.counts.set position v } }

/-- Add a TURN's detents into the queued TURN of the same control; a sum of 0 takes it out (R98). -/
def addTurn (position : Nat) (v : Int) : List PanelEvent → List PanelEvent
  | [] => []
  | e :: es =>
    if e.kind = .turn ∧ e.control = position then
      (if clampTo (-127) 127 (e.detents + v) = 0 then es
       else { e with detents := clampTo (-127) 127 (e.detents + v) } :: es)
    else e :: addTurn position v es

/-- An encoder's count is handed to the queue as a TURN (R96, R98, R113). -/
def handTurn (x : Nat) (t : Station) (position : Nat) : Station :=
  let v := t.countOf position
  match encoderAction t.straps.panel position with
  | none => t
  | some _ =>
    if v = 0 then t
    else if t.standby then t.setCount position 0
    else if t.pns.queue.any (fun e => decide (e.kind = .turn) && decide (e.control = position)) then
      let u := t.setCount position 0
      { u with pns := { u.pns with queue := addTurn position v u.pns.queue } }
    else if t.pns.queue.length < 16 then
      let u := t.setCount position 0
      { u with
        pns :=
          { u.pns with
            queue := u.pns.queue ++ [{ kind := .turn, control := position, detents := v, level := 1, stamp := x }] } }
    else t

/-- The detents read at a scan enter the counts (R96). -/
def readDetents (detents : List Int) (t : Station) : Station :=
  { t with
    pns :=
      { t.pns with
        counts := (List.range 8).map (fun i => clampTo (-127) 127 (t.countOf i + detents.getD i 0)) } }

/-- A scan of the key matrix and the encoders (R94 to R96); the first one raises no event (log 23). -/
def scan (keys : BitVec 64) (detents : List Int) (x : Nat) (t : Station) : Station :=
  let read := { t with pns := { t.pns with scanTimer := x + Config.scanTicks, raw := keys } }.readDetents detents
  if t.pns.firstScan then { read with pns := { read.pns with accepted := keys, firstScan := false } }
  else
    let was := t.pns.accepted
    let now := debounce keys t.pns.raw was
    let scanned := (List.range 64).foldl (scanKey x was now) { read with pns := { read.pns with accepted := now } }
    (List.range 8).foldl (handTurn x) scanned

/-! Dispatch. -/

/-- What ENTER does in a sequence, by its digits and SMG's highest epoch (R106). -/
def enterPlan (q : Sequence) (t : Station) : EnterPlan :=
  let n := slotNumber q.digits
  if q.digits = [] ∨ 30 < n then .range
  else
    match q.kind with
    | .recall => .frame (.recall n)
    | .save =>
      if n = 0 then .range
      else if t.smg.highest = Config.maxEpoch then .epoch
      else .frame (.save n (t.smg.highest + 1))

/-- The frame that an event's action needs, decided as it is considered (R103, R105 to R108, R113). That the STORE of SAVE
HELD carries 0 as its block byte is the model's choice (log 50). -/
def eventFrame (e : PanelEvent) (t : Station) : Option Msg :=
  match e.action t.straps.panel with
  | none => none
  | some a =>
    match e.kind with
    | .hold =>
      (match a with
       | .save => some (.store 15 6 0)
       | .power => some .restart
       | _ => none)
    | .down | .turn =>
      let plain :=
        a.frame t.straps.station t.live.common.trigsrc t.tgu.run t.standby (if e.kind = .turn then e.detents else 1)
      match t.pns.sequence with
      | none => plain
      | some q =>
        if a.level = 3 then plain
        else if a = .enter then
          (match t.enterPlan q with
           | .frame m => some m
           | .range | .epoch => none)
        else none

/-- Close the slot sequence, with a blink or silently (R104, R106, R107). -/
def endSequence (q : Sequence) (blink : Option Pattern) (x : Nat) (t : Station) : Station :=
  let u := { t with pns := { t.pns with sequence := none } }
  match blink with
  | some p => u.startOverlay (kindLed q.kind) p x
  | none => u

/-- Open a slot sequence (R105). -/
def openSequence (kind : OpKind) (stamp : Nat) (t : Station) : Station :=
  { t with
    pns := { t.pns with sequence := some { kind := kind, digits := [], deadline := stamp + Config.sequenceTicks } } }

/-- What a dispatched event does to the slot sequence (R105 to R108). -/
def eventSequence (x : Nat) (e : PanelEvent) (t : Station) : Station :=
  match e.action t.straps.panel with
  | none => t
  | some a =>
    match t.pns.sequence with
    | none =>
      if e.kind = .down then
        (match a with
         | .save => t.openSequence .save e.stamp
         | .recall => t.openSequence .recall e.stamp
         | _ => t)
      else t
    | some q =>
      match e.kind with
      | .hold => t.endSequence q none x
      | .turn => t.endSequence q (some .sequence) x
      | .down =>
        if a.level = 3 then t.endSequence q none x
        else
          match a with
          | .digit d =>
            if q.digits.length < 2 then
              { t with
                pns :=
                  { t.pns with
                    sequence :=
                      some { q with digits := q.digits ++ [d], deadline := e.stamp + Config.sequenceTicks } } }
            else t.endSequence q (some .range) x
          | .enter =>
            (match t.enterPlan q with
             | .range => t.endSequence q (some .range) x
             | .epoch => t.endSequence q (some (.code 9)) x
             | .frame _ => t.endSequence q none x)
          | _ => t.endSequence q (some .sequence) x

/-- Dispatch an event: its frame is placed when it needs one, its effect on the sequence carried out, and it leaves
the queue; none while its frame finds no room (R102). -/
def tryEvent (x : Nat) (e : PanelEvent) (t : Station) : Option Station :=
  let taken := { t with pns := { t.pns with queue := t.pns.queue.erase e } }
  match t.eventFrame e with
  | none => some (taken.eventSequence x e)
  | some m => if t.room m then some ((taken.eventSequence x e).place m .panel) else none

/-- The events behind the first of a queue that passes a test. -/
def behindFirst (p : PanelEvent → Bool) : List PanelEvent → List PanelEvent
  | [] => []
  | e :: es => if p e then es else behindFirst p es

/-- PNS considers the oldest eligible event, and while that waits for room the oldest eligible one of level 3 behind
it (R102). -/
def dispatchNext (x : Nat) (t : Station) : Station :=
  let eligible (e : PanelEvent) : Bool := decide (t.panelLevel < e.level)
  match t.pns.queue.find? eligible with
  | none => t
  | some e =>
    match t.tryEvent x e with
    | some u => u
    | none =>
      match (behindFirst eligible t.pns.queue).find? (fun e3 => eligible e3 && decide (e3.level = 3)) with
      | none => t
      | some e3 => (t.tryEvent x e3).getD t

/-- A sequence whose deadline has come by the present tick is cancelled silently (R104), whatever frames wait: the
model's choice (log 61). -/
def cancelExpired (t : Station) : Station :=
  match t.pns.sequence with
  | some q => if q.deadline ≤ t.ticks then (t.endSequence q none q.deadline).refreshLeds q.deadline else t
  | none => t

/-- A panel dispatch now (R102). It sees the station as it stands, frames that wait in the receive list not taken: the
model's choice (log 60); a deadline that has come is acted on first (log 61). -/
def dispatch (t : Station) : Station := (t.cancelExpired.dispatchNext t.ticks).refreshLeds t.ticks

/-- PNS at standby entry (R113). -/
def standbyPns (t : Station) : Station :=
  endOverlays
    { t with
      pns :=
        { t.pns with
          queue :=
            t.pns.queue.filter (fun e => decide (e.kind = .down) && decide (e.action t.straps.panel = some .power))
          counts := List.replicate 8 0
          sequence := none } }

end Station

end Sys2Proof.Machine
end

