-- ==== Sys2Proof/Machine/Report.lean ====
section
/-! DEFINITION. The bodies of REPORT frames (R182 to R184; 12, section 12.1). -/

namespace Sys2Proof.Machine

/-- A byte of 0 or 1. -/
def flagByte (b : Bool) : Byte := if b then 1 else 0

/-- An optional number as a byte, with its code for absence. -/
def optByte (absent : Nat) : Option Nat → Byte
  | some n => byteOf n
  | none => byteOf absent

/-- The code of an enrolment state. -/
def EnrolState.code : EnrolState → Nat
  | .unenrolled => 0
  | .enrolled => 1
  | .laneFault => 2

/-- The code of an acquisition state, in the order of R40. -/
def AcqState.code : AcqState → Nat
  | .idle => 0
  | .preparing => 1
  | .prepared => 2
  | .pretrig => 3
  | .armed => 4
  | .posttrig => 5
  | .aligning => 6

/-- The code of a sequencer state, in the order of R133. -/
def SeqState.code : SeqState → Nat
  | .ready => 0
  | .reading => 1
  | .writing => 2
  | .clearing => 3
  | .held => 4
  | .readingInHold => 5

/-- The code of a request kind; 0 is absent. -/
def ReqKind.code : ReqKind → Nat
  | .read => 1
  | .append => 2
  | .discard => 3
  | .mark => 4

/-- The code of an operation kind; 0 is absent. -/
def OpKind.code : OpKind → Nat
  | .recall => 1
  | .save => 2

/-- The code of a guard state. -/
def Guard.code : Guard → Nat
  | .opened => 0
  | .guarded => 1
  | .pinned => 2

/-- The code of a window role. -/
def WindowRole.code : WindowRole → Nat
  | .free => 0
  | .live => 1
  | .staged => 2
  | .held => 3

/-- The code of a panel role. -/
def panelCode : PanelRole → Nat
  | .common => 0
  | .channel => 1

/-- The code of a chain role. -/
def chainCode : ChainRole → Nat
  | .head => 0
  | .link => 1
  | .tail => 2
  | .sole => 3

/-- The operation state and slot of REPORT STATION; the slot byte is 0 with no operation open (log 51). -/
def opBytes : Option Op → List Byte
  | none => [0, 0]
  | some o =>
    [match o.kind, o.round with
     | .recall, .listing => 1
     | .recall, .staging => 2
     | .save, _ => 3, byteOf o.slot]

/-- The last-outcome record of REPORT STATION; its slot and outcome bytes are 0 when it is absent (log 51). -/
def lastOutcomeBytes : Option LastOutcome → List Byte
  | none => [0, 0, 0]
  | some l => [byteOf l.kind.code, byteOf l.slot, byteOf l.outcome.code]

/-- The last request of REPORT STATION; its block and outcome bytes are 0 when it is absent (log 51). -/
def lastRequestBytes : Option LastRequest → List Byte
  | none => [0, 0, 0]
  | some l => [byteOf l.kind.code, byteOf l.block, optByte 255 (l.outcome.map OutcomeCode.code)]

/-- The eight bytes of a window in REPORT WINDOWS: the fields of R5 that its role gives meaning. -/
def windowBytes (w : Window) : List Byte :=
  let held := decide (w.role = .held)
  let staged := decide (w.role = .staged)
  let epoch := if held || staged then w.epoch else none
  [byteOf w.role.code, optByte 255 (if held then w.mapped else none),
   byteOf ((if held && w.dirty then 1 else 0) + (if held && w.loading then 2 else 0) +
     (if staged && w.flipPending then 4 else 0) + (if epoch.isSome then 8 else 0)), 0] ++
  leBytes 4 (epoch.getD 0).toNat

/-- The body of REPORT BLOCK for an index entry. -/
def blockBytes (block : Nat) (e : IndexEntry) : List Byte :=
  [byteOf block, byteOf e.guard.code, flagByte e.keep, flagByte e.disordered, optByte 255 e.next] ++
  leBytes 2 (e.generations.foldl (fun n g => n + 2 ^ g.1) 0) ++
  e.generations.flatMap (fun g => leBytes 4 g.2.toNat)

namespace Station

/-- The 32 bytes of REPORT STATION (R183). -/
def stationBytes (t : Station) : List Byte :=
  leBytes 2 Config.partCode ++
  [byteOf t.straps.station, byteOf t.straps.count, byteOf (panelCode t.straps.panel + 2 * chainCode t.straps.chain),
   byteOf t.lif.enrol.state.code, flagByte t.standby, byteOf t.tgu.run.code,
   optByte 3 (t.tgu.savedRun.map RunState.code), byteOf t.acq.state.code] ++
  leBytes 4 t.acq.armedNumber.toNat ++ opBytes t.smg.op ++ lastOutcomeBytes t.smg.lastOutcome ++
  [flagByte t.flipPending, byteOf t.panelLevel] ++ leBytes 4 t.smg.highest.toNat ++
  [byteOf t.sst.seq.code,
   byteOf ((if t.sst.writeFault then 1 else 0) + (if t.sst.clearFault then 2 else 0) +
     (if t.sst.timeFault then 4 else 0)),
   optByte 255 t.sst.faultBlock, flagByte t.sst.override] ++
  lastRequestBytes t.sst.lastRequest

/-- The section a channel number names at this station. -/
def ownChannel (channel : Nat) (t : Station) : Option Channel :=
  if channel = 2 * t.straps.station + 1 then some t.live.chA
  else if channel = 2 * t.straps.station + 2 then some t.live.chB
  else none

/-- Status and body of REPORT SETTING (R184): the value as a packed image of the LIVE window carries it. -/
def settingReport (channel number : Nat) (t : Station) : Nat × List Byte :=
  let named := [byteOf channel, byteOf number]
  let value (v : Int) := (0, named ++ leBytes 4 (unsignedOf 32 v))
  if channel = 0 then
    if number = 17 then value t.imageRun.code
    else if 1 ≤ number ∧ number ≤ 16 then value (t.live.common.value number)
    else (1, named)
  else if 2 * t.straps.count < channel then (1, named)
  else
    match t.ownChannel channel with
    | none => (1, named)
    | some c =>
      if number = 9 then
        (0, named ++ [byteOf c.label.length] ++ (List.range 8).map (fun i => byteOf (c.label.getD i 0)))
      else if 1 ≤ number ∧ number ≤ 8 then value (c.value number)
      else (1, named)

/-- Status and body of the report that an answer asks for (R183, R184), reserved argument bytes disregarded (log 63). -/
def reportOf (a : Answer) (t : Station) : Nat × List Byte :=
  match a.kind with
  | 0 => (0, t.stationBytes)
  | 1 => t.settingReport a.arg0 a.arg1
  | 2 => if a.arg0 ≤ 31 then (0, blockBytes a.arg0 (t.entry a.arg0)) else (2, [])
  | _ => (0, t.smg.windows.toList.flatMap windowBytes)

/-- The REPORT frame of an answer, composed now (R182). -/
def reportMsg (a : Answer) (t : Station) : Msg :=
  let r := t.reportOf a
  .report ([byteOf a.addressee, byteOf a.kind, byteOf r.1] ++ leBytes 6 t.laneTime.toNat ++ r.2)

/-- LIF offers the pending answer; the list takes it with its body composed at that moment (R182). -/
def offerReport (t : Station) : Station :=
  match t.lif.answer with
  | none => t
  | some a =>
    if t.room (t.reportMsg a) then
      let u := t.place (t.reportMsg a) .lif
      { u with lif := { u.lif with answer := none } }
    else t

end Station

end Sys2Proof.Machine
end

