-- ==== Sys2Proof/Machine/Lane.lean ====
section
/-! DEFINITION. The station lane: CLAIM_PHASE, FRAME_END, TRANSMIT_LIST_ROOM, QUERY_STATION, QUERY_SETTING,
QUERY_BLOCK, QUERY_WINDOWS, REPORT, ILL_FITTING_FRAME, and the levels of the wired lines. -/

namespace Sys2Proof.Machine

/-- The best rank among frames that were in the list when a phase began (R170, R178); one placed in the very tick in
which it began was (DESIGN CHOICE, log 75). -/
def bestRank (phase : Nat) (tx : List TxEntry) : Option Nat :=
  ((tx.filter (fun e => decide (e.placedAt ≤ phase) && !e.sending)).map (fun e => e.msg.rank)).min?

/-- The oldest frame of that rank begins its transfer; an ENROL takes the body composed now (R178, R188). -/
def startOldest (phase rank : Nat) (enrol : Msg) : List TxEntry → List TxEntry
  | [] => []
  | e :: es =>
    if e.placedAt ≤ phase ∧ e.sending = false ∧ e.msg.rank = rank then
      { e with msg := if e.msg.isEnrol then enrol else e.msg, sending := true } :: es
    else e :: startOldest phase rank enrol es

/-- The frame that `startOldest` sends (R178, R188). -/
def wonMsg (phase rank : Nat) (enrol : Msg) (tx : List TxEntry) : Option Msg :=
  (tx.find? (fun e => decide (e.placedAt ≤ phase) && !e.sending && decide (e.msg.rank = rank))).map
    (fun e => if e.msg.isEnrol then enrol else e.msg)

/-- What a station receives of a frame: kind code, sender, body length field and body (R171). -/
def frameBody (bytes : List Byte) : List Byte := (bytes.drop 3).take (bytes.length - 5)

/-- The first three checks of R172: CRC, length and sender. -/
def frameChecks (winner : Nat) (bytes : List Byte) : Bool :=
  decide (5 ≤ bytes.length) &&
  decide ((crc16 (bytes.take (bytes.length - 2))).toNat = leNat (bytes.drop (bytes.length - 2))) &&
  decide (byteAt bytes 2 ≤ 80) && decide (byteAt bytes 2 = bytes.length - 5) && decide (byteAt bytes 1 = winner)

/-- The frame that received bytes spell. -/
def receivedMsg (bytes : List Byte) : Msg := Msg.ofBody (byteAt bytes 0) (frameBody bytes)

/-- An ENROL or RESTART by its kind code: what a station that is not enrolled places (R172). -/
def enrolKind (bytes : List Byte) : Bool := decide (byteAt bytes 0 = 0) || decide (byteAt bytes 0 = 10)

/-- The fields of a QUERY frame of a report kind: target and argument. -/
def Msg.queryFields (kind : Nat) : Msg → Option (Nat × Nat × Nat)
  | .query target k arg0 arg1 => if k = kind then some (target, arg0, arg1) else none
  | _ => none

/-- A REPORT frame. -/
def Msg.reportFields : Msg → Option Unit
  | .report _ => some ()
  | _ => none

/-- A frame that no other command takes (R198, log 13): one that does not fit its kind, or whose action, operation or
report kind is none of those the rules name; whether it is a SETTING that fits its kind. -/
def Msg.ignoredFields : Msg → Option Bool
  | .illFitting _ _ => some false
  | .runctl action => if 6 < action then some false else none
  | .setting _ _ op _ => if 1 < op then some true else none
  | .map _ action => if 1 < action then some false else none
  | .store _ action _ => if 7 < action then some false else none
  | .query _ kind _ _ => if 3 < kind then some false else none
  | _ => none

namespace Station

/-! The wired lines (R181, R47, R49). -/

/-- This station releases READY (R40, R181). -/
def readyReleased (t : Station) : Bool := t.enrolled && decide (t.acq.state = .prepared)

/-- A lane tick passes (R180): the elapsed ticks go on by one, and the drive of READY as the tick ends is what shows in
the sample at the start of the next (R181). -/
def tick (t : Station) : Station :=
  { t with ticks := t.ticks + 1, lif := { t.lif with readyOwn := t.readyReleased } }

/-- This station drives TRIG in the present tick (R49). -/
def trigDriven (t : Station) : Bool := t.tgu.trigDrives.contains t.ticks

/-! Claims. -/

/-- The claim position at which this station contends in a phase (R170). -/
def claimPosition (phase : Nat) (t : Station) : Option Nat :=
  (bestRank phase t.lif.tx).map (fun r => r * 8 + t.straps.station)

/-- The claim phase that CLAIM_PHASE runs, of those that begin at `start` and every 64 ticks after it: the one the
present tick lies in, or the first one that this station contends in, when that is earlier (R170, log 15). -/
def claimStart (start : Nat) (t : Station) : Nat :=
  let k := (t.ticks - start) / 64
  start + 64 * ((firstContended start t.lif.tx).elim k (min k))

/-- A claim phase runs on the idle lane (R170): the earliest pulse wins, its frame begins at the next position; a
phase without a pulse is followed by the next (log 15). The frame won stands in the lane from here on, an ENROL with its
body composed from the record as it now stands. That a RESTART taken before its transfer begins does not stop it, where
R185 speaks of a frame on the data pair alone, is the model's choice (log 77); so is that an ENROL accepted and not yet
taken neither counts in that body (R188) nor removes the ENROL won (R191, step 1; log 78). -/
def claimPhase (others : List Nat) (t : Station) : Station :=
  match t.lif.lane with
  | .transfer _ _ _ => t
  | .idle start =>
    if start ≤ t.ticks then
      let phase := t.claimStart start
      let own := t.claimPosition phase
      match (own.toList ++ others.filter (fun p => decide (p < 32))).min? with
      | none => { t with lif := { t.lif with lane := .idle (phase + 64) } }
      | some p =>
        let wins := decide (own = some p)
        { t with
          lif :=
            { t.lif with
              lane :=
                .transfer (p % 8) (if wins then wonMsg phase (p / 8) t.enrolMsg t.lif.tx else none)
                  (phase + 2 * (p + 1))
              tx := if wins then startOldest phase (p / 8) t.enrolMsg t.lif.tx else t.lif.tx } }
    else t

/-! The end of a frame. -/

/-- The station would place the frame in its receive list (R172): every frame when enrolled, ENROL and RESTART when
not, nothing in the start-up period (R186). A frame whose transfer begins in the start-up period and ends after it goes
by the state at FRAME_END, the model's choice (log 79). -/
def wouldPlace (bytes : List Byte) (t : Station) : Bool := !t.lif.startUp && (t.enrolled || enrolKind bytes)

/-- The receive list holds 8 frames when a VOID window opens (R172); a take in that tick may come before or after
(log 12). -/
def fullAt (window : Nat) (t : Station) : Bool :=
  decide (8 ≤ t.lif.rx.length) ||
  (match t.lif.rxFullTake with
   | some taken => decide (window < taken) || (decide (window = taken) && Config.windowFirst t.free)
   | none => false)

/-- The station pulls VOID in a window (R172); in the start-up period it pulls none (R186), by the state at FRAME_END
(log 79). -/
def pullsVoid (winner window : Nat) (bytes : List Byte) (t : Station) : Bool :=
  !t.lif.startUp && (!frameChecks winner bytes || (t.wouldPlace bytes && t.fullAt window))

/-- The frame on the data pair leaves this station's transmit list (R174, R178). -/
def dropSent (t : Station) : Station := { t with lif := { t.lif with tx := t.lif.tx.filter (fun e => !e.sending) } }

/-- This station is sending its boot recall chain's RECALL (R193). -/
def sendsChain (t : Station) : Bool := t.lif.tx.any (fun e => e.sending && decide (e.origin = .chain))

/-- The chain's RECALL was voided: the chain goes on with RECALL 31 (R193), whose offer takes the freed place before any
other block's: the model's choice (log 67). -/
def chainVoided (t : Station) : Station := if t.smg.chain = .idle then t else t.chainTo .slot31

/-- A frame enters the receive list with its acceptance instant (R173, R176). -/
def receive (m : Msg) (sender : Nat) (fromChain : Bool) (x : Nat) (t : Station) : Station :=
  { t with
    lif :=
      { t.lif with
        rx := t.lif.rx ++ [{ msg := m, sender := sender, acceptedAt := x, fromChain := fromChain }] } }

/-- A frame can end now with these bytes (R171): another node's in the tick of its end; this station's own with the
bytes sent, or with as many that fail the checks of R172, where another node's pulses have damaged them (log 53). -/
def frameFits (winner : Nat) (sent : Option Msg) (start : Nat) (bytes : List Byte) (t : Station) : Bool :=
  match sent with
  | none => decide (5 ≤ bytes.length) && decide (frameEndAt start bytes.length = t.ticks)
  | some m =>
    let frame := m.frame t.straps.station
    decide (bytes.length = frame.length) && decide (frameEndAt start bytes.length ≤ t.ticks) &&
    (decide (bytes = frame) || !frameChecks winner bytes)

/-- The end of a frame's VOID window, 16 ticks a byte and four more after its start (R171 to R174). Whether the frame is
placed, or voided for a full list, goes by the enrolment state and the list as they stand at the command, in no order
against frames that wait, such as an ENROL that completes the enrolment: the model's choice (log 66). -/
def frameEnd (bytes : List Byte) (otherVoid : Bool) (t : Station) : Station :=
  match t.lif.lane with
  | .idle _ => t
  | .transfer winner own start =>
    let x := frameEndAt start bytes.length
    if t.frameFits winner own start bytes then
      let void := otherVoid || t.pullsVoid winner (x - 4) bytes
      let chained := own.isSome && t.sendsChain
      let sent := if own.isSome then t.dropSent else t
      let idle := { sent with free := sent.free + 1, lif := { sent.lif with lane := .idle x } }
      if void then (if chained then idle.chainVoided else idle)
      else if t.wouldPlace bytes then idle.receive (receivedMsg bytes) (byteAt bytes 1) chained x
      else idle
    else t

/-- A block offers again what it keeps (R178). -/
def offerAgain (block : Offerer) (t : Station) : Station :=
  match block with
  | .panel => t.dispatch
  | .setup =>
    (match t.smg.keptProto with
     | some m => if t.room m then { t.place m .setup with smg := { t.smg with keptProto := none } } else t
     | none => t)
  | .chain => if t.smg.keptChain then t.offerChain else t
  | .trigger =>
    (match t.tgu.keptFrame with
     | some m => t.offerTriggered m
     | none => t)
  | .enrol => if t.lif.keptEnrol then t.offerEnrol else t
  | .report => t.offerReport

/-! Queries and frames without effect. -/

/-- The station forms one pending answer, which replaces an earlier one, and offers it (R182). Argument bytes that must be
0 (12, section 12.1) are disregarded where they are not, which is the model's choice (log 63). -/
def queryEffect (kind : Nat) (m : Nat × Nat × Nat) (e : RxEntry) (t : Station) : Station :=
  if m.1 = t.straps.station then
    offerReport
      { t with
        lif := { t.lif with answer := some { addressee := e.sender, kind := kind, arg0 := m.2.1, arg1 := m.2.2 } } }
  else t

/-- A SETTING that fits its kind restarts the settle timer, whatever its operation (R7, R11); nothing else happens. -/
def ignoredEffect (isSetting : Bool) (e : RxEntry) (t : Station) : Station :=
  if isSetting && t.enrolled then t.restartSettle e.acceptedAt else t

/-- The order of R17 for a SETTING among them. -/
def ignoredReady (e : RxEntry) (t : Station) : Bool :=
  match e.msg with
  | .setting _ _ _ _ =>
    (match t.smg.settle with
     | some d => decide (e.acceptedAt < d)
     | none => true) &&
    (match t.smg.op with
     | some o => decide (e.acceptedAt < o.deadline)
     | none => true)
  | _ => true

end Station

/-- CLAIM_PHASE (R170). -/
def execClaimPhase (others : List Nat) (s : State) : Answered := s.on (Station.claimPhase others)

/-- FRAME_END (R171). -/
def execFrameEnd (bytes : List Byte) (otherVoid : Bool) (s : State) : Answered :=
  s.on (Station.frameEnd bytes otherVoid)

/-- TRANSMIT_LIST_ROOM (R178), in no order against frames and timers (log 62). -/
def execTransmitListRoom (block : Offerer) (s : State) : Answered := s.on (Station.offerAgain block)

/-- QUERY_STATION (R183). -/
def execQueryStation (s : State) : Answered := s.on (Station.takeFrame (Msg.queryFields 0) (Station.queryEffect 0))

/-- QUERY_SETTING (R184). -/
def execQuerySetting (s : State) : Answered := s.on (Station.takeFrame (Msg.queryFields 1) (Station.queryEffect 1))

/-- QUERY_BLOCK (R184). -/
def execQueryBlock (s : State) : Answered := s.on (Station.takeFrame (Msg.queryFields 2) (Station.queryEffect 2))

/-- QUERY_WINDOWS (R184). -/
def execQueryWindows (s : State) : Answered := s.on (Station.takeFrame (Msg.queryFields 3) (Station.queryEffect 3))

/-- REPORT (R175): taken and discarded. -/
def execReport (s : State) : Answered :=
  s.on (Station.takeHead Msg.reportFields (fun _ _ => true) (fun _ _ u => u))

/-- ILL_FITTING_FRAME (R198). -/
def execIllFittingFrame (s : State) : Answered :=
  s.on (Station.takeHead Msg.ignoredFields Station.ignoredReady Station.ignoredEffect)

end Sys2Proof.Machine
end

