-- ==== Sys2Proof/Machine/Panel.lean ====
section
/-! DEFINITION. The front panel: SCAN_TIMER_EXPIRY, PANEL_DISPATCH, SEQUENCE_DEADLINE, LED_OVERLAY_END, and what an
LED shows. -/

namespace Sys2Proof.Machine

/-- A base mode shows lit so long after it was set (R109). -/
def LedMode.lit (m : LedMode) (elapsed : Nat) : Bool :=
  match m with
  | .off => false
  | .on => true
  | .slow => decide (elapsed / (500 * Config.ms) % 2 = 0)
  | .fast => decide (elapsed / (125 * Config.ms) % 2 = 0)

/-- A pattern shows lit so long after its start (R109). -/
def Pattern.lit (p : Pattern) (elapsed : Nat) : Bool :=
  match p with
  | .code n =>
    if n = 0 then decide (elapsed % (1800 * Config.ms) < 1000 * Config.ms)
    else
      let cycle := elapsed % ((400 * n + 800) * Config.ms)
      decide (cycle < 400 * n * Config.ms) && decide (cycle % (400 * Config.ms) < 200 * Config.ms)
  | .flash | .range => true
  | .sequence => LedMode.fast.lit elapsed

namespace Station

/-- What an LED of the table shows now; in standby every LED but STANDBY is dark (R109, R113). -/
def ledLit (e : LedEntry) (t : Station) : Bool :=
  if t.standby && decide (e.led ≠ .standby) then false
  else
    match e.overlay with
    | some o => o.1.lit (t.ticks - o.2)
    | none => e.mode.lit (t.ticks - e.since)

/-- The slot sequence's deadline has come: it is cancelled silently (R104). -/
def endDeadline (x : Nat) (t : Station) : Station :=
  match t.pns.sequence with
  | some q => (t.endSequence q none x).refreshLeds x
  | none => t

/-- The entry of an LED in the table. -/
def ledEntry (led : Led) (t : Station) : Option LedEntry := t.pns.leds.find? (fun e => decide (e.led = led))

/-- An LED's overlay has run its time: the LED shows its base mode (R109). -/
def endOverlay (led : Led) (_x : Nat) (t : Station) : Station :=
  { t with
    pns := { t.pns with leds := t.pns.leds.map (fun e => if e.led = led then { e with overlay := none } else e) } }

end Station

/-- SCAN_TIMER_EXPIRY (R94). -/
def execScanTimerExpiry (keys : BitVec 64) (detents : List Int) (s : State) : Answered :=
  s.on fun t => t.expire (some t.pns.scanTimer) (Station.scan keys detents)

/-- PANEL_DISPATCH (R102). -/
def execPanelDispatch (s : State) : Answered := s.on Station.dispatch

/-- SEQUENCE_DEADLINE (R104). -/
def execSequenceDeadline (s : State) : Answered :=
  s.on fun t => t.expire (t.pns.sequence.map (·.deadline)) Station.endDeadline

/-- LED_OVERLAY_END (R109). -/
def execLedOverlayEnd (led : Led) (s : State) : Answered :=
  s.on fun t => t.expire ((t.ledEntry led).bind LedEntry.overlayEnd) (Station.endOverlay led)

end Sys2Proof.Machine
end

