-- ==== Sys2Proof/Machine/RunControl.lean ====
section
/-! DEFINITION. Run control: RUNCTL_RUN, RUNCTL_STOP, RUNCTL_SINGLE, RUNCTL_FORCE, RUNCTL_CLEARDISPLAY,
RUNCTL_STANDBY, RUNCTL_WAKE. -/

namespace Sys2Proof.Machine

/-- A RUNCTL frame of one action. -/
def Msg.runctlFields (action : Nat) : Msg → Option Unit
  | .runctl a => if a = action then some () else none
  | _ => none

namespace Station

/-- Take a RUNCTL frame of an action (R175). -/
def takeRunctl (action : Nat) (f : Nat → Station → Station) (t : Station) : Station :=
  t.takeFrame (Msg.runctlFields action) (fun _ e u => f e.acceptedAt u)

/-- RUN, SINGLE and STOP set the run state, or in standby the saved run state (R57, R62), and the run state of a
flip-pending STAGED window's run section (R60). -/
def commandRun (r : RunState) (t : Station) : Station :=
  let u := if t.standby then { t with tgu := { t.tgu with savedRun := some r } } else t.setRun r
  match u.flipIndex with
  | some i => u.setWindow i { u.smg.windows.get i with runState := r }
  | none => u

/-- The effect of RUN and SINGLE (R57). -/
def runEffect (r : RunState) (x : Nat) (t : Station) : Station := ((t.commandRun r).tryStart x).refreshLeds x

/-- The effect of STOP (R58, R60); in standby the station is in IDLE already or completing a record. -/
def stopEffect (x : Nat) (t : Station) : Station := ((t.commandRun .stopped).stopAcq x).refreshLeds x

/-- The effect of FORCE: the source in PRETRIG or ARMED triggers at sample (t + 1, 0) (R51). -/
def forceEffect (x : Nat) (t : Station) : Station :=
  if t.isSource && (decide (t.acq.state = .pretrig) || decide (t.acq.state = .armed)) then
    t.takeTrigger x (x + 1) 0 .force
  else t

/-- Every output frame that has started keeps the blank request of its start (R92, log 38). A STANDBY or WAKE accepted in
the tick of an output frame's start comes after that start, which is the model's choice (log 47). -/
def latchBlank (x : Nat) (t : Station) : Station :=
  { t with
    rse :=
      { t.rse with
        outs := t.rse.outs.map (fun o =>
          if o.blank.isNone && decide (o.start ≤ x) then { o with blank := some t.rse.blank } else o) } }

/-- Set the blank request (R92). -/
def setBlank (b : Bool) (x : Nat) (t : Station) : Station :=
  let u := t.latchBlank x
  { u with rse := { u.rse with blank := b } }

/-- The tracking save at standby entry (R21). Where the highest epoch forbids the save, settle timer and due flag stand as
they are, which is the model's choice (log 56). -/
def standbySave (t : Station) : Station :=
  if t.smg.untracked && decide (t.smg.highest ≠ Config.maxEpoch) then
    let u := t.trackingSave
    { u with smg := { u.smg with settle := none, due := false } }
  else t

/-- The effect of STANDBY out of standby (R195, R62, R21, R92, R113). A pending flip that IDLE performs comes before the
tracking save, which packs the new LIVE window: the model's choice (log 55). -/
def standbyEffect (x : Nat) (t : Station) : Station :=
  if t.standby then t
  else
    let saved := { t with standby := true, tgu := { t.tgu with savedRun := some t.tgu.run } }
    let stopped := (saved.setRun .stopped).stopAcq x
    (((stopped.standbySave.writeBackDirty).setBlank true x).standbyPns).refreshLeds x

/-- The effect of WAKE in standby (R196, R62). -/
def wakeEffect (x : Nat) (t : Station) : Station :=
  if !t.standby then t
  else
    let restored := setRun (t.tgu.savedRun.getD t.tgu.run) { t with standby := false }
    let woken := { restored with tgu := { restored.tgu with savedRun := none } }
    ((woken.setBlank false x).tryStart x).refreshLeds x

end Station

/-- RUNCTL_RUN (R57). -/
def execRunctlRun (s : State) : Answered := s.on (Station.takeRunctl 0 (Station.runEffect .running))

/-- RUNCTL_STOP (R58). -/
def execRunctlStop (s : State) : Answered := s.on (Station.takeRunctl 1 Station.stopEffect)

/-- RUNCTL_SINGLE (R57). -/
def execRunctlSingle (s : State) : Answered := s.on (Station.takeRunctl 2 (Station.runEffect .single))

/-- RUNCTL_FORCE (R51). -/
def execRunctlForce (s : State) : Answered := s.on (Station.takeRunctl 3 Station.forceEffect)

/-- RUNCTL_CLEARDISPLAY (R67). -/
def execRunctlCleardisplay (s : State) : Answered :=
  s.on (Station.takeRunctl 4 (fun _ t => t.requestClear true true))

/-- RUNCTL_STANDBY (R195). -/
def execRunctlStandby (s : State) : Answered := s.on (Station.takeRunctl 5 Station.standbyEffect)

/-- RUNCTL_WAKE (R196). -/
def execRunctlWake (s : State) : Answered := s.on (Station.takeRunctl 6 Station.wakeEffect)

end Sys2Proof.Machine
end

