-- ==== Sys2Proof/Machine/Setting.lean ====
section
/-! DEFINITION. Settings and their timers: SETTING_SET, SETTING_STEP, SETTLING_TIMER_EXPIRY, SETTLE_TIMER_EXPIRY. -/

namespace Sys2Proof.Machine

/-- A SETTING frame with this operation code: channel, setting number and value. -/
def Msg.settingFields (op : Nat) : Msg → Option (Nat × Nat × Int)
  | .setting channel number o v => if o = op then some (channel, number, v) else none
  | _ => none

/-- Where an applied SETTING frame goes: the common section or a local channel's (R7). -/
inductive Section where
  | common
  | channel (isB : Bool)
deriving DecidableEq, Repr

/-- The section of this station that applies a frame for a channel and setting number (R7). -/
def sectionOf (station count channel number : Nat) : Option Section :=
  if channel = 0 then (if 1 ≤ number ∧ number ≤ 16 then some .common else none)
  else if 2 * count < channel then none
  else if number < 1 ∨ 9 < number then none
  else if (channel - 1) / 2 = station then some (.channel (decide (channel % 2 = 0)))
  else none

/-- A window after a SETTING frame (R8, R9); a change of RUNMODE reaches the run section of a window that holds one
(R125). -/
def Window.applySetting (count : Nat) (op : SettingOp) (sect : Section) (number : Nat) (v : Int) (w : Window) :
    Window :=
  match sect with
  | .common =>
    let c := w.common.applySetting count op number v
    { w with common := c, runMode := if w.role = .staged then c.runmode else w.runMode }
  | .channel false => { w with chA := w.chA.applySetting op number v }
  | .channel true => { w with chB := w.chB.applySetting op number v }

/-- The common settings whose change brings a notice to RSE on COMMON-role stations (R12). -/
def commonNoticed (number : Nat) : Bool := [1, 2, 4, 5, 6, 7, 8, 9, 10, 12].contains number

/-- The channel settings whose change brings a notice to RSE (R12). -/
def channelNoticed (number : Nat) : Bool := [1, 2, 3, 4, 5, 6, 9].contains number

namespace Station

/-- The notices that follow a change of the LIVE window (R12): readouts rebuilt (R90), a layer cleared when its
ENABLE has become 0 (R67). -/
def notice (sect : Section) (number : Nat) (t : Station) : Station :=
  match sect with
  | .common => if commonNoticed number then t.rebuildCommon else t
  | .channel isB =>
    let shown := if channelNoticed number then t.rebuildChannel isB else t
    let enable := if isB then t.live.chB.enable else t.live.chA.enable
    if number = 1 ∧ enable = 0 then shown.requestClear (!isB) isB else shown

/-- In PREPARING and PREPARED a change of the LIVE window updates the capture, and a changed front-end value sends its
channel's word (R13, R15, R16). -/
def updateCapture (x : Nat) (t : Station) : Station :=
  match t.acq.capture with
  | none => t
  | some old =>
    if t.waiting then
      let c := captureOf t.live.common t.live.chA t.live.chB
      let u := { t with acq := { t.acq with capture := some c } }
      let sentA := if c.a.word = old.a.word then u else u.sendWord false c.a.word x
      let sentB := if c.b.word = old.b.word then sentA else sentA.sendWord true c.b.word x
      sentB.settleAcq
    else t

/-- Apply a SETTING frame to its target window: a flip-pending STAGED one, else the LIVE one (R10, R12, R13). -/
def applySettingFrame (op : SettingOp) (sect : Section) (number : Nat) (v : Int) (x : Nat) (t : Station) : Station :=
  match t.flipIndex with
  | some i => t.setWindow i ((t.smg.windows.get i).applySetting t.straps.count op sect number v)
  | none =>
    let w := t.live.applySetting t.straps.count op sect number v
    if w = t.live then t else ((t.setWindow t.liveIndex w).notice sect number).updateCapture x

/-- SMG handles a SETTING frame (R7 to R11). -/
def settingEffect (op : SettingOp) (m : Nat × Nat × Int) (e : RxEntry) (t : Station) : Station :=
  if t.enrolled then
    let applied :=
      match sectionOf t.straps.station t.straps.count m.1 m.2.1 with
      | some sect => t.applySettingFrame op sect m.2.1 m.2.2 e.acceptedAt
      | none => t
    (applied.restartSettle e.acceptedAt).refreshLeds e.acceptedAt
  else t

/-- A settle expiry or a close by timeout of the frame's tick is taken before the frame (R17). -/
def settingReady (e : RxEntry) (t : Station) : Bool :=
  (match t.smg.settle with
   | some d => decide (e.acceptedAt < d)
   | none => true) &&
  (match t.smg.op with
   | some o => decide (e.acceptedAt < o.deadline)
   | none => true)

/-- Take a SETTING frame with an operation code. -/
def takeSetting (code : Nat) (op : SettingOp) (t : Station) : Station :=
  t.takeHead (Msg.settingFields code) settingReady (settingEffect op)

/-- The settling timer expires (R16, R42). -/
def endSettling (_x : Nat) (t : Station) : Station := settleAcq { t with smg := { t.smg with settling := none } }

/-- The settle timer expires (R17). -/
def endSettle (_x : Nat) (t : Station) : Station :=
  let u := { t with smg := { t.smg with settle := none } }
  if t.smg.highest = Config.maxEpoch then u
  else if t.smg.op.isSome then { u with smg := { u.smg with due := true } }
  else u.trackingSave

/-- No RECALL or SAVE accepted by then waits: the opening of an operation is taken before an expiry of its tick
(R17). -/
def noOpening (x : Nat) (t : Station) : Bool :=
  t.lif.rx.all (fun e =>
    match e.msg with
    | .recall _ | .save _ _ => decide (x < e.acceptedAt)
    | _ => true)

end Station

/-- SETTING_SET (R8). -/
def execSettingSet (s : State) : Answered := s.on (Station.takeSetting 0 .set)

/-- SETTING_STEP (R9). -/
def execSettingStep (s : State) : Answered := s.on (Station.takeSetting 1 .step)

/-- SETTLING_TIMER_EXPIRY (R16). -/
def execSettlingTimerExpiry (s : State) : Answered :=
  s.on fun t => t.expire t.smg.settling Station.endSettling

/-- SETTLE_TIMER_EXPIRY (R17), once its tick has ended: a RECALL or SAVE of that tick opens its operation first. -/
def execSettleTimerExpiry (s : State) : Answered :=
  s.on fun t => t.expire t.smg.settle (fun x u => if u.closedTick x && u.noOpening x then u.endSettle x else u)

end Sys2Proof.Machine
end

