-- ==== Sys2Proof/Machine/SetupOps.lean ====
section
/-! DEFINITION. Setup operations and maps: RECALL, LISTED, STAGED, SAVE, SAVED, MAP_HOLD, MAP_RELEASE,
OPERATION_WINDOW_EXPIRY, SST_QUEUE_ROOM. -/

namespace Sys2Proof.Machine

/-- The slot of a RECALL frame. -/
def Msg.recallFields : Msg → Option Nat
  | .recall slot => some slot
  | _ => none

/-- Slot and epochs of a LISTED frame. -/
def Msg.listedFields : Msg → Option (Nat × List Epoch)
  | .listed slot epochs => some (slot, epochs)
  | _ => none

/-- The fields of a STAGED frame. -/
def Msg.stagedFields : Msg → Option (Nat × Nat × List Byte × Nat)
  | .staged outcome digest common run => some (outcome, digest, common, run)
  | _ => none

/-- Slot and epoch of a SAVE frame. -/
def Msg.saveFields : Msg → Option (Nat × Epoch)
  | .save slot epoch => some (slot, epoch)
  | _ => none

/-- The fields of a SAVED frame. -/
def Msg.savedFields : Msg → Option (Nat × Epoch × Nat)
  | .saved slot epoch outcome => some (slot, epoch, outcome)
  | _ => none

/-- The slot of a MAP frame with this action. -/
def Msg.mapFields (action : Nat) : Msg → Option Nat
  | .map slot a => if a = action then some slot else none
  | _ => none

namespace Station

/-- A RECALL opens an operation, or is ignored (R149); the boot recall chain waits for the close (R193). -/
def recallEffect (slot : Nat) (e : RxEntry) (t : Station) : Station :=
  if 31 < slot then t
  else if t.smg.op.isSome then
    (if e.fromChain then { t with smg := { t.smg with chainWait := .other } } else t)
  else
    let opened := t.openOp .recall slot none e.acceptedAt
    let waits := if e.fromChain then { opened with smg := { opened.smg with chainWait := .own } } else opened
    (waits.sendListed slot).refreshLeds e.acceptedAt

/-- A LISTED frame enters the results, or is ignored (R150). -/
def listedEffect (m : Nat × List Epoch) (e : RxEntry) (t : Station) : Station :=
  match t.smg.op with
  | none => t
  | some o =>
    if decide (o.kind = .recall) && decide (o.round = .listing) && decide (o.slot = m.1) && t.awaits o e.sender then
      (t.takeListed o e.sender m.2 e.acceptedAt).refreshLeds e.acceptedAt
    else t

/-- A STAGED frame enters the results, or is ignored (R150, R198). -/
def stagedEffect (m : Nat × Nat × List Byte × Nat) (e : RxEntry) (t : Station) : Station :=
  match t.smg.op, OutcomeCode.ofCode m.1 with
  | some o, some outcome =>
    if decide (o.kind = .recall) && decide (o.round = .staging) && t.awaits o e.sender then
      (t.takeStagedResult o e.sender (.staged outcome m.2.1 m.2.2.1 m.2.2.2) e.acceptedAt).refreshLeds e.acceptedAt
    else t
  | _, _ => t

/-- The fill of a HELD window is given up: its READ's bytes go to no one, or it is dropped while SMG still keeps it
(R162, R167). -/
def stopFill (i : Nat) (t : Station) : Station :=
  mapStored (fun r => if r.purpose = .fill i then { r with purpose := .none } else r)
    { t with smg := { t.smg with kept := t.smg.kept.filter (fun r => decide (r.purpose ≠ .fill i)) } }

/-- A SAVE of a held slot: the packed image is unpacked into the HELD window (R162). -/
def saveIntoHeld (i slot : Nat) (epoch : Epoch) (image : List Byte) (t : Station) : Station :=
  match t.unpack slot image with
  | .ok c =>
    ((t.stopFill i).setWindow i (filledWindow .held (some slot) true c)).queueProto
      (.saved slot epoch OutcomeCode.ok.code)
  | .error o => t.queueProto (.saved slot epoch o.code)

/-- The first step of a SAVE (R161 to R163). -/
def beginSave (slot : Nat) (epoch : Epoch) (t : Station) : Station :=
  if epoch.toNat ≤ t.smg.highest.toNat then t.queueProto (.saved slot epoch OutcomeCode.epoch.code)
  else
    let u := { t with smg := { t.smg with highest := epoch } }
    let image := u.packLive slot epoch
    match u.heldIndex slot with
    | some i => u.saveIntoHeld i slot epoch image
    | none => u.offerRequest (appendRequest slot epoch image .save)

/-- A SAVE opens an operation, or is ignored (R149). -/
def saveEffect (m : Nat × Epoch) (e : RxEntry) (t : Station) : Station :=
  if decide (31 < m.1) || t.smg.op.isSome then t
  else ((t.openOp .save m.1 (some m.2) e.acceptedAt).beginSave m.1 m.2).refreshLeds e.acceptedAt

/-- A SAVED frame enters the results, or is ignored (R150). -/
def savedEffect (m : Nat × Epoch × Nat) (e : RxEntry) (t : Station) : Station :=
  match t.smg.op, OutcomeCode.ofCode m.2.2 with
  | some o, some outcome =>
    if decide (o.kind = .save) && decide (o.slot = m.1) && decide (o.epoch = some m.2.1) && t.awaits o e.sender then
      (t.takeSavedResult o e.sender outcome e.acceptedAt).refreshLeds e.acceptedAt
    else t
  | _, _ => t

/-- The APPENDs of a slot that have not ended: kept by SMG, queued, or current (R166). -/
def unendedAppends (slot : Nat) (t : Station) : List Request :=
  let current :=
    match t.sst.current with
    | some c => if c.stage.isRescan then [] else [c.request]
    | none => []
  (current ++ t.sst.queue ++ t.smg.kept).filter (fun r => decide (r.kind = .append) && decide (r.block = slot))

/-- The newest of them, by epoch (log 28). -/
def newestAppend (slot : Nat) (t : Station) : Option Request :=
  match t.unendedAppends slot with
  | [] => none
  | r :: rest => some (rest.foldl (fun a b => if a.epoch.toNat < b.epoch.toNat then b else a) r)

/-- An empty HELD window of a slot (R166). Until an image fills it, empty or loading, its sections and run section stand
at the blank window's values: the model's choice (log 70). -/
def emptyHeld (slot : Nat) : Window := { Window.blank with role := .held, mapped := some slot }

/-- Fill a newly HELD window from the newest image of the slot (R166). -/
def fillHeld (i slot : Nat) (t : Station) : Station :=
  match t.newestAppend slot with
  | some r =>
    (match t.unpack slot r.image with
     | .ok c => t.setWindow i (filledWindow .held (some slot) true c)
     | .error _ => t.setWindow i (emptyHeld slot))
  | none =>
    match (t.entry slot).newest with
    | some e =>
      (t.setWindow i { emptyHeld slot with epoch := some e, loading := true }).offerRequest
        (readRequest slot e (.fill i))
    | none => t.setWindow i (emptyHeld slot)

/-- MAP HOLD (R165). -/
def mapHoldEffect (slot : Nat) (_e : RxEntry) (t : Station) : Station :=
  if t.smg.op.isNone && decide (1 ≤ slot) && decide (slot ≤ 30) &&
      decide (t.smg.windows.count (fun w => decide (w.role = .held)) < 2) && (t.heldIndex slot).isNone then
    match t.freeIndex with
    | some i => t.fillHeld i slot
    | none => t
  else t

/-- MAP RELEASE (R167). -/
def mapReleaseEffect (slot : Nat) (_e : RxEntry) (t : Station) : Station :=
  if t.smg.op.isNone then
    match t.heldIndex slot with
    | none => t
    | some i =>
      let w := t.smg.windows.get i
      let written :=
        if w.dirty then t.offerRequest (appendRequest slot (w.epoch.getD 0) (t.packHeld w) .none) else t
      (written.stopFill i).setWindow i Window.blank
  else t

/-- No frame accepted by then waits but SETTINGs, which R17 puts behind the close: the frames of the expiry's tick count,
and a RECALL, SAVE or MAP of that tick still finds the operation open (R151). -/
def noneWaits (x : Nat) (t : Station) : Bool :=
  t.lif.rx.all (fun e => decide (e.msg.rank = 2) || decide (x < e.acceptedAt))

/-- The operation's window expires (R151): once its tick has ended and the frames accepted in it have been taken. -/
def endWindow (x : Nat) (t : Station) : Station :=
  if t.closedTick x && t.noneWaits x then (t.closeOp .timeout x).refreshLeds x else t

end Station

/-- RECALL (R149). -/
def execRecall (s : State) : Answered := s.on (Station.takeFrame Msg.recallFields Station.recallEffect)

/-- LISTED (R150). -/
def execListed (s : State) : Answered := s.on (Station.takeFrame Msg.listedFields Station.listedEffect)

/-- STAGED (R156). -/
def execStaged (s : State) : Answered := s.on (Station.takeFrame Msg.stagedFields Station.stagedEffect)

/-- SAVE (R161). -/
def execSave (s : State) : Answered := s.on (Station.takeFrame Msg.saveFields Station.saveEffect)

/-- SAVED (R163). -/
def execSaved (s : State) : Answered := s.on (Station.takeFrame Msg.savedFields Station.savedEffect)

/-- MAP_HOLD (R165). -/
def execMapHold (s : State) : Answered := s.on (Station.takeFrame (Msg.mapFields 0) Station.mapHoldEffect)

/-- MAP_RELEASE (R167). -/
def execMapRelease (s : State) : Answered := s.on (Station.takeFrame (Msg.mapFields 1) Station.mapReleaseEffect)

/-- OPERATION_WINDOW_EXPIRY (R151). -/
def execOperationWindowExpiry (s : State) : Answered :=
  s.on fun t => t.expire (t.smg.op.map Op.deadline) Station.endWindow

/-- SST_QUEUE_ROOM (R132), in no order against frames and timers (log 62). -/
def execSstQueueRoom (s : State) : Answered := s.on Station.drainKept

end Sys2Proof.Machine
end

