-- ==== Sys2Proof/Machine/Startup.lean ====
section
/-! DEFINITION. Start-up and enrolment: POWER_ON_RESET, POWER_ON_SCAN, POWER_LOSS, ANNOUNCE_TIMER_EXPIRY,
FAULT_TIMER_EXPIRY, ENROL, RESTART. -/

namespace Sys2Proof.Machine

/-- The array as a power loss leaves it: an act in progress is cut off (R147). -/
def Station.cutArray (t : Station) : List Host.Cell :=
  match t.sst.current with
  | none => t.sst.array
  | some c => lostArray t.free c.request.block c.stage t.sst.array

/-- POWER_ON_RESET (R186): every block takes its power-on values; the array is kept (R147). -/
def execPowerOnReset (straps : Straps) (s : State) : Answered :=
  .next { s with station := { Station.powerOn straps s.station.cutArray with free := s.station.free + 1 } }

/-- POWER_LOSS (R147): an operation in progress is cut off, and the station does nothing until the next power-on
reset. That the sequencer shows READY meanwhile is the model's choice (log 76). -/
def execPowerLoss (s : State) : Answered :=
  s.on fun t =>
    { t with
      powered := false
      free := t.free + 1
      sst :=
        { t.sst with
          array := t.cutArray, page := none, queue := [], seq := .ready, current := none, holdRead := none,
          abandonAfterRead := false } }

/-- The end of the power-on scan (R130, R186). -/
def Station.endScan (t : Station) : Station :=
  let index := (List.range 32).map (powerOnEntry t.sst.array)
  let scanned :=
    { t with
      lif := { t.lif with startUp := false }
      sst := { t.sst with index := index }
      smg := { t.smg with highest := highestEpoch index } }
  let joined := scanned.becomeUnenrolled t.ticks
  (if t.strapFault then joined.enterLaneFault t.ticks else joined).refreshLeds t.ticks

/-- POWER_ON_SCAN (R130): only during the start-up period. -/
def execPowerOnScan (s : State) : Answered :=
  s.on fun t => if t.lif.startUp then t.endScan else t

/-- ANNOUNCE_TIMER_EXPIRY (R188). -/
def execAnnounceTimerExpiry (s : State) : Answered :=
  s.on fun t => t.expire t.lif.enrol.announce Station.announce

/-- The fault timer expires (R190): a station with a strap fault stays in LANE_FAULT (R186). -/
def Station.endLaneFault (x : Nat) (t : Station) : Station :=
  let u := { t with lif := { t.lif with enrol := { t.lif.enrol with fault := none } } }
  if t.strapFault then u else (u.becomeUnenrolled x).refreshLeds x

/-- FAULT_TIMER_EXPIRY (R190). -/
def execFaultTimerExpiry (s : State) : Answered :=
  s.on fun t => t.expire t.lif.enrol.fault Station.endLaneFault

/-- The fields of an ENROL frame. -/
def Msg.enrolFields : Msg → Option (Nat × Nat × Epoch × Nat)
  | .enrol count heard epoch noLive => some (count, heard, epoch, noLive)
  | _ => none

/-- A station examines an accepted ENROL (R189, R192). One from a console node, or whose flag is neither 0 nor 1
(R175, log 42), is ignored; that such a flag comes before a mismatch, R198's heard bits 4 to 7 among them, is the
model's choice (log 80). -/
def Station.examineEnrol (m : Nat × Nat × Epoch × Nat) (e : RxEntry) (t : Station) : Station :=
  let taken (u : Station) := u.takeEnrol e.sender m.1 m.2.1 m.2.2.1 (decide (m.2.2.2 = 1)) e.acceptedAt
  let examined :=
    if decide (4 ≤ e.sender) || decide (1 < m.2.2.2) then t
    else if !t.enrolled then taken t
    else if t.enrolMatches e.sender m.1 m.2.1 && t.heardFull m.2.1 then t
    else taken (t.restartStation e.acceptedAt)
  examined.refreshLeds e.acceptedAt

/-- ENROL (R189). -/
def execEnrol (s : State) : Answered :=
  s.on fun t => t.takeHead Msg.enrolFields (fun _ _ => true) Station.examineEnrol

/-- A RESTART frame. -/
def Msg.restartFields : Msg → Option Unit
  | .restart => some ()
  | _ => none

/-- RESTART (R194): whatever the enrolment state. -/
def execRestart (s : State) : Answered :=
  s.on fun t => t.takeHead Msg.restartFields (fun _ _ => true) (fun _ e u => u.restartStation e.acceptedAt)

end Sys2Proof.Machine
end

