-- ==== Sys2Proof/Machine/Store.lean ====
section
/-! DEFINITION. The setup store: the STORE frames (R141 to R145) and the sequencer's commands SEQUENCER_TAKE, READ_END,
WRITE_END, CLEAR_END, CLEAR_SUSPEND, STORE_TIME_LIMIT, RESCAN_END, COMPACTION_READ_END. -/

namespace Sys2Proof.Machine

/-- Target and block of a STORE frame with this action. -/
def Msg.storeFields (action : Nat) : Msg → Option (Nat × Nat)
  | .store target a block => if a = action then some (target, block) else none
  | _ => none

/-- The guard state after OPEN, GUARD or PIN (R142). -/
def Guard.after (wanted g : Guard) : Guard := if g = .pinned then .pinned else wanted

namespace Station

/-- The station is a STORE frame's target: its own number, or ALL (R145, R198). -/
def storeTarget (target : Nat) (t : Station) : Bool := decide (target = t.straps.station) || decide (target = 15)

/-- Take a STORE frame of an action that names a block; a block above 31 makes the station ignore it (R145). -/
def takeBlockAction (action : Nat) (f : Nat → Station → Station) (t : Station) : Station :=
  t.takeFrame (Msg.storeFields action) (fun m _ u => if u.storeTarget m.1 && decide (m.2 ≤ 31) then f m.2 u else u)

/-- Take a STORE frame of an action whose block field is ignored (R145). -/
def takePlainAction (action : Nat) (f : Station → Station) (t : Station) : Station :=
  t.takeFrame (Msg.storeFields action) (fun m _ u => if u.storeTarget m.1 then f u else u)

/-- OPEN, GUARD and PIN move a block's guard state (R142); a request in progress on that block is tested (R144). -/
def moveGuard (wanted : Guard) (block : Nat) (t : Station) : Station :=
  let e := t.entry block
  let u := t.setEntry block { e with guard := wanted.after e.guard }
  match t.sst.current with
  | some c => if c.request.block = block then u.testProtection else u
  | none => u

/-- CLEAR_STATUS (R141). -/
def clearStatus (t : Station) : Station :=
  { t with sst := { t.sst with writeFault := false, clearFault := false, timeFault := false, faultBlock := none } }

/-- OVERRIDE_ON (R143). -/
def overrideOn (t : Station) : Station := { t with sst := { t.sst with override := true } }

/-- OVERRIDE_OFF (R143); a request in progress on any block is tested (R144). -/
def overrideOff (t : Station) : Station := testProtection { t with sst := { t.sst with override := false } }

/-- The sequencer takes a request: the oldest in READY, in HELD a READ of another block (R132, R139). -/
def sequencerTake (t : Station) : Station :=
  match t.sst.seq with
  | .ready => if t.sst.current.isNone then t.takeOldest else t
  | .held => t.takeInHold
  | .reading | .writing | .clearing | .readingInHold => t

/-- A READ ends with the bytes of its position (R135, R139); a clear that was to be abandoned once it had ended is
abandoned now (R144). -/
def readEnd (t : Station) : Station :=
  match t.sst.current with
  | none => t
  | some c =>
    match t.sst.seq, c.stage with
    | .reading, .reading p => t.finishCurrent .ok (readPosition t.sst.array c.request.block p)
    | .readingInHold, _ =>
      (match t.sst.holdRead with
       | none => t
       | some (r, p) =>
         let held := { t with sst := { t.sst with seq := .held, holdRead := none } }
         let ended := held.endRequest r .ok (readPosition t.sst.array r.block p)
         if t.sst.abandonAfterRead then ended.abandon c .protect else ended.resumeClear)
    | _, _ => t

/-- The copy of the newest generation into the page buffer ends, and the clear begins (R137). -/
def copyEnd (t : Station) : Station :=
  match t.sst.current with
  | none => t
  | some c =>
    match c.stage with
    | .copying p =>
      beginClear c
        { t with sst := { t.sst with page := some (readPosition t.sst.array c.request.block p) } }
    | _ => t

/-- A write's verify ends (R136 to R138, R141): what it reads back is what the position or the word now holds. -/
def writeEnd (readBack : List Byte) (t : Station) : Station :=
  match t.sst.current with
  | none => t
  | some c =>
    let block := c.request.block
    match c.stage with
    | .writing p image last start =>
      if decide (readBack.length = 256) && (decide (readBack = image) || !imageValid readBack) &&
          decide (t.ticks ≤ start + Config.writeLimit) then
        let u :=
          { t with
            sst := { t.sst with array := Sparse.writeRun erasedByte t.sst.array (positionAddress block p) readBack } }
        if readBack ≠ image then u.failWrite c
        else if last then u.finishCurrent .ok []
        else u.beginWrite c 1 c.request.image true
      else t
    | .marking start =>
      if decide (readBack.length = 4) && decide (t.ticks ≤ start + Config.writeLimit) then
        let u :=
          { t with sst := { t.sst with array := Sparse.writeRun erasedByte t.sst.array (keepAddress block) readBack } }
        if readBack = leBytes 4 Config.keepPattern then
          (u.setEntry block { u.entry block with keep := true }).finishCurrent .ok []
        else u.failWrite c
      else t
    | _ => t

/-- The bytes that a clear's verify finds not erased stay in the block. -/
def clearedArray (block : Nat) (left : List Host.Cell) (array : List Host.Cell) : List Host.Cell :=
  left.foldl (fun m c => if c.1 < 4100 then Sparse.write erasedByte m (blockAddress block c.1) c.2 else m)
    (eraseBlock array block)

/-- A clear's verify ends (R137, R138, R141). -/
def clearEnd (left : List Host.Cell) (t : Station) : Station :=
  match t.sst.current with
  | none => t
  | some c =>
    let block := c.request.block
    match c.stage with
    | .clearing spent since =>
      if decide (t.sst.seq = .clearing) && decide (spent + (t.ticks - since) ≤ Config.clearLimit) then
        let u := { t with sst := { t.sst with array := clearedArray block left t.sst.array } }
        if left.any (fun b => decide (b.1 < 4100) && decide (b.2 ≠ erasedByte)) then
          failCurrent c .storeFault true
            { u with sst := { u.sst with clearFault := true, faultBlock := some block } }
        else
          let v := u.setUnverified block false
          if c.request.kind = .discard then v.finishCurrent .ok []
          else
            match t.sst.page with
            | some image => v.beginWrite c 0 image false
            | none => v.beginWrite c 0 c.request.image true
      else t
    | _ => t

/-- A clear is suspended for a queued READ of another block (R139), unless it has reached its limit, at which it is
abandoned (R140). -/
def suspendClear (t : Station) : Station :=
  match t.sst.current with
  | none => t
  | some c =>
    match c.stage with
    | .clearing spent since =>
      let spentNow := spent + (t.ticks - since)
      if decide (t.sst.seq = .clearing) && decide (spentNow < Config.clearLimit) &&
          t.sst.queue.any (overtakes c.request.block) then
        t.enterStage .held c (.clearing spentNow t.ticks)
      else t
    | _ => t

/-- The act in progress reaches its limit and is abandoned (R140). -/
def reachLimit (_x : Nat) (t : Station) : Station :=
  match t.sst.current with
  | none => t
  | some c =>
    abandon c .storeFault { t with sst := { t.sst with timeFault := true, faultBlock := some c.request.block } }

/-- The rescan of a block ends: its entry is rebuilt, the guard state left, DISORDERED also when the block's last clear
did not end verified, and the sequencer is READY (R129, R140). -/
def rescanEnd (t : Station) : Station :=
  match t.sst.current with
  | none => t
  | some c =>
    match c.stage with
    | .rescanning =>
      let block := c.request.block
      let old := t.entry block
      let e := scanBlock t.sst.array block old.guard
      (t.setEntry block { e with disordered := e.disordered || old.unverified, unverified := old.unverified }).toReady
    | _ => t

end Station

/-- STORE_OPEN (R142). -/
def execStoreOpen (s : State) : Answered := s.on (Station.takeBlockAction 0 (Station.moveGuard .opened))

/-- STORE_GUARD (R142). -/
def execStoreGuard (s : State) : Answered := s.on (Station.takeBlockAction 1 (Station.moveGuard .guarded))

/-- STORE_PIN (R142). -/
def execStorePin (s : State) : Answered := s.on (Station.takeBlockAction 2 (Station.moveGuard .pinned))

/-- STORE_KEEP (R145). -/
def execStoreKeep (s : State) : Answered := s.on (Station.takeBlockAction 3 (Station.offerStore .mark))

/-- STORE_OVERRIDE_ON (R143). -/
def execStoreOverrideOn (s : State) : Answered := s.on (Station.takePlainAction 4 Station.overrideOn)

/-- STORE_OVERRIDE_OFF (R144). -/
def execStoreOverrideOff (s : State) : Answered := s.on (Station.takePlainAction 5 Station.overrideOff)

/-- STORE_CLEAR_STATUS (R141). -/
def execStoreClearStatus (s : State) : Answered := s.on (Station.takePlainAction 6 Station.clearStatus)

/-- STORE_DISCARD (R145). -/
def execStoreDiscard (s : State) : Answered := s.on (Station.takeBlockAction 7 (Station.offerStore .discard))

/-- SEQUENCER_TAKE (R134), in no order against frames and timers (log 62). -/
def execSequencerTake (s : State) : Answered := s.on Station.sequencerTake

/-- READ_END (R135), in no order against frames and timers (log 62). -/
def execReadEnd (s : State) : Answered := s.on Station.readEnd

/-- COMPACTION_READ_END (R137), in no order against frames and timers (log 62). -/
def execCompactionReadEnd (s : State) : Answered := s.on Station.copyEnd

/-- WRITE_END (R136). It is no frame, line event or timer expiry, so R177 does not order it: a SAVED answer may be placed
before an earlier frame or window expiry is acted on, which is the model's choice (log 62). -/
def execWriteEnd (readBack : List Byte) (s : State) : Answered := s.on (Station.writeEnd readBack)

/-- CLEAR_END (R138), in no order against frames and timers (log 62). -/
def execClearEnd (left : List Host.Cell) (s : State) : Answered := s.on (Station.clearEnd left)

/-- CLEAR_SUSPEND (R139), in no order against frames and timers (log 62). -/
def execClearSuspend (s : State) : Answered := s.on Station.suspendClear

/-- STORE_TIME_LIMIT (R140). -/
def execStoreTimeLimit (s : State) : Answered := s.on fun t => t.expire t.sst.limit Station.reachLimit

/-- RESCAN_END (R129), in no order against frames and timers (log 62). -/
def execRescanEnd (s : State) : Answered := s.on Station.rescanEnd

end Sys2Proof.Machine
end

