-- ==== Sys2Proof/Machine/Dispatch.lean ====
section
/-! DEFINITION. The meaning of every command: one arm per row of spec/opcode_table.json. -/

namespace Sys2Proof.Machine

/-- The command's effect on everything but the queue of commands. -/
def exec (i : Instr) (s : State) : Host.Outcome State Fault Refusal :=
  match i with
  | .powerOnReset straps => Sys2Proof.Machine.execPowerOnReset straps s
  | .powerOnScan => Sys2Proof.Machine.execPowerOnScan s
  | .announceTimerExpiry => Sys2Proof.Machine.execAnnounceTimerExpiry s
  | .faultTimerExpiry => Sys2Proof.Machine.execFaultTimerExpiry s
  | .claimPhase others => Sys2Proof.Machine.execClaimPhase others s
  | .frameEnd bytes otherVoid => Sys2Proof.Machine.execFrameEnd bytes otherVoid s
  | .transmitListRoom block => Sys2Proof.Machine.execTransmitListRoom block s
  | .restart => Sys2Proof.Machine.execRestart s
  | .runctlRun => Sys2Proof.Machine.execRunctlRun s
  | .runctlStop => Sys2Proof.Machine.execRunctlStop s
  | .runctlSingle => Sys2Proof.Machine.execRunctlSingle s
  | .runctlForce => Sys2Proof.Machine.execRunctlForce s
  | .runctlCleardisplay => Sys2Proof.Machine.execRunctlCleardisplay s
  | .runctlStandby => Sys2Proof.Machine.execRunctlStandby s
  | .runctlWake => Sys2Proof.Machine.execRunctlWake s
  | .triggered => Sys2Proof.Machine.execTriggered s
  | .recall => Sys2Proof.Machine.execRecall s
  | .listed => Sys2Proof.Machine.execListed s
  | .staged => Sys2Proof.Machine.execStaged s
  | .save => Sys2Proof.Machine.execSave s
  | .saved => Sys2Proof.Machine.execSaved s
  | .mapHold => Sys2Proof.Machine.execMapHold s
  | .mapRelease => Sys2Proof.Machine.execMapRelease s
  | .settingSet => Sys2Proof.Machine.execSettingSet s
  | .settingStep => Sys2Proof.Machine.execSettingStep s
  | .enrol => Sys2Proof.Machine.execEnrol s
  | .storeOpen => Sys2Proof.Machine.execStoreOpen s
  | .storeGuard => Sys2Proof.Machine.execStoreGuard s
  | .storePin => Sys2Proof.Machine.execStorePin s
  | .storeKeep => Sys2Proof.Machine.execStoreKeep s
  | .storeDiscard => Sys2Proof.Machine.execStoreDiscard s
  | .storeOverrideOn => Sys2Proof.Machine.execStoreOverrideOn s
  | .storeOverrideOff => Sys2Proof.Machine.execStoreOverrideOff s
  | .storeClearStatus => Sys2Proof.Machine.execStoreClearStatus s
  | .annot => Sys2Proof.Machine.execAnnot s
  | .queryStation => Sys2Proof.Machine.execQueryStation s
  | .querySetting => Sys2Proof.Machine.execQuerySetting s
  | .queryBlock => Sys2Proof.Machine.execQueryBlock s
  | .queryWindows => Sys2Proof.Machine.execQueryWindows s
  | .report => Sys2Proof.Machine.execReport s
  | .illFittingFrame => Sys2Proof.Machine.execIllFittingFrame s
  | .readyRisingEdge => Sys2Proof.Machine.execReadyRisingEdge s
  | .groupCompletion samplesA samplesB => Sys2Proof.Machine.execGroupCompletion samplesA samplesB s
  | .trigger sample offset => Sys2Proof.Machine.execTrigger sample offset s
  | .trig => Sys2Proof.Machine.execTrig s
  | .autoTimerExpiry => Sys2Proof.Machine.execAutoTimerExpiry s
  | .alignmentTimerExpiry => Sys2Proof.Machine.execAlignmentTimerExpiry s
  | .settlingTimerExpiry => Sys2Proof.Machine.execSettlingTimerExpiry s
  | .settleTimerExpiry => Sys2Proof.Machine.execSettleTimerExpiry s
  | .operationWindowExpiry => Sys2Proof.Machine.execOperationWindowExpiry s
  | .sstQueueRoom => Sys2Proof.Machine.execSstQueueRoom s
  | .sequencerTake => Sys2Proof.Machine.execSequencerTake s
  | .readEnd => Sys2Proof.Machine.execReadEnd s
  | .writeEnd readBack => Sys2Proof.Machine.execWriteEnd readBack s
  | .clearEnd left => Sys2Proof.Machine.execClearEnd left s
  | .clearSuspend => Sys2Proof.Machine.execClearSuspend s
  | .storeTimeLimit => Sys2Proof.Machine.execStoreTimeLimit s
  | .rescanEnd => Sys2Proof.Machine.execRescanEnd s
  | .drawCompletion => Sys2Proof.Machine.execDrawCompletion s
  | .decayTimerExpiry => Sys2Proof.Machine.execDecayTimerExpiry s
  | .decayPassEnd => Sys2Proof.Machine.execDecayPassEnd s
  | .frameTimerExpiry => Sys2Proof.Machine.execFrameTimerExpiry s
  | .rowMerge upstream => Sys2Proof.Machine.execRowMerge upstream s
  | .frameStartMarker => Sys2Proof.Machine.execFrameStartMarker s
  | .lossTimerExpiry => Sys2Proof.Machine.execLossTimerExpiry s
  | .scanTimerExpiry keys detents => Sys2Proof.Machine.execScanTimerExpiry keys detents s
  | .panelDispatch => Sys2Proof.Machine.execPanelDispatch s
  | .sequenceDeadline => Sys2Proof.Machine.execSequenceDeadline s
  | .ledOverlayEnd led => Sys2Proof.Machine.execLedOverlayEnd led s
  | .qualDrive sampleA sampleB othersRelease => Sys2Proof.Machine.execQualDrive sampleA sampleB othersRelease s
  | .triggerCrossing sample offset => Sys2Proof.Machine.execTriggerCrossing sample offset s
  | .compactionReadEnd => Sys2Proof.Machine.execCompactionReadEnd s
  | .powerLoss => Sys2Proof.Machine.execPowerLoss s

end Sys2Proof.Machine
end

