-- ==== Sys2Proof/Machine/Step.lean ====
section
/-! DEFINITION. One step of the block: the command at the front of the queue is taken and run; on an empty queue a line
event that waits is acted on when it is due (log 68), and else one lane tick passes (log 4). -/

namespace Sys2Proof.Machine

/-- A lane tick passes (R180, R181). Nothing else happens at a tick by itself: every timer's expiry is a command of its
own. -/
def State.tick (s : State) : State := { s with station := s.station.tick }

/-- What the block does with no command waiting: it acts on a line event that waits, when it is due, and no time passes
(R177, log 68); else a lane tick passes (log 4). -/
def State.idle (s : State) : State :=
  match s.station.actWaiting with
  | some t => { s with station := t }
  | none => s.tick

/-- One step: the front command is taken off the queue and run on the queue's rest; with no command waiting the block
idles. -/
def step (s : State) : Host.Outcome State Fault Refusal :=
  match s.pending with
  | [] => .next s.idle
  | c :: rest => exec c { s with pending := rest }

/-- Put the command that a word spells at the front of the queue; a word that spells none changes nothing. -/
def State.withFetchWord (s : State) (nbits w : Nat) : State :=
  match Sys2Proof.decodeTableWord nbits w with
  | some c => { s with pending := c :: s.pending }
  | none => s

end Sys2Proof.Machine
end

