-- ==== Sys2Proof/WellFormed.lean ====
section
/-! DEFINITION. Which commands are well formed: operands within what the straps, the lane, the sample ports, the
panel lines and the raster link can bring. The meanings are total on every term; statements about an event take a
well-formed command. -/

namespace Sys2Proof

/-- Straps take station 0 to 3 and count 1 to 4 (00_scope.md). -/
def Straps.wf (s : Straps) : Bool :=
  decide (s.station ≤ 3) && decide (1 ≤ s.count) && decide (s.count ≤ 4)

/-- The operands of a command lie within what the event can bring. -/
def Instr.wf : Instr → Bool
  | .powerOnReset straps => straps.wf
  | .claimPhase others => others.all (fun p => decide (p < 32))
  | .frameEnd bytes _ => decide (5 ≤ bytes.length)
  | .groupCompletion a b => decide (1 ≤ a.length) && decide (a.length = b.length)
  | .trigger _ offset => decide (offset < 25)
  | .triggerCrossing _ offset => decide (offset < 25)
  | .writeEnd readBack => decide (readBack.length = 256) || decide (readBack.length = 4)
  | .clearEnd left => left.all (fun c => decide (c.1 < 4100) && decide (c.2 ≠ 0xFF))
  | .rowMerge upstream => decide (upstream.length = 800)
  | .scanTimerExpiry _ detents => decide (detents.length = 8)
  | .powerOnScan | .announceTimerExpiry | .faultTimerExpiry | .transmitListRoom _ | .restart | .runctlRun
  | .runctlStop | .runctlSingle | .runctlForce | .runctlCleardisplay | .runctlStandby | .runctlWake | .triggered
  | .recall | .listed | .staged | .save | .saved | .mapHold | .mapRelease | .settingSet | .settingStep | .enrol
  | .storeOpen | .storeGuard | .storePin | .storeKeep | .storeDiscard | .storeOverrideOn | .storeOverrideOff
  | .storeClearStatus | .annot | .queryStation | .querySetting | .queryBlock | .queryWindows | .report
  | .illFittingFrame | .readyRisingEdge | .trig | .autoTimerExpiry | .alignmentTimerExpiry | .settlingTimerExpiry
  | .settleTimerExpiry | .operationWindowExpiry | .sstQueueRoom | .sequencerTake | .readEnd | .clearSuspend
  | .storeTimeLimit | .rescanEnd | .drawCompletion | .decayTimerExpiry | .decayPassEnd | .frameTimerExpiry
  | .frameStartMarker | .lossTimerExpiry | .panelDispatch | .sequenceDeadline | .ledOverlayEnd _
  | .qualDrive _ _ _ | .compactionReadEnd | .powerLoss => true

end Sys2Proof
end

