-- ==== Sys2Proof/Safety.lean ====
section
/-! DEFINITION. What the statements speak of: when a command finds its event, and the invariants of a station. Every
invariant is a Bool, so that it can be evaluated on a state. -/

namespace Sys2Proof

/-- The command whose event is this line event. -/
def Instr.raises (c : Instr) (ev : Machine.LineEvent) : Prop :=
  match ev with
  | .readyEdge => c = .readyRisingEdge
  | .trig => c = .trig
  | .sample s offset => c = .trigger s offset ∨ c = .triggerCrossing s offset
  | .qual a b others => c = .qualDrive a b others

/-- The command that takes a frame which only an enrolled station acts on, by the frame's kind and its action,
operation or report kind (R175). -/
def Instr.takesMsg (c : Instr) (m : Machine.Msg) : Bool :=
  match c, m with
  | .runctlRun, .runctl 0 | .runctlStop, .runctl 1 | .runctlSingle, .runctl 2 | .runctlForce, .runctl 3
  | .runctlCleardisplay, .runctl 4 | .runctlStandby, .runctl 5 | .runctlWake, .runctl 6 => true
  | .triggered, .triggered _ _ _ _ | .recall, .recall _ | .listed, .listed _ _ | .staged, .staged _ _ _ _
  | .save, .save _ _ | .saved, .saved _ _ _ | .mapHold, .map _ 0 | .mapRelease, .map _ 1 => true
  | .settingSet, .setting _ _ 0 _ | .settingStep, .setting _ _ 1 _ => true
  | .storeOpen, .store _ 0 _ | .storeGuard, .store _ 1 _ | .storePin, .store _ 2 _ | .storeKeep, .store _ 3 _
  | .storeOverrideOn, .store _ 4 _ | .storeOverrideOff, .store _ 5 _ | .storeClearStatus, .store _ 6 _
  | .storeDiscard, .store _ 7 _ => true
  | .annot, .annot _ _ _ _ _ => true
  | .queryStation, .query _ 0 _ _ | .querySetting, .query _ 1 _ _ | .queryBlock, .query _ 2 _ _
  | .queryWindows, .query _ 3 _ _ => true
  | _, _ => false

end Sys2Proof

namespace Sys2Proof.Machine

/-- The machine with another station and the same queue of commands. -/
abbrev State.put (s : State) (t : Station) : State := { s with station := t }

/-- The station is powered, and the frame at the head of its receive list is `e` with this content, next in order, with
no READY edge of its tick to come (R176, R177, log 52). -/
abbrev State.headIs (s : State) (m : Msg) (e : RxEntry) (rest : List RxEntry) : Prop :=
  s.station.powered = true ∧ s.station.lif.rx = e :: rest ∧ e.msg = m ∧ s.station.inOrder e.acceptedAt = true ∧
  s.station.edgePast e.acceptedAt = true

/-- The same at a station that is enrolled (R175). -/
abbrev State.takes (s : State) (m : Msg) (e : RxEntry) (rest : List RxEntry) : Prop :=
  s.headIs m e rest ∧ s.station.enrolled = true

/-- The station is powered, and its timer with this deadline has run out at `d`, next in order, with no READY edge of
that tick to come (R177, log 52). -/
abbrev State.expires (s : State) (deadline : Option Nat) (d : Nat) : Prop :=
  s.station.powered = true ∧ deadline = some d ∧ d ≤ s.station.ticks ∧ s.station.inOrder d = true ∧
  s.station.edgePast d = true

/-- The station is powered, and an event of the present tick is next in order, with no line event waiting (R177). -/
abbrev State.occurs (s : State) : Prop :=
  s.station.powered = true ∧ s.station.inOrder s.station.ticks = true ∧ s.station.lif.waiting = []

/-- The station is powered, and an event of the present tick is not next in order: it must wait (R177). -/
abbrev State.mustWait (s : State) : Prop :=
  s.station.powered = true ∧ (s.station.inOrder s.station.ticks = false ∨ s.station.lif.waiting ≠ [])

/-- The station at the instant x of a line event, as far as the act on it looks at the time: no other line event waits,
and READY can rise. -/
abbrev Station.setBack (t : Station) (x : Nat) : Station :=
  { t with ticks := x, lif := { t.lif with waiting := [], readyOwn := true, edgeAt := none } }

/-- What an act at a station set back has left, at the time of the act, with these line events still waiting. -/
abbrev Station.broughtUp (u t : Station) (rest : List (Nat × LineEvent)) : Station :=
  { u with
    ticks := t.ticks
    lif := { u.lif with waiting := rest, readyOwn := t.lif.readyOwn, edgeAt := t.lif.edgeAt } }

/-- A protocol frame has been queued, or is kept while the transmit list has no room for it (R150). -/
abbrev Station.answers (t : Station) (m : Msg) : Prop :=
  (∃ x ∈ t.lif.tx, x.msg = m ∧ x.origin = .setup) ∨ t.smg.keptProto = some m

/-- A request of SMG has been handed to SST, or is kept while SST's queue has no room for it (R132). -/
abbrev Station.requested (t : Station) (r : Request) : Prop := r ∈ t.sst.queue ∨ r ∈ t.smg.kept

/-- The operation has closed with an outcome at an instant (R151), which out of standby the LED of its kind shows (R111,
R113). -/
abbrev Station.closedWith (t : Station) (o : Op) (c : OutcomeCode) (x : Nat) : Prop :=
  t.smg.op = none ∧ t.smg.lastOutcome = some ⟨o.kind, o.slot, c⟩ ∧
  (t.standby = false → ∀ y ∈ t.pns.leds,
    y.led = (match o.kind with | .save => .save | .recall => .recall) → y.overlay = some (.code c.code, x))

/-- Station t has staged an image of epoch E, out of station s (R154): unpacked, it fills the lowest-numbered FREE window,
STAGED, and the station answers OK with digest, common section and run state; refused, it fills none, and the station
answers the outcome. -/
def Station.stages (s t : Station) (E : Epoch) (slot : Nat) (image : List Byte) : Prop :=
  (∀ c j, s.unpack slot image = .ok c → s.freeIndex = some j →
    t.smg.windows =
      s.smg.windows.set j
        ⟨.staged, none, some E, false, false, false, c.common, c.chA, c.chB, c.runMode, c.runState⟩ ∧
    t.answers (.staged 0 (crc16 (slice image 16 48)).toNat (slice image 16 48) c.runState.code)) ∧
  (∀ o, s.unpack slot image = .error o → t.smg.windows = s.smg.windows ∧ t.answers (.staged o.code 0 [] 0))

/-- What an act of a block abandoned in this stage leaves of the array (R140, R144), by log 7: a write leaves every byte
outside its position as it was and each byte inside as it was or the image's, and a position that was BLANK is not VALID;
a mark leaves every byte outside the keep mark word as it was, and does not set a mark that was not set; a clear leaves
every byte outside the block as it was and each byte inside as it was or erased; a read leaves the array as it was. -/
def abandonLeaves (block : Nat) (stage : Stage) (before after : List Host.Cell) : Prop :=
  let same (a : Nat) : Prop := Sparse.read erasedByte after a = Sparse.read erasedByte before a
  (∀ p image last start, stage = .writing p image last start → image.length = 256 →
    (∀ a, a < positionAddress block p ∨ positionAddress block p + 256 ≤ a → same a) ∧
    (∀ i (h : i < image.length),
      Sparse.read erasedByte after (positionAddress block p + i) = image[i] ∨ same (positionAddress block p + i)) ∧
    (positionBlank (readPosition before block p) = true → imageValid (readPosition after block p) = false)) ∧
  (∀ start, stage = .marking start →
    (∀ a, a < keepAddress block ∨ keepAddress block + 4 ≤ a → same a) ∧
    (keepSet before block = false → keepSet after block = false)) ∧
  (∀ spent since, stage = .clearing spent since →
    (∀ a, inBlock block a = false → same a) ∧
    (∀ a, inBlock block a = true → Sparse.read erasedByte after a = erasedByte ∨ same a)) ∧
  (∀ p, stage = .reading p ∨ stage = .copying p → after = before)

/-- What the end of a request with an outcome leaves of LIF and SMG, of station s at station t. An APPEND of a SAVE whose
operation is open is answered SAVED with the outcome, and one that no requester waits for is answered by nothing (R151,
R163). An APPEND that ended OK clears the dirty flag of the HELD window that still holds its slot and epoch, and no
other end clears one (R21, R166; an orphaned APPEND clears it too, log 18). A READ that did not end OK leaves its HELD
window empty (R166), and in the staging round it is answered with its outcome (R154). -/
def Station.requestEnds (s t : Station) (r : Request) (o : OutcomeCode) : Prop :=
  (∀ op E, s.smg.op = some op → op.epoch = some E → r.purpose = .save → r.orphaned = false →
    t.answers (.saved op.slot E o.code)) ∧
  (r.purpose = .none ∨ r.purpose = .tracking ∨ r.orphaned = true →
    t.lif = s.lif ∧ t.smg.keptProto = s.smg.keptProto) ∧
  (r.purpose = .none ∨ r.purpose = .tracking ∨ r.purpose = .save ∨ r.orphaned = true → ∀ i, i < 4 →
    let w := s.smg.windows.get i
    t.smg.windows.get i =
      if r.kind = .append ∧ o = .ok ∧ w.role = .held ∧ w.mapped = some r.block ∧ w.epoch = some r.epoch then
        { w with dirty := false }
      else w) ∧
  (∀ i, r.purpose = .fill i → r.orphaned = false → i < 4 → o ≠ .ok → s.smg.stageWait = false →
    t.smg.windows.get i = { Window.blank with role := .held, mapped := (s.smg.windows.get i).mapped }) ∧
  (∀ op E, s.smg.op = some op → op.chosen = some E → r.purpose = .staging → r.orphaned = false → o ≠ .ok →
    t.answers (.staged o.code 0 [] 0))

/-- What the bytes of a READ that ended OK give at station t, out of station s: a HELD window filled, or left empty where
they do not unpack for the slot (R166, its sections by log 70), or the image staged in the staging round (R154). -/
def Station.readGives (s t : Station) (r : Request) (bytes : List Byte) : Prop :=
  (∀ i w contents, r.purpose = .fill i → r.orphaned = false → r.kind = .read → i < 4 →
    w = s.smg.windows.get i → s.smg.stageWait = false → s.unpack r.block bytes = .ok contents →
    t.smg.windows.get i =
      ⟨.held, w.mapped, some contents.epoch, false, false, false, contents.common, contents.chA, contents.chB,
        contents.runMode, contents.runState⟩) ∧
  (∀ i outcome, r.purpose = .fill i → r.orphaned = false → r.kind = .read → i < 4 → s.smg.stageWait = false →
    s.unpack r.block bytes = .error outcome →
    t.smg.windows.get i = { Window.blank with role := .held, mapped := (s.smg.windows.get i).mapped }) ∧
  (∀ o E, s.smg.op = some o → o.chosen = some E → r.purpose = .staging → r.orphaned = false → r.kind = .read →
    s.stages t E o.slot bytes)

/-- The boot recall chain's RECALL of a slot stands in the transmit list, or is kept while there is no room (R193). -/
abbrev Station.chainOffers (t : Station) (slot : Nat) : Prop :=
  (∃ x ∈ t.lif.tx, x.msg = .recall slot ∧ x.origin = .chain) ∨ t.smg.keptChain = true

/-- What the close of an operation of a kind with an outcome does to the boot recall chain, of station s at station t
(R193): nothing where the chain waits for no close. At the close of its own RECALL, SLOT0 goes to IDLE on OK and else
to SLOT31 with RECALL 31 offered, SLOT31 to IDLE. At the close of another operation, a RECALL that closed OK takes it
to IDLE, and else the RECALL of its state is offered again. -/
def Station.chainCloses (s t : Station) (kind : OpKind) (c : OutcomeCode) : Prop :=
  (s.smg.chainWait = .nothing → t.smg.chain = s.smg.chain ∧ t.smg.keptChain = s.smg.keptChain) ∧
  t.smg.chainWait = .nothing ∧
  (s.smg.chainWait = .own → s.smg.chain = .slot0 → c = .ok → t.smg.chain = .idle) ∧
  (s.smg.chainWait = .own → s.smg.chain = .slot0 → c ≠ .ok → t.smg.chain = .slot31 ∧ t.chainOffers 31) ∧
  (s.smg.chainWait = .own → s.smg.chain = .slot31 → t.smg.chain = .idle) ∧
  (s.smg.chainWait = .other → kind = .recall → c = .ok → t.smg.chain = .idle) ∧
  (s.smg.chainWait = .other → kind = .save ∨ c ≠ .ok →
    t.smg.chain = s.smg.chain ∧
    (s.smg.chain = .slot0 → t.chainOffers 0) ∧ (s.smg.chain = .slot31 → t.chainOffers 31))

/-- The readouts of a setup stand in the annotation grid of station t, which has come out of station s: of both channels,
and at a COMMON-role station the common one (R88 to R90). -/
def Station.showsReadouts (s t : Station) (common : Common) (chA chB : Channel) : Prop :=
  Sparse.wf GridCell.blank s.rse.grid = true →
  let own := s.straps.station
  (∀ j cell, (channelReadout (2 * own + 1) chA s.rse.clipA s.rse.satA)[j]? = some cell →
    Sparse.read GridCell.blank t.rse.grid (2400 + 25 * own + j) = cell) ∧
  (∀ j cell, (channelReadout (2 * own + 2) chB s.rse.clipB s.rse.satB)[j]? = some cell →
    Sparse.read GridCell.blank t.rse.grid (2400 + 25 * own + 12 + j) = cell) ∧
  (s.straps.panel = .common → ∀ j cell, (commonReadout common t.tgu.run)[j]? = some cell →
    Sparse.read GridCell.blank t.rse.grid j = cell)

/-- What a flip leaves beside the windows, of station s at station t (R67, R125, R159, R187): the run state of the setup
flipped in, in standby the saved one; both layers cleared, or to be cleared when the draw completes; averaging to
restart; the own no-live flag clear. -/
def Station.flippedIn (s t : Station) (r : RunState) : Prop :=
  (s.standby = false → t.tgu.run = r) ∧ (s.standby = true → t.tgu.savedRun = some r ∧ t.tgu.run = s.tgu.run) ∧
  t.acq.restartPending = true ∧ t.lif.enrol.ownNoLive = false ∧
  (s.rse.draw = none → ∀ a, t.rse.layerA.cell a = 0 ∧ t.rse.layerB.cell a = 0) ∧
  (s.rse.draw ≠ none → t.rse.layerA.clearPending = true ∧ t.rse.layerB.clearPending = true)

/-- A window after the close of an operation, which frees every STAGED window that is not flip pending (R151). -/
def Window.afterClose (w : Window) : Window := if w.role = .staged ∧ w.flipPending = false then Window.blank else w

/-- What a RECALL of slot 31 closed without OK at an instant leaves, of station s at station t (R158): settle timer and
untracked flag as R11 has them; a flip already pending brings in the built-in defaults, with epoch 0, at the boundary it
waits for; else the lowest-numbered FREE window takes them, in POSTTRIG and ALIGNING as STAGED, flip pending, and in
every other state it becomes LIVE in the same act, and the old LIVE window FREE. -/
def Station.flipsToDefaults (s t : Station) (x : Nat) : Prop :=
  let chA := Channel.default (if s.straps.station = 0 then 1 else 0)
  let chB := Channel.default 0
  let staged : Window :=
    { Window.blank with
      role := .staged, epoch := some 0, flipPending := true, common := Common.default, chA := chA, chB := chB,
      runMode := 0, runState := .running }
  let live : Window := { Window.blank with role := .live, common := Common.default, chA := chA, chB := chB }
  let left (j : Nat) : Window := (s.smg.windows.get j).afterClose
  let waits : Prop := s.acq.state = .posttrig ∨ s.acq.state = .aligning
  t.smg.settle = some (x + 10000 * Config.ms) ∧ t.smg.untracked = true ∧ t.smg.due = false ∧
  (∀ i, s.flipIndex = some i → ∀ j, j < 4 → t.smg.windows.get j = if j = i then staged else left j) ∧
  (∀ i, s.flipIndex = none → i < 4 → (left i).role = .free → (∀ j, j < i → (left j).role ≠ .free) →
    (waits → ∀ j, j < 4 → t.smg.windows.get j = if j = i then staged else left j) ∧
    (¬ waits →
      (∀ j, j < 4 →
        t.smg.windows.get j = if j = i then live else if j = s.liveIndex then Window.blank else left j) ∧
      s.flippedIn t .running ∧
      (s.smg.windows.count (fun w => decide (w.role = .live)) = 1 → s.showsReadouts t Common.default chA chB)))

/-- Steps 5 and 7 of every close, an agreement's too, of station s at station t (R151): a due tracking save is made where
the highest epoch allows one (R17), under the next epoch, with the image of the LIVE window as it was (R18); the answers
not yet in transfer are withdrawn. -/
def Station.closeSaves (s t : Station) : Prop :=
  (s.smg.due = true → s.smg.highest ≠ 0xFFFFFFFF →
    t.smg.highest = s.smg.highest + 1 ∧ t.smg.due = false ∧
    (s.smg.windows.count (fun w => decide (w.role = .live)) = 1 →
      t.requested
        ⟨.append, 0, s.smg.highest + 1, s.packLive 0 (s.smg.highest + 1), .tracking, false⟩)) ∧
  (s.smg.due = false ∨ s.smg.highest = 0xFFFFFFFF → t.smg.highest = s.smg.highest) ∧
  t.smg.keptProto = none ∧ (∀ e ∈ t.lif.tx, e.msg.isAnswer = true → e.sending = true)

/-- What the close of an operation leaves beside its record and the chain, unless it is the agreement of a RECALL, of
station s at station t (R151): every STAGED window that is not flip pending is FREE, and after a RECALL of slot 31 the
built-in defaults are flipped in (R158); a due tracking save is made, and the answers withdrawn. -/
def Station.closeLeaves (s t : Station) (o : Op) (c : OutcomeCode) (x : Nat) : Prop :=
  (o.kind = .save ∨ o.slot ≠ 31 → ∀ i, i < 4 → t.smg.windows.get i = (s.smg.windows.get i).afterClose) ∧
  (o.kind = .recall → o.slot = 31 → c ≠ .ok → s.flipsToDefaults t x) ∧
  s.closeSaves t

/-- A front-end value of a channel has been sent as its word (R15). -/
abbrev Channel.sentAs (c : Channel) (w : Option FrontWord) : Prop := w = some ⟨c.vscale, c.voffset, c.coupling, c.bwlimit⟩

/-- What every station in PREPARING and PREPARED holds: its capture is that of the LIVE window, and the words of both
channels are sent as captured (R13, R15). -/
abbrev Station.captured (t : Station) : Prop :=
  t.acq.capture = some (captureOf t.live.common t.live.chA t.live.chB) ∧ t.live.chA.sentAs t.smg.wordA ∧
  t.live.chB.sentAs t.smg.wordB

/-- Station t, out of station s, has entered PREPARING at an instant: the capture is taken and both words are sent; one
that differs from the word last sent starts settling for 1 ms (R13, R15, R16); settled and with a slot reserved, which a
FREE slot gives at once, the station is PREPARED (R33, R42). -/
def Station.preparedFrom (s t : Station) (x : Nat) : Prop :=
  t.captured ∧ t.smg.windows = s.smg.windows ∧
  (t.live.chA.sentAs s.smg.wordA → t.live.chB.sentAs s.smg.wordB → t.smg.settling = s.smg.settling) ∧
  (¬ t.live.chA.sentAs s.smg.wordA ∨ ¬ t.live.chB.sentAs s.smg.wordB → t.smg.settling = some (x + 1 * Config.ms)) ∧
  t.acq.slots = s.acq.slots ∧ (s.acq.reserved = none → t.acq.reserved = lowestFree s.acq.slots) ∧
  t.acq.state = (if t.smg.settling = none ∧ t.acq.reserved ≠ none then .prepared else .preparing)

/-- The completion of the record being filled at station t, with what its completion work gives, leaves station u (R34,
R56): the record in its slot, DONE, or with both channels disabled already drawn and FREE, or taken for drawing; the
accumulator; the TRIGGERED LED flashing out of standby; the trigger role ended; a pending flip performed; else in IDLE
and STOPPED after SINGLE or STOP, and at a RUNNING station on the way to the next record. -/
def Station.completed (t u : Station) (f : Fill) (fin : Finished) (x : Nat) : Prop :=
  u.acq.fill = none ∧
  (t.standby = false → ∀ y ∈ u.pns.leds, y.led = .triggered → y.overlay = some (.flash, x)) ∧
  (u.acq.slots.get f.slot = .done fin.record ∨ u.acq.slots.get f.slot = .drawing fin.record ∨
    (fin.record.snapshot.a.enable ≠ 1 ∧ fin.record.snapshot.b.enable ≠ 1 ∧ u.acq.slots.get f.slot = .free)) ∧
  u.acq.sumsA = fin.sumsA ∧ u.acq.sumsB = fin.sumsB ∧ u.acq.avgCount = fin.count ∧
  u.tgu.role = none ∧ u.tgu.align = none ∧ u.tgu.heldFrame = none ∧
  (∀ i, t.flipIndex = some i → (u.smg.windows.get i).role = .live) ∧
  (t.flipPending = false →
    (t.tgu.run ≠ .running → u.tgu.run = .stopped ∧ u.acq.state = .idle) ∧
    (t.tgu.run = .running → t.enrolled = true → t.standby = false →
      u.tgu.run = .running ∧ (u.acq.state = .preparing ∨ u.acq.state = .prepared)))

/-! Invariants. -/

/-- Every addressed memory is in its canonical form: the store's array, the cells of both layers, the sums of both
channels and the annotation grid. -/
def Station.memoryWf (t : Station) : Bool :=
  Sparse.wf erasedByte t.sst.array && Sparse.wf 0 t.rse.layerA.cells && Sparse.wf 0 t.rse.layerB.cells &&
  Sparse.wf 0 t.acq.sumsA && Sparse.wf 0 t.acq.sumsB && Sparse.wf GridCell.blank t.rse.grid

/-- The bounds of the transmit list: at most 16 frames, at most 14 of rank 2 or 3, at most one setup-protocol frame
(R178). -/
def txBounded (tx : List TxEntry) : Bool :=
  decide (tx.length ≤ 16) && decide ((tx.filter (fun e => decide (2 ≤ e.msg.rank))).length ≤ 14) &&
  decide ((tx.filter (fun e => e.msg.isSetupProtocol)).length ≤ 1)

/-- The lists that the part bounds hold no more than their places: transmit list (R178), receive list (R176), request
queue (R132), event queue (R98); the generation index has its 32 entries (R129), and there are eight encoder counts
(R94). -/
def Station.listsBounded (t : Station) : Bool :=
  txBounded t.lif.tx && decide (t.lif.rx.length ≤ 8) && decide (t.sst.queue.length ≤ 4) &&
  decide (t.pns.queue.length ≤ 16) && decide (t.sst.index.length = 32) && decide (t.pns.counts.length = 8)

/-- Every request that SMG keeps and SST holds and has not orphaned. -/
def Station.requests (t : Station) : List Request :=
  (t.smg.kept ++ t.sst.queue ++ (t.sst.current.toList.map (·.request)) ++ (t.sst.holdRead.toList.map (·.1))).filter
    (fun r => !r.orphaned)

/-- How many ways the staging round of the open recall can still fill a STAGED window: a READ for it, or the wait for
a HELD window's load. -/
def Station.stagings (t : Station) : Nat :=
  (t.requests.filter (fun r => decide (r.purpose = .staging))).length + (if t.smg.stageWait then 1 else 0)

/-- A recall is open in its staging round. -/
def Station.inStaging (t : Station) : Bool :=
  match t.smg.op with
  | some o => decide (o.kind = .recall) && decide (o.round = .staging)
  | none => false

/-- The window roles of R5: exactly one LIVE, at most one STAGED, at most two HELD. -/
def rolesOk (q : Quad Window) : Bool :=
  decide (q.count (fun w => decide (w.role = .live)) = 1) && decide (q.count (fun w => decide (w.role = .staged)) ≤ 1) &&
  decide (q.count (fun w => decide (w.role = .held)) ≤ 2)

/-- The mapped slots of R5: 1 to 30 for a HELD window, absent for every other, and no two windows mapped to the same
slot. -/
def mappedOk (q : Quad Window) : Bool :=
  q.toList.all (fun w =>
    match w.mapped with
    | some n => decide (w.role = .held) && decide (1 ≤ n) && decide (n ≤ 30)
    | none => decide (w.role ≠ .held)) &&
  decide ((q.toList.filterMap (·.mapped)).Nodup)

/-- The windows hold R5, and what is under way in the store will keep it: every READ that fills a window fills a HELD
one, and a STAGED window has at most one source, in the staging round alone. -/
def Station.windowsOk (t : Station) : Bool :=
  rolesOk t.smg.windows && mappedOk t.smg.windows &&
  t.requests.all (fun r =>
    match r.purpose with
    | .fill i => decide (r.kind = .read) && decide (i < 4) && decide ((t.smg.windows.get i).role = .held)
    | _ => true) &&
  decide (t.stagings + t.smg.windows.count (fun w => decide (w.role = .staged)) ≤ 1) &&
  (t.inStaging || decide (t.stagings = 0))

end Sys2Proof.Machine
end

