-- ==== Sys2Proof/Certificates/Slice0/Obligations.lean ====
section
/-! DEFINITION. The statements about the part, from the numbered rules of the spec. A statement about a command takes
what the event needs as its hypotheses (`State.headIs`, `State.takes`, `State.expires`, `State.occurs`), says that the
command answers a next state, and what that state holds; a record equality with some fields put back says that every
other field is unchanged. -/

open Sys2Proof Sys2Proof.Machine

/-! The machine: the queue of commands and the step. -/

/-- A step takes the command at the front of the queue and runs it on the queue's rest. -/
def Obligations.StepRunsFrontCommand : Prop :=
  ∀ (c : Instr) (rest : List Instr) (s : State),
    s.pending = c :: rest → step s = exec c { s with pending := rest }

/-- No step faults or is refused. With no command waiting a step passes one lane tick, in which the station's own drive
of READY shows from the next on (R181), and changes nothing else (the model's choice, log 4), unless a line event that
waits is next in order and the groups before it have completed: then the step acts on it as its command would have at
its own instant, a sample as the one of its two commands that finds it, and no tick passes (R177, by log 68, the
model's reading). No command touches the queue, and an unpowered station does nothing until its next power-on reset
(R147, log 25). -/
def Obligations.EveryStepAnswersNextState : Prop :=
  (∀ s : State, s.pending = [] →
    (∀ x ev rest, s.station.lif.waiting = (x, ev) :: rest →
      s.station.powered = false ∨ s.station.inOrder x = false ∨
      s.station.groupsBefore (Station.eventIndex ev x) = false) →
    step s = .next (s.put
      { s.station with
        ticks := s.station.ticks + 1, lif := { s.station.lif with readyOwn := s.station.readyReleased } })) ∧
  (∀ (s : State) (x : Nat) (ev : LineEvent) (rest : List (Nat × LineEvent)), s.pending = [] →
    s.station.powered = true → s.station.lif.waiting = (x, ev) :: rest → s.station.inOrder x = true →
    s.station.groupsBefore (Station.eventIndex ev x) = true →
    let back := s.station.setBack x
    (∀ c t, c.raises ev → exec c (s.put back) = .next (s.put t) → (∀ v offset, ev = .sample v offset → t ≠ back) →
      step s = .next (s.put (t.broughtUp s.station rest))) ∧
    ((∀ c, c.raises ev → exec c (s.put back) = .next (s.put back)) →
      step s = .next (s.put { s.station with lif := { s.station.lif with waiting := rest } }))) ∧
  (∀ (c : Instr) (s : State),
    (∃ t, exec c s = .next (s.put t)) ∧
    (s.station.powered = false → (∀ straps, c ≠ .powerOnReset straps) → exec c s = .next s))


/-! Start-up. -/

/-- Power-on reset gives LIF, SMG, SST, ACQ, TGU, RSE and PNS the values of R185 to R187, R19, R147, R37, R61, R78, R93
and R115, and keeps the array when no act was in progress in it. The annotation grid holds nothing but the readouts of
the built-in defaults (R90, R93), the attribute of a cell of code 0 by log 48. That the sequencer is READY before the
scan's end, as R147 has it after the scan, is the model's choice (log 76). -/
def Obligations.PowerOnResetSetsEveryBlock : Prop :=
  ∀ (straps : Straps) (s : State),
    ∃ t, exec (.powerOnReset straps) s = .next (s.put t) ∧ t.powered = true ∧ t.straps = straps ∧ t.standby = false ∧
      -- LIF
      t.lif.startUp = true ∧ t.lif.tx = [] ∧ t.lif.rx = [] ∧ t.lif.answer = none ∧ t.laneTime = 0 ∧
      t.lif.enrol.state = .unenrolled ∧ t.lif.enrol.ownNoLive = true ∧ t.readyReleased = false ∧
      t.lif.readyOwn = false ∧ t.lif.waiting = [] ∧
      t.tgu.qualReleased = false ∧ t.trigDriven = false ∧
      -- SMG
      (t.smg.windows.get 0).role = .live ∧ (t.smg.windows.get 0).common = Common.default ∧
      (t.smg.windows.get 0).chA = Channel.default (if straps.station = 0 then 1 else 0) ∧
      (t.smg.windows.get 0).chB = Channel.default 0 ∧
      (∀ i, 1 ≤ i → i < 4 → (t.smg.windows.get i).role = .free) ∧
      t.smg.op = none ∧ t.smg.settle = none ∧ t.smg.untracked = false ∧ t.smg.due = false ∧ t.smg.kept = [] ∧
      t.smg.wordA = none ∧ t.smg.wordB = none ∧ t.smg.settling = none ∧ t.smg.chain = .idle ∧
      -- SST
      (s.station.sst.current = none → t.sst.array = s.station.sst.array) ∧ t.sst.override = false ∧
      t.faulted = false ∧ t.sst.faultBlock = none ∧ t.sst.lastRequest = none ∧ t.sst.queue = [] ∧
      t.sst.current = none ∧ t.sst.seq = .ready ∧ t.sst.page = none ∧
      -- ACQ and TGU
      t.acq = Acq.reset ∧ t.tgu.run = .running ∧ t.tgu.savedRun = none ∧ t.tgu.role = none ∧ t.tgu.crossing = Crossing.clear ∧
      t.tgu.lastStamp = none ∧ t.tgu.auto = none ∧ t.tgu.align = none ∧ t.tgu.heldFrame = none ∧
      -- RSE
      (∀ a, t.rse.layerA.cell a = 0 ∧ t.rse.layerB.cell a = 0) ∧ t.rse.layerA.snapshot = none ∧
      t.rse.layerB.snapshot = none ∧ t.rse.layerA.clearPending = false ∧ t.rse.layerB.clearPending = false ∧
      t.rse.draw = none ∧ t.rse.clipA = false ∧ t.rse.clipB = false ∧ t.rse.satA = false ∧ t.rse.satB = false ∧
      t.rse.decayTimer = t.ticks + 25 * Config.ms ∧ t.rse.decayCount = 0 ∧ t.rse.decayPass = false ∧ t.rse.frame = none ∧
      t.rse.blank = false ∧ t.outputRow = none ∧
      t.rse.grid = readoutGrid straps t.live.common t.live.chA t.live.chB .running false false false false ∧
      (straps.chain = .head ∨ straps.chain = .sole →
        t.rse.frameTimer = some (t.ticks + 1666667) ∧ t.rse.lossTimer = none) ∧
      (straps.chain = .link ∨ straps.chain = .tail →
        t.rse.frameTimer = none ∧ t.rse.lossTimer = some (t.ticks + 50 * Config.ms) ∧ t.rse.freeRunning = false) ∧
      -- PNS
      t.pns.scanTimer = t.ticks + 4 * Config.ms ∧ t.pns.firstScan = true ∧ t.pns.holdSave = none ∧ t.pns.holdPower = none ∧
      (∀ i, t.countOf i = 0) ∧ t.pns.queue = [] ∧ t.panelLevel = 3 ∧ t.pns.sequence = none ∧
      (∀ e ∈ t.pns.leds, e.mode = .off ∧ e.overlay = none)

/-- At power-on reset and at RESTART, ACQ takes the same state (R37): every slot FREE with no reservation, so that a
record FILLING, DONE or DRAWING is discarded and no draw is in progress, the draw queue empty, IDLE, acquisition number
0, every sum and the average count 0, no last armed snapshot, restart pending clear. The first arm afterwards restarts
averaging, which leaves sums and count as they are. -/
def Obligations.AcqResetIsTheSameAtBothResets : Prop :=
  (∀ (straps : Straps) (s : State),
    ∃ t, exec (.powerOnReset straps) s = .next (s.put t) ∧ t.acq = Acq.reset ∧ t.rse.draw = none) ∧
  (∀ (s : State) (e : RxEntry) (rest : List RxEntry), s.headIs .restart e rest →
    ∃ t, exec .restart s = .next (s.put t) ∧ t.acq = Acq.reset ∧ t.rse.draw = none) ∧
  (∀ i, i < 4 → Acq.reset.slots.get i = .free) ∧ Acq.reset.reserved = none ∧ oldestDone Acq.reset.slots = none ∧
  Acq.reset.state = .idle ∧ Acq.reset.number = 0 ∧
  (∀ i, Sparse.read 0 Acq.reset.sumsA i = 0 ∧ Sparse.read 0 Acq.reset.sumsB i = 0) ∧ Acq.reset.avgCount = 0 ∧
  Acq.reset.lastArmed = none ∧ Acq.reset.restartPending = false ∧ Acq.reset.fill = none ∧
  (∀ (t : Station) (c : Capture), t.acq.lastArmed = none → t.acq.sumsA = [] → t.acq.sumsB = [] → t.acq.avgCount = 0 →
    (t.armAveraging c).acq = { t.acq with lastArmed := some c.armed, restartPending := false })

/-- The end of the power-on scan: the index is built from the array, each block GUARDED when its keep mark is set and
OPEN otherwise, SMG takes the greatest epoch among all generations, and the station leaves the start-up period
UNENROLLED, or in LANE_FAULT with a strap fault, its record afresh and an ENROL placed or kept for room (R130, R186 to
R188). -/
def Obligations.PowerOnScanBuildsIndex : Prop :=
  ∀ s : State, s.station.powered = true → s.station.lif.startUp = true →
    ∃ t, exec .powerOnScan s = .next (s.put t) ∧ t.lif.startUp = false ∧ t.sst.array = s.station.sst.array ∧
      (∀ b, b < 32 →
        let found := walk ((List.range 16).map (fun p => (p, readPosition s.station.sst.array b p))) []
        (t.entry b).generations = found.1.reverse ∧ (t.entry b).next = found.2.1 ∧
        (t.entry b).disordered = found.2.2 ∧ (t.entry b).keep = keepSet s.station.sst.array b ∧
        (t.entry b).guard = if keepSet s.station.sst.array b then .guarded else .opened) ∧
      (∀ b g, b < 32 → g ∈ (t.entry b).generations → g.2.toNat ≤ t.smg.highest.toNat) ∧
      (t.smg.highest = 0 ∨ ∃ b g, b < 32 ∧ g ∈ (t.entry b).generations ∧ g.2 = t.smg.highest) ∧
      t.lif.enrol.heard = (Quad.fill false).set s.station.straps.station true ∧ t.lif.enrol.heardEpoch = t.smg.highest ∧
      t.lif.enrol.heardNoLive = s.station.lif.enrol.ownNoLive ∧
      t.lif.enrol.announce = some (s.station.ticks + 500 * Config.ms) ∧
      (t.lif.tx.any (·.msg.isEnrol) = true ∨ t.lif.keptEnrol = true) ∧
      (s.station.strapFault = false → t.lif.enrol.state = .unenrolled ∧ t.lif.enrol.fault = s.station.lif.enrol.fault) ∧
      (s.station.strapFault = true →
        t.lif.enrol.state = .laneFault ∧ t.lif.enrol.fault = some (s.station.ticks + 1500 * Config.ms)) ∧
      { t with
        lif := s.station.lif, sst := s.station.sst, smg := s.station.smg, pns := s.station.pns } = s.station

/-- The walk of a block (R128): over positions given with their contents, from the first on up to the first BLANK one,
a position is a generation exactly when it is VALID and its epoch is greater than that of every VALID position before
it; epochs rise; the first BLANK position is the next one; the block is DISORDERED exactly when a position behind it
is not BLANK. -/
def Obligations.WalkFindsGenerations : Prop :=
  ∀ contents : List (List Byte),
    let ps := contents.zipIdx.map (fun c => (c.2, c.1))
    let found := walk ps []
    let front := contents.takeWhile (fun c => !positionBlank c)
    (∀ p e, (p, e) ∈ found.1 ↔
      ∃ h : p < front.length, imageValid front[p] = true ∧ imageEpoch front[p] = e ∧
        ∀ (q : Nat) (hq : q < p), imageValid (front[q]'(by omega)) = true →
          (imageEpoch (front[q]'(by omega))).toNat < e.toNat) ∧
    found.1.reverse.Pairwise (fun a b => a.1 < b.1 ∧ a.2.toNat < b.2.toNat) ∧
    found.2.1 = (if front.length < contents.length then some front.length else none) ∧
    found.2.2 = (contents.drop front.length).any (fun c => !positionBlank c)

/-- Power loss (R147): the station is off, the queue, the current request and the page buffer are lost, and the array
stays as it was when no operation was in progress. Where a write is cut off, every byte outside its position keeps its
value, each byte inside holds its value of before or that of the image, and a position that was BLANK is SPOILED, not
VALID (R126) and not BLANK where its image has a byte to program, as every packed image has (R127, R130, R147); a mark
cut off does not read as set where it did not before; a cut-off clear leaves each byte of its block as it was or
erased, every other byte as it was, and the block DISORDERED to the next scan (by log 7, the model's reading of R147),
where a position behind position 0 was not BLANK, without which the walk can find none so. That the sequencer shows
READY without supply is the model's choice (log 76). -/
def Obligations.PowerLossCutsOffTheAct : Prop :=
  ∀ s : State, s.station.powered = true →
    ∃ t, exec .powerLoss s = .next (s.put t) ∧ t.powered = false ∧ t.sst.queue = [] ∧ t.sst.current = none ∧
      t.sst.page = none ∧ t.sst.seq = .ready ∧
      (s.station.sst.current = none → t.sst.array = s.station.sst.array) ∧
      (Sparse.wf erasedByte s.station.sst.array = true →
        ∀ c, s.station.sst.current = some c →
          let before := s.station.sst.array
          let block := c.request.block
          (∀ p image last start, c.stage = .writing p image last start → image.length = 256 →
            (∀ a, a < positionAddress block p ∨ positionAddress block p + 256 ≤ a →
              Sparse.read erasedByte t.sst.array a = Sparse.read erasedByte before a) ∧
            (∀ i (h : i < image.length),
              Sparse.read erasedByte t.sst.array (positionAddress block p + i) = image[i] ∨
              Sparse.read erasedByte t.sst.array (positionAddress block p + i) =
                Sparse.read erasedByte before (positionAddress block p + i)) ∧
            (positionBlank (readPosition before block p) = true →
              imageValid (readPosition t.sst.array block p) = false ∧
                ((∃ i, 2 ≤ i ∧ i < 256 ∧ image.getD i 0 ≠ erasedByte) →
                  positionBlank (readPosition t.sst.array block p) = false))) ∧
          (∀ start, c.stage = .marking start →
            (∀ a, a < keepAddress block ∨ keepAddress block + 4 ≤ a →
              Sparse.read erasedByte t.sst.array a = Sparse.read erasedByte before a) ∧
            (keepSet before block = false → keepSet t.sst.array block = false)) ∧
          (∀ spent since, c.stage = .clearing spent since →
            (∀ a, inBlock block a = false →
              Sparse.read erasedByte t.sst.array a = Sparse.read erasedByte before a) ∧
            (∀ a, inBlock block a = true →
              Sparse.read erasedByte t.sst.array a = erasedByte ∨
              Sparse.read erasedByte t.sst.array a = Sparse.read erasedByte before a) ∧
            (block < 32 → (∃ p, 1 ≤ p ∧ p < 16 ∧ positionBlank (readPosition before block p) = false) →
              (walk ((List.range 16).map (fun p => (p, readPosition t.sst.array block p))) []).2.2 = true)))

/-! Enrolment. -/

/-- The announce timer expires (R188): it restarts at 500 ms, and an ENROL is placed unless one is in the transmit list;
without room it is kept. The body is composed from the record: the heard set, heard epoch and heard no-live flag, or in
LANE_FAULT the station's own id, SMG's highest epoch and the own no-live flag. The fault timer expires (R190): the
station becomes UNENROLLED, its record starts afresh and it announces; with a strap fault it does not leave LANE_FAULT
(R186). -/
def Obligations.EnrolmentTimersExpire : Prop :=
  (∀ (s : State) (d : Nat), s.expires s.station.lif.enrol.announce d →
    let r := s.station.lif.enrol
    let own := s.station.straps.station
    let m : Msg :=
      if r.state = .laneFault then
        .enrol s.station.straps.count (2 ^ own) s.station.smg.highest (if r.ownNoLive then 1 else 0)
      else .enrol s.station.straps.count (heardByte r.heard) r.heardEpoch (if r.heardNoLive then 1 else 0)
    ∃ t, exec .announceTimerExpiry s = .next (s.put t) ∧
      t.lif.enrol = { r with announce := some (d + 500 * Config.ms) } ∧
      (s.station.lif.tx.any (·.msg.isEnrol) = true →
        t.lif.tx = s.station.lif.tx ∧ t.lif.keptEnrol = s.station.lif.keptEnrol) ∧
      (s.station.lif.tx.any (·.msg.isEnrol) = false →
        (s.station.room m = true →
          t.lif.tx = s.station.lif.tx ++ [⟨m, .lif, s.station.ticks, false⟩] ∧ t.lif.keptEnrol = false) ∧
        (s.station.room m = false → t.lif.tx = s.station.lif.tx ∧ t.lif.keptEnrol = true)) ∧
      { t.lif with
        enrol := s.station.lif.enrol, tx := s.station.lif.tx, keptEnrol := s.station.lif.keptEnrol } = s.station.lif ∧
      { t with lif := s.station.lif } = s.station) ∧
  (∀ (s : State) (d : Nat), s.expires s.station.lif.enrol.fault d →
    ∃ t, exec .faultTimerExpiry s = .next (s.put t) ∧ t.lif.enrol.fault = none ∧
      (s.station.strapFault = true →
        t = { s.station with
              lif := { s.station.lif with enrol := { s.station.lif.enrol with fault := none } } }) ∧
      (s.station.strapFault = false →
        t.lif.enrol.state = .unenrolled ∧ t.lif.enrol.heard = (Quad.fill false).set s.station.straps.station true ∧
        t.lif.enrol.heardEpoch = s.station.smg.highest ∧ t.lif.enrol.heardNoLive = s.station.lif.enrol.ownNoLive ∧
        t.lif.enrol.announce = some (d + 500 * Config.ms) ∧
        (t.lif.tx.any (·.msg.isEnrol) = true ∨ t.lif.keptEnrol = true)) ∧
      { t with lif := s.station.lif, pns := s.station.pns } = s.station)


/-- A matching ENROL at an UNENROLLED station (R189): the heard set becomes the union of the heard set, the sender's id
and the frame's heard set; the heard epoch the greater of itself and the frame's; the heard no-live flag 1 if the
frame's is. Where the frame's heard set lacks an id the station stays UNENROLLED, and announces if its own heard set
grew. An ENROL from a console node leaves the record as it is, whatever the state; so does one whose flag is neither 0
nor 1, which is the model's reading of R175 (log 42), also where that ENROL mismatches, the model's choice (log 80). -/
def Obligations.MatchingEnrolMergesRecord : Prop :=
  (∀ (s : State) (e : RxEntry) (rest : List RxEntry) (heard noLive : Nat) (epoch : Epoch),
    s.headIs (.enrol s.station.straps.count heard epoch noLive) e rest → noLive ≤ 1 → e.sender < 4 →
    e.sender < s.station.straps.count → heard < 2 ^ s.station.straps.count →
    heard + 1 ≠ 2 ^ s.station.straps.count → s.station.lif.enrol.state = .unenrolled →
    let r := s.station.lif.enrol
    ∃ t, exec .enrol s = .next (s.put t) ∧ t.lif.rx = rest ∧ t.lif.enrol.state = .unenrolled ∧
      (∀ i, i < 4 → t.lif.enrol.heard.get i = (r.heard.get i || decide (i = e.sender) || heard.testBit i)) ∧
      t.lif.enrol.heardEpoch.toNat = max r.heardEpoch.toNat epoch.toNat ∧
      t.lif.enrol.heardNoLive = (r.heardNoLive || decide (noLive = 1)) ∧
      (t.lif.enrol.heard = r.heard → t.lif.enrol.announce = r.announce ∧ t.lif.tx = s.station.lif.tx) ∧
      (t.lif.enrol.heard ≠ r.heard →
        t.lif.enrol.announce = some (e.acceptedAt + 500 * Config.ms) ∧
        (t.lif.tx.any (·.msg.isEnrol) = true ∨ t.lif.keptEnrol = true)) ∧
      { t with lif := s.station.lif, pns := s.station.pns } = s.station) ∧
  (∀ (s : State) (e : RxEntry) (rest : List RxEntry) (count heard noLive : Nat) (epoch : Epoch),
    s.headIs (.enrol count heard epoch noLive) e rest → 4 ≤ e.sender ∨ 1 < noLive →
    ∃ t, exec .enrol s = .next (s.put t) ∧ t.lif = (s.station.pop rest).lif ∧
      { t with lif := s.station.lif, pns := s.station.pns } = s.station)

/-- A matching ENROL with a full heard set at an UNENROLLED station completes enrolment (R191): ENROLLED, the announce
timer stopped, its own ENROL that has not begun its transfer removed, though not one whose claim is already won, the
model's choice (log 78), lane time zero at the acceptance instant, the highest epoch the greater of its own and the
frame's; the settle timer and the untracked flag follow the no-live-setup flag (R20); PNS stamps its queued events anew
(R114); a station in IDLE that wants to acquire enters PREPARING (R41) with its capture taken, its front-end words sent
and its settling begun (R13, R15, R16), or PREPARED where R42 holds; with the flag 1 station 0 starts the boot recall
chain (R193). -/
def Obligations.FullEnrolCompletesEnrolment : Prop :=
  ∀ (s : State) (e : RxEntry) (rest : List RxEntry) (heard noLive : Nat) (epoch : Epoch),
    s.headIs (.enrol s.station.straps.count heard epoch noLive) e rest → noLive ≤ 1 → e.sender < 4 →
    e.sender < s.station.straps.count → heard + 1 = 2 ^ s.station.straps.count →
    s.station.lif.enrol.state = .unenrolled →
    ∃ t, exec .enrol s = .next (s.put t) ∧ t.lif.rx = rest ∧ t.lif.enrol.state = .enrolled ∧
      t.lif.enrol.announce = none ∧ t.lif.laneZero = e.acceptedAt ∧ t.laneTimeAt e.acceptedAt = 0 ∧
      (∀ x ∈ t.lif.tx, x.msg.isEnrol = true → x.sending = true) ∧
      t.smg.highest.toNat = max s.station.smg.highest.toNat epoch.toNat ∧
      (noLive = 1 → t.smg.untracked = false ∧ t.smg.settle = none) ∧
      (noLive = 0 →
        t.smg.untracked = s.station.smg.untracked ∧
        t.smg.settle =
          if s.station.smg.untracked then some (e.acceptedAt + 10000 * Config.ms) else s.station.smg.settle) ∧
      (noLive = 1 → s.station.straps.station = 0 →
        t.smg.chain = .slot0 ∧
        (t.smg.keptChain = true ∨ ∃ x ∈ t.lif.tx, x.msg = .recall 0 ∧ x.origin = .chain)) ∧
      t.pns.queue = s.station.pns.queue.map (fun ev => { ev with stamp := e.acceptedAt }) ∧
      (s.station.acq.state = .idle → s.station.flipPending = false → s.station.tgu.run ≠ .stopped →
        s.station.standby = false → s.station.preparedFrom t e.acceptedAt) ∧
      { t with
        lif := s.station.lif, smg := s.station.smg, acq := s.station.acq, tgu := s.station.tgu,
        rse := s.station.rse, pns := s.station.pns } = s.station

/-- An ENROL that mismatches (another count, a sender or an id of the heard set not below it) puts an UNENROLLED or
LANE_FAULT station into LANE_FAULT with its fault timer at 1500 ms and its record afresh (R190), and restarts an
ENROLLED one, which then enters LANE_FAULT (R192); in LANE_FAULT a matching ENROL is ignored, and an ENROLLED station
ignores a matching one with a full heard set and restarts UNENROLLED at one that lacks an id (R192). -/
def Obligations.EnrolMismatchAndLateJoiner : Prop :=
  ∀ (s : State) (e : RxEntry) (rest : List RxEntry) (count heard noLive : Nat) (epoch : Epoch),
    s.headIs (.enrol count heard epoch noLive) e rest → noLive ≤ 1 → e.sender < 4 →
    let fits := count = s.station.straps.count ∧ e.sender < count ∧ heard < 2 ^ count
    ∃ t, exec .enrol s = .next (s.put t) ∧
      (¬ fits →
        t.lif.enrol.state = .laneFault ∧ t.lif.enrol.fault = some (e.acceptedAt + 1500 * Config.ms) ∧
        t.lif.enrol.heard = (Quad.fill false).set s.station.straps.station true ∧
        t.lif.enrol.heardEpoch = t.smg.highest ∧ t.lif.enrol.heardNoLive = s.station.lif.enrol.ownNoLive) ∧
      (fits → s.station.lif.enrol.state = .laneFault → t.lif = (s.station.pop rest).lif) ∧
      (fits → s.station.lif.enrol.state = .enrolled → heard + 1 = 2 ^ count → t.lif = (s.station.pop rest).lif) ∧
      (fits → s.station.lif.enrol.state = .enrolled → heard + 1 ≠ 2 ^ count →
        t.lif.enrol.state = .unenrolled ∧
        (∀ i, i < 4 →
          t.lif.enrol.heard.get i =
            (decide (i = s.station.straps.station) || decide (i = e.sender) || heard.testBit i))) ∧
      (s.station.lif.enrol.state = .enrolled → (¬ fits ∨ heard + 1 ≠ 2 ^ count) →
        t.acq = Acq.reset ∧ t.pns.queue = [] ∧ t.smg.op = none) ∧
      ((s.station.lif.enrol.state ≠ .enrolled ∧ ¬ fits) ∨ s.station.lif.enrol.state = .laneFault ∨
          (s.station.lif.enrol.state = .enrolled ∧ fits ∧ heard + 1 = 2 ^ count) →
        { t with lif := s.station.lif, pns := s.station.pns } = s.station) ∧
      t.straps = s.station.straps ∧ t.standby = s.station.standby ∧ t.smg.highest.toNat ≥ s.station.smg.highest.toNat

/-- A RESTART frame (R194): every block takes its RESTART state in one act (R20, R147, R37, R61, R78, R93, R115, R185),
the requests queued, in progress and of the READ served in the hold are orphaned (R147), every dirty HELD window is
written back (R20), the grid holds nothing but the readouts (R93): of each enabled channel twelve cells in row 24 (R88),
and at a COMMON-role station fifty cells in row 0 (R89), their cells of code 0 with the attribute of log 48, the left
alignment of PULSEW and SINGLE by log 21, the model's reading; the station becomes UNENROLLED, or stays in LANE_FAULT
with its fault timer, starts its record afresh and announces; the transmit list is emptied and the lane stays, a frame
whose claim is won and whose transfer has not begun with it, the model's choice (log 77); own no-live flag, standby
state, LIVE window, highest epoch and untracked flag are kept. -/
def Obligations.RestartGivesEveryBlockItsState : Prop :=
  (∀ (s : State) (e : RxEntry) (rest : List RxEntry), s.headIs .restart e rest →
    ∃ t, exec .restart s = .next (s.put t) ∧ t.powered = true ∧ t.straps = s.station.straps ∧
      t.standby = s.station.standby ∧ t.ticks = s.station.ticks ∧
      -- SMG
      (∀ i, i < 4 →
        let w := s.station.smg.windows.get i
        t.smg.windows.get i = if w.role = .held ∨ w.role = .staged then Window.blank else w) ∧
      t.smg.highest = s.station.smg.highest ∧ t.smg.untracked = s.station.smg.untracked ∧ t.smg.op = none ∧
      t.smg.settle = none ∧ t.smg.due = false ∧ t.smg.wordA = none ∧ t.smg.wordB = none ∧ t.smg.settling = none ∧
      t.smg.chain = .idle ∧ (∀ r ∈ t.smg.kept, r.kind ≠ .read) ∧
      (∀ i, i < 4 → (s.station.smg.windows.get i).role = .held → (s.station.smg.windows.get i).dirty = true →
        let w := s.station.smg.windows.get i
        t.requested ⟨.append, w.mapped.getD 0, w.epoch.getD 0, s.station.packHeld w, .none, false⟩) ∧
      -- SST
      t.sst.array = s.station.sst.array ∧ t.sst.index = s.station.sst.index ∧ t.sst.seq = s.station.sst.seq ∧
      t.sst.page = s.station.sst.page ∧ t.sst.override = s.station.sst.override ∧
      t.sst.lastRequest = s.station.sst.lastRequest ∧ t.sst.faultBlock = s.station.sst.faultBlock ∧
      t.faulted = s.station.faulted ∧
      t.sst.current = s.station.sst.current.map (fun c => { c with request := { c.request with orphaned := true } }) ∧
      t.sst.holdRead = s.station.sst.holdRead.map (fun r => ({ r.1 with orphaned := true }, r.2)) ∧
      t.sst.abandonAfterRead = s.station.sst.abandonAfterRead ∧
      s.station.sst.queue.map (fun r => { r with orphaned := true }) <+: t.sst.queue ∧
      -- ACQ and TGU
      t.acq = Acq.reset ∧
      t.tgu = { Tgu.powerOn with run := s.station.tgu.run, savedRun := s.station.tgu.savedRun } ∧
      -- RSE
      t.rse.layerA = Layer.reset ∧ t.rse.layerB = Layer.reset ∧ t.rse.draw = none ∧ t.rse.clipA = false ∧
      t.rse.clipB = false ∧ t.rse.satA = false ∧ t.rse.satB = false ∧ t.rse.decayCount = 0 ∧
      t.rse.decayPass = false ∧ t.rse.decayTimer = e.acceptedAt + 25 * Config.ms ∧
      t.rse.grid =
        readoutGrid s.station.straps t.live.common t.live.chA t.live.chB s.station.tgu.run false false false false ∧
      t.rse.outs = s.station.rse.outs ∧
      t.rse.frameTimer = s.station.rse.frameTimer ∧ t.rse.frame = s.station.rse.frame ∧
      t.rse.blank = s.station.rse.blank ∧ t.rse.freeRunning = s.station.rse.freeRunning ∧
      t.rse.lossTimer = s.station.rse.lossTimer ∧
      -- PNS
      t.pns.scanTimer = s.station.pns.scanTimer ∧ t.pns.firstScan = true ∧ t.pns.holdSave = none ∧
      t.pns.holdPower = none ∧ (∀ i, t.countOf i = 0) ∧ t.pns.queue = [] ∧ t.panelLevel = 3 ∧ t.pns.sequence = none ∧
      (∀ x ∈ t.pns.leds, x.overlay = none ∧ (x.led ≠ .standby → x.mode = .off)) ∧
      -- LIF
      t.lif.tx = [⟨t.enrolMsg, .lif, s.station.ticks, false⟩] ∧
      t.lif.rx = rest.filter (fun x => decide (x.msg.kindCode = 0) || decide (x.msg.kindCode = 10)) ∧
      t.lif.answer = none ∧ t.lif.laneZero = s.station.lif.laneZero ∧ t.lif.lane = s.station.lif.lane ∧
      t.lif.enrol.state = (if s.station.lif.enrol.state = .laneFault then .laneFault else .unenrolled) ∧
      t.lif.enrol.fault = s.station.lif.enrol.fault ∧ t.lif.enrol.ownNoLive = s.station.lif.enrol.ownNoLive ∧
      t.lif.enrol.heard = (Quad.fill false).set s.station.straps.station true ∧
      t.lif.enrol.heardEpoch = s.station.smg.highest ∧
      t.lif.enrol.heardNoLive = s.station.lif.enrol.ownNoLive ∧
      t.lif.enrol.announce = some (e.acceptedAt + 500 * Config.ms)) ∧
  -- where the readouts stand in a grid just reset
  (∀ (straps : Straps) (c : Common) (a b : Channel) (run : RunState) (clipA satA clipB satB : Bool) (k : Nat),
    straps.station < 4 →
    let own := straps.station
    let cellAt (cells : List GridCell) (i : Nat) := cells.getD i GridCell.blank
    Sparse.read GridCell.blank (readoutGrid straps c a b run clipA satA clipB satB) k =
      if straps.panel = .common ∧ k < 50 then cellAt (commonReadout c run) k
      else if 2400 + 25 * own ≤ k ∧ k < 2400 + 25 * own + 12 then
        cellAt (channelReadout (2 * own + 1) a clipA satA) (k - (2400 + 25 * own))
      else if 2400 + 25 * own + 12 ≤ k ∧ k < 2400 + 25 * own + 24 then
        cellAt (channelReadout (2 * own + 2) b clipB satB) (k - (2400 + 25 * own + 12))
      else GridCell.blank) ∧
  -- the cells of a channel readout
  (∀ (channel : Nat) (c : Channel) (clipped saturated : Bool),
    let cells := channelReadout channel c clipped saturated
    let text (t : String) : List Nat := t.toList.map Char.toNat
    (c.enable ≠ 1 → cells = List.replicate 12 GridCell.blank) ∧
    (c.enable = 1 → c.inRange = true →
      let name := (c.label.take 3).map labelFont
      let mark := if saturated then 83 else if clipped then 67 else 32
      cells.map (·.code) =
        (if c.label = [] then text "CH" ++ [48 + channel] else name ++ List.replicate (3 - name.length) 32) ++
        [if c.invert = 1 then 45 else 32] ++
        text (["  1m", "  2m", "  5m", " 10m", " 20m", " 50m", "100m", "200m", "500m", "  1V", "  2V", "  5V"].getD
          c.vscale "") ++
        text (["D", "A", "G"].getD c.coupling "") ++ [if c.bwlimit = 1 then 66 else 32] ++
        [if 0 < c.voffset then 1 else if c.voffset < 0 then 2 else 32] ++ [mark] ∧
      (∀ k cell, cells[k]? = some cell →
        cell.colour = BitVec.ofNat 4 channel ∧ cell.dim = false ∧
        (cell.inverse = true ↔ k = 11 ∧ (saturated = true ∨ clipped = true))))) ∧
  -- the cells of the common readout
  (∀ (c : Common) (run : RunState), c.inRange 4 = true →
    let cells := commonReadout c run
    let text (t : String) : List Nat := t.toList.map Char.toNat
    let times := ["1ns", "2ns", "5ns", "10ns", "20ns", "50ns", "100ns", "200ns", "500ns", "1us", "2us", "5us", "10us",
      "20us", "50us", "100us", "200us", "500us", "1ms", "2ms", "5ms", "10ms", "20ms", "50ms", "100ms", "200ms", "500ms",
      "1s", "2s", "5s", "10s", "20s", "50s"]
    let right (n : Nat) (t : List Nat) := List.replicate (n - t.length) 32 ++ t
    let left (n : Nat) (t : List Nat) := t ++ List.replicate (n - t.length) 32
    cells.map (·.code) =
      right 5 (text (times.getD c.timebase "")) ++ [0] ++
      [if 1000 ≤ c.hpos then 49 else 32, if 100 ≤ c.hpos then 48 + c.hpos / 100 % 10 else 32, 48 + c.hpos / 10 % 10, 46,
        48 + c.hpos % 10, 37] ++ [0] ++
      left 6 (text (if c.acqmode = 0 then "SAMPLE" else if c.acqmode = 1 then "PEAK"
        else ["", "AVG2", "AVG4", "AVG8", "AVG16", "AVG32", "AVG64", "AVG128", "AVG256"].getD c.avgcount "")) ++ [0] ++
      text "CH" ++ [48 + c.trigsrc] ++ [0] ++
      text (if c.trigtype = 0 then "EDG" else "PLS") ++ [c.slope + 1] ++
      [if c.trigtype = 0 then 32 else if c.pulsecond = 0 then 60 else 62] ++ [0] ++
      left 5 (text (if c.trigtype = 0 then "" else times.getD c.pulsew "")) ++ [0] ++
      text (if c.runmode = 0 then "AUTO" else "NORM") ++ [0] ++
      text (match run with | .running => "RUNNING" | .stopped => "STOPPED" | .single => "SINGLE ") ++ [0, 0] ∧
    (∀ k cell, cells[k]? = some cell → cell.code ≠ 0 →
      cell.colour = (if 20 ≤ k ∧ k ≤ 22 then BitVec.ofNat 4 c.trigsrc else 9) ∧ cell.dim = false ∧
      cell.inverse = false))

/-! The station lane. -/

/-- A claim phase runs on the idle lane (R170, R178): the one the present tick lies in, or the first in which this
station contends, when that is earlier; that the phases before it passed without a pulse, since no CLAIM_PHASE came for
them, is the model's reading (log 15). A frame of the transmit list contends when it was there as the phase began, and
one placed in the very tick in which it begins was: the model's choice (log 75). With no pulse the next phase follows;
else the earliest pulse wins, and the frame of its node begins at the next position: of this station the oldest frame of
its best rank, an ENROL with its body composed now, from the record as it stands at the command, in no order against
waiting frames, the model's choice (log 78). The frame so won is sent from here on, whatever comes before its transfer
begins (log 77). -/
def Obligations.ClaimPhaseEarliestPulseWins : Prop :=
  ∀ (s : State) (others : List Nat) (start k : Nat),
    s.station.powered = true → (Instr.claimPhase others).wf = true → s.station.lif.lane = .idle start →
    let phase := start + 64 * k
    let tx := s.station.lif.tx
    let contends (e : TxEntry) : Prop := e.placedAt ≤ phase ∧ e.sending = false
    phase ≤ s.station.ticks → (k = 0 ∨ ∀ e ∈ tx, e.sending = false → phase < e.placedAt + 64) →
    ((∃ e ∈ tx, contends e) ∨ s.station.ticks < phase + 64) →
    ∃ t, exec (.claimPhase others) s = .next (s.put t) ∧
      -- nobody pulses: the next phase follows
      ((∀ e ∈ tx, ¬ contends e) → others = [] → t.lif.lane = .idle (phase + 64) ∧ t.lif.tx = tx) ∧
      -- another node's pulse is the earliest
      (∀ p ∈ others, (∀ q ∈ others, p ≤ q) →
        (∀ e ∈ tx, contends e → p < e.msg.rank * 8 + s.station.straps.station) →
        t.lif.lane = .transfer (p % 8) none (phase + 2 * (p + 1)) ∧ t.lif.tx = tx) ∧
      -- this station's pulse is the earliest: the oldest frame of its best rank begins its transfer
      (∀ before e behind, tx = before ++ e :: behind → contends e → (∀ x ∈ tx, contends x → e.msg.rank ≤ x.msg.rank) →
        (∀ x ∈ before, contends x → e.msg.rank < x.msg.rank) →
        (∀ q ∈ others, e.msg.rank * 8 + s.station.straps.station ≤ q) →
        s.station.straps.station < 8 →
        let p := e.msg.rank * 8 + s.station.straps.station
        let m := if e.msg.isEnrol then s.station.enrolMsg else e.msg
        t.lif.lane = .transfer (p % 8) (some m) (phase + 2 * (p + 1)) ∧
        t.lif.tx = before ++ { e with msg := m, sending := true } :: behind) ∧
      { t with lif := s.station.lif } = s.station ∧
      { t.lif with lane := s.station.lif.lane, tx := tx } = s.station.lif

/-- The end of a frame's VOID window, 16 ticks a byte and four more after its start (R171 to R174); of its own frame a
station receives the bytes it sent, or as many that fail a check (log 53). The lane is idle from then on and the
sender's list loses the frame. A frame that another node voids, whose CRC, length or sender fails, that comes in the
start-up period, that finds the list full, or that a station not enrolled does not place (any but ENROL and RESTART)
enters no list; any other enters the receive list last, with its sender and acceptance instant. The boot recall chain's
own RECALL voided takes the chain to SLOT31 with RECALL 31 offered (R193), into the freed place before any other block's
frame, the model's choice (log 67); nothing else of SMG changes. The enrolment state and the list are those at the
command, in no order against frames that wait, the model's choice (log 66); so is whether the start-up period still
runs, for a frame that began in it and ends after it (log 79). -/
def Obligations.FrameEndAcceptsOrVoids : Prop :=
  ∀ (s : State) (bytes : List Byte) (otherVoid : Bool) (winner : Nat) (own : Option Msg) (start : Nat),
    s.station.powered = true → (Instr.frameEnd bytes otherVoid).wf = true →
    s.station.lif.lane = .transfer winner own start →
    let x := start + 16 * bytes.length + 4
    let intact :=
      (crc16 (bytes.take (bytes.length - 2))).toNat = leNat (bytes.drop (bytes.length - 2)) ∧
      byteAt bytes 2 ≤ 80 ∧ byteAt bytes 2 = bytes.length - 5 ∧ byteAt bytes 1 = winner
    (own = none → x = s.station.ticks) →
    (∀ m, own = some m →
      x ≤ s.station.ticks ∧ bytes.length = (m.frame s.station.straps.station).length ∧
      (bytes = m.frame s.station.straps.station ∨ ¬ intact)) →
    let placed := s.station.lif.startUp = false ∧ (s.station.enrolled = true ∨ byteAt bytes 0 = 0 ∨ byteAt bytes 0 = 10)
    let chained : Prop := own ≠ none ∧ (∃ e ∈ s.station.lif.tx, e.sending = true ∧ e.origin = .chain)
    ∃ t, exec (.frameEnd bytes otherVoid) s = .next (s.put t) ∧ t.lif.lane = .idle x ∧
      (own ≠ none → t.lif.tx.filter (fun e => !e.msg.isSetupProtocol) =
        (s.station.lif.tx.filter (fun e => !e.sending)).filter (fun e => !e.msg.isSetupProtocol)) ∧
      (own ≠ none → s.station.smg.chain = .idle → t.lif.tx = s.station.lif.tx.filter (fun e => !e.sending)) ∧
      (own = none → t.lif.tx = s.station.lif.tx) ∧
      (otherVoid = true ∨ ¬ intact ∨ ¬ placed ∨ 8 ≤ s.station.lif.rx.length → t.lif.rx = s.station.lif.rx) ∧
      (otherVoid = false → intact → placed → s.station.lif.rx.length < 8 →
        (∀ k, s.station.lif.rxFullTake = some k → k < x - 4) →
        t.lif.rx =
          s.station.lif.rx ++
            [⟨Msg.ofBody (byteAt bytes 0) ((bytes.drop 3).take (bytes.length - 5)), byteAt bytes 1, x,
              own.isSome && s.station.sendsChain⟩]) ∧
      { t with lif := s.station.lif, smg := s.station.smg, free := s.station.free } = s.station ∧
      (s.station.smg.chain = .idle ∨ ¬ chained ∨
          (otherVoid = false ∧ intact ∧ (s.station.lif.startUp = true ∨ s.station.lif.rx.length < 8) ∧
            ∀ k, s.station.lif.rxFullTake = some k → k < x - 4) →
        t.smg = s.station.smg) ∧
      (chained → s.station.smg.chain ≠ .idle →
        otherVoid = true ∨ (s.station.lif.startUp = false ∧ (¬ intact ∨ (placed ∧ 8 ≤ s.station.lif.rx.length))) →
        t.smg = { s.station.smg with chain := .slot31, chainWait := .nothing, keptChain := t.smg.keptChain } ∧
        t.chainOffers 31)

/-- A frame that a station sends is the frame that every station receives: its bytes pass the CRC, length and sender
checks of R172 for its sender, and spell the frame back with every field at every value. -/
def Obligations.FrameBytesSpellTheFrame : Prop :=
  ∀ (m : Msg) (sender : Nat), m.wf = true → m.kindCode < 256 → m.body.length ≤ 80 → sender < 8 →
    frameChecks sender (m.frame sender) = true ∧ receivedMsg (m.frame sender) = m ∧
    byteAt (m.frame sender) 1 = sender ∧ (m.frame sender).length = 5 + m.body.length

/-- When the transmit list loses an entry, a block that keeps a frame offers it again (R178): with room the list takes
it last, without room the block keeps it; a block that keeps none changes nothing. There is room in a list of fewer
than 16 frames, for a frame of rank 2 or 3 with fewer than 14 of them in it, and for a setup-protocol frame with no
other in it. It acts in no order against waiting frames and timers, the model's choice (log 62). -/
def Obligations.TransmitListRoomTakesKeptFrame : Prop :=
  ∀ s : State, s.station.powered = true →
    let placed (m : Msg) (o : Origin) : List TxEntry := s.station.lif.tx ++ [⟨m, o, s.station.ticks, false⟩]
    let chainFrame := Msg.recall (match s.station.smg.chain with | .slot31 => 31 | _ => 0)
    (∃ t, exec (.transmitListRoom .setup) s = .next (s.put t) ∧
      (∀ m, s.station.smg.keptProto = some m → s.station.room m = true →
        t = { s.station with
              lif := { s.station.lif with tx := placed m .setup }
              smg := { s.station.smg with keptProto := none } }) ∧
      (∀ m, s.station.smg.keptProto = some m → s.station.room m = false → t = s.station) ∧
      (s.station.smg.keptProto = none → t = s.station)) ∧
    (∃ t, exec (.transmitListRoom .chain) s = .next (s.put t) ∧
      (s.station.smg.keptChain = true → s.station.room chainFrame = true →
        t = { s.station with
              lif := { s.station.lif with tx := placed chainFrame .chain }
              smg := { s.station.smg with keptChain := false } }) ∧
      (s.station.smg.keptChain = false ∨ s.station.room chainFrame = false → t = s.station)) ∧
    (∃ t, exec (.transmitListRoom .trigger) s = .next (s.put t) ∧
      (∀ m, s.station.tgu.keptFrame = some m → s.station.room m = true →
        t = { s.station with
              lif := { s.station.lif with tx := placed m .trigger }
              tgu := { s.station.tgu with keptFrame := none } }) ∧
      (∀ m, s.station.tgu.keptFrame = some m → s.station.room m = false → t = s.station) ∧
      (s.station.tgu.keptFrame = none → t = s.station)) ∧
    (∃ t, exec (.transmitListRoom .enrol) s = .next (s.put t) ∧
      (s.station.lif.keptEnrol = true → s.station.lif.tx.any (·.msg.isEnrol) = false →
        s.station.room s.station.enrolMsg = true →
        t = { s.station with
              lif := { s.station.lif with tx := placed s.station.enrolMsg .lif, keptEnrol := false } }) ∧
      (s.station.lif.keptEnrol = false ∨ s.station.lif.tx.any (·.msg.isEnrol) = true ∨
          s.station.room s.station.enrolMsg = false → t = s.station)) ∧
    (∃ t, exec (.transmitListRoom .report) s = .next (s.put t) ∧
      (∀ a, s.station.lif.answer = some a → s.station.room (s.station.reportMsg a) = true →
        t = { s.station with
              lif := { s.station.lif with tx := placed (s.station.reportMsg a) .lif, answer := none } }) ∧
      (∀ a, s.station.lif.answer = some a → s.station.room (s.station.reportMsg a) = false → t = s.station) ∧
      (s.station.lif.answer = none → t = s.station)) ∧
    exec (.transmitListRoom .panel) s = exec .panelDispatch s ∧
    -- what room is (R178), by the rank of a frame and for a setup-protocol frame
    (∀ m : Msg,
      let protocol (m : Msg) : Prop :=
        (∃ a, m = .recall a) ∨ (∃ a b, m = .listed a b) ∨ (∃ a b c d, m = .staged a b c d) ∨ (∃ a b, m = .save a b) ∨
        ∃ a b c, m = .saved a b c
      (s.station.room m = true ↔
        s.station.lif.tx.length < 16 ∧
        (2 ≤ m.rank → (s.station.lif.tx.filter (fun e => decide (2 ≤ e.msg.rank))).length < 14) ∧
        (protocol m → ∀ e ∈ s.station.lif.tx, ¬ protocol e.msg)) ∧
      (m.rank = 0 ↔ m = .restart ∨ (∃ a, m = .runctl a) ∨ ∃ a b c d, m = .triggered a b c d) ∧
      (m.rank = 1 ↔ protocol m ∨ ∃ a b, m = .map a b) ∧ (m.rank = 2 ↔ ∃ a b c d, m = .setting a b c d) ∧
      m.rank ≤ 3)

/-- A QUERY whose target is this station forms the pending answer, in place of an earlier one; the list takes the
REPORT composed now, or LIF keeps the answer while there is no room. Every other station ignores it (R182). The REPORT
carries addressee, report kind, status and lane time. REPORT STATION carries the fields of R183, at their bytes (12,
section 12.1), those of an absent operation or record aside (log 51). REPORT SETTING carries the value of a common
setting, of the run state as number 17 (the saved one in standby, R6), of this station's channels, and for LABEL length
and codes; any other is not held, status 1 with no value. REPORT BLOCK carries the index entry of R129, a block above
31 giving status 2 with no entry, and REPORT WINDOWS the fields of each window that its role gives meaning (R184).
Argument bytes that must be 0 are disregarded, the model's choice (log 63). -/
def Obligations.QueryIsAnsweredByReport : Prop :=
  (∀ (s : State) (e : RxEntry) (rest : List RxEntry) (k a b : Nat) (c : Instr),
    (k, c) ∈ [(0, Instr.queryStation), (1, .querySetting), (2, .queryBlock), (3, .queryWindows)] →
    s.takes (.query s.station.straps.station k a b) e rest →
    let answered : Station :=
      { s.station.pop rest with lif := { (s.station.pop rest).lif with answer := some ⟨e.sender, k, a, b⟩ } }
    let m := s.station.reportMsg ⟨e.sender, k, a, b⟩
    exec c s =
      .next (s.put
        (if s.station.room m then
          { answered with
            lif :=
              { answered.lif with
                tx := s.station.lif.tx ++ [⟨m, .lif, s.station.ticks, false⟩], answer := none } }
        else answered))) ∧
  (∀ (s : State) (e : RxEntry) (rest : List RxEntry) (target k a b : Nat) (c : Instr),
    (k, c) ∈ [(0, Instr.queryStation), (1, .querySetting), (2, .queryBlock), (3, .queryWindows)] →
    s.takes (.query target k a b) e rest → target ≠ s.station.straps.station →
    exec c s = .next (s.put (s.station.pop rest))) ∧
  (∀ (t : Station) (addressee k a b : Nat),
    ∃ status body,
      t.reportMsg ⟨addressee, k, a, b⟩ =
        .report ([byteOf addressee, byteOf k, byteOf status] ++ leBytes 6 t.laneTime.toNat ++ body) ∧
      (k = 0 → status = 0 ∧ body.length = 32 ∧
        (t.straps.wf = true →
          leNat (slice body 0 2) = 0x2208 ∧ byteAt body 2 = t.straps.station ∧ byteAt body 3 = t.straps.count ∧
          byteAt body 4 =
            (match t.straps.panel with | .common => 0 | .channel => 1) +
            2 * (match t.straps.chain with | .head => 0 | .link => 1 | .tail => 2 | .sole => 3)) ∧
        byteAt body 5 = (match t.lif.enrol.state with | .unenrolled => 0 | .enrolled => 1 | .laneFault => 2) ∧
        byteAt body 6 = (if t.standby then 1 else 0) ∧ byteAt body 7 = t.tgu.run.code ∧
        byteAt body 8 = (t.tgu.savedRun.map RunState.code).getD 3 ∧
        byteAt body 9 =
          (match t.acq.state with
           | .idle => 0 | .preparing => 1 | .prepared => 2 | .pretrig => 3 | .armed => 4 | .posttrig => 5
           | .aligning => 6) ∧
        leNat (slice body 10 4) = t.acq.armedNumber.toNat ∧
        (t.smg.op = none → byteAt body 14 = 0) ∧
        (∀ o, t.smg.op = some o →
          byteAt body 14 = (match o.kind, o.round with | .recall, .listing => 1 | .recall, .staging => 2 | .save, _ => 3) ∧
          byteAt body 15 = o.slot % 256) ∧
        (t.smg.lastOutcome = none → byteAt body 16 = 0) ∧
        (∀ l, t.smg.lastOutcome = some l →
          byteAt body 16 = (match l.kind with | .recall => 1 | .save => 2) ∧ byteAt body 17 = l.slot % 256 ∧
          byteAt body 18 = l.outcome.code) ∧
        byteAt body 19 = (if t.flipPending then 1 else 0) ∧ byteAt body 20 = t.panelLevel ∧
        leNat (slice body 21 4) = t.smg.highest.toNat ∧
        byteAt body 25 =
          (match t.sst.seq with
           | .ready => 0 | .reading => 1 | .writing => 2 | .clearing => 3 | .held => 4 | .readingInHold => 5) ∧
        byteAt body 26 =
          (if t.sst.writeFault then 1 else 0) + (if t.sst.clearFault then 2 else 0) +
            (if t.sst.timeFault then 4 else 0) ∧
        byteAt body 27 = t.sst.faultBlock.getD 255 % 256 ∧ byteAt body 28 = (if t.sst.override then 1 else 0) ∧
        (t.sst.lastRequest = none → byteAt body 29 = 0) ∧
        (∀ l, t.sst.lastRequest = some l →
          byteAt body 29 = (match l.kind with | .read => 1 | .append => 2 | .discard => 3 | .mark => 4) ∧
          byteAt body 30 = l.block % 256 ∧ byteAt body 31 = (l.outcome.map OutcomeCode.code).getD 255)) ∧
      (k = 1 → a = 0 → 1 ≤ b → b ≤ 16 →
        status = 0 ∧ body = [byteOf a, byteOf b] ++ leBytes 4 (unsignedOf 32 (t.live.common.value b))) ∧
      (k = 1 → a = 0 → b = 17 →
        status = 0 ∧
        body =
          [byteOf a, byteOf b] ++
            leBytes 4 (unsignedOf 32 (if t.standby then t.tgu.savedRun.getD t.tgu.run else t.tgu.run).code)) ∧
      (∀ isB : Bool, k = 1 → a = 2 * t.straps.station + (if isB then 2 else 1) → a ≤ 2 * t.straps.count →
        let c := if isB then t.live.chB else t.live.chA
        (1 ≤ b → b ≤ 8 → status = 0 ∧ body = [byteOf a, byteOf b] ++ leBytes 4 (unsignedOf 32 (c.value b))) ∧
        (b = 9 →
          status = 0 ∧
          body =
            [byteOf a, byteOf b, byteOf c.label.length] ++ (List.range 8).map (fun i => byteOf (c.label.getD i 0)))) ∧
      (k = 1 →
        (a = 0 ∧ (b < 1 ∨ 17 < b)) ∨ (1 ≤ a ∧ (b < 1 ∨ 9 < b)) ∨ 2 * t.straps.count < a ∨
          (a ≠ 0 ∧ a ≠ 2 * t.straps.station + 1 ∧ a ≠ 2 * t.straps.station + 2) →
        status = 1 ∧ body = [byteOf a, byteOf b]) ∧
      (k = 2 → a ≤ 31 →
        let e := t.entry a
        status = 0 ∧
        body =
          [byteOf a, match e.guard with | .opened => 0 | .guarded => 1 | .pinned => 2, if e.keep then 1 else 0,
            if e.disordered then 1 else 0, byteOf (e.next.getD 255)] ++
            leBytes 2 ((e.generations.map (fun g => 2 ^ g.1)).sum) ++ e.generations.flatMap (fun g => leBytes 4 g.2.toNat)) ∧
      (k = 2 → 31 < a → status = 2 ∧ body = []) ∧
      (k = 3 → status = 0 ∧ body.length = 32 ∧
        ∀ i, i < 4 →
          let w := t.smg.windows.get i
          byteAt body (8 * i) = (match w.role with | .free => 0 | .live => 1 | .staged => 2 | .held => 3) ∧
          byteAt body (8 * i + 1) = (if w.role = .held then w.mapped.getD 255 % 256 else 255) ∧
          byteAt body (8 * i + 2) =
            (if w.role = .held ∧ w.dirty = true then 1 else 0) + (if w.role = .held ∧ w.loading = true then 2 else 0) +
            (if w.role = .staged ∧ w.flipPending = true then 4 else 0) +
            (if (w.role = .held ∨ w.role = .staged) ∧ w.epoch ≠ none then 8 else 0) ∧
          byteAt body (8 * i + 3) = 0 ∧
          leNat (slice body (8 * i + 4) 4) =
            (if w.role = .held ∨ w.role = .staged then (w.epoch.getD 0).toNat else 0)))

/-- A REPORT is taken and discarded whoever sent it and whatever the enrolment state (R175); a frame that fits no kind
is taken and ignored (R198, R175), and so is, by the model's reading (DEDUCED, log 13), a fitting frame whose action,
operation or report kind is none of those the rules name; but a SETTING that fits its kind restarts the settle timer of
an enrolled station whatever its operation (R7, R11), an unknown one included. A station that is not enrolled acts on
no frame but ENROL and RESTART (R172, R175): the command of a frame only takes it from the receive list. -/
def Obligations.FramesWithoutEffectAreTaken : Prop :=
  ((∀ (s : State) (e : RxEntry) (rest : List RxEntry) (body : List Byte), s.headIs (.report body) e rest →
    exec .report s = .next (s.put (s.station.pop rest))) ∧
  (∀ (s : State) (e : RxEntry) (rest : List RxEntry) (m : Msg), s.headIs m e rest →
    ((∃ k body, m = .illFitting k body) ∨ (∃ a, m = .runctl a ∧ 6 < a) ∨ (∃ slot a, m = .map slot a ∧ 1 < a) ∨
      (∃ target a block, m = .store target a block ∧ 7 < a) ∨ (∃ target k a b, m = .query target k a b ∧ 3 < k)) →
    exec .illFittingFrame s = .next (s.put (s.station.pop rest))) ∧
  (∀ (s : State) (e : RxEntry) (rest : List RxEntry) (channel number op : Nat) (v : Int),
    s.takes (.setting channel number op v) e rest → 1 < op → s.station.settingReady e = true →
    exec .illFittingFrame s =
      .next (s.put
        { s.station.pop rest with
          smg :=
            { s.station.smg with
              settle := some (e.acceptedAt + 10000 * Config.ms), untracked := true, due := false } }))) ∧
  (∀ (s : State) (e : RxEntry) (rest : List RxEntry) (c : Instr) (m : Msg), c.takesMsg m = true →
    s.headIs m e rest → s.station.enrolled = false →
    (∀ channel number op v, m = .setting channel number op v → s.station.settingReady e = true) →
    exec c s = .next (s.put (s.station.pop rest)))

/-! Run control. -/

/-- RUNCTL RUN and SINGLE set the run state, or in standby the saved run state (R57, R62); the run section of a
flip-pending STAGED window takes it too (R60). A station in IDLE goes to PREPARING under R41, with its capture
taken, its front-end words sent and its settling begun (R13, R15, R16), or to PREPARED where R42 holds; any other
state goes on. A change of the run state rebuilds the common readout of a COMMON-role station (R90). -/
def Obligations.RunAndSingleSetTheRunState : Prop :=
  ∀ (s : State) (e : RxEntry) (rest : List RxEntry) (c : Instr) (a : Nat) (r : RunState),
    (c, a, r) ∈ [(Instr.runctlRun, 0, RunState.running), (.runctlSingle, 2, .single)] → s.takes (.runctl a) e rest →
    ∃ t, exec c s = .next (s.put t) ∧ t.lif.rx = rest ∧
      (s.station.standby = false → t.tgu.run = r ∧ t.tgu.savedRun = s.station.tgu.savedRun) ∧
      (s.station.standby = true → t.tgu.savedRun = some r ∧ t.tgu.run = s.station.tgu.run) ∧
      (∀ i, s.station.flipIndex = some i → s.station.acq.state ≠ .idle → (t.smg.windows.get i).runState = r) ∧
      (s.station.acq.state ≠ .idle → t.acq = s.station.acq) ∧
      (s.station.acq.state = .idle → s.station.flipPending = false → s.station.standby = false →
        s.station.preparedFrom t e.acceptedAt) ∧
      (s.station.acq.state = .idle → s.station.flipPending = false → s.station.standby = true →
        t.acq = s.station.acq) ∧
      (s.station.flipPending = false → s.station.standby = false → s.station.tgu.run ≠ r →
        s.station.straps.panel = .common → Sparse.wf GridCell.blank s.station.rse.grid = true →
        ∀ k cell, (commonReadout s.station.live.common r)[k]? = some cell →
          Sparse.read GridCell.blank t.rse.grid k = cell) ∧
      { t with
        lif := s.station.lif, smg := s.station.smg, acq := s.station.acq, tgu := s.station.tgu,
        rse := s.station.rse, pns := s.station.pns } = s.station

/-- RUNCTL STOP sets the run state to STOPPED, or in standby the saved run state (R57, R62), and the run section of
a pending flip (R60), which in POSTTRIG and ALIGNING it holds till the record's completion. From IDLE, PREPARING,
PREPARED the station goes to IDLE with no reservation; in PRETRIG and ARMED the record is dropped, its slot FREE and
the accumulator unchanged; in POSTTRIG and ALIGNING the record goes on (R58). IDLE is a boundary: a pending flip is
performed there. -/
def Obligations.StopActsOnTheAcquisition : Prop :=
  ∀ (s : State) (e : RxEntry) (rest : List RxEntry), s.takes (.runctl 1) e rest →
    ∃ t, exec .runctlStop s = .next (s.put t) ∧ t.lif.rx = rest ∧
      (s.station.standby = false → t.tgu.run = .stopped) ∧
      (s.station.standby = true → t.tgu.savedRun = some .stopped) ∧
      (s.station.acq.state = .preparing ∨ s.station.acq.state = .prepared →
        t.acq.state = .idle ∧ t.acq.reserved = none ∧ t.acq.slots = s.station.acq.slots) ∧
      (s.station.acq.state = .idle → t.acq.state = .idle) ∧
      (∀ f, s.station.acq.fill = some f → s.station.acq.state = .pretrig ∨ s.station.acq.state = .armed →
        t.acq.state = .idle ∧ t.acq.fill = none ∧ t.acq.slots = s.station.acq.slots.set f.slot .free ∧
        t.tgu.auto = none) ∧
      (s.station.acq.state = .posttrig ∨ s.station.acq.state = .aligning → t.acq = s.station.acq) ∧
      (∀ i, s.station.flipIndex = some i →
        (s.station.acq.state = .idle ∨ s.station.acq.state = .preparing ∨ s.station.acq.state = .prepared →
          (t.smg.windows.get i).role = .live ∧
          (s.station.standby = true → t.tgu.savedRun = some .stopped)) ∧
        (s.station.acq.state = .posttrig ∨ s.station.acq.state = .aligning →
          t.smg.windows.get i = { s.station.smg.windows.get i with runState := .stopped })) ∧
      t.acq.sumsA = s.station.acq.sumsA ∧ t.acq.sumsB = s.station.acq.sumsB ∧ t.acq.avgCount = s.station.acq.avgCount ∧
      t.acq.number = s.station.acq.number ∧ t.acq.armedNumber = s.station.acq.armedNumber ∧
      { t with
        lif := s.station.lif, smg := s.station.smg, acq := s.station.acq, tgu := s.station.tgu,
        rse := s.station.rse, pns := s.station.pns } = s.station

/-- RUNCTL FORCE at the source in PRETRIG or ARMED: a trigger of kind FORCE at sample (t + 1, 0), t the acceptance
tick, and TRIG is driven in the whole tick behind it (R49), beside the ticks from the acceptance tick on in which an
earlier trigger has it driven; at any other station and in any other state it is ignored (R51). The auto timer's expiry
in ARMED is a trigger of kind AUTO in the same way (R50). -/
def Obligations.ForceAndAutoTriggerAtTheSource : Prop :=
  let triggered (t : Station) (x : Nat) (f : Fill) (c : Capture) (kind : TriggerKind) : Station :=
    { t with
      acq :=
        { t.acq with
          state := .posttrig
          fill :=
            some
              { f with
                trigger := some ⟨(25 * (x + 1) - f.origin) / c.d, t.laneTimeAt (x + 1), 0, kind, x + 2⟩ } }
      tgu :=
        { t.tgu with
          auto := none, lastStamp := some (t.laneTimeAt (x + 1), 0)
          trigDrives := (x + 2) :: t.tgu.trigDrives.filter (fun y => decide (x ≤ y)) } }
  (∀ (s : State) (e : RxEntry) (rest : List RxEntry), s.takes (.runctl 3) e rest →
    ∃ t, exec .runctlForce s = .next (s.put t) ∧
      (∀ f c, s.station.tgu.role = some .source → s.station.acq.fill = some f → s.station.acq.capture = some c →
        s.station.acq.state = .pretrig ∨ s.station.acq.state = .armed →
        t = triggered (s.station.pop rest) e.acceptedAt f c .force) ∧
      (s.station.tgu.role ≠ some .source ∨
          (s.station.acq.state ≠ .pretrig ∧ s.station.acq.state ≠ .armed) →
        t = s.station.pop rest)) ∧
  (∀ (s : State) (d : Nat) (f : Fill) (c : Capture), s.expires s.station.tgu.auto d →
    s.station.acq.fill = some f → s.station.acq.capture = some c → s.station.tgu.role = some .source →
    s.station.acq.state = .armed →
    exec .autoTimerExpiry s = .next (s.put (triggered s.station d f c .auto))) ∧
  (∀ t : Station, t.trigDriven = true ↔ t.ticks ∈ t.tgu.trigDrives)

/-- RUNCTL CLEARDISPLAY (R67): both layers are cleared at once when RSE is not drawing; else both clears stay pending
and no cell changes. -/
def Obligations.ClearDisplayClearsBothLayers : Prop :=
  ∀ (s : State) (e : RxEntry) (rest : List RxEntry), s.takes (.runctl 4) e rest →
    ∃ t, exec .runctlCleardisplay s = .next (s.put t) ∧
      (s.station.rse.draw = none →
        (∀ a, t.rse.layerA.cell a = 0 ∧ t.rse.layerB.cell a = 0) ∧ t.rse.layerA.snapshot = none ∧
        t.rse.layerB.snapshot = none ∧ t.rse.layerA.clearPending = false ∧ t.rse.layerB.clearPending = false) ∧
      (s.station.rse.draw ≠ none →
        t.rse.layerA = { s.station.rse.layerA with clearPending := true } ∧
        t.rse.layerB = { s.station.rse.layerB with clearPending := true }) ∧
      { t with lif := s.station.lif, rse := { t.rse with layerA := s.station.rse.layerA, layerB := s.station.rse.layerB } } =
        s.station ∧
      t.lif = (s.station.pop rest).lif

/-- RUNCTL STANDBY out of standby, at a station whose windows keep their roles, one LIVE (R5, kept by every step:
`WindowsKeepTheirRoles`) (R195): the run state is saved and becomes STOPPED, a record in PRETRIG or ARMED is dropped
(R62), the untracked setup is saved at once unless the highest epoch forbids it, where settle timer and due flag stay,
the model's choice (log 56), and every dirty HELD window is written back (R21), the blank request is set for the output
frames to come, not for those begun (R92), those that start in the very tick of the acceptance counting as begun, which
is the model's choice (logs 38, 47), PNS keeps only POWER DOWN events, counts and sequence are cleared and overlays end
(R113); in standby it changes nothing. RUNCTL WAKE in standby (R196): the run state becomes the saved one, which
becomes absent, the blank request is cleared, and the station leaves IDLE under R41; out of standby it changes nothing.
-/
def Obligations.StandbyIsEnteredAndLeft : Prop :=
  (∀ (s : State) (e : RxEntry) (rest : List RxEntry), s.takes (.runctl 5) e rest → s.station.windowsOk = true →
    ∃ t, exec .runctlStandby s = .next (s.put t) ∧
      (s.station.standby = true → t = s.station.pop rest) ∧
      (s.station.standby = false →
        t.lif.rx = rest ∧ t.standby = true ∧ t.tgu.run = .stopped ∧
        (s.station.flipPending = false → t.tgu.savedRun = some s.station.tgu.run) ∧
        (∀ i, s.station.flipIndex = some i →
          s.station.acq.state = .idle ∨ s.station.acq.state = .preparing ∨ s.station.acq.state = .prepared →
          t.tgu.savedRun = some (s.station.smg.windows.get i).runState) ∧
        (s.station.acq.state = .idle ∨ s.station.acq.state = .preparing ∨ s.station.acq.state = .prepared →
          t.acq.state = .idle) ∧
        (∀ f, s.station.acq.fill = some f → s.station.acq.state = .pretrig ∨ s.station.acq.state = .armed →
          t.acq.state = .idle ∧ t.acq.slots = s.station.acq.slots.set f.slot .free) ∧
        (s.station.acq.state = .posttrig ∨ s.station.acq.state = .aligning → t.acq = s.station.acq) ∧
        t.rse.blank = true ∧
        t.rse.outs =
          s.station.rse.outs.map (fun o =>
            if o.blank = none ∧ o.start ≤ e.acceptedAt then { o with blank := some s.station.rse.blank } else o) ∧
        (∀ i, i < 4 → (s.station.smg.windows.get i).role = .held → (s.station.smg.windows.get i).dirty = true →
          let w := s.station.smg.windows.get i
          t.requested ⟨.append, w.mapped.getD 0, w.epoch.getD 0, s.station.packHeld w, .none, false⟩) ∧
        t.pns.queue =
          s.station.pns.queue.filter (fun ev =>
            decide (ev.kind = .down) && decide (ev.action s.station.straps.panel = some .power)) ∧
        (∀ i, t.countOf i = 0) ∧ t.pns.sequence = none ∧ (∀ x ∈ t.pns.leds, x.overlay = none) ∧
        (s.station.smg.untracked = true → s.station.smg.highest ≠ 0xFFFFFFFF →
          t.smg.highest = s.station.smg.highest + 1 ∧ t.smg.untracked = false ∧ t.smg.settle = none ∧
          t.smg.due = false ∧
          ∃ r ∈ t.sst.queue ++ t.smg.kept, r.kind = .append ∧ r.block = 0 ∧ r.epoch = s.station.smg.highest + 1) ∧
        (s.station.smg.untracked = false ∨ s.station.smg.highest = 0xFFFFFFFF →
          t.smg.highest = s.station.smg.highest ∧ t.smg.untracked = s.station.smg.untracked ∧
          t.smg.settle = s.station.smg.settle ∧ t.smg.due = s.station.smg.due) ∧
        t.straps = s.station.straps ∧ t.ticks = s.station.ticks ∧ t.sst.array = s.station.sst.array)) ∧
  (∀ (s : State) (e : RxEntry) (rest : List RxEntry), s.takes (.runctl 6) e rest →
    ∃ t, exec .runctlWake s = .next (s.put t) ∧
      (s.station.standby = false → t = s.station.pop rest) ∧
      (s.station.standby = true →
        t.lif.rx = rest ∧ t.standby = false ∧ t.tgu.savedRun = none ∧ t.rse.blank = false ∧
        (s.station.flipPending = false ∨ s.station.acq.state ≠ .idle →
          t.tgu.run = s.station.tgu.savedRun.getD s.station.tgu.run ∧ t.smg.windows = s.station.smg.windows) ∧
        (s.station.acq.state = .idle → s.station.flipPending = false →
          ∀ r, s.station.tgu.savedRun = some r →
            (r = .stopped → t.acq = s.station.acq) ∧
            (r ≠ .stopped → s.station.preparedFrom t e.acceptedAt)) ∧
        { t with
          standby := true, lif := s.station.lif, smg := s.station.smg, acq := s.station.acq, tgu := s.station.tgu,
          rse := s.station.rse, pns := s.station.pns } = s.station))

/-! Settings and their timers. -/

/-- Every SETTING frame that an enrolled station takes restarts its settle timer at 10 s, sets its untracked flag and
clears a due save, whatever its channel, setting number and value, and whether or not it is applied (R7, R11). -/
def Obligations.SettingRestartsTheSettleTimer : Prop :=
  ∀ (s : State) (e : RxEntry) (rest : List RxEntry) (c : Instr) (channel number op : Nat) (v : Int),
    (c, op) ∈ [(Instr.settingSet, 0), (.settingStep, 1)] → s.takes (.setting channel number op v) e rest →
    s.station.settingReady e = true →
    ∃ t, exec c s = .next (s.put t) ∧ t.lif = (s.station.pop rest).lif ∧
      t.smg.settle = some (e.acceptedAt + 10000 * Config.ms) ∧ t.smg.untracked = true ∧ t.smg.due = false ∧
      t.smg.highest = s.station.smg.highest ∧ t.smg.op = s.station.smg.op ∧ t.smg.kept = s.station.smg.kept ∧
      { t with
        lif := s.station.lif, smg := s.station.smg, acq := s.station.acq, rse := s.station.rse,
        pns := s.station.pns } = s.station

/-- A SETTING changes the addressed setting of the target window and nothing else of any window but a run section's
RUNMODE, which stays the common one (R7 to R10, R125): the flip-pending STAGED window where there is one, else the LIVE
one. A SET within the range of R1 or R2 replaces the value, one outside leaves it; a STEP moves a CLAMP setting by its
step size, limited to the range, and a WRAP setting around it. A frame for another station's channel, a channel beyond
2N or another setting number changes no window. LABEL is changed one character at a time or by truncation (R3): a value
0 to 575 addresses position v div 64 with code v mod 64, -9 to -1 truncates to -v - 1 characters, any other value and
any STEP leaves it. A changed LIVE value updates the capture in PREPARING and PREPARED, and in no other state (R13); a
changed front-end value sends its channel's word, starts settling for 1 ms and leaves PREPARED (R15, R16); and the
readouts that R12 names are rebuilt (R90). A LIVE ENABLE that becomes 0 sets its layer's clear-pending, and clears that
layer at once when RSE is not drawing; no other change touches a layer (R67). The ENABLE LEDs are ON while the LIVE
ENABLE is 1 and OFF else, and no overlay changes (R112). -/
def Obligations.SettingChangesTheTargetWindow : Prop :=
  (∀ (s : State) (e : RxEntry) (rest : List RxEntry) (c : Instr) (channel number op : Nat) (v : Int),
    (c, op) ∈ [(Instr.settingSet, 0), (.settingStep, 1)] → s.takes (.setting channel number op v) e rest →
    s.station.settingReady e = true → s.station.straps.wf = true →
    let own := s.station.straps.station
    let count := s.station.straps.count
    let k := s.station.flipIndex.getD s.station.liveIndex
    let old := s.station.smg.windows.get k
    let result (sp : SettingSpec) (x : Int) : Int :=
      if op = 0 then (if sp.lo ≤ v ∧ v ≤ sp.hi then v else x)
      else if v = 0 then x
      else
        match sp.kind with
        | .clamp size => max sp.lo (min sp.hi (x + v * size))
        | .wrap => sp.lo + (x - sp.lo + v) % (sp.hi - sp.lo + 1)
    ∃ t, exec c s = .next (s.put t) ∧
      (∀ j, j < 4 → j ≠ k → t.smg.windows.get j = s.station.smg.windows.get j) ∧
      { t.smg.windows.get k with common := old.common, chA := old.chA, chB := old.chB, runMode := old.runMode } = old ∧
      (old.role ≠ .staged → (t.smg.windows.get k).runMode = old.runMode) ∧
      (old.role = .staged → old.runMode = old.common.runmode →
        (t.smg.windows.get k).runMode = (t.smg.windows.get k).common.runmode) ∧
      (∀ sp, channel = 0 → commonSpec count number = some sp →
        let new := t.smg.windows.get k
        new.common.value number = result sp (old.common.value number) ∧
        (∀ n, n ≠ number → new.common.value n = old.common.value n) ∧ new.chA = old.chA ∧ new.chB = old.chB) ∧
      (∀ sp, channel = 2 * own + 1 → channel ≤ 2 * count → channelSpec number = some sp →
        let new := t.smg.windows.get k
        new.chA.value number = result sp (old.chA.value number) ∧ new.chA.label = old.chA.label ∧
        (∀ n, n ≠ number → new.chA.value n = old.chA.value n) ∧ new.common = old.common ∧ new.chB = old.chB) ∧
      (∀ sp, channel = 2 * own + 2 → channel ≤ 2 * count → channelSpec number = some sp →
        let new := t.smg.windows.get k
        new.chB.value number = result sp (old.chB.value number) ∧ new.chB.label = old.chB.label ∧
        (∀ n, n ≠ number → new.chB.value n = old.chB.value n) ∧ new.common = old.common ∧ new.chA = old.chA) ∧
      ((channel = 0 ∧ (number < 1 ∨ 16 < number)) ∨ (channel ≠ 0 ∧ (number < 1 ∨ 9 < number)) ∨ 2 * count < channel ∨
          (channel ≠ 0 ∧ channel ≠ 2 * own + 1 ∧ channel ≠ 2 * own + 2) →
        t.smg.windows = s.station.smg.windows) ∧
      (s.station.flipPending = true ∨ (s.station.acq.state ≠ .preparing ∧ s.station.acq.state ≠ .prepared) →
        t.acq = s.station.acq ∧ t.smg.wordA = s.station.smg.wordA ∧ t.smg.wordB = s.station.smg.wordB ∧
        t.smg.settling = s.station.smg.settling) ∧
      (s.station.flipPending = false → s.station.acq.state = .preparing ∨ s.station.acq.state = .prepared →
        s.station.captured →
        let kept := t.smg.wordA = s.station.smg.wordA ∧ t.smg.wordB = s.station.smg.wordB
        t.captured ∧
        (kept → t.smg.settling = s.station.smg.settling ∧
          (s.station.acq.state = .prepared → t.acq.state = .prepared)) ∧
        (¬ kept → t.smg.settling = some (e.acceptedAt + 1 * Config.ms) ∧ t.acq.state = .preparing)) ∧
      (s.station.flipPending = true ∨ t.smg.windows = s.station.smg.windows → t.rse.grid = s.station.rse.grid) ∧
      (s.station.flipPending = false → t.smg.windows ≠ s.station.smg.windows →
        Sparse.wf GridCell.blank s.station.rse.grid = true →
        let new := t.smg.windows.get k
        let shows (a : Nat) (cells : List GridCell) : Prop :=
          ∀ j cell, cells[j]? = some cell → Sparse.read GridCell.blank t.rse.grid (a + j) = cell
        (channel = 0 → s.station.straps.panel = .common → number ∈ [1, 2, 4, 5, 6, 7, 8, 9, 10, 12] →
          shows 0 (commonReadout new.common s.station.tgu.run)) ∧
        (channel = 2 * own + 1 → number ∈ [1, 2, 3, 4, 5, 6, 9] →
          shows (2400 + 25 * own) (channelReadout channel new.chA s.station.rse.clipA s.station.rse.satA)) ∧
        (channel = 2 * own + 2 → number ∈ [1, 2, 3, 4, 5, 6, 9] →
          shows (2400 + 25 * own + 12)
            (channelReadout channel new.chB s.station.rse.clipB s.station.rse.satB))) ∧
      (∀ (L other L' other' : Layer) (off : Prop),
        (L, other, L', other', off) ∈
          [(s.station.rse.layerA, s.station.rse.layerB, t.rse.layerA, t.rse.layerB,
              channel = 2 * own + 1 ∧ old.chA.enable ≠ 0 ∧ (t.smg.windows.get k).chA.enable = 0),
            (s.station.rse.layerB, s.station.rse.layerA, t.rse.layerB, t.rse.layerA,
              channel = 2 * own + 2 ∧ old.chB.enable ≠ 0 ∧ (t.smg.windows.get k).chB.enable = 0)] →
        s.station.flipPending = false → off →
        (s.station.rse.draw = none →
          L'.snapshot = none ∧ L'.clearPending = false ∧ (∀ a, L'.cell a = 0) ∧
          (other.clearPending = false → other' = other)) ∧
        (s.station.rse.draw ≠ none → L' = { L with clearPending := true } ∧ other' = other)) ∧
      (s.station.flipPending = true ∨
          ((t.smg.windows.get k).chA.enable = old.chA.enable ∧ (t.smg.windows.get k).chB.enable = old.chB.enable) ∨
          (channel = 2 * own + 1 ∧ (t.smg.windows.get k).chA.enable ≠ 0) ∨
          (channel = 2 * own + 2 ∧ (t.smg.windows.get k).chB.enable ≠ 0) →
        t.rse.layerA = s.station.rse.layerA ∧ t.rse.layerB = s.station.rse.layerB) ∧
      (∀ y ∈ t.pns.leds,
        (y.led = .enableA → y.mode = if t.live.chA.enable = 1 then .on else .off) ∧
        (y.led = .enableB → y.mode = if t.live.chB.enable = 1 then .on else .off)) ∧
      t.pns.leds.map (fun y => (y.led, y.overlay)) = s.station.pns.leds.map (fun y => (y.led, y.overlay))) ∧
  (∀ (s : State) (e : RxEntry) (rest : List RxEntry) (c : Instr) (isB : Bool) (op : Nat) (v : Int),
    (c, op) ∈ [(Instr.settingSet, 0), (.settingStep, 1)] →
    s.takes (.setting (2 * s.station.straps.station + if isB then 2 else 1) 9 op v) e rest →
    s.station.settingReady e = true → s.station.straps.station < s.station.straps.count →
    let k := s.station.flipIndex.getD s.station.liveIndex
    let labelOf (w : Window) : List Nat := if isB then w.chB.label else w.chA.label
    let was := s.station.smg.windows.get k
    let old := labelOf was
    ∃ t, exec c s = .next (s.put t) ∧
      let new := labelOf (t.smg.windows.get k)
      (∀ j, j < 4 → j ≠ k → t.smg.windows.get j = s.station.smg.windows.get j) ∧
      t.smg.windows.get k =
        (if isB then { was with chB := { was.chB with label := new } }
         else { was with chA := { was.chA with label := new } }) ∧
      (op = 1 → new = old) ∧
      (op = 0 → (v < -9 ∨ 575 < v) → new = old) ∧
      (op = 0 → ∀ p code : Nat, code < 64 → p ≤ 8 → v = 64 * p + code →
        (p < old.length → new = old.set p code) ∧
        (p = old.length → p < 8 → new = old ++ [code]) ∧
        (old.length < p ∨ (p = 8 ∧ old.length ≤ 8) → new = old)) ∧
      (op = 0 → ∀ n : Nat, n ≤ 8 → v = -(n : Int) - 1 → new = old.take n))


/-- The settle timer expires (R17): it stops, and with the highest epoch below 0xFFFFFFFF a tracking save is made at
once, or left due while an operation is open; at that epoch there is none and the untracked flag stays. The save
takes the next epoch, packs the LIVE window for slot 0 and hands SST the APPEND (R18). The settling timer expires
(R16): SETTLED. A station in PREPARING that then holds every condition of R42 enters PREPARED and releases READY;
one that lacks any, be it stopped, in standby, not enrolled, with a flip pending, or with no slot reserved and none
FREE, stays. The expiry is taken when its tick has ended, so that an operation opened in it is open (R17, log 5). -/
def Obligations.SettleAndSettlingTimersExpire : Prop :=
  (∀ (s : State) (d : Nat), s.expires s.station.smg.settle d → s.station.closedTick d = true →
    s.station.noOpening d = true →
    ∃ t, exec .settleTimerExpiry s = .next (s.put t) ∧ t.smg.settle = none ∧
      (s.station.smg.highest = 0xFFFFFFFF →
        t.smg.untracked = s.station.smg.untracked ∧ t.smg.due = s.station.smg.due ∧ t.sst = s.station.sst ∧
        t.smg.highest = s.station.smg.highest) ∧
      (s.station.smg.highest ≠ 0xFFFFFFFF → s.station.smg.op ≠ none →
        t.smg.due = true ∧ t.smg.untracked = s.station.smg.untracked ∧ t.sst = s.station.sst ∧
        t.smg.highest = s.station.smg.highest) ∧
      (s.station.smg.highest ≠ 0xFFFFFFFF → s.station.smg.op = none →
        let epoch := s.station.smg.highest + 1
        t.smg.highest = epoch ∧ t.smg.untracked = false ∧ t.smg.due = false ∧
        t.requested ⟨.append, 0, epoch, s.station.packLive 0 epoch, .tracking, false⟩) ∧
      t.smg.windows = s.station.smg.windows ∧ { t with smg := s.station.smg, sst := s.station.sst } = s.station) ∧
  (∀ (s : State) (d : Nat), s.expires s.station.smg.settling d →
    ∃ t, exec .settlingTimerExpiry s = .next (s.put t) ∧ t.smg = { s.station.smg with settling := none } ∧
      (s.station.acq.state = .preparing → s.station.tgu.run ≠ .stopped → s.station.enrolled = true →
        s.station.standby = false → s.station.flipPending = false →
        (s.station.acq.reserved ≠ none ∨ ∃ i, i < 4 ∧ s.station.acq.slots.get i = .free) →
        t.acq.state = .prepared ∧ t.acq.reserved ≠ none ∧ t.readyReleased = true) ∧
      (s.station.acq.state ≠ .preparing ∨ s.station.tgu.run = .stopped ∨ s.station.standby = true ∨
          s.station.flipPending = true ∨ s.station.enrolled = false ∨
          (s.station.acq.reserved = none ∧ ∀ i, i < 4 → s.station.acq.slots.get i ≠ .free) →
        t.acq.state = s.station.acq.state) ∧
      { t with smg := s.station.smg, acq := s.station.acq } = s.station ∧
      { t.acq with state := s.station.acq.state, reserved := s.station.acq.reserved } = s.station.acq)


/-! Setup operations. -/

/-- A RECALL or SAVE of slot 0 to 31 opens an operation when none is open; one with an open operation or a greater slot
is ignored (R149), but the boot recall chain, whose own RECALL is ignored with an operation open, waits for that
operation's close (R193); its RECALL that opens one waits for its own. A RECALL starts in LISTING, with no result, and
the station answers LISTED with its epoch list: the HELD window's epoch first, then the index's generations, newest
first, cut to 16 (R152). -/
def Obligations.RecallAndSaveOpenAnOperation : Prop :=
  (∀ (s : State) (e : RxEntry) (rest : List RxEntry) (slot : Nat), s.takes (.recall slot) e rest →
    let held := (s.station.heldIndex slot).bind (fun i => (s.station.smg.windows.get i).epoch)
    let newest := ((s.station.entry slot).generations.map (·.2)).reverse
    ∃ t, exec .recall s = .next (s.put t) ∧
      (slot ≤ 31 → s.station.smg.op = none →
        t.smg.op = some ⟨.recall, slot, none, e.acceptedAt, .listing, none, Quad.fill none⟩ ∧
        (t.smg.op.map Op.deadline) = some (e.acceptedAt + 500 * Config.ms) ∧ t.panelLevel = 2 ∧
        (e.fromChain = true → t.smg.chainWait = .own) ∧ (e.fromChain = false → t.smg.chainWait = s.station.smg.chainWait) ∧
        t.smg.chain = s.station.smg.chain ∧ t.smg.keptChain = s.station.smg.keptChain ∧
        t.answers (.listed slot
          ((match held with
            | some h => h :: newest.filter (fun g => decide (g ≠ h))
            | none => newest).take 16))) ∧
      (31 < slot ∨ (s.station.smg.op ≠ none ∧ e.fromChain = false) → t = s.station.pop rest) ∧
      (slot ≤ 31 → s.station.smg.op ≠ none → e.fromChain = true →
        t = { s.station.pop rest with smg := { s.station.smg with chainWait := .other } }) ∧
      { t with lif := s.station.lif, smg := s.station.smg, pns := s.station.pns } = s.station) ∧
  (∀ (s : State) (e : RxEntry) (rest : List RxEntry) (slot : Nat) (epoch : Epoch), s.takes (.save slot epoch) e rest →
    ∃ t, exec .save s = .next (s.put t) ∧
      (slot ≤ 31 → s.station.smg.op = none →
        t.smg.op = some ⟨.save, slot, some epoch, e.acceptedAt, .listing, none, Quad.fill none⟩ ∧
        (t.smg.op.map Op.deadline) = some (e.acceptedAt + 2000 * Config.ms) ∧ t.panelLevel = 2 ∧
        t.smg.chain = s.station.smg.chain ∧ t.smg.chainWait = s.station.smg.chainWait ∧
        t.smg.keptChain = s.station.smg.keptChain) ∧
      (31 < slot ∨ s.station.smg.op ≠ none → t = s.station.pop rest))

/-- The first step of a SAVE (R161 to R163): an epoch not above the highest is answered SAVED EPOCH and nothing is
written; otherwise the highest epoch becomes the frame's and the LIVE window is packed; a HELD window of the slot takes
the image, dirty, and the station answers OK at once, and a READ for that window's fill is discarded when it ends, or
dropped where SMG still keeps it; else the APPEND is handed to SST. -/
def Obligations.SavePacksTheLiveWindow : Prop :=
  ∀ (s : State) (e : RxEntry) (rest : List RxEntry) (slot : Nat) (epoch : Epoch),
    s.takes (.save slot epoch) e rest → slot ≤ 31 → s.station.smg.op = none →
    let image := s.station.packLive slot epoch
    ∃ t, exec .save s = .next (s.put t) ∧
      (epoch.toNat ≤ s.station.smg.highest.toNat →
        t.answers (.saved slot epoch 9) ∧ t.smg.highest = s.station.smg.highest ∧ t.sst = s.station.sst ∧
        t.smg.windows = s.station.smg.windows) ∧
      (s.station.smg.highest.toNat < epoch.toNat →
        t.smg.highest = epoch ∧
        (s.station.heldIndex slot = none →
          t.requested ⟨.append, slot, epoch, image, .save, false⟩ ∧ t.smg.windows = s.station.smg.windows ∧
          { t.sst with queue := s.station.sst.queue } = s.station.sst) ∧
        (∀ i c, s.station.heldIndex slot = some i → s.station.unpack slot image = .ok c →
          t.smg.windows.get i =
            ⟨.held, some slot, some c.epoch, true, false, false, c.common, c.chA, c.chB, c.runMode, c.runState⟩ ∧
          t.answers (.saved slot epoch 0) ∧
          (∀ j, j < 4 → j ≠ i → t.smg.windows.get j = s.station.smg.windows.get j) ∧
          -- a READ for the window's fill is discarded: SMG drops the one it keeps, and SST's gives its bytes to no one
          let discarded (r : Request) : Request := if r.purpose = .fill i then { r with purpose := .none } else r
          t.smg.kept = s.station.smg.kept.filter (fun r => decide (r.purpose ≠ .fill i)) ∧
          t.sst =
            { s.station.sst with
              queue := s.station.sst.queue.map discarded
              current := s.station.sst.current.map (fun c => { c with request := discarded c.request })
              holdRead := s.station.sst.holdRead.map (fun r => (discarded r.1, r.2)) })) ∧
      { t with lif := s.station.lif, smg := s.station.smg, sst := s.station.sst, pns := s.station.pns } = s.station ∧
      t.sst.array = s.station.sst.array

/-- The choice of R153 from the stations' lists: EMPTY when every list is empty; else the first epoch, in the order of
the lowest-numbered non-empty list, that lies in every non-empty list; INCONSISTENT when no epoch does. A LISTED frame
of a station still awaited enters the results, and the last of them closes the operation EMPTY or INCONSISTENT, which
moves the boot recall chain as R193 says and leaves what every close leaves (R151): each STAGED window that is not flip
pending FREE, a due tracking save made (R17), the answers not yet in transfer withdrawn, and after a RECALL of slot 31 a
flip to the built-in defaults (R158), behind that save (log 17); or it opens the STAGING round with the chosen epoch;
any other LISTED frame is ignored (R150). In that round a station with a STAGED window answers NO_WINDOW (R155), one
whose list was empty ABSENT; a HELD window of the slot and epoch is packed and staged, or waited for while it loads;
else a READ is made (R154). -/
def Obligations.LastListedResultMakesTheChoice : Prop :=
  (∀ lists : List (List Epoch),
    ((∀ l ∈ lists, l = []) → chooseEpoch lists = .empty) ∧
    (∀ before l behind a e b, lists = before ++ l :: behind → (∀ x ∈ before, x = []) → l = a ++ e :: b →
      (∀ x ∈ lists, x ≠ [] → e ∈ x) → (∀ y ∈ a, ∃ x ∈ lists, x ≠ [] ∧ y ∉ x) → chooseEpoch lists = .chosen e) ∧
    ((∃ l ∈ lists, l ≠ []) → (∀ e, ∃ x ∈ lists, x ≠ [] ∧ e ∉ x) → chooseEpoch lists = .inconsistent)) ∧
  (∀ (s : State) (e : RxEntry) (rest : List RxEntry) (slot : Nat) (epochs : List Epoch),
    s.takes (.listed slot epochs) e rest → s.station.straps.wf = true →
    ∃ t, exec .listed s = .next (s.put t) ∧
      (∀ o, s.station.smg.op = some o → o.kind = .recall → o.round = .listing → o.slot = slot →
        e.sender < s.station.straps.count → o.results.get e.sender = none →
        let results := o.results.set e.sender (some (.listed epochs))
        ((∃ i, i < s.station.straps.count ∧ results.get i = none) → t.smg.op = some { o with results := results }) ∧
        (∀ lists, (results.toList.take s.station.straps.count).mapM (·.map OpResult.epochs) = some lists →
          (chooseEpoch lists = .empty →
            t.closedWith o .empty e.acceptedAt ∧ s.station.chainCloses t .recall .empty ∧
            s.station.closeLeaves t o .empty e.acceptedAt) ∧
          (chooseEpoch lists = .inconsistent →
            t.closedWith o .inconsistent e.acceptedAt ∧ s.station.chainCloses t .recall .inconsistent ∧
            s.station.closeLeaves t o .inconsistent e.acceptedAt) ∧
          (∀ E, chooseEpoch lists = .chosen E →
            t.smg.op = some { o with round := .staging, chosen := some E, results := Quad.fill none } ∧
            let own := results.get s.station.straps.station
            (s.station.stagedIndex ≠ none → t.answers (.staged 6 0 [] 0)) ∧
            (s.station.stagedIndex = none → own = some (.listed []) → t.answers (.staged 10 0 [] 0)) ∧
            (∀ x xs, s.station.stagedIndex = none → own = some (.listed (x :: xs)) →
              (∀ i, s.station.heldIndex slot = some i → (s.station.smg.windows.get i).epoch = some E →
                ((s.station.smg.windows.get i).loading = false →
                  s.station.stages t E slot (s.station.packHeld (s.station.smg.windows.get i))) ∧
                ((s.station.smg.windows.get i).loading = true → t.smg.stageWait = true)) ∧
              ((∀ i, s.station.heldIndex slot = some i → (s.station.smg.windows.get i).epoch ≠ some E) →
                t.requested ⟨.read, slot, E, [], .staging, false⟩))))) ∧
      ((∀ o, s.station.smg.op = some o →
          o.kind ≠ .recall ∨ o.round ≠ .listing ∨ o.slot ≠ slot ∨ s.station.straps.count ≤ e.sender ∨
          o.results.get e.sender ≠ none) →
        t = s.station.pop rest))

/-- The decision of R156 from the stations' STAGED results: agreed when every outcome is OK or ABSENT, at least one OK,
and the OK digests are equal; else the outcome of the lowest-numbered station whose outcome is neither OK nor ABSENT, or
INCONSISTENT. At a station whose windows keep their roles, one LIVE (R5, kept by every step: `WindowsKeepTheirRoles`), a
STAGED frame of a station still awaited enters the results; the last of them decides, and an agreement, behind the due
tracking save of its close (log 17), restarts the settle timer at the decision instant (R11, R157); every close makes a
due tracking save, where the highest epoch allows it (R17), and withdraws the answers not yet in transfer (R151); any
other than an agreement frees every STAGED window that is not flip pending, and after a RECALL of slot 31 flips to the
built-in defaults, in the window of a pending flip or the lowest FREE one (R158); either moves the boot recall chain as
R193 says. At the agreement an absent station builds its STAGED window from the shared common section with disabled
channel defaults (R124), and every STAGED window is flip pending with the shared run state (R157): in POSTTRIG and
ALIGNING it waits, in any other state it is flipped (R159, R125): LIVE, the old LIVE window FREE, RUNMODE and the run
state, in standby the saved one, those of its run section, both layers cleared or to be cleared, the readouts rebuilt,
averaging to restart, the own no-live flag clear. Any other STAGED frame is ignored (R150, R198). -/
def Obligations.LastStagedResultDecides : Prop :=
  (∀ rs : List OpResult,
    (∀ before r behind, rs = before ++ r :: behind → r.outcome ≠ .ok → r.outcome ≠ .absent →
      (∀ x ∈ before, x.outcome = .ok ∨ x.outcome = .absent) → decideStaging rs = .closes r.outcome) ∧
    ((∀ x ∈ rs, x.outcome = .ok ∨ x.outcome = .absent) →
      (∀ d sect run others, okResults rs = (d, sect, run) :: others →
        ((∀ x ∈ others, x.1 = d) → decideStaging rs = .agreed sect run) ∧
        ((∃ x ∈ others, x.1 ≠ d) → decideStaging rs = .closes .inconsistent)))) ∧
  (∀ (s : State) (e : RxEntry) (rest : List RxEntry) (code digest run : Nat) (sect : List Byte),
    s.takes (.staged code digest sect run) e rest → s.station.straps.wf = true → s.station.windowsOk = true →
    ∃ t, exec .staged s = .next (s.put t) ∧
      (∀ o outcome, s.station.smg.op = some o → OutcomeCode.ofCode code = some outcome → o.kind = .recall →
        o.round = .staging → e.sender < s.station.straps.count → o.results.get e.sender = none →
        let results := o.results.set e.sender (some (.staged outcome digest sect run))
        ((∃ i, i < s.station.straps.count ∧ results.get i = none) → t.smg.op = some { o with results := results }) ∧
        (∀ rs, (results.toList.take s.station.straps.count).mapM id = some rs →
          (∀ shared run', decideStaging rs = .agreed shared run' →
            t.closedWith o .ok e.acceptedAt ∧ s.station.chainCloses t .recall .ok ∧
            t.smg.settle = some (e.acceptedAt + 10000 * Config.ms) ∧ t.smg.untracked = true ∧
            s.station.closeSaves t ∧
            ∀ i w r, r = (RunState.ofCode run').getD .running →
              ((s.station.stagedIndex = some i ∧ w = s.station.smg.windows.get i) ∨
                (s.station.stagedIndex = none ∧ s.station.freeIndex = some i ∧
                  w.common = s.station.decodedCommon shared ∧ w.chA = Channel.default 0 ∧ w.chB = Channel.default 0 ∧
                  w.runMode = w.common.runmode)) →
              let busy := s.station.acq.state = .posttrig ∨ s.station.acq.state = .aligning
              (busy →
                let v := t.smg.windows.get i
                v.role = .staged ∧ v.flipPending = true ∧ v.runState = r ∧ v.common = w.common ∧ v.chA = w.chA ∧
                v.chB = w.chB ∧ v.runMode = w.runMode) ∧
              (¬ busy →
                t.live = { Window.blank with
                  role := .live, common := { w.common with runmode := w.runMode }, chA := w.chA, chB := w.chB } ∧
                (t.smg.windows.get i).role = .live ∧
                (s.station.liveIndex ≠ i → (t.smg.windows.get s.station.liveIndex).role = .free) ∧
                s.station.flippedIn t r ∧
                s.station.showsReadouts t { w.common with runmode := w.runMode } w.chA w.chB)) ∧
          (∀ c, decideStaging rs = .closes c →
            t.closedWith o c e.acceptedAt ∧ s.station.chainCloses t .recall c ∧
            s.station.closeLeaves t o c e.acceptedAt))) ∧
      (10 < code ∨
          (∀ o, s.station.smg.op = some o →
            o.kind ≠ .recall ∨ o.round ≠ .staging ∨ s.station.straps.count ≤ e.sender ∨
            o.results.get e.sender ≠ none) →
        t = s.station.pop rest))

/-- A SAVED frame of the operation's slot and epoch, from a station still awaited, enters the results; the last of them
closes the operation, OK when every outcome is OK, else with the outcome of the lowest-numbered station whose outcome
is not OK (R163); the close frees every STAGED window that is not flip pending, makes a due tracking save and withdraws
the answers not yet in transfer (R151, R17), and the boot recall chain that waited for this close offers its RECALL
again (R193). Any other SAVED frame is ignored (R150). -/
def Obligations.LastSavedResultCloses : Prop :=
  (∀ rs : List OpResult,
    ((∀ x ∈ rs, x.outcome = .ok) → saveOutcome rs = .ok) ∧
    (∀ before r behind, rs = before ++ r :: behind → r.outcome ≠ .ok → (∀ x ∈ before, x.outcome = .ok) →
      saveOutcome rs = r.outcome)) ∧
  (∀ (s : State) (e : RxEntry) (rest : List RxEntry) (slot code : Nat) (epoch : Epoch),
    s.takes (.saved slot epoch code) e rest → s.station.straps.wf = true →
    ∃ t, exec .saved s = .next (s.put t) ∧
      (∀ o outcome, s.station.smg.op = some o → OutcomeCode.ofCode code = some outcome → o.kind = .save →
        o.slot = slot → o.epoch = some epoch → e.sender < s.station.straps.count → o.results.get e.sender = none →
        let results := o.results.set e.sender (some (.saved outcome))
        ((∃ i, i < s.station.straps.count ∧ results.get i = none) → t.smg.op = some { o with results := results }) ∧
        (∀ rs, (results.toList.take s.station.straps.count).mapM id = some rs →
          t.closedWith o (saveOutcome rs) e.acceptedAt ∧ s.station.chainCloses t .save (saveOutcome rs) ∧
          s.station.closeLeaves t o (saveOutcome rs) e.acceptedAt)) ∧
      (10 < code ∨
          (∀ o, s.station.smg.op = some o →
            o.kind ≠ .save ∨ o.slot ≠ slot ∨ o.epoch ≠ some epoch ∨ s.station.straps.count ≤ e.sender ∨
            o.results.get e.sender ≠ none) →
        t = s.station.pop rest))

/-- The operation's window expires, 500 ms after the opening of a RECALL and 2000 ms after that of a SAVE (R149): when
its tick has ended and no line event and no frame of an instant up to the expiry waits but a SETTING, it closes TIMEOUT
(R151, logs 5, 68), which the LED of its kind shows as CODE(8) out of standby (R111). The boot recall chain goes to
SLOT31 from SLOT0 and to IDLE from SLOT31 where its own RECALL opened the operation, and offers its RECALL again where
it waited for another's close (R193). Every STAGED window that is not flip pending is freed, the answers not yet in
transfer are withdrawn, a due tracking save is made where the highest epoch allows it (R17), and a RECALL of slot 31 is
followed by a flip to the built-in defaults, in POSTTRIG and ALIGNING to come, in every other state at once (R158),
behind that save (log 17). -/
def Obligations.WindowExpiryClosesTimeout : Prop :=
  ∀ (s : State) (o : Op), s.station.powered = true → s.station.smg.op = some o →
    let d := o.openedAt + (match o.kind with | .recall => 500 * Config.ms | .save => 2000 * Config.ms)
    s.station.closedTick d = true → s.station.inOrder d = true → s.station.edgePast d = true →
    s.station.noneWaits d = true →
    ∃ t, exec .operationWindowExpiry s = .next (s.put t) ∧ t.closedWith o .timeout d ∧
      s.station.chainCloses t o.kind .timeout ∧
      s.station.closeLeaves t o .timeout d ∧
      (o.kind = .recall → o.slot = 31 →
        (s.station.acq.state = .idle → s.station.flipPending = false →
          (∃ i, i < 4 ∧ (s.station.smg.windows.get i).role = .free) →
          ∃ i, i < 4 ∧ (t.smg.windows.get i).role = .live ∧ (t.smg.windows.get i).common = Common.default ∧
            (t.smg.windows.get i).chA = Channel.default (if s.station.straps.station = 0 then 1 else 0) ∧
            (t.smg.windows.get i).chB = Channel.default 0)) ∧
      t.sst.array = s.station.sst.array ∧ t.straps = s.station.straps ∧ t.standby = s.station.standby ∧
      t.ticks = s.station.ticks

/-- MAP HOLD of slot 1 to 30, with no operation open, fewer than two HELD windows and the slot not mapped, takes the
lowest-numbered FREE window as HELD (R165) and fills it: from the newest unended APPEND of the slot, dirty, the one of
the greatest epoch by the model's reading (log 28); else from the newest generation, loading, with a READ to SST; else
it stays empty (R166). MAP RELEASE frees the slot's window, after handing a dirty one to SST (R167). Either is ignored
otherwise. -/
def Obligations.MapHoldsAndReleasesASlot : Prop :=
  (∀ (s : State) (e : RxEntry) (rest : List RxEntry) (slot : Nat), s.takes (.map slot 0) e rest →
    let fits := s.station.smg.op = none ∧ 1 ≤ slot ∧ slot ≤ 30 ∧
      s.station.smg.windows.count (fun w => decide (w.role = .held)) < 2 ∧ s.station.heldIndex slot = none
    ∃ t, exec .mapHold s = .next (s.put t) ∧
      (∀ i, fits → s.station.freeIndex = some i →
        let w := t.smg.windows.get i
        w.role = .held ∧ w.mapped = some slot ∧
        (∀ j, j < 4 → j ≠ i → t.smg.windows.get j = s.station.smg.windows.get j) ∧
        (∀ r c, s.station.newestAppend slot = some r → s.station.unpack slot r.image = .ok c →
          w.epoch = some c.epoch ∧ w.dirty = true ∧ w.loading = false ∧ w.common = c.common ∧ w.chA = c.chA ∧
          w.chB = c.chB ∧ w.runMode = c.runMode ∧ w.runState = c.runState) ∧
        (∀ g, s.station.newestAppend slot = none → (s.station.entry slot).newest = some g →
          w.epoch = some g ∧ w.loading = true ∧ t.requested ⟨.read, slot, g, [], .fill i, false⟩) ∧
        (s.station.newestAppend slot = none → (s.station.entry slot).newest = none →
          w.epoch = none ∧ w.dirty = false ∧ w.loading = false)) ∧
      (¬ fits → t = s.station.pop rest) ∧
      { t with lif := s.station.lif, smg := s.station.smg, sst := s.station.sst } = s.station) ∧
  (∀ (s : State) (e : RxEntry) (rest : List RxEntry) (slot : Nat), s.takes (.map slot 1) e rest →
    ∃ t, exec .mapRelease s = .next (s.put t) ∧
      (∀ i, s.station.smg.op = none → s.station.heldIndex slot = some i →
        let w := s.station.smg.windows.get i
        t.smg.windows = s.station.smg.windows.set i Window.blank ∧
        (w.dirty = true →
          t.requested ⟨.append, slot, w.epoch.getD 0, s.station.packHeld w, .none, false⟩) ∧
        (∀ r ∈ t.sst.queue ++ t.smg.kept, r.purpose ≠ .fill i)) ∧
      (s.station.smg.op ≠ none ∨ s.station.heldIndex slot = none → t = s.station.pop rest) ∧
      { t with lif := s.station.lif, smg := s.station.smg, sst := s.station.sst } = s.station) ∧
  (∀ (t : Station) (slot : Nat),
    let unended (r : Request) : Prop :=
      ((∃ c, t.sst.current = some c ∧ c.stage ≠ .rescanning ∧ r = c.request) ∨ r ∈ t.sst.queue ∨ r ∈ t.smg.kept) ∧
      r.kind = .append ∧ r.block = slot
    (t.newestAppend slot = none ↔ ∀ r, ¬ unended r) ∧
    (∀ r, t.newestAppend slot = some r → unended r ∧ ∀ q, unended q → q.epoch.toNat ≤ r.epoch.toNat))

/-! The setup store. -/

/-- STORE OPEN, GUARD and PIN at a station that the frame targets, by its number or ALL, move the block's guard state
(R142): a PINNED block stays PINNED, any other takes the state named; the rest of its entry and every other entry stay.
An APPEND, DISCARD or MARK of the block in progress that would now fail check 2 or 3 of R134 ends PROTECTED, which an
APPEND of an open SAVE answers SAVED (R163), and its block is rescanned, with the note that its last clear did not end
verified when it was a clear, or, with a READ in progress in the hold, once that has ended (R144). The act so abandoned
changes no byte of the array outside its position, keep mark word or block, leaves no BLANK position VALID and sets no
mark (the bytes left by log 7, the model's reading). Another target or a block above 31 is ignored (R145). -/
def Obligations.GuardActionsMoveTheGuard : Prop :=
  ∀ (s : State) (e : RxEntry) (rest : List RxEntry) (i : Instr) (action target block : Nat) (wanted : Guard),
    (i, action, wanted) ∈ [(Instr.storeOpen, 0, Guard.opened), (.storeGuard, 1, .guarded), (.storePin, 2, .pinned)] →
    s.takes (.store target action block) e rest → s.station.sst.index.length = 32 →
    let mine := (target = s.station.straps.station ∨ target = 15) ∧ block ≤ 31
    let old := s.station.entry block
    let next : Guard := if old.guard = .pinned then .pinned else wanted
    let fails (c : Current) : Prop :=
      c.request.kind ≠ .read ∧ c.stage.isRescan = false ∧
      (next ≠ .opened ∨ (c.request.kind ≠ .mark ∧ c.keepAtTake = true ∧ s.station.sst.override = false))
    ∃ t, exec i s = .next (s.put t) ∧
      (mine → { t.entry block with unverified := old.unverified } = { old with guard := next } ∧
        (∀ b, b ≠ block → t.entry b = s.station.entry b)) ∧
      (mine → (∀ c, s.station.sst.current = some c → c.request.block = block → ¬ fails c) →
        (t.entry block).unverified = old.unverified ∧
        t = { s.station.pop rest with sst := { s.station.sst with index := t.sst.index } }) ∧
      (∀ c, mine → s.station.sst.current = some c → c.request.block = block → fails c →
        (s.station.sst.seq = .readingInHold →
          t = { s.station.pop rest with
                sst := { s.station.sst with index := t.sst.index, abandonAfterRead := true } }) ∧
        (s.station.sst.seq ≠ .readingInHold →
          t.sst.lastRequest = some ⟨c.request.kind, block, some .protect⟩ ∧
          t.sst.current = some { c with stage := .rescanning } ∧ t.sst.page = none ∧
          (t.entry block).unverified = (old.unverified || c.stage.isClear) ∧
          t.faulted = s.station.faulted ∧ (s.station.pop rest).requestEnds t c.request .protect ∧
          (Sparse.wf erasedByte s.station.sst.array = true →
            abandonLeaves block c.stage s.station.sst.array t.sst.array))) ∧
      (¬ mine → t = s.station.pop rest)

/-- STORE OVERRIDE_ON and OVERRIDE_OFF switch the override, CLEAR_STATUS empties the fault set and makes the fault block
absent, whatever the frame's block field (R143, R141); OVERRIDE_OFF abandons the APPEND or DISCARD in progress of a
block that was kept when it was taken, with PROTECTED, which an APPEND of an open SAVE answers SAVED (R163), and the
block is rescanned, noted as not ended verified when it was a clear; with a READ in progress in the hold it does so once
that has ended (R144). The act so abandoned changes no byte of the array outside its position or block and leaves no
BLANK position VALID (the bytes left by log 7, the model's reading). Another target ignores each of them (R145). -/
def Obligations.OverrideAndStatusActions : Prop :=
  ∀ (s : State) (e : RxEntry) (rest : List RxEntry) (target block : Nat),
    let mine := target = s.station.straps.station ∨ target = 15
    (s.takes (.store target 4 block) e rest →
      exec .storeOverrideOn s =
        .next (s.put
          (if mine then { s.station.pop rest with sst := { s.station.sst with override := true } }
           else s.station.pop rest))) ∧
    (s.takes (.store target 6 block) e rest →
      exec .storeClearStatus s =
        .next (s.put
          (if mine then
            { s.station.pop rest with
              sst :=
                { s.station.sst with
                  writeFault := false, clearFault := false, timeFault := false, faultBlock := none } }
           else s.station.pop rest))) ∧
    (s.takes (.store target 5 block) e rest →
      ∃ t, exec .storeOverrideOff s = .next (s.put t) ∧
        (mine →
          (∀ c, s.station.sst.current = some c →
            c.request.kind = .read ∨ c.stage.isRescan = true ∨
            ((s.station.entry c.request.block).guard = .opened ∧ (c.request.kind = .mark ∨ c.keepAtTake = false))) →
          t = { s.station.pop rest with sst := { s.station.sst with override := false } }) ∧
        (∀ c, mine → s.station.sst.current = some c → c.request.kind = .append ∨ c.request.kind = .discard →
          c.stage.isRescan = false → c.keepAtTake = true →
          (s.station.sst.seq = .readingInHold →
            t = { s.station.pop rest with
                  sst := { s.station.sst with override := false, abandonAfterRead := true } }) ∧
          (s.station.sst.seq ≠ .readingInHold →
            t.sst.override = false ∧ t.sst.lastRequest = some ⟨c.request.kind, c.request.block, some .protect⟩ ∧
            t.sst.current = some { c with stage := .rescanning } ∧ t.sst.page = none ∧
            t.faulted = s.station.faulted ∧ (s.station.pop rest).requestEnds t c.request .protect ∧
            (∀ b, { t.entry b with unverified := (s.station.entry b).unverified } = s.station.entry b) ∧
            (∀ b, b ≠ c.request.block ∨ c.stage.isClear = false → t.entry b = s.station.entry b) ∧
            (s.station.sst.index.length = 32 → c.request.block ≤ 31 → c.stage.isClear = true →
              (t.entry c.request.block).unverified = true) ∧
            (Sparse.wf erasedByte s.station.sst.array = true →
              abandonLeaves c.request.block c.stage s.station.sst.array t.sst.array))) ∧
        (¬ mine → t = s.station.pop rest))

/-- STORE KEEP and DISCARD offer a MARK or a DISCARD of the block to the request queue (R145): with fewer than four
requests it enters at the tail, with no requester; with four it is dropped, and the last request shows its kind and
block with the note QUEUE_FULL (R132, R146). When the queue has room, SMG hands over the requests it keeps, in the
order it made them, as far as there is room for four (R132). The handing over acts in no order against waiting frames
and timers, the model's choice (log 62). -/
def Obligations.RequestsEnterTheQueue : Prop :=
  (∀ (s : State) (e : RxEntry) (rest : List RxEntry) (i : Instr) (action target block : Nat) (kind : ReqKind),
    (i, action, kind) ∈ [(Instr.storeKeep, 3, ReqKind.mark), (.storeDiscard, 7, .discard)] →
    s.takes (.store target action block) e rest →
    exec i s =
      .next (s.put
        (if (target = s.station.straps.station ∨ target = 15) ∧ block ≤ 31 then
          (if s.station.sst.queue.length < 4 then
            { s.station.pop rest with
              sst :=
                { s.station.sst with queue := s.station.sst.queue ++ [⟨kind, block, 0, [], .none, false⟩] } }
           else { s.station.pop rest with sst := { s.station.sst with lastRequest := some ⟨kind, block, none⟩ } })
         else s.station.pop rest))) ∧
  (∀ s : State, s.station.powered = true →
    ∃ t, exec .sstQueueRoom s = .next (s.put t) ∧
      t.sst.queue ++ t.smg.kept = s.station.sst.queue ++ s.station.smg.kept ∧
      s.station.sst.queue <+: t.sst.queue ∧
      (t.smg.kept = [] ∨ 4 ≤ t.sst.queue.length) ∧
      (4 ≤ s.station.sst.queue.length → t = s.station) ∧
      (s.station.sst.queue.length ≤ 4 → t.sst.queue.length ≤ 4) ∧
      t = { s.station with
            smg := { s.station.smg with kept := t.smg.kept }
            sst := { s.station.sst with queue := t.sst.queue } })

/-- The sequencer, READY, takes the oldest request and applies the checks of R134 in their order: a fault set, the
guard state, the keep mark, the epoch; a request refused leaves the queue, ends at once with its outcome and changes
neither the array nor the index; an APPEND of an open SAVE refused is answered SAVED with that outcome (R163), and no
refusal clears a dirty flag (R166). A READ is not checked: a listed epoch is read at its position, one not listed ends
EMPTY (R135), which in the staging round is the station's answer (R154). With no request queued, or one in progress,
nothing is taken. It acts in no order against waiting frames and timers, the model's choice (log 62). -/
def Obligations.SequencerTakeChecksTheRequest : Prop :=
  ∀ s : State, s.station.powered = true → s.station.sst.seq = .ready →
    ∃ t, exec .sequencerTake s = .next (s.put t) ∧
      (s.station.sst.queue = [] ∨ s.station.sst.current ≠ none → t = s.station) ∧
      (∀ r rest, s.station.sst.current = none → s.station.sst.queue = r :: rest →
        let e := s.station.entry r.block
        let ends (o : OutcomeCode) : Prop :=
          t.sst.lastRequest = some ⟨r.kind, r.block, some o⟩ ∧ t.sst.array = s.station.sst.array ∧
          t.sst.index = s.station.sst.index ∧ t.sst.seq = .ready ∧ t.sst.current = none ∧ rest <+: t.sst.queue ∧
          ((∀ i, r.purpose ≠ .fill i) → t.sst.queue = rest) ∧ s.station.requestEnds t r o
        (r.kind ≠ .read →
          (s.station.faulted = true → ends .storeFault) ∧
          (s.station.faulted = false → e.guard ≠ .opened → ends .protect) ∧
          (s.station.faulted = false → e.guard = .opened → r.kind ≠ .mark → e.keep = true →
            s.station.sst.override = false → ends .protect) ∧
          (s.station.faulted = false → e.guard = .opened → e.keep = false ∨ s.station.sst.override = true →
            r.kind = .append → ∀ before p n, e.generations = before ++ [(p, n)] → r.epoch.toNat ≤ n.toNat →
            ends .epoch)) ∧
        (r.kind = .read →
          ((∀ g ∈ e.generations, g.2 ≠ r.epoch) →
            ends .empty ∧
            (∀ o E, s.station.smg.op = some o → o.chosen = some E → r.purpose = .staging → r.orphaned = false →
              t.answers (.staged 1 0 [] 0))) ∧
          (∀ before p behind, e.generations = before ++ (p, r.epoch) :: behind → (∀ g ∈ before, g.2 ≠ r.epoch) →
            t = { s.station with
                  sst :=
                    { s.station.sst with
                      queue := rest, seq := .reading
                      current := some { request := r, stage := .reading p, keepAtTake := e.keep } } })))

/-- What a request that passes the checks starts. A plain APPEND enters WRITING at the next blank position, and its
entry gains that position and epoch at once (R136). In a full or DISORDERED block it compacts: the entry is the view
the compaction leaves, and the newest generation is read first, or with none the clear begins (R137); the page buffer
is then empty until the copy fills it, and no other start changes it. A plain APPEND into a kept block, which the
override allows, leaves the keep mark: the model's choice between R136 and the last sentence of R143 (log 74). A
DISCARD empties the entry and enters CLEARING (R138). A MARK of a block whose word is set ends OK at once, and else its
word is written. It acts in no order against waiting frames and timers, the model's choice (log 62). -/
def Obligations.PassedRequestStarts : Prop :=
  ∀ (s : State) (r : Request) (rest : List Request), s.station.powered = true → s.station.sst.seq = .ready →
    s.station.sst.current = none → s.station.sst.queue = r :: rest → s.station.faulted = false →
    s.station.sst.index.length = 32 → r.block ≤ 31 →
    let e := s.station.entry r.block
    e.guard = .opened → (r.kind = .mark ∨ e.keep = false ∨ s.station.sst.override = true) →
    let starts (t : Station) (entry : IndexEntry) (seq : SeqState) (stage : Stage) (page : Option (List Byte)) : Prop :=
      t.entry r.block = entry ∧ (∀ b, b ≠ r.block → t.entry b = s.station.entry b) ∧
      t = { s.station with
            sst :=
              { s.station.sst with
                queue := rest, seq := seq, index := t.sst.index, page := page
                current := some { request := r, stage := stage, keepAtTake := e.keep } } }
    ∃ t, exec .sequencerTake s = .next (s.put t) ∧
      (r.kind = .append → (∀ g ∈ e.generations, g.2.toNat < r.epoch.toNat) →
        (∀ p, e.next = some p → e.disordered = false →
          starts t
            { e with
              generations := e.generations ++ [(p, r.epoch)], next := if p = 15 then none else some (p + 1) }
            .writing (.writing p r.image true s.station.ticks) s.station.sst.page) ∧
        (e.next = none ∨ e.disordered = true →
          (∀ before p n, e.generations = before ++ [(p, n)] →
            starts t
              { e with generations := [(0, n), (1, r.epoch)], next := some 2, disordered := false, keep := false }
              .reading (.copying p) none) ∧
          (e.generations = [] →
            starts t { e with generations := [(0, r.epoch)], next := some 1, disordered := false, keep := false }
              .clearing (.clearing 0 s.station.ticks) none))) ∧
      (r.kind = .discard →
        starts t { e with generations := [], next := some 0, disordered := false, keep := false }
          .clearing (.clearing 0 s.station.ticks) s.station.sst.page) ∧
      (r.kind = .mark →
        (keepSet s.station.sst.array r.block = true →
          t.sst.lastRequest = some ⟨.mark, r.block, some .ok⟩ ∧ t.sst.seq = .ready ∧ t.sst.current = none ∧
          t.sst.array = s.station.sst.array ∧ t.sst.index = s.station.sst.index) ∧
        (keepSet s.station.sst.array r.block = false → starts t e .writing (.marking s.station.ticks) s.station.sst.page))

/-- A READ ends OK, its image filling a HELD window, which stays empty where it does not unpack (R166, its sections by
log 70), or staged in the staging round (R154), and the sequencer is READY, or HELD again after a READ served in a hold,
where the clear goes on unless another READ of another block is queued (R135, R139). The copy of the newest generation
takes its bytes into the page buffer and begins the clear (R137). Neither changes the array or the index. Where the
clear was to be abandoned once the READ in the hold had ended, its request now ends PROTECTED with no fault, and its
block, which alone may have changed, its bytes as they were or erased (log 7), is rescanned, noted as not ended verified
(R129, R144); the READ has given its bytes. That the sequencer is HELD during that rescan, with the request ended, is
the model's reading (log 14). It acts in no order against waiting frames and timers, the model's choice (log 62). -/
def Obligations.ReadsEnd : Prop :=
  (∀ (s : State) (c : Current) (p : Nat), s.station.powered = true → s.station.sst.current = some c →
    s.station.sst.seq = .reading → c.stage = .reading p →
    ∃ t, exec .readEnd s = .next (s.put t) ∧ t.sst.lastRequest = some ⟨c.request.kind, c.request.block, some .ok⟩ ∧
      t.sst.seq = .ready ∧ t.sst.current = none ∧ t.sst.array = s.station.sst.array ∧
      t.sst.index = s.station.sst.index ∧
      s.station.readGives t c.request (readPosition s.station.sst.array c.request.block p)) ∧
  (∀ (s : State) (c : Current) (r : Request) (p spent since : Nat), s.station.powered = true →
    s.station.sst.current = some c → s.station.sst.seq = .readingInHold → c.stage = .clearing spent since →
    s.station.sst.holdRead = some (r, p) → s.station.sst.abandonAfterRead = false →
    ∃ t, exec .readEnd s = .next (s.put t) ∧ t.sst.lastRequest = some ⟨r.kind, r.block, some .ok⟩ ∧
      t.sst.array = s.station.sst.array ∧ t.sst.index = s.station.sst.index ∧ t.sst.holdRead = none ∧
      s.station.readGives t r (readPosition s.station.sst.array r.block p) ∧
      (t.sst.seq = .held ∧ t.sst.current = some c ∧
          t.sst.queue.any (fun q => decide (q.kind = .read) && decide (q.block ≠ c.request.block)) = true ∨
        t.sst.seq = .clearing ∧ t.sst.current = some { c with stage := .clearing spent s.station.ticks } ∧
          t.sst.queue.any (fun q => decide (q.kind = .read) && decide (q.block ≠ c.request.block)) = false)) ∧
  (∀ (s : State) (c : Current) (r : Request) (p spent since : Nat), s.station.powered = true →
    s.station.sst.current = some c → s.station.sst.seq = .readingInHold → c.stage = .clearing spent since →
    s.station.sst.holdRead = some (r, p) → s.station.sst.abandonAfterRead = true →
    ∃ t, exec .readEnd s = .next (s.put t) ∧
      t.sst.lastRequest = some ⟨c.request.kind, c.request.block, some .protect⟩ ∧ t.sst.seq = .held ∧
      t.sst.current = some { c with stage := .rescanning } ∧ t.sst.holdRead = none ∧
      t.sst.abandonAfterRead = false ∧ t.sst.page = none ∧ t.faulted = s.station.faulted ∧
      (∀ a, inBlock c.request.block a = false →
        Sparse.read erasedByte t.sst.array a = Sparse.read erasedByte s.station.sst.array a) ∧
      (∀ a, inBlock c.request.block a = true →
        Sparse.read erasedByte t.sst.array a = erasedByte ∨
        Sparse.read erasedByte t.sst.array a = Sparse.read erasedByte s.station.sst.array a) ∧
      (∀ b, { t.entry b with unverified := (s.station.entry b).unverified } = s.station.entry b) ∧
      (s.station.sst.index.length = 32 → c.request.block ≤ 31 → (t.entry c.request.block).unverified = true) ∧
      (∀ op E, s.station.smg.op = some op → op.epoch = some E → c.request.purpose = .save →
        c.request.orphaned = false → t.answers (.saved op.slot E 4)) ∧
      (c.request.purpose = .none ∨ c.request.purpose = .tracking ∨ c.request.orphaned = true →
        s.station.readGives t r (readPosition s.station.sst.array r.block p))) ∧
  (∀ (s : State) (c : Current) (p : Nat), s.station.powered = true → s.station.sst.current = some c →
    c.stage = .copying p →
    exec .compactionReadEnd s =
      .next (s.put
        { s.station with
          sst :=
            { s.station.sst with
              page := some (readPosition s.station.sst.array c.request.block p), seq := .clearing
              current := some { c with stage := .clearing 0 s.station.ticks } } }))

/-- A write of a position ends within its limit with its verify (R136, R137, R141). That the position then holds the
bytes read back, and that a read back which is another VALID image is no event, is the model's reading (log 8); every
other byte of the array is unchanged. Alike, the last write ends the request OK, and the first of a compaction is
followed by the write of the new image at position 1; different, WRITE_FAULT is set with the block, the request ends
STORE_FAULT and the block is rescanned. A mark alike sets the entry's keep mark and ends OK (R138). The end of an
APPEND of an open SAVE is answered SAVED with its outcome, and after the close by nothing (R151, R163); OK clears the
dirty flag of the HELD window that still holds the slot and epoch (R21, R166), whoever made the APPEND (log 18), and no
other end clears one. It acts in no order against waiting frames and timers, the model's choice (log 62). -/
def Obligations.WriteEndsWithItsVerify : Prop :=
  (∀ (s : State) (c : Current) (p start : Nat) (image readBack : List Byte) (last : Bool),
    s.station.powered = true → s.station.sst.current = some c → c.stage = .writing p image last start →
    s.station.ticks ≤ start + 5 * Config.ms → readBack.length = 256 →
    readBack = image ∨ imageValid readBack = false →
    ∃ t, exec (.writeEnd readBack) s = .next (s.put t) ∧
      (Sparse.wf erasedByte s.station.sst.array = true →
        readPosition t.sst.array c.request.block p = readBack ∧
        (∀ a, a < positionAddress c.request.block p ∨ positionAddress c.request.block p + 256 ≤ a →
          Sparse.read erasedByte t.sst.array a = Sparse.read erasedByte s.station.sst.array a)) ∧
      t.sst.index = s.station.sst.index ∧
      (readBack = image → last = true →
        t.sst.lastRequest = some ⟨c.request.kind, c.request.block, some .ok⟩ ∧ t.sst.seq = .ready ∧
        t.sst.current = none ∧ t.faulted = s.station.faulted ∧ s.station.requestEnds t c.request .ok) ∧
      (readBack = image → last = false →
        t.sst.seq = .writing ∧
        t.sst.current = some { c with stage := .writing 1 c.request.image true s.station.ticks }) ∧
      (readBack ≠ image →
        t.sst.writeFault = true ∧ t.sst.faultBlock = some c.request.block ∧
        t.sst.lastRequest = some ⟨c.request.kind, c.request.block, some .storeFault⟩ ∧
        t.sst.current = some { c with stage := .rescanning } ∧ s.station.requestEnds t c.request .storeFault)) ∧
  (∀ (s : State) (c : Current) (start : Nat) (readBack : List Byte),
    s.station.powered = true → s.station.sst.current = some c → c.stage = .marking start →
    s.station.ticks ≤ start + 5 * Config.ms → readBack.length = 4 → s.station.sst.index.length = 32 →
    c.request.block ≤ 31 →
    ∃ t, exec (.writeEnd readBack) s = .next (s.put t) ∧
      (Sparse.wf erasedByte s.station.sst.array = true →
        Sparse.readRun erasedByte t.sst.array (keepAddress c.request.block) 4 = readBack ∧
        (∀ a, a < keepAddress c.request.block ∨ keepAddress c.request.block + 4 ≤ a →
          Sparse.read erasedByte t.sst.array a = Sparse.read erasedByte s.station.sst.array a)) ∧
      (readBack = leBytes 4 0x3C5AA5C3 →
        t.entry c.request.block = { s.station.entry c.request.block with keep := true } ∧
        t.sst.lastRequest = some ⟨c.request.kind, c.request.block, some .ok⟩ ∧ t.sst.seq = .ready ∧
        t.sst.current = none ∧ s.station.requestEnds t c.request .ok) ∧
      (readBack ≠ leBytes 4 0x3C5AA5C3 →
        t.sst.writeFault = true ∧ t.sst.faultBlock = some c.request.block ∧
        t.sst.lastRequest = some ⟨c.request.kind, c.request.block, some .storeFault⟩ ∧
        t.sst.current = some { c with stage := .rescanning } ∧ s.station.requestEnds t c.request .storeFault))

/-- A clear ends within 1000 ms of CLEARING with its verify (R137, R138, R141). With every byte erased the block's
positions and keep mark word read as erased and every other byte is unchanged; a DISCARD ends OK, a compaction writes
the page buffer's image at position 0, or with none the new image there. With a byte not erased CLEAR_FAULT is set with
the block, the request ends STORE_FAULT and the block is rescanned; the block then reads as erased but for the bytes
that the verify found, where the last given of an offset stands (log 8), and every other byte is unchanged. A
compaction's APPEND of an open SAVE that so fails is answered SAVED (R163). The block's entry notes whether this, its
last clear, ended verified, and shows nothing else new. It acts in no order against waiting frames and timers, the
model's choice (log 62). -/
def Obligations.ClearEndsWithItsVerify : Prop :=
  ∀ (s : State) (c : Current) (spent since : Nat) (left : List Host.Cell),
    s.station.powered = true → s.station.sst.current = some c → s.station.sst.seq = .clearing →
    c.stage = .clearing spent since → spent + (s.station.ticks - since) ≤ 1000 * Config.ms →
    (Instr.clearEnd left).wf = true →
    let block := c.request.block
    ∃ t, exec (.clearEnd left) s = .next (s.put t) ∧
      (left = [] →
        (∀ a, inBlock block a = true → Sparse.read erasedByte t.sst.array a = erasedByte) ∧
        (∀ a, inBlock block a = false →
          Sparse.read erasedByte t.sst.array a = Sparse.read erasedByte s.station.sst.array a) ∧
        (c.request.kind = .discard →
          t.sst.lastRequest = some ⟨.discard, block, some .ok⟩ ∧ t.sst.seq = .ready ∧ t.sst.current = none ∧
          s.station.requestEnds t c.request .ok) ∧
        (c.request.kind ≠ .discard → ∀ image, s.station.sst.page = some image →
          t = { s.station with
                sst :=
                  { s.station.sst with
                    array := t.sst.array, index := t.sst.index, seq := .writing
                    current := some { c with stage := .writing 0 image false s.station.ticks } } }) ∧
        (c.request.kind ≠ .discard → s.station.sst.page = none →
          t = { s.station with
                sst :=
                  { s.station.sst with
                    array := t.sst.array, index := t.sst.index, seq := .writing
                    current := some { c with stage := .writing 0 c.request.image true s.station.ticks } } })) ∧
      (left ≠ [] →
        t.sst.clearFault = true ∧ t.sst.faultBlock = some block ∧
        t.sst.lastRequest = some ⟨c.request.kind, block, some .storeFault⟩ ∧
        t.sst.current = some { c with stage := .rescanning } ∧ s.station.requestEnds t c.request .storeFault ∧
        (Sparse.wf erasedByte s.station.sst.array = true → block ≤ 31 →
          (∀ before x behind, left = before ++ x :: behind → (∀ y ∈ behind, y.1 ≠ x.1) →
            Sparse.read erasedByte t.sst.array (blockAddress block x.1) = x.2) ∧
          (∀ a, inBlock block a = true → (∀ x ∈ left, blockAddress block x.1 ≠ a) →
            Sparse.read erasedByte t.sst.array a = erasedByte) ∧
          (∀ a, inBlock block a = false →
            Sparse.read erasedByte t.sst.array a = Sparse.read erasedByte s.station.sst.array a))) ∧
      (∀ b, { t.entry b with unverified := (s.station.entry b).unverified } = s.station.entry b) ∧
      (s.station.sst.index.length = 32 → block ≤ 31 → (t.entry block).unverified = decide (left ≠ [])) ∧
      (∀ b, b ≠ block → t.entry b = s.station.entry b)

/-- A clear is suspended for a queued READ of another block, the time it has spent in CLEARING kept; with none queued
it goes on (R139), and at its limit it is not suspended (R140). In HELD the oldest such READ is taken past every other
request, and served in the hold where its epoch is listed. One whose epoch is not listed ends EMPTY in HELD (R135), and
the hold goes on while another such READ is queued, else the clear resumes (R139). Once the clear has been abandoned in
the hold no request is taken before the rescan has ended (R129, R144, log 14). It acts in no order against waiting
frames and timers, the model's choice (log 62). -/
def Obligations.ClearIsSuspendedForReads : Prop :=
  (∀ (s : State) (c : Current), s.station.powered = true → s.station.sst.current = some c →
    s.station.sst.seq = .held → c.stage = .rescanning → exec .sequencerTake s = .next s) ∧
  (∀ (s : State) (c : Current) (spent since : Nat), s.station.powered = true → s.station.sst.current = some c →
    c.stage = .clearing spent since →
    let other (q : Request) : Prop := q.kind = .read ∧ q.block ≠ c.request.block
    let now := spent + (s.station.ticks - since)
    (s.station.sst.seq = .clearing →
      ((∃ q ∈ s.station.sst.queue, other q) → now < 1000 * Config.ms →
        exec .clearSuspend s =
          .next (s.put
            { s.station with
              sst :=
                { s.station.sst with
                  seq := .held
                  current := some { c with stage := .clearing now s.station.ticks } } })) ∧
      ((∀ q ∈ s.station.sst.queue, ¬ other q) ∨ 1000 * Config.ms ≤ now → exec .clearSuspend s = .next s)) ∧
    (s.station.sst.seq = .held → ∀ before r behind, s.station.sst.queue = before ++ r :: behind → other r →
      (∀ q ∈ before, ¬ other q) →
      (∀ front p rear, (s.station.entry r.block).generations = front ++ (p, r.epoch) :: rear →
        (∀ g ∈ front, g.2 ≠ r.epoch) →
        exec .sequencerTake s =
          .next (s.put
            { s.station with
              sst :=
                { s.station.sst with
                  queue := before ++ behind, seq := .readingInHold, holdRead := some (r, p) } })) ∧
      ((∀ g ∈ (s.station.entry r.block).generations, g.2 ≠ r.epoch) →
        ∃ t, exec .sequencerTake s = .next (s.put t) ∧ t.sst.lastRequest = some ⟨.read, r.block, some .empty⟩ ∧
          t.sst.array = s.station.sst.array ∧ t.sst.index = s.station.sst.index ∧
          t.sst.holdRead = s.station.sst.holdRead ∧ before ++ behind <+: t.sst.queue ∧
          ((∀ i, r.purpose ≠ .fill i) → t.sst.queue = before ++ behind) ∧ s.station.requestEnds t r .empty ∧
          ((∃ q ∈ t.sst.queue, other q) → t.sst.seq = .held ∧ t.sst.current = some c) ∧
          ((∀ q ∈ t.sst.queue, ¬ other q) →
            t.sst.seq = .clearing ∧
            t.sst.current = some { c with stage := .clearing spent s.station.ticks }))))

/-- An act that reaches its limit, 5 ms from the start of a write and 1000 ms of CLEARING for a clear, is abandoned
(R140): TIME_FAULT is set with the block, the request ends STORE_FAULT, which an APPEND of an open SAVE answers SAVED
(R163), and the block is rescanned, with the note, when it was a clear, that the last clear did not end verified. Every
byte outside the position, the keep mark word or the block in progress stays; a position that was BLANK is not VALID, a
mark not newly set, and a byte of the block as it was or erased (the bytes left by log 7, the model's reading). A rescan
rebuilds the entry from the array by the walk of R128 and the keep mark word, DISORDERED also while that note stands,
keeps guard state and note, and the sequencer is READY (R129, R140). The rescan's end acts in no order against waiting
frames and timers, the model's choice (log 62). -/
def Obligations.TimeLimitAndRescan : Prop :=
  (∀ (s : State) (c : Current) (d : Nat), s.station.sst.current = some c →
    ((∃ p image last start, c.stage = .writing p image last start ∧ d = start + 5 * Config.ms) ∨
      (∃ start, c.stage = .marking start ∧ d = start + 5 * Config.ms) ∨
      (∃ spent since, c.stage = .clearing spent since ∧ s.station.sst.seq = .clearing ∧
        d = since + (1000 * Config.ms - spent))) →
    s.expires (some d) d →
    ∃ t, exec .storeTimeLimit s = .next (s.put t) ∧ t.sst.timeFault = true ∧
      t.sst.faultBlock = some c.request.block ∧
      t.sst.lastRequest = some ⟨c.request.kind, c.request.block, some .storeFault⟩ ∧
      t.sst.current = some { c with stage := .rescanning } ∧ t.sst.page = none ∧
      s.station.requestEnds t c.request .storeFault ∧
      (∀ b, { t.entry b with unverified := (s.station.entry b).unverified } = s.station.entry b) ∧
      (∀ b, b ≠ c.request.block ∨ c.stage.isClear = false → t.entry b = s.station.entry b) ∧
      (s.station.sst.index.length = 32 → c.request.block ≤ 31 → c.stage.isClear = true →
        (t.entry c.request.block).unverified = true) ∧
      (Sparse.wf erasedByte s.station.sst.array = true →
        abandonLeaves c.request.block c.stage s.station.sst.array t.sst.array)) ∧
  (∀ (s : State) (c : Current), s.station.powered = true → s.station.sst.current = some c →
    c.stage = .rescanning → s.station.sst.index.length = 32 → c.request.block ≤ 31 →
    let block := c.request.block
    let found := walk ((List.range 16).map (fun p => (p, readPosition s.station.sst.array block p))) []
    ∃ t, exec .rescanEnd s = .next (s.put t) ∧
      t.entry block =
        ⟨found.1.reverse, found.2.1, found.2.2 || (s.station.entry block).unverified, (s.station.entry block).guard,
          keepSet s.station.sst.array block, (s.station.entry block).unverified⟩ ∧
      (∀ b, b ≠ block → t.entry b = s.station.entry b) ∧
      t = { s.station with
            sst :=
              { s.station.sst with
                index := t.sst.index, seq := .ready, current := none, holdRead := none, abandonAfterRead := false } })

/-- Packing and unpacking agree (R119, R121): an image packed at a station for a slot from contents within their ranges
is 256 bytes long, is VALID, carries its epoch and unpacks, at that station for that slot, to the contents it was packed
from, every setting at every value of its range. Unpacking any bytes applies the checks of R121 in their order, DAMAGED
by CRC, INCOMPATIBLE by version, DAMAGED by station, slot or a reserved byte, INCOMPATIBLE by a setting (R122), and what
passes gives the sections' settings, of an EMPTY section the built-in defaults with ENABLE 0 (R123). An absent station
decodes a shared common section alike, a setting out of range taking its built-in default (R124). -/
def Obligations.PackedImageUnpacksToItsContents : Prop :=
  (∀ (station count slot : Nat) (w : Contents), station < 4 → slot < 256 → 1 ≤ count → count ≤ 4 →
    w.common.inRange count = true → w.chA.inRange = true → w.chB.inRange = true → w.runMode = w.common.runmode →
    (packImage station slot w).length = 256 ∧ imageValid (packImage station slot w) = true ∧
    imageEpoch (packImage station slot w) = w.epoch ∧
    unpackImage station count slot (packImage station slot w) = .ok w) ∧
  (∀ (station count slot : Nat) (image : List Byte), image.length = 256 →
    let byte (i : Nat) := byteAt image i
    let common := commonOfBytes (slice image 16 48)
    let channelAt (o : Nat) := channelOfBytes (slice image o 64)
    let intact := leNat (slice image 0 2) = 0xD2B4 ∧ leNat (slice image 252 4) = (crc32 (image.take 252)).toNat
    let reserved :=
      (∀ i, i < 252 →
        i = 5 ∨ (10 ≤ i ∧ i < 16) ∨ (33 ≤ i ∧ i < 64) ∨ (194 ≤ i ∧ i < 208) ∨ 208 ≤ i → byte i = 0) ∧
      (∀ o, o = 64 ∨ o = 128 →
        (byte o = 1 →
          (∀ i, 19 ≤ i → i < 64 → byte (o + i) = 0) ∧
          (byte (o + 10) ≤ 8 → ∀ j, byte (o + 10) ≤ j → j < 8 → byte (o + 11 + j) = 0)) ∧
        (byte o = 2 → ∀ i, 1 ≤ i → i < 64 → byte (o + i) = 0))
    let settings :=
      (∀ n sp, commonSpec count n = some sp → sp.lo ≤ common.value n ∧ common.value n ≤ sp.hi) ∧
      (∀ o, o = 64 ∨ o = 128 →
        byte o = 2 ∨
        (byte o = 1 ∧ byte (o + 10) ≤ 8 ∧ (∀ j, j < byte (o + 10) → byte (o + 11 + j) ≤ 63) ∧
          ∀ n sp, channelSpec n = some sp → sp.lo ≤ (channelAt o).value n ∧ (channelAt o).value n ≤ sp.hi)) ∧
      byte 192 ≤ 1 ∧ byte 192 = byte 28 ∧ byte 193 ≤ 2
    let unpacked := unpackImage station count slot image
    (¬ intact → unpacked = .error .damaged) ∧
    (intact → byte 2 ≠ 1 → unpacked = .error .incompatible) ∧
    (intact → byte 2 = 1 → byte 3 ≠ station ∨ byte 4 ≠ slot ∨ ¬ reserved → unpacked = .error .damaged) ∧
    (intact → byte 2 = 1 → byte 3 = station → byte 4 = slot → reserved →
      (¬ settings → unpacked = .error .incompatible) ∧
      (settings → ∃ w, unpacked = .ok w ∧ w.common = common ∧ w.runMode = byte 192 ∧ w.runState.code = byte 193 ∧
        w.epoch.toNat = leNat (slice image 6 4) ∧
        (∀ o ch, (o, ch) ∈ [(64, w.chA), (128, w.chB)] →
          (byte o = 1 → ch = channelAt o) ∧ (byte o = 2 → ch = ⟨0, 9, 0, 0, 0, 0, 0, 0, []⟩))))) ∧
  (∀ bytes : List Byte,
    let c := commonOfBytes bytes
    let ch := channelOfBytes bytes
    c.value 1 = byteAt bytes 0 ∧ c.value 2 = leNat (slice bytes 1 2) ∧
    (∀ n, 3 ≤ n → n ≤ 16 → c.value n = byteAt bytes n) ∧
    ch.value 1 = byteAt bytes 1 ∧ ch.value 2 = byteAt bytes 2 ∧ ch.value 3 = signedOf 16 (leNat (slice bytes 3 2)) ∧
    ch.value 4 = byteAt bytes 5 ∧ ch.value 5 = byteAt bytes 6 ∧ ch.value 6 = byteAt bytes 7 ∧
    ch.value 7 = signedOf 8 (byteAt bytes 8) ∧ ch.value 8 = byteAt bytes 9 ∧
    ch.label = (List.range (byteAt bytes 10)).map (fun i => byteAt bytes (11 + i))) ∧
  (∀ (t : Station) (sect : List Byte) (n : Nat) (sp : SettingSpec), t.straps.wf = true →
    commonSpec t.straps.count n = some sp →
    let v := (commonOfBytes sect).value n
    (t.decodedCommon sect).value n = if sp.lo ≤ v ∧ v ≤ sp.hi then v else Common.default.value n)

/-! Acquisition and triggering. -/

/-- READY rises (R43): out of order the edge waits with its instant (R177, by log 68, the model's reading); in order,
every enrolled station advances its acquisition number. It can rise only in a tick at whose start this station released
it, and not in the tick of another edge or the one behind it (R181, by log 52, the model's reading). One in PREPARED
arms: its capture is frozen, the reserved slot becomes FILLING under the new number, the trigger role follows TRIGSRC
(R44), the crossing history is cleared and the alignment timer stopped; it enters PRETRIG, or with P = 0 ARMED, where
the source starts its auto timer when RUNMODE is AUTO (R50), rounded up to a whole lane tick, which is the model's
reading (log 39). Averaging restarts when the capture differs from the last armed one or a restart is pending (R31). -/
def Obligations.ReadyEdgeArmsPreparedStations : Prop :=
  (∀ s : State, s.mustWait → s.station.enrolled = true → s.station.lif.readyOwn = true →
    (∀ y, s.station.lif.edgeAt = some y → y + 1 < s.station.ticks) →
    exec .readyRisingEdge s =
      .next (s.put
        { s.station with
          lif :=
            { s.station.lif with
              edgeAt := some s.station.ticks
              waiting := s.station.lif.waiting ++ [(s.station.ticks, .readyEdge)] } })) ∧
  ∀ s : State, s.occurs →
    let x := s.station.ticks
    let acq := s.station.acq
    let rises := s.station.enrolled = true ∧ s.station.lif.readyOwn = true ∧ ∀ y, s.station.lif.edgeAt = some y → y + 1 < x
    ∃ t, exec .readyRisingEdge s = .next (s.put t) ∧
      (¬ rises → t = s.station) ∧
      (rises → t.acq.number = acq.number + 1) ∧
      (rises → acq.state ≠ .prepared →
        t = { s.station with
              lif := { s.station.lif with edgeAt := some x }, acq := { acq with number := acq.number + 1 } }) ∧
      (∀ c i, rises → acq.state = .prepared → acq.capture = some c → acq.reserved = some i →
        let restart := acq.lastArmed ≠ some c.armed ∨ acq.restartPending = true
        let role : TriggerRole := if (c.trigsrc - 1) / 2 = s.station.straps.station then .source else .follower
        (restart → t.acq.sumsA = [] ∧ t.acq.sumsB = [] ∧ t.acq.avgCount = 0) ∧
        (¬ restart → t.acq.sumsA = acq.sumsA ∧ t.acq.sumsB = acq.sumsB ∧ t.acq.avgCount = acq.avgCount) ∧
        t.acq =
          { acq with
            state := if c.p = 0 then .armed else .pretrig
            slots := acq.slots.set i .filling
            reserved := none
            number := acq.number + 1
            armedNumber := acq.number + 1
            fill := some ⟨i, acq.number + 1, 25 * (x + 1), 0, [], [], [], none⟩
            lastArmed := some c.armed
            restartPending := false
            sumsA := t.acq.sumsA, sumsB := t.acq.sumsB, avgCount := t.acq.avgCount } ∧
        t.tgu =
          { s.station.tgu with
            role := some role
            crossing := ⟨false, false, none, none⟩
            align := none
            heldFrame := none
            auto :=
              if c.p ≠ 0 then s.station.tgu.auto
              else if role = .source ∧ c.runmode = 0 then some (x + max (50 * Config.ms) ((4 * c.le * c.d + 24) / 25))
              else none } ∧
        t.readyReleased = false ∧ t.lif = { s.station.lif with edgeAt := some x } ∧
        { t with lif := s.station.lif, acq := acq, tgu := s.station.tgu } = s.station)

/-- A group of D samples of each channel completes (R27). Before the trigger, and after it ahead of the trigger group,
it is the newest pre-trigger point; with P held the oldest goes, at a follower into the alignment margin (R52). With P
pre-trigger points PRETRIG ends in ARMED. From the trigger group on it is a post-trigger point; with Le - P of them the
source completes its record and offers TRIGGERED (R53), and a follower enters ALIGNING with its alignment timer at 1
ms, or aligns at once to the frame it holds (R55). The auto timer rounded up is the model's reading (log 39), and so is
group 0 for a held stamp before the arm origin (log 40). What a completion gives (R34): of the held groups g - P to g +
Le - P - 1 a point each from F on, zeros before F = P - g, which makes it short (R27, R55, log 45). It waits behind
line events of before its end (R177, log 68). A group's first working value in SAMPLE, least and greatest in PEAK (R28,
R29), in AVERAGE the folded sum's mean, a short record not being folded (R30), packed with saturation (R24); CLIPPED
and SATURATED of enabled channels; the header of R35. -/
def Obligations.GroupCompletionFillsTheRecord : Prop :=
  (∀ (s : State) (samplesA samplesB : List Sample) (f : Fill) (c : Capture),
    s.station.powered = true → s.station.acq.fill = some f → s.station.acq.capture = some c → f.slot < 4 →
    samplesA.length = c.d → samplesB.length = c.d →
    (∀ w ∈ s.station.lif.waiting, f.origin + (f.completed + 1) * c.d ≤ Station.eventIndex w.2 w.1) →
    let x := (f.origin + (f.completed + 1) * c.d - 1) / 25
    x ≤ s.station.ticks → s.station.inOrder x = true →
    let acq := s.station.acq
    let g : Group := ⟨f.completed, formGroup c.a.invert samplesA, formGroup c.b.invert samplesB⟩
    let source : Prop := s.station.tgu.role = some .source
    ∃ t, exec (.groupCompletion samplesA samplesB) s = .next (s.put t) ∧
      (acq.state = .pretrig → f.trigger = none → f.pre.length < c.p →
        t.acq =
          { acq with
            state := if f.pre.length + 1 = c.p then .armed else .pretrig
            fill := some { f with pre := f.pre ++ [g], completed := f.completed + 1 } } ∧
        t.tgu =
          { s.station.tgu with
            auto :=
              if f.pre.length + 1 = c.p then
                (if source ∧ c.runmode = 0 then some (x + max (50 * Config.ms) ((4 * c.le * c.d + 24) / 25)) else none)
              else s.station.tgu.auto }) ∧
      (∀ oldest newer, acq.state = .armed → f.trigger = none → c.p ≤ f.pre.length → f.pre ++ [g] = oldest :: newer →
        t.tgu = s.station.tgu ∧
        ∃ margin,
          t.acq = { acq with fill := some { f with pre := newer, margin := margin, completed := f.completed + 1 } } ∧
          (source → margin = f.margin) ∧
          (¬ source → margin <:+ f.margin ++ [oldest] ∧ margin.length = min 25 (f.margin.length + 1))) ∧
      (∀ tr, acq.state = .posttrig → f.trigger = some tr → f.completed < tr.group → f.post.length ≠ c.le - c.p →
        t.tgu = s.station.tgu ∧
        (f.pre.length < c.p →
          t.acq = { acq with fill := some { f with pre := f.pre ++ [g], completed := f.completed + 1 } }) ∧
        (∀ oldest newer, c.p ≤ f.pre.length → f.pre ++ [g] = oldest :: newer →
          ∃ margin,
            t.acq = { acq with fill := some { f with pre := newer, margin := margin, completed := f.completed + 1 } } ∧
            (source → margin = f.margin) ∧
            (¬ source → margin <:+ f.margin ++ [oldest] ∧ margin.length = min 25 (f.margin.length + 1)))) ∧
      (∀ tr, acq.state = .posttrig → f.trigger = some tr → tr.group ≤ f.completed →
        let f' : Fill := { f with post := f.post ++ [g], completed := f.completed + 1 }
        (f.post.length + 1 ≠ c.le - c.p →
          t.acq = { acq with fill := some f' } ∧ t.tgu = s.station.tgu) ∧
        (f.post.length + 1 = c.le - c.p →
          (source →
            s.station.completed t f (finishRecord c f' tr false acq.sumsA acq.sumsB acq.avgCount) x ∧
            let m := Msg.triggered f.number tr.tick tr.offset tr.kind.code
            ((∃ e ∈ t.lif.tx, e.msg = m ∧ e.origin = .trigger) ∨ t.tgu.keptFrame = some m)) ∧
          (¬ source → s.station.tgu.heldFrame = none →
            t.acq = { acq with state := .aligning, fill := some f' } ∧
            t.tgu = { s.station.tgu with align := some (x + 1 * Config.ms) }) ∧
          (∀ h, ¬ source → s.station.tgu.heldFrame = some h →
            s.station.completed t f
              (finishRecord c f'
                { tr with
                  group := (25 * (tr.trigTick - 1) + h.offset - f.origin) / c.d, tick := h.tick, offset := h.offset
                  kind := h.kind }
                false acq.sumsA acq.sumsB acq.avgCount) x ∧
            t.tgu.lastStamp = some (h.tick, h.offset)))) ∧
      { t with
        lif := s.station.lif, smg := s.station.smg, acq := acq, tgu := s.station.tgu, rse := s.station.rse,
        pns := s.station.pns, free := s.station.free } = s.station) ∧
  -- what a group of samples gives for its channel
  (∀ (invert : Nat) (samples : List Sample),
    let value (sample : Sample) : Int := if invert = 1 then -sample.toInt else sample.toInt
    let g := formGroup invert samples
    (∀ sample rest, samples = sample :: rest → g.first = value sample ∧
      (∀ y ∈ samples, g.least ≤ value y ∧ value y ≤ g.greatest) ∧ (∃ y ∈ samples, value y = g.least) ∧
      (∃ y ∈ samples, value y = g.greatest)) ∧
    (g.clipped = true ↔ ∃ y ∈ samples, y.toInt = -128 ∨ y.toInt = 127)) ∧
  -- what the completion work gives
  (∀ (c : Capture) (f : Fill) (tr : FillTrigger) (coarse : Bool) (sumsA sumsB : Sums) (k : Nat),
    let fin := finishRecord c f tr coarse sumsA sumsB k
    let r := fin.record
    let held := (f.margin ++ f.pre ++ f.post).filter (fun g =>
      decide (tr.group ≤ g.index + c.p) && decide (g.index + c.p < tr.group + c.le))
    let F := c.p - tr.group
    let folds := c.acqmode = 2 ∧ F = 0
    let a := 2 ^ c.avgcount
    let n := if k < a then k + 1 else k
    let snapshot (ch : ChannelCapture) : ChannelSnapshot := ⟨ch.enable, ch.vscale, ch.voffset, ch.invert⟩
    r.number = f.number ∧ r.tick = tr.tick ∧ r.offset = tr.offset ∧ r.kind = tr.kind ∧ r.coarse = coarse ∧
    r.first = F ∧ (r.shortPretrig = true ↔ 0 < F) ∧ r.le = c.le ∧
    r.snapshot = ⟨c.timebase, c.hpos, c.reclen, c.acqmode, snapshot c.a, snapshot c.b⟩ ∧
    r.average = (if c.acqmode = 2 then some (if F = 0 then n else 0) else none) ∧
    fin.count = (if folds then n else k) ∧
    (∀ (enable : Nat) (part : Group → ChannelGroup) (old new : Sums) (points : List Point) (clipped saturated : Bool),
      (enable, part, old, new, points, clipped, saturated) ∈
        [(c.a.enable, Group.a, sumsA, fin.sumsA, r.pointsA, r.clippedA, r.saturatedA),
          (c.b.enable, Group.b, sumsB, fin.sumsB, r.pointsB, r.clippedB, r.saturatedB)] →
      let low (j : Nat) (g : ChannelGroup) : Int :=
        if c.acqmode = 1 then g.least * 256
        else if folds then (Sparse.read 0 new (F + j) * 256).tdiv n else g.first * 256
      let high (j : Nat) (g : ChannelGroup) : Int := if c.acqmode = 1 then g.greatest * 256 else low j g
      let packed (v : Int) : Int := max (-32768) (min 32767 v)
      let fits (v : Int) : Prop := -32768 ≤ v ∧ v ≤ 32767
      (enable ≠ 1 → points = [] ∧ clipped = false ∧ saturated = false) ∧
      (enable = 1 →
        points.length = F + held.length ∧ (∀ i, i < F → points[i]? = some (0, 0)) ∧
        (∀ j g, held[j]? = some g →
          points[F + j]? = some (packed (low j (part g)), packed (high j (part g)))) ∧
        (clipped = true ↔ ∃ g ∈ held, (part g).clipped = true) ∧
        (saturated = true ↔ ∃ j g, held[j]? = some g ∧ ¬ (fits (low j (part g)) ∧ fits (high j (part g))))) ∧
      (enable ≠ 1 ∨ ¬ folds → new = old) ∧
      (enable = 1 → folds → Sparse.wf 0 old = true →
        (∀ j g, held[j]? = some g →
          let sum := Sparse.read 0 old (F + j)
          let x := (part g).first
          Sparse.read 0 new (F + j) = if k < a then sum + x else sum - sum.tdiv a + x) ∧
        (∀ i, F + held.length ≤ i → Sparse.read 0 new i = Sparse.read 0 old i))))

/-- The source's samples. A sample, TRIG or QUAL drive out of order waits with its instant (R177, by log 68, the
model's reading). A candidate in ARMED by TRIGTYPE, SLOPE and pulse width (R45, R46) that meets QUAL (R47) and is
eligible under holdoff (R48) triggers (R49): POSTTRIG with the group that holds it, the stamp, and TRIG in the next
tick, the drive of an earlier trigger that has not ended standing. In PRETRIG and ARMED every other sample only moves
the marks and the crossings; a pulse runs from a crossing to the next of the other polarity, which ends it, and of two
alike in a row the latest begins it (log 44). Holdoff counts from the last trigger stamp. QUAL is released by an
enrolled station with QUALMODE NONE, or when every enabled channel meets its QUALSTATE, and is high when the other
drivers release it too (R47). -/
def Obligations.SourceTakesTheFirstCandidate : Prop :=
  (∀ (s : State) (c : Instr) (ev : LineEvent), s.mustWait → c.raises ev → ev ≠ .readyEdge →
    exec c s =
      .next (s.put
        { s.station with
          lif := { s.station.lif with waiting := s.station.lif.waiting ++ [(s.station.ticks, ev)] } })) ∧
  (∀ (s : State) (sample : Sample) (offset : Nat) (f : Fill) (c : Capture),
    s.occurs → offset < 25 → s.station.acq.fill = some f → s.station.acq.capture = some c →
    s.station.tgu.role = some .source → f.origin ≤ 25 * s.station.ticks + offset →
    let ch := if c.trigsrc % 2 = 1 then c.a else c.b
    let x : Int := if ch.invert = 1 then -sample.toInt else sample.toInt
    let index := 25 * s.station.ticks + offset
    let k := s.station.tgu.crossing
    let rises : Prop := k.riseMark = true ∧ ch.triglevel ≤ x
    let falls : Prop := k.fallMark = true ∧ x ≤ ch.triglevel
    let pulse (start : Option Nat) : Prop :=
      ∃ i0, start = some i0 ∧
        (if c.pulsecond = 0 then 2 * (index - i0) < 5 * seq125 1 c.pulsew else 5 * seq125 1 c.pulsew < 2 * (index - i0))
    let candidate : Prop :=
      (c.trigtype = 0 ∧ ((c.slope ≠ 1 ∧ rises) ∨ (c.slope ≠ 0 ∧ falls))) ∨
      (c.trigtype ≠ 0 ∧ ((c.slope ≠ 1 ∧ falls ∧ pulse k.lastRise) ∨ (c.slope ≠ 0 ∧ rises ∧ pulse k.lastFall)))
    let taken : Prop :=
      s.station.acq.state = .armed ∧ candidate ∧ (c.qualmode = 0 ∨ s.station.tgu.qualHigh = true) ∧
      eligible c.holdoff s.station.tgu.lastStamp s.station.laneTime offset = true
    let moved (t : Station) : Prop :=
      (t.tgu.crossing.riseMark = true ↔ x ≤ ch.triglevel - 2 ∨ (k.riseMark = true ∧ ¬ rises)) ∧
      (t.tgu.crossing.fallMark = true ↔ ch.triglevel + 2 ≤ x ∨ (k.fallMark = true ∧ ¬ falls)) ∧
      (rises → t.tgu.crossing.lastRise = some index) ∧ (falls → t.tgu.crossing.lastFall = some index) ∧
      (¬ rises → t.tgu.crossing.lastRise = if falls then none else k.lastRise) ∧
      (¬ falls → t.tgu.crossing.lastFall = if rises then none else k.lastFall)
    (taken → f.completed = (index - f.origin) / c.d →
      ∃ t, exec (.trigger sample offset) s = .next (s.put t) ∧ moved t ∧
        t = { s.station with
              acq :=
                { s.station.acq with
                  state := .posttrig
                  fill :=
                    some
                      { f with
                        trigger :=
                          some
                            ⟨(index - f.origin) / c.d, s.station.laneTime, offset,
                              if c.trigtype = 0 then .edge else .pulse, s.station.ticks + 1⟩ } }
              tgu :=
                { s.station.tgu with
                  crossing := t.tgu.crossing, auto := none, lastStamp := some (s.station.laneTime, offset)
                  trigDrives :=
                    (s.station.ticks + 1) ::
                      s.station.tgu.trigDrives.filter (fun y => decide (s.station.ticks ≤ y)) } }) ∧
    (¬ taken → s.station.acq.state = .pretrig ∨ s.station.acq.state = .armed →
      ∃ t, exec (.triggerCrossing sample offset) s = .next (s.put t) ∧ moved t ∧
        t = { s.station with tgu := { s.station.tgu with crossing := t.tgu.crossing } })) ∧
  (∀ (h : Nat) (tick last : LaneTick) (offset lastOffset : Nat), h ≤ 25 → offset < 25 → lastOffset < 25 →
    tick.toNat < 2 ^ 46 → last.toNat < 2 ^ 46 →
    (eligible h none tick offset = true ∧
      (eligible h (some (last, lastOffset)) tick offset = true ↔
        h = 0 ∨ 25 * last.toNat + lastOffset + seq125 100 (h - 1) * 5 / 2 ≤ 25 * tick.toNat + offset))) ∧
  (∀ (s : State) (sampleA sampleB : Sample) (othersRelease : Bool), s.occurs →
    let c := s.station.acq.capture.getD (captureOf s.station.live.common s.station.live.chA s.station.live.chB)
    let met (ch : ChannelCapture) (sample : Sample) : Prop :=
      let x : Int := if ch.invert = 1 then -sample.toInt else sample.toInt
      ch.enable = 0 ∨ ch.qualstate = 0 ∨ (ch.qualstate = 1 ∧ ch.triglevel ≤ x) ∨ (2 ≤ ch.qualstate ∧ x < ch.triglevel)
    ∃ t, exec (.qualDrive sampleA sampleB othersRelease) s = .next (s.put t) ∧
      (t.tgu.qualReleased = true ↔
        s.station.enrolled = true ∧ (c.qualmode = 0 ∨ (met c.a sampleA ∧ met c.b sampleB))) ∧
      (t.tgu.qualHigh = true ↔ t.tgu.qualReleased = true ∧ othersRelease = true) ∧
      t = { s.station with
            tgu := { s.station.tgu with qualReleased := t.tgu.qualReleased, qualHigh := t.tgu.qualHigh } })

/-- The followers. A TRIG pulse out of order waits with its instant (R177, by log 68, the model's reading). It takes a
follower in PRETRIG or ARMED to POSTTRIG, with the group in progress at the tick's first sample as tentative trigger
point; the source and every other state ignore it (R52). A usable TRIGGERED frame of the record, the first, is held in
POSTTRIG and acted on at once in ALIGNING: fine alignment to the group that holds its stamp; every other one is
ignored, as is one at a station with no record FILLING or no tentative trigger point (R54, R55). The alignment timer's
expiry in ALIGNING completes the record COARSE at the tentative point (R55). A stamp before the arm origin gives group
0, which is the model's reading (log 40). -/
def Obligations.FollowerAlignsItsRecord : Prop :=
  (∀ s : State, s.mustWait →
    exec .trig s =
      .next (s.put
        { s.station with
          lif := { s.station.lif with waiting := s.station.lif.waiting ++ [(s.station.ticks, .trig)] } })) ∧
  (∀ (s : State) (f : Fill) (c : Capture), s.occurs → s.station.acq.fill = some f → s.station.acq.capture = some c →
    ∃ t, exec .trig s = .next (s.put t) ∧
      (s.station.tgu.role ≠ some .source → s.station.acq.state = .pretrig ∨ s.station.acq.state = .armed →
        f.origin ≤ 25 * s.station.ticks → f.completed = (25 * s.station.ticks - f.origin) / c.d →
        t = { s.station with
              acq :=
                { s.station.acq with
                  state := .posttrig
                  fill :=
                    some
                      { f with
                        trigger :=
                          some
                            ⟨f.completed, s.station.laneTime, 0, if c.trigtype = 0 then .edge else .pulse,
                              s.station.ticks⟩ } } }) ∧
      (s.station.tgu.role = some .source ∨ (s.station.acq.state ≠ .pretrig ∧ s.station.acq.state ≠ .armed) →
        t = s.station)) ∧
  (∀ s : State, s.occurs → s.station.acq.fill = none → exec .trig s = .next s) ∧
  (∀ (s : State) (e : RxEntry) (rest : List RxEntry) (number : AcqNumber) (tick : LaneTick) (offset kind : Nat),
    s.takes (.triggered number tick offset kind) e rest → (∀ f, s.station.acq.fill = some f → f.trigger = none) →
    exec .triggered s = .next (s.put (s.station.pop rest))) ∧
  (∀ (s : State) (e : RxEntry) (rest : List RxEntry) (number : AcqNumber) (tick : LaneTick) (offset kind : Nat)
      (f : Fill) (c : Capture) (tr : FillTrigger),
    s.takes (.triggered number tick offset kind) e rest → s.station.acq.fill = some f →
    s.station.acq.capture = some c → f.trigger = some tr → f.slot < 4 →
    let usable : Prop :=
      s.station.tgu.role = some .follower ∧ s.station.tgu.heldFrame = none ∧ number = f.number ∧
      tick = s.station.laneTimeAt (tr.trigTick - 1) ∧ offset < 25 ∧ kind ≤ 3
    ∃ t, exec .triggered s = .next (s.put t) ∧ t.lif.rx = rest ∧
      (∀ k, usable → TriggerKind.ofCode kind = some k →
        (s.station.acq.state = .posttrig →
          t = { s.station.pop rest with tgu := { s.station.tgu with heldFrame := some ⟨tick, offset, k⟩ } }) ∧
        (s.station.acq.state = .aligning →
          s.station.completed t f
            (finishRecord c f
              { tr with
                group := (25 * (tr.trigTick - 1) + offset - f.origin) / c.d, tick := tick, offset := offset, kind := k }
              false s.station.acq.sumsA s.station.acq.sumsB s.station.acq.avgCount) e.acceptedAt ∧
          t.tgu.lastStamp = some (tick, offset))) ∧
      (¬ usable ∨ (s.station.acq.state ≠ .posttrig ∧ s.station.acq.state ≠ .aligning) → t = s.station.pop rest)) ∧
  (∀ (s : State) (d : Nat) (f : Fill) (c : Capture) (tr : FillTrigger), s.expires s.station.tgu.align d →
    s.station.acq.fill = some f → s.station.acq.capture = some c → f.trigger = some tr → f.slot < 4 →
    s.station.acq.state = .aligning →
    ∃ t, exec .alignmentTimerExpiry s = .next (s.put t) ∧
      s.station.completed t f
        (finishRecord c f tr true s.station.acq.sumsA s.station.acq.sumsB s.station.acq.avgCount) d ∧
      t.tgu.lastStamp = some (tr.tick, tr.offset))

/-! Drawing and persistence. -/

/-- A draw completes (R72): every cell still to be drawn has taken its increment of 16 times INTENSITY, limited to 255
(R71); the slot is FREE; a clear set during the draw is performed (R67). The last drawn flags take those of the record's
enabled channels (R73). A channel one of whose flags changes has its readout rebuilt from the LIVE window (R90); one
whose flags keep their values has not, and every other cell of the grid stays. Each CLIP LED is SLOW or OFF by its
CLIPPED flag (R112), set anew where that changes its base mode; no other LED that shows its base mode, no overlay,
event, count or sequence changes, nor anything else of RSE. With no other record DONE RSE is idle; else the oldest DONE
record is taken (R36, R64): its draw parameters, and each layer prepared, cleared where its drawn snapshot differs or
PERSIST is 0 (R65) and for a disabled channel (R66); one with both channels disabled is complete at once, its flags all
0, both layers blank, its slot FREE. A station that waits for a reservation with no slot FREE reserves the slot this
draw frees (R33, R77). The cells of a trace (R68 to R70): column i * 800 / Le for each point from F on, in each column
reached the rows from the least high row to the greatest low row, joined to the span drawn before. That the completion
is not ordered against frames accepted earlier, and the take reads the LIVE window as it then stands, is the model's
choice (log 46). -/
def Obligations.DrawCompletionDrawsAndGoesOn : Prop :=
  (∀ (s : State) (p : DrawParams) (r : Record), s.station.powered = true → s.station.rse.draw = some p → p.slot < 4 →
    s.station.acq.slots.get p.slot = .drawing r →
    let rse := s.station.rse
    let live := s.station.live
    ∃ t, exec .drawCompletion s = .next (s.put t) ∧ t.acq.slots.get p.slot = .free ∧
      { t.rse with
        layerA := rse.layerA, layerB := rse.layerB, draw := rse.draw, clipA := rse.clipA, clipB := rse.clipB,
        satA := rse.satA, satB := rse.satB, grid := rse.grid } = rse ∧
      -- a channel whose flags change has its readout rebuilt and its CLIP LED moved, and no other
      (Sparse.wf GridCell.blank rse.grid = true →
        let cell (u : Station) (k : Nat) := Sparse.read GridCell.blank u.rse.grid k
        let own := s.station.straps.station
        (∀ k, k < 2400 + 25 * own ∨ 2400 + 25 * own + 24 ≤ k → cell t k = cell s.station k) ∧
        (∀ start readout changed,
          (start, readout, changed) ∈
            [(2400 + 25 * own, channelReadout (2 * own + 1) live.chA t.rse.clipA t.rse.satA,
                decide (t.rse.clipA ≠ rse.clipA ∨ t.rse.satA ≠ rse.satA)),
              (2400 + 25 * own + 12, channelReadout (2 * own + 2) live.chB t.rse.clipB t.rse.satB,
                decide (t.rse.clipB ≠ rse.clipB ∨ t.rse.satB ≠ rse.satB))] →
          let shows : Prop := ∀ j c, readout[j]? = some c → cell t (start + j) = c
          let stays : Prop := ∀ j, j < 12 → cell t (start + j) = cell s.station (start + j)
          (changed = true → shows) ∧ (shows ∨ stays) ∧
          (changed = false →
            oldestDone s.station.acq.slots = none ∨
              (∃ i r', oldestDone s.station.acq.slots = some (i, r') ∧
                (r'.snapshot.a.enable = 1 ∨ r'.snapshot.b.enable = 1)) →
            stays))) ∧
      (∀ (k : Nat) (y : LedEntry) (led : Led) (clipped : Bool), s.station.pns.leds[k]? = some y → y.led = led →
        (led, clipped) ∈ [(.clipA, t.rse.clipA), (.clipB, t.rse.clipB)] →
        let mode : LedMode := if clipped = true then .slow else .off
        t.pns.leds[k]? = some ⟨led, mode, if mode = y.mode then y.since else s.station.ticks, y.overlay⟩) ∧
      (∀ (k : Nat) (y : LedEntry), s.station.pns.leds[k]? = some y → y.led ≠ .clipA → y.led ≠ .clipB →
        y.mode = s.station.ledMode y.led → t.pns.leds[k]? = some y) ∧
      t.pns.leds.map (fun y => (y.led, y.overlay)) = s.station.pns.leds.map (fun y => (y.led, y.overlay)) ∧
      { t.pns with leds := s.station.pns.leds } = s.station.pns ∧
      (oldestDone s.station.acq.slots = none ∨
          (∃ i r', oldestDone s.station.acq.slots = some (i, r') ∧
            (r'.snapshot.a.enable = 1 ∨ r'.snapshot.b.enable = 1)) →
        t.rse.clipA = (decide (r.snapshot.a.enable = 1) && r.clippedA) ∧
        t.rse.satA = (decide (r.snapshot.a.enable = 1) && r.saturatedA) ∧
        t.rse.clipB = (decide (r.snapshot.b.enable = 1) && r.clippedB) ∧
        t.rse.satB = (decide (r.snapshot.b.enable = 1) && r.saturatedB)) ∧
      (oldestDone s.station.acq.slots = none →
        t.acq.slots = s.station.acq.slots.set p.slot .free ∧ t.rse.draw = none ∧
        (∀ L L', (L, L') ∈ [(rse.layerA, t.rse.layerA), (rse.layerB, t.rse.layerB)] →
          L'.todo = [] ∧ L'.clearPending = false ∧
          (L.clearPending = true → L'.snapshot = none ∧ ∀ a, L'.cell a = 0) ∧
          (L.clearPending = false → L'.snapshot = L.snapshot ∧
            (Sparse.wf 0 L.cells = true → L.todo.Nodup → rse.decayPass = false → ∀ a,
              L'.cell a =
                if a ∈ L.todo then BitVec.ofNat 8 (min 255 ((L.cell a).toNat + 16 * p.intensity)) else L.cell a)))) ∧
      (∀ i r', oldestDone s.station.acq.slots = some (i, r') → r'.snapshot.a.enable = 1 ∨ r'.snapshot.b.enable = 1 →
        t.acq.slots.get i = .drawing r' ∧ t.rse.draw = some ⟨i, live.common.intensity, live.common.persist⟩ ∧
        (∀ L L' (ch : ChannelSnapshot) points,
          (L, L', ch, points) ∈
            [(rse.layerA, t.rse.layerA, r'.snapshot.a, r'.pointsA),
              (rse.layerB, t.rse.layerB, r'.snapshot.b, r'.pointsB)] →
          let drawn : DrawnSnapshot :=
            ⟨r'.snapshot.timebase, r'.snapshot.hpos, r'.snapshot.reclen, r'.snapshot.acqmode, ch.vscale, ch.voffset,
              ch.invert⟩
          L'.clearPending = false ∧
          (ch.enable = 1 → L'.snapshot = some drawn ∧ L'.todo = traceCells r'.le r'.first points) ∧
          (ch.enable ≠ 1 → L'.snapshot = none ∧ L'.todo = []) ∧
          (ch.enable ≠ 1 ∨ live.common.persist = 0 ∨ L.clearPending = true ∨
              (L.snapshot ≠ none ∧ L.snapshot ≠ some drawn) →
            ∀ a, L'.cell a = 0) ∧
          (ch.enable = 1 → live.common.persist ≠ 0 → L.clearPending = false →
            L.snapshot = none ∨ L.snapshot = some drawn → Sparse.wf 0 L.cells = true → L.todo.Nodup →
            rse.decayPass = false → ∀ a,
              L'.cell a =
                if a ∈ L.todo then BitVec.ofNat 8 (min 255 ((L.cell a).toNat + 16 * p.intensity)) else L.cell a))) ∧
      (∀ i r', oldestDone s.station.acq.slots = some (i, r') → r'.snapshot.a.enable ≠ 1 → r'.snapshot.b.enable ≠ 1 →
        t.acq.slots.get i = .free ∧
        t.rse.clipA = false ∧ t.rse.satA = false ∧ t.rse.clipB = false ∧ t.rse.satB = false ∧
        (oldestDone (s.station.acq.slots.set i .free) = none →
          t.rse.draw = none ∧
          ∀ L', L' ∈ [t.rse.layerA, t.rse.layerB] →
            L'.todo = [] ∧ L'.snapshot = none ∧ L'.clearPending = false ∧ ∀ a, L'.cell a = 0)) ∧
      (s.station.acq.state = .preparing ∨ s.station.acq.state = .prepared → s.station.acq.reserved = none →
        (∀ i, i < 4 → s.station.acq.slots.get i ≠ .free) → t.acq.reserved = some p.slot) ∧
      { t with acq := s.station.acq, rse := rse, pns := s.station.pns, free := s.station.free } = s.station ∧
      { t.acq with slots := s.station.acq.slots, state := s.station.acq.state, reserved := s.station.acq.reserved } =
        s.station.acq) ∧
  (∀ (le first : Nat) (points : List Point), 0 < le → (∀ p ∈ points, p.1 ≤ p.2) →
    let row (v : Int) : Nat := (max 0 (min 399 (200 - 2 * v.tdiv 256))).toNat
    let own (x top bottom : Nat) : Prop :=
      (∀ i p, first ≤ i → points[i]? = some p → i * 800 / le = x → top ≤ row p.2 ∧ row p.1 ≤ bottom) ∧
      (∃ i p, first ≤ i ∧ points[i]? = some p ∧ i * 800 / le = x ∧ row p.2 = top) ∧
      (∃ i p, first ≤ i ∧ points[i]? = some p ∧ i * 800 / le = x ∧ row p.1 = bottom)
    ∃ spans : List Span,
      (∀ a, a ∈ traceCells le first points ↔
        ∃ sp ∈ spans, ∃ r, sp.top ≤ r ∧ r ≤ sp.bottom ∧ a = 800 * r + sp.column) ∧
      spans.Pairwise (fun u v => u.column < v.column) ∧
      (∀ x, (∃ sp ∈ spans, sp.column = x) ↔ ∃ i, first ≤ i ∧ i < points.length ∧ i * 800 / le = x) ∧
      (∀ sp rest, spans = sp :: rest → own sp.column sp.top sp.bottom) ∧
      (∀ before prev sp after, spans = before ++ prev :: sp :: after →
        ∃ top bottom, own sp.column top bottom ∧
          (bottom + 1 < prev.top → sp.top = top ∧ sp.bottom + 1 = prev.top) ∧
          (prev.bottom + 1 < top → sp.top = prev.bottom + 1 ∧ sp.bottom = bottom) ∧
          (prev.top ≤ bottom + 1 → top ≤ prev.bottom + 1 → sp.top = top ∧ sp.bottom = bottom)))

/-- The decay timer expires (R75): it restarts at 25 ms; with PERSIST 0 or 8 the decay count becomes 0; with 1 to 7 it
goes up by one, and at 2 to the power PERSIST - 1 a pass starts and the count is 0. A pass replaces every cell v it has
not reached with floor(3v / 4) (R76); a cell that the draw in progress reaches in the same time ends as if one came
before the other, and no cell of layer B is drawn while one of layer A is still to draw (R64). A pass ends in no order
against waiting frames and timers, the model's choice (log 62). -/
def Obligations.DecayFollowsPersist : Prop :=
  (∀ (s : State) (d : Nat), s.expires (some s.station.rse.decayTimer) d → s.station.rse.decayPass = false →
    let p := s.station.live.common.persist
    let count := s.station.rse.decayCount
    ∃ t, exec .decayTimerExpiry s = .next (s.put t) ∧ t.rse.decayTimer = d + 25 * Config.ms ∧
      (p = 0 ∨ p = 8 → t.rse.decayCount = 0 ∧ t.rse.decayPass = false) ∧
      (1 ≤ p → p ≤ 7 → count + 1 < 2 ^ (p - 1) → t.rse.decayCount = count + 1 ∧ t.rse.decayPass = false) ∧
      (1 ≤ p → p ≤ 7 → 2 ^ (p - 1) ≤ count + 1 → t.rse.decayCount = 0 ∧ t.rse.decayPass = true) ∧
      { t with
        rse :=
          { t.rse with
            decayTimer := s.station.rse.decayTimer, decayCount := count, decayPass := false } } = s.station) ∧
  (∀ s : State, s.station.powered = true → s.station.rse.decayPass = true →
    ∃ t, exec .decayPassEnd s = .next (s.put t) ∧ t.rse.decayPass = false ∧
      (∀ L L', (L, L') ∈ [(s.station.rse.layerA, t.rse.layerA), (s.station.rse.layerB, t.rse.layerB)] →
        L'.decayed = [] ∧ L'.snapshot = L.snapshot ∧ L'.clearPending = L.clearPending ∧
        (Sparse.wf 0 L.cells = true → L.todo.Nodup → ∀ a, a ∉ L.decayed →
          let v := (L.cell a).toNat
          let amount := (s.station.rse.draw.map (fun p => 16 * p.intensity)).getD 0
          (a ∉ L.todo → (L'.cell a).toNat = 3 * v / 4 ∧ a ∉ L'.todo) ∧
          (a ∈ L.todo →
            ((L'.cell a).toNat = 3 * v / 4 ∧ a ∈ L'.todo) ∨
            ((L'.cell a).toNat = 3 * min 255 (v + amount) / 4 ∧ a ∉ L'.todo) ∨
            ((L'.cell a).toNat = min 255 (3 * v / 4 + amount) ∧ a ∉ L'.todo)))) ∧
      (t.rse.layerA.todo ≠ [] → t.rse.layerB.todo = s.station.rse.layerB.todo) ∧
      { t with
        free := s.station.free
        rse :=
          { t.rse with
            layerA := s.station.rse.layerA, layerB := s.station.rse.layerB, decayPass := true } } = s.station)

/-! Composition and annotation. -/

/-- Frames start from the frame timer every 1 666 667 ticks (R81), at a LINK or TAIL from the marker received, which
restarts the loss timer at 50 ms and ends free running, and at the loss timer's expiry, from which on the station runs
free (R82). A HEAD or SOLE holds GRATICULE for the frame and disregards a marker (R80); the output frame starts one row
period of 4000 ticks later (R80), and the one in progress goes on till then. The lines of each GRATICULE are those of
R83, each pixel (0, 48). The frame timer, not tied to lane time (R81), and the marker act in no other order against
waiting frames and timers, the model's choice (log 62). -/
def Obligations.FramesStartByTimerMarkerOrLoss : Prop :=
  let heads (t : Station) : Prop := t.straps.chain = .head ∨ t.straps.chain = .sole
  let follows (old new : List OutFrame) (x : Nat) : Prop :=
    ∃ kept, new = ⟨x + 4000, none⟩ :: kept ∧ (∀ o ∈ kept, o ∈ old) ∧
      (old.Pairwise (fun a b => b.start ≤ a.start) → ∀ now, x ≤ now → now < x + 4000 →
        new.find? (fun o => decide (o.start ≤ now)) = old.find? (fun o => decide (o.start ≤ now)))
  (∀ (s : State) (d : Nat), s.station.powered = true → s.station.rse.frameTimer = some d → d ≤ s.station.ticks →
    ∃ graticule outs, follows s.station.rse.outs outs d ∧
      exec .frameTimerExpiry s =
        .next (s.put
          { s.station with
            rse :=
              { s.station.rse with
                frameTimer := some (d + 1666667), frame := some ⟨graticule, 0, d + 4000⟩, outs := outs } }) ∧
      (heads s.station → graticule = some s.station.live.common.graticule) ∧
      (¬ heads s.station → graticule = none)) ∧
  (∀ s : State, s.station.powered = true → (∀ d, s.station.rse.lossTimer = some d → s.station.ticks ≤ d) →
    (heads s.station → exec .frameStartMarker s = .next s) ∧
    (¬ heads s.station → ∃ outs, follows s.station.rse.outs outs s.station.ticks ∧
      exec .frameStartMarker s =
        .next (s.put
          { s.station with
            rse :=
              { s.station.rse with
                freeRunning := false, frameTimer := none
                lossTimer := some (s.station.ticks + 50 * Config.ms)
                frame := some ⟨none, 0, s.station.ticks + 4000⟩, outs := outs } }))) ∧
  (∀ (s : State) (d : Nat), s.expires s.station.rse.lossTimer d → ¬ heads s.station →
    ∃ outs, follows s.station.rse.outs outs d ∧
      exec .lossTimerExpiry s =
        .next (s.put
          { s.station with
            rse :=
              { s.station.rse with
                freeRunning := true, lossTimer := none, frameTimer := some (d + 1666667)
                frame := some ⟨none, 0, d + 4000⟩, outs := outs } })) ∧
  (∀ graticule r x : Nat, r < 400 → x < 800 →
    let onFrame := x = 0 ∨ x = 799 ∨ r = 0 ∨ r = 399
    let onGrid := onFrame ∨ (1 ≤ x ∧ 80 ∣ x ∧ 4 ∣ r) ∨ (1 ≤ r ∧ 50 ∣ r ∧ 4 ∣ x)
    let onFull := onGrid ∨ x = 400 ∨ r = 200 ∨ (198 ≤ r ∧ r ≤ 202 ∧ 16 ∣ x) ∨ (398 ≤ x ∧ x ≤ 402 ∧ 10 ∣ r)
    let line := (graticule = 0 ∧ onFull) ∨ (graticule = 1 ∧ onGrid) ∨ (graticule = 2 ∧ onFrame)
    graticule ≤ 2 → (line → graticulePixel graticule r x = ⟨0, 48⟩) ∧ (¬ line → graticulePixel graticule r x = ⟨0, 0⟩))

/-- A row is merged (R84 to R86): the upstream pixel is the graticule's, the received one, or black in free running; of
the layers whose channel is enabled the brighter, layer A when equal, is the candidate, which replaces the upstream
pixel only when strictly brighter; the character cell over it is transparent with code 0, else lit or black by its
glyph (log 11). With no draw and no decay pass in progress no cell of a layer changes, and no cell of layer B is drawn
while one of layer A is still to draw (R64). The row is sent one row period after its start (R80, log 54), black
throughout where the blank request stood at the start of its output frame; HEAD and LINK send on the raster link, TAIL
and SOLE to the LCD, whose blank signal follows (R92). Its row start marker leaves as its row period begins, its 800
pixels two ticks each, and the rest of the 4000 ticks carries none (R79, R81); that the pixels come first is the
model's reading (DEDUCED, log 73). Every row merged before it whose row period has not ended goes on, also one of a
frame cut short (R80, R82), and the merge changes nothing of what is being sent. A frame start marker leaves as an
output frame starts. It acts in no order against waiting frames and timers, the model's choice (log 62). -/
def Obligations.RowMergeComposesEveryPixel : Prop :=
  (∀ (s : State) (upstream : List Pixel) (f : Frame), s.station.powered = true → (Instr.rowMerge upstream).wf = true →
    s.station.rse.frame = some f → f.next < 400 →
    (s.station.originates = true → f.outStart + 4000 * f.next ≤ s.station.ticks + 4000) →
    let rse := s.station.rse
    let own := s.station.straps.station
    ∃ t m, exec (.rowMerge upstream) s = .next (s.put t) ∧ t.rse.frame = some { f with next := f.next + 1 } ∧
      t.rse.rows = m :: rse.rows.filter (fun n => decide (s.station.ticks < n.sendAt + 4000)) ∧ m.row = f.next ∧ m.pixels.length = 800 ∧ m.out = f.outStart ∧
      m.sendAt = (if s.station.originates then f.outStart + 4000 * f.next else s.station.ticks + 4000) ∧
      (s.station.ticks < m.sendAt →
        t.outputRow = s.station.outputRow ∧ t.outputPixel = s.station.outputPixel ∧
        t.sendsRowStart = s.station.sendsRowStart) ∧
      (∀ x (hx : x < m.pixels.length),
        let up : Pixel :=
          match f.graticule with
          | some g => graticulePixel g f.next x
          | none => if rse.freeRunning then ⟨0, 0⟩ else upstream.getD x ⟨0, 0⟩
        let onA : Prop := s.station.live.chA.enable = 1
        let onB : Prop := s.station.live.chB.enable = 1
        let a := t.rse.layerA.cell (800 * f.next + x)
        let b := t.rse.layerB.cell (800 * f.next + x)
        let cell := Sparse.read GridCell.blank rse.grid (100 * (f.next / 16) + x / 8)
        let lit : Pixel := ⟨cell.colour, if cell.dim then 128 else 255⟩
        let glyph := glyphSet cell.code (f.next % 16) (x % 8)
        ∃ shown : Pixel,
          (onA → (onB → b.toNat ≤ a.toNat) → up.intensity.toNat < a.toNat →
            shown = ⟨BitVec.ofNat 4 (2 * own + 1), a⟩) ∧
          (onB → (onA → a.toNat < b.toNat) → up.intensity.toNat < b.toNat →
            shown = ⟨BitVec.ofNat 4 (2 * own + 2), b⟩) ∧
          ((onA → a.toNat ≤ up.intensity.toNat) → (onB → b.toNat ≤ up.intensity.toNat) → shown = up) ∧
          (cell.code = 0 → m.pixels[x] = shown) ∧
          (cell.code ≠ 0 → cell.inverse = false → m.pixels[x] = if glyph then lit else shown) ∧
          (cell.code ≠ 0 → cell.inverse = true → m.pixels[x] = if glyph then ⟨0, 0⟩ else lit)) ∧
      (∀ L L', (L, L') ∈ [(rse.layerA, t.rse.layerA), (rse.layerB, t.rse.layerB)] →
        Sparse.wf 0 L.cells = true → L.todo = [] → rse.decayPass = false → ∀ a, L'.cell a = L.cell a) ∧
      (t.rse.layerA.todo ≠ [] → t.rse.layerB.todo = rse.layerB.todo) ∧
      { t with
        free := s.station.free
        rse :=
          { t.rse with
            layerA := rse.layerA, layerB := rse.layerB, frame := rse.frame, rows := rse.rows } } = s.station) ∧
  (∀ (t : Station) (newer older : List MergedRow) (m : MergedRow) (before behind : List OutFrame) (o : OutFrame),
    t.rse.outs = before ++ o :: behind → (∀ y ∈ before, t.ticks < y.start) → o.start ≤ t.ticks →
    let blank := o.blank.getD t.rse.blank
    (t.rse.rows = newer ++ m :: older →
      (∀ n ∈ newer, n.out ≠ o.start ∨ t.ticks < n.sendAt ∨ n.sendAt + 4000 ≤ t.ticks) → m.out = o.start → m.sendAt ≤ t.ticks → t.ticks < m.sendAt + 4000 →
      t.outputRow = some (m.row, if blank then List.replicate 800 ⟨0, 0⟩ else m.pixels) ∧
      (t.sendsRowStart = true ↔ t.ticks = m.sendAt) ∧
      (∀ k px, t.ticks = m.sendAt + 2 * k ∨ t.ticks = m.sendAt + 2 * k + 1 →
        (if blank then List.replicate 800 ⟨0, 0⟩ else m.pixels)[k]? = some px → t.outputPixel = some px) ∧
      (m.pixels.length = 800 → m.sendAt + 1600 ≤ t.ticks → t.outputPixel = none)) ∧
    (t.sendsFrameStart = true ↔ ∃ y ∈ t.rse.outs, y.start = t.ticks) ∧
    (t.straps.chain = .tail ∨ t.straps.chain = .sole → t.outputPort = .lcd ∧ t.lcdBlank = some blank) ∧
    (t.straps.chain = .head ∨ t.straps.chain = .link → t.outputPort = .rasterLink ∧ t.lcdBlank = none))

/-- An ANNOT frame writes its codes with its attribute from a row and column on into the grid of the station it names
(R91), unless the row is above 24, the text passes column 99 or reaches a cell of a reserved area (R87), a code is
above 127 or a reserved bit of the attribute is set (R198): then, and at every other station, the frame changes
nothing. Every other cell of the grid stays. -/
def Obligations.AnnotWritesTheGrid : Prop :=
  ∀ (s : State) (e : RxEntry) (rest : List RxEntry) (target row column attr : Nat) (text : List Nat),
    s.takes (.annot target row column attr text) e rest →
    let count := s.station.straps.count
    let refused : Prop :=
      24 < row ∨ 99 < column ∨ 100 < column + text.length ∨
      (∃ k, k < text.length ∧ ((row = 24 ∧ column + k < 25 * count) ∨ (row = 0 ∧ column + k < 50))) ∨
      (∃ code ∈ text, 127 < code) ∨ 64 ≤ attr
    ∃ t, exec .annot s = .next (s.put t) ∧
      (target ≠ s.station.straps.station ∨ refused → t = s.station.pop rest) ∧
      (target = s.station.straps.station → ¬ refused → Sparse.wf GridCell.blank s.station.rse.grid = true →
        (∀ k (hk : k < text.length),
          Sparse.read GridCell.blank t.rse.grid (100 * row + column + k) =
            ⟨text[k], BitVec.ofNat 4 (attr % 16), attr.testBit 4, attr.testBit 5⟩) ∧
        (∀ a, a < 100 * row + column ∨ 100 * row + column + text.length ≤ a →
          Sparse.read GridCell.blank t.rse.grid a = Sparse.read GridCell.blank s.station.rse.grid a)) ∧
      { t with rse := { t.rse with grid := s.station.rse.grid } } = s.station.pop rest

/-! The front panel. -/

/-- A scan (R94 to R98): the scan timer restarts at 4 ms. The first one after a reset accepts the raw states and raises
no event; later ones accept a key's raw state where two scans in a row read it alike. Of the keys of the control map
(R99, R100), in increasing position, one newly accepted DOWN raises a DOWN event and a SAVE or POWER key still DOWN
after 2 s its HELD event; they join the tail up to sixteen events, and those beyond are discarded, while the hold is
timed all the same (R95). Then, in increasing position, each encoder of the map whose count is not 0 hands over a TURN:
a queued TURN of the same control takes its detents in place, within 127 either way, and leaves the queue at the sum 0;
else the TURN joins the tail of a queue of less than sixteen, and a full queue leaves the count as it is (R96, R98). In
standby a POWER DOWN alone is queued, no count of a mapped encoder is kept, and the holds are timed on (R113). LEDs and
slot sequence stay. -/
def Obligations.ScanRaisesEvents : Prop :=
  ∀ (s : State) (keys : BitVec 64) (detents : List Int) (d : Nat), s.expires (some s.station.pns.scanTimer) d →
    detents.length = 8 → s.station.pns.counts.length = 8 →
    let pns := s.station.pns
    let role := s.station.straps.panel
    let was := pns.accepted
    let mappedKeys := if role = .common then 24 else 8
    let mappedEncoders := if role = .common then 6 else 4
    let level (k : Nat) : Nat := if role = .channel then 1 else if k ≤ 2 ∨ k = 23 then 3 else if 9 ≤ k then 2 else 1
    let hold (k : Nat) : Option Nat :=
      if role = .common ∧ k = 9 then pns.holdSave else if role = .common ∧ k = 23 then pns.holdPower else none
    let limit (v : Int) : Int := max (-127) (min 127 v)
    let count (i : Nat) : Int := limit (s.station.countOf i + detents.getD i 0)
    ∃ t, exec (.scanTimerExpiry keys detents) s = .next (s.put t) ∧ t.pns.scanTimer = d + 4 * Config.ms ∧
      t.pns.raw = keys ∧ t.pns.firstScan = false ∧
      (pns.firstScan = true →
        t.pns.accepted = keys ∧ t.pns.queue = pns.queue ∧ ∀ i, i < 8 → t.countOf i = count i) ∧
      (pns.firstScan = false →
        let now := t.pns.accepted
        let raised : List PanelEvent :=
          (List.range mappedKeys).filterMap (fun k =>
            if now.getLsbD k = true ∧ was.getLsbD k = false then some ⟨.down, k, 0, level k, d⟩
            else if now.getLsbD k = true ∧ (hold k).any (fun noted => decide (noted + 2000 * Config.ms ≤ d)) = true then
              some ⟨.hold, k, 0, level k, d⟩
            else none)
        (∀ k, k < 64 →
          now.getLsbD k = if keys.getLsbD k = pns.raw.getLsbD k then keys.getLsbD k else was.getLsbD k) ∧
        -- the holds, in standby as at other times
        (∀ k h h', (k, h, h') ∈ [(9, pns.holdSave, t.pns.holdSave), (23, pns.holdPower, t.pns.holdPower)] →
          (role ≠ .common → h' = h) ∧
          (role = .common →
            (now.getLsbD k = false → h' = none) ∧ (was.getLsbD k = false → now.getLsbD k = true → h' = some d) ∧
            (was.getLsbD k = true → now.getLsbD k = true → h = none → h' = none) ∧
            (was.getLsbD k = true → now.getLsbD k = true → ∀ noted, h = some noted →
              h' = if noted + 2000 * Config.ms ≤ d then none else some noted))) ∧
        -- the queue behind the key events, and from encoder to encoder
        (s.station.standby = false → pns.queue.length ≤ 16 →
          ∃ q : Nat → List PanelEvent,
            q 0 = (pns.queue ++ raised).take 16 ∧ q 8 = t.pns.queue ∧
            ∀ i, i < 8 →
              let v := count i
              let turns (e : PanelEvent) : Prop := e.kind = .turn ∧ e.control = i
              (mappedEncoders ≤ i ∨ v = 0 → q (i + 1) = q i ∧ t.countOf i = v) ∧
              (i < mappedEncoders → v ≠ 0 →
                (∀ before e behind, q i = before ++ e :: behind → turns e → (∀ x ∈ before, ¬ turns x) →
                  let sum := limit (e.detents + v)
                  q (i + 1) = before ++ (if sum = 0 then [] else [{ e with detents := sum }]) ++ behind ∧
                  t.countOf i = 0) ∧
                ((∀ e ∈ q i, ¬ turns e) →
                  ((q i).length < 16 → q (i + 1) = q i ++ [⟨.turn, i, v, 1, d⟩] ∧ t.countOf i = 0) ∧
                  (16 ≤ (q i).length → q (i + 1) = q i ∧ t.countOf i = v)))) ∧
        -- in standby a POWER DOWN alone is queued
        (s.station.standby = true →
          t.pns.queue =
            (if role = .common ∧ was.getLsbD 23 = false ∧ now.getLsbD 23 = true ∧ pns.queue.length < 16 then
              pns.queue ++ [⟨.down, 23, 0, 3, d⟩]
             else pns.queue) ∧
          (∀ i, i < 8 → t.countOf i = if i < mappedEncoders then 0 else count i))) ∧
      { t with pns := pns } = s.station ∧ t.pns.leds = pns.leds ∧ t.pns.sequence = pns.sequence

/-- PNS considers the oldest event whose level is above the panel level (R102). Outside a slot sequence the keys and
encoders of the control maps give the frames of R99, R100, R108 and R113, with the values PNS reads now (R103; the
block byte of CLEAR_STATUS is 0 by log 50, the model's choice), placed at the list's tail where there is room; without
room the event stays, and the oldest of level 3 behind it is considered, in a slot sequence as outside one (R102). With
no such event none is dispatched. A sequence whose deadline has come is cancelled silently before an event is
considered, its LED's base mode set at the deadline (R104). SAVE and RECALL open a sequence with a deadline 5 s after
the event's stamp (R105); digits and ENTER outside one are ignored (R108). In one, a digit is appended to less than
two; a third, or ENTER with no valid slot, cancels it with the RANGE blink; ENTER of a SAVE under the last epoch cancels
it with the EPOCH blink; a valid ENTER sends the RECALL of slot 0 to 30, or the SAVE of slot 1 to 30 with the next
epoch, and closes it (R106), or waits for room with the sequence open; a key of level 1 or 2, or a turn, cancels it with
the SEQUENCE blink and is not carried out; RUNSTOP, SINGLE, FORCE, POWER, SAVE HELD and POWER HELD cancel it silently
and are carried out (R107). A blink is an overlay of the kind's LED, started now and out of standby only (R109, R113);
no other overlay changes. Every LED's base mode is then the one of R110 and R112, a changed one set now. The model's
choices: frames that wait are not seen (log 60), a deadline is held against the present tick
(log 61), a base mode changed under an overlay starts at once (log 59). -/
def Obligations.PanelDispatchCarriesOutTheOldestEvent : Prop :=
  ∀ s : State, s.station.powered = true →
    let v := s.station
    let role := v.straps.panel
    let chA := 2 * v.straps.station + 1
    let chB := 2 * v.straps.station + 2
    let maps (x : PanelEvent) : List (PanelRole × EventKind × Nat × Msg) :=
      [(.common, .down, 0, .runctl (if v.tgu.run = .stopped then 0 else 1)), (.common, .down, 1, .runctl 2),
        (.common, .down, 2, .runctl 3), (.common, .down, 3, .runctl 4), (.common, .down, 4, .setting 0 4 1 1),
        (.common, .down, 5, .setting 0 7 1 1), (.common, .down, 6, .setting 0 8 1 1),
        (.common, .down, 7, .setting 0 12 1 1), (.common, .down, 8, .setting 0 6 1 1), (.common, .down, 11, .recall 31),
        (.common, .down, 23, .runctl (if v.standby = true then 6 else 5)), (.common, .hold, 9, .store 15 6 0),
        (.common, .hold, 23, .restart), (.common, .turn, 0, .setting 0 1 1 x.detents),
        (.common, .turn, 1, .setting 0 2 1 x.detents), (.common, .turn, 2, .setting 0 11 1 x.detents),
        (.common, .turn, 3, .setting 0 15 1 x.detents), (.common, .turn, 4, .setting 0 14 1 x.detents),
        (.common, .turn, 5, .setting v.live.common.trigsrc 7 1 x.detents), (.channel, .down, 0, .setting chA 1 1 1),
        (.channel, .down, 1, .setting chA 4 1 1), (.channel, .down, 2, .setting chA 5 1 1),
        (.channel, .down, 3, .setting chA 6 1 1), (.channel, .down, 4, .setting chB 1 1 1),
        (.channel, .down, 5, .setting chB 4 1 1), (.channel, .down, 6, .setting chB 5 1 1),
        (.channel, .down, 7, .setting chB 6 1 1), (.channel, .turn, 0, .setting chA 2 1 x.detents),
        (.channel, .turn, 1, .setting chA 3 1 x.detents), (.channel, .turn, 2, .setting chB 2 1 x.detents),
        (.channel, .turn, 3, .setting chB 3 1 x.detents)]
    let needs (x : PanelEvent) (m : Msg) : Prop := (role, x.kind, x.control, m) ∈ maps x
    let on (c : Prop) [Decidable c] : LedMode := if c then .on else .off
    let mode (q : Option Sequence) : Led → LedMode
      | .run => on (v.enrolled = true ∧ v.tgu.run = .running)
      | .stop => on (v.enrolled = true ∧ v.tgu.run = .stopped)
      | .single => on (v.enrolled = true ∧ v.tgu.run = .single)
      | .save => if q.map (·.kind) = some .save then .slow else on (v.smg.op.map (·.kind) = some .save)
      | .recall => if q.map (·.kind) = some .recall then .slow else on (v.smg.op.map (·.kind) = some .recall)
      | .triggered => .off
      | .standby => if v.lif.enrol.state = .laneFault then .fast else on (v.standby = true)
      | .enableA => on (v.enrolled = true ∧ v.live.chA.enable = 1)
      | .enableB => on (v.enrolled = true ∧ v.live.chB.enable = 1)
      | .clipA => if v.rse.clipA = true then .slow else .off
      | .clipB => if v.rse.clipB = true then .slow else .off
    let seq : Option Sequence := v.pns.sequence.filter (fun q => decide (v.ticks < q.deadline))
    let leds : List LedEntry :=
      match v.pns.sequence with
      | none => v.pns.leds
      | some q =>
        if v.ticks < q.deadline then v.pns.leds
        else v.pns.leds.map (fun x =>
          ⟨x.led, mode none x.led, if mode none x.led = x.mode then x.since else q.deadline, x.overlay⟩)
    let silent (x : LedEntry) : Option (Pattern × Nat) := x.overlay
    let blink (q : Sequence) (p : Pattern) (x : LedEntry) : Option (Pattern × Nat) :=
      if x.led = (if q.kind = .save then .save else .recall) ∧ v.standby = false then some (p, v.ticks) else x.overlay
    let leaves (t : Station) (queue : List PanelEvent) (sent : List Msg) (q : Option Sequence)
        (overlay : LedEntry → Option (Pattern × Nat)) : Prop :=
      t.pns.queue = queue ∧ t.lif.tx = v.lif.tx ++ sent.map (fun m => ⟨m, .panel, v.ticks, false⟩) ∧
      t.pns.sequence = q ∧
      t.pns.leds = leds.map (fun x =>
        ⟨x.led, mode q x.led, if mode q x.led = x.mode then x.since else v.ticks, overlay x⟩)
    -- the events that an open sequence does not keep from being carried out
    let carriedOut (x : PanelEvent) : Prop :=
      (x.kind, x.control) ∈ [(EventKind.down, 0), (.down, 1), (.down, 2), (.down, 23), (.hold, 9), (.hold, 23)]
    ∃ t, exec .panelDispatch s = .next (s.put t) ∧
      ((∀ x ∈ v.pns.queue, x.level ≤ v.panelLevel) → leaves t v.pns.queue [] seq silent) ∧
      (∀ before e behind, v.pns.queue = before ++ e :: behind → (∀ x ∈ before, x.level ≤ v.panelLevel) →
        v.panelLevel < e.level →
        let rest := before ++ behind
        -- an event whose frame has no room stays, and one of level 3 overtakes it
        let waits : Prop :=
          ((∀ x ∈ behind, x.level ≤ v.panelLevel ∨ x.level ≠ 3) → leaves t v.pns.queue [] seq silent) ∧
          (∀ between third last m, behind = between ++ third :: last → (∀ x ∈ between, x.level ≠ 3) → third.level = 3 →
            v.panelLevel < 3 → seq = none ∨ carriedOut third → needs third m →
            (v.room m = true → leaves t (before ++ e :: between ++ last) [m] none silent) ∧
            (v.room m = false → leaves t v.pns.queue [] seq silent))
        let sends (m : Msg) : Prop := (v.room m = true → leaves t rest [m] none silent) ∧ (v.room m = false → waits)
        (seq = none →
          (∀ m, needs e m → sends m) ∧
          (role = .common → e.kind = .down →
            (e.control = 9 → leaves t rest [] (some ⟨.save, [], e.stamp + 5000 * Config.ms⟩) silent) ∧
            (e.control = 10 → leaves t rest [] (some ⟨.recall, [], e.stamp + 5000 * Config.ms⟩) silent) ∧
            (12 ≤ e.control → e.control ≤ 22 → leaves t rest [] none silent))) ∧
        (∀ q, seq = some q → role = .common →
          (e.kind = .down → 12 ≤ e.control → e.control ≤ 21 →
            (q.digits.length < 2 →
              leaves t rest [] (some ⟨q.kind, q.digits ++ [e.control - 12], e.stamp + 5000 * Config.ms⟩) silent) ∧
            (2 ≤ q.digits.length → leaves t rest [] none (blink q .range))) ∧
          (e.kind = .down → e.control = 22 →
            let n := slotNumber q.digits
            (q.digits = [] ∨ 30 < n ∨ (q.kind = .save ∧ n = 0) → leaves t rest [] none (blink q .range)) ∧
            (q.digits ≠ [] → n ≤ 30 → q.kind = .recall → sends (.recall n)) ∧
            (q.digits ≠ [] → 1 ≤ n → n ≤ 30 → q.kind = .save →
              (v.smg.highest = 0xFFFFFFFF → leaves t rest [] none (blink q (.code 9))) ∧
              (v.smg.highest ≠ 0xFFFFFFFF → sends (.save n (v.smg.highest + 1))))) ∧
          (e.kind = .down ∧ 3 ≤ e.control ∧ e.control ≤ 11 ∨ e.kind = .turn ∧ e.control ≤ 5 →
            leaves t rest [] none (blink q .sequence)) ∧
          (∀ m, carriedOut e → needs e m → sends m))) ∧
      { t with
        lif := { t.lif with tx := v.lif.tx }
        pns := { t.pns with queue := v.pns.queue, sequence := v.pns.sequence, leds := v.pns.leds } } = s.station

/-- The deadline of a slot sequence cancels it silently (R104): no overlay starts. An LED overlay that has run its time
ends, and the LED shows its base mode again (R109); no other entry of the LED table changes. Every overlay pattern
lasts, and every base mode and pattern is lit and dark, as the table of R109 lays down; an LED shows its overlay, else
its base mode, from the instant it was set, and in standby every LED but STANDBY is dark (R113). -/
def Obligations.SequenceAndOverlayTimesEnd : Prop :=
  (∀ (s : State) (q : Sequence) (d : Nat), s.station.pns.sequence = some q → s.expires (some q.deadline) d →
    ∃ t, exec .sequenceDeadline s = .next (s.put t) ∧ t.pns.sequence = none ∧
      t.pns.leds.map (fun x => (x.led, x.overlay)) = s.station.pns.leds.map (fun x => (x.led, x.overlay)) ∧
      (∀ x ∈ t.pns.leds, x.led = .save ∨ x.led = .recall →
        x.mode = if s.station.opKind = some .save ∧ x.led = .save ∨ s.station.opKind = some .recall ∧ x.led = .recall
          then .on else .off) ∧
      { t with pns := { t.pns with sequence := some q, leds := s.station.pns.leds } } = s.station) ∧
  (∀ (s : State) (led : Led) (before behind : List LedEntry) (x : LedEntry) (p : Pattern) (start : Nat),
    s.station.pns.leds = before ++ x :: behind → x.led = led → (∀ y ∈ before ++ behind, y.led ≠ led) →
    x.overlay = some (p, start) → s.expires (some (start + p.ticks)) (start + p.ticks) →
    exec (.ledOverlayEnd led) s =
      .next (s.put
        { s.station with pns := { s.station.pns with leds := before ++ { x with overlay := none } :: behind } })) ∧
  -- how long each pattern lasts, and what modes and patterns show
  ((Pattern.code 0).ticks = 5400 * Config.ms ∧ (∀ n, 1 ≤ n → (Pattern.code n).ticks = 3 * (400 * n + 800) * Config.ms) ∧
    Pattern.flash.ticks = 50 * Config.ms ∧ Pattern.sequence.ticks = 1000 * Config.ms ∧
    Pattern.range.ticks = 1500 * Config.ms) ∧
  (∀ k n j x : Nat,
    LedMode.off.lit x = false ∧ LedMode.on.lit x = true ∧
    (x < 1000 * Config.ms → (LedMode.slow.lit (1000 * Config.ms * k + x) = true ↔ x < 500 * Config.ms)) ∧
    (x < 250 * Config.ms → (LedMode.fast.lit (250 * Config.ms * k + x) = true ↔ x < 125 * Config.ms) ∧
      (Pattern.sequence.lit (250 * Config.ms * k + x) = true ↔ x < 125 * Config.ms)) ∧
    Pattern.flash.lit x = true ∧ Pattern.range.lit x = true ∧
    (x < 1800 * Config.ms → ((Pattern.code 0).lit (1800 * Config.ms * k + x) = true ↔ x < 1000 * Config.ms)) ∧
    (1 ≤ n →
      let blink := (400 * n + 800) * Config.ms * k
      (j < n → x < 400 * Config.ms →
        ((Pattern.code n).lit (blink + 400 * Config.ms * j + x) = true ↔ x < 200 * Config.ms)) ∧
      (x < 800 * Config.ms → (Pattern.code n).lit (blink + 400 * Config.ms * n + x) = false))) ∧
  (∀ (t : Station) (x : LedEntry),
    (t.standby = true → x.led ≠ .standby → t.ledLit x = false) ∧
    (t.standby = false ∨ x.led = .standby →
      (∀ p start, x.overlay = some (p, start) → t.ledLit x = p.lit (t.ticks - start)) ∧
      (x.overlay = none → t.ledLit x = x.mode.lit (t.ticks - x.since))))

/-! Invariants. -/

/-- Every step keeps every addressed memory of the station in its canonical form: the store's array, the cells of both
layers, the sums of both channels, the annotation grid. -/
def Obligations.MemoriesStayCanonical : Prop :=
  ∀ s s' : State, s.station.memoryWf = true → step s = .next s' → s'.station.memoryWf = true

/-- Every step keeps the bounds of the lists: the transmit list (R178), the receive list (R172, R176), the request queue
(R132), the event queue (R98), the 32 entries of the generation index (R129), the eight encoder counts. -/
def Obligations.ListsStayBounded : Prop :=
  ∀ s s' : State, s.station.listsBounded = true → step s = .next s' → s'.station.listsBounded = true

/-- Every step keeps the window roles and mapped slots of R5: exactly one LIVE window, at most one STAGED and two HELD,
no two mapped to one slot, none to slot 0 or 31; with them what keeps them so: a fill is under way for a HELD window
only, and one STAGED window at most has come or is still to come. -/
def Obligations.WindowsKeepTheirRoles : Prop :=
  ∀ s s' : State, s.station.windowsOk = true → step s = .next s' → s'.station.windowsOk = true

/-- The machine right after reset, and every station right after power-on reset over an array in canonical form, holds
every invariant. -/
def Obligations.InvariantsHoldAtReset : Prop :=
  (State.reset.station.memoryWf = true ∧ State.reset.station.listsBounded = true ∧
    State.reset.station.windowsOk = true) ∧
  (∀ (straps : Straps) (s : State), Sparse.wf erasedByte s.station.sst.array = true →
    ∃ t, exec (.powerOnReset straps) s = .next (s.put t) ∧ t.memoryWf = true ∧ t.listsBounded = true ∧
      t.windowsOk = true)
end

