-- ==== Sys2Proof/Laws/Frames.lean ====
section
/-! SUPPORT. The frame of every shared operation of a station: the fields that it leaves unchanged. Each lemma is a simp
lemma, so that a field of a changed station reads as that of the station before where the operation leaves it. -/

namespace Sys2Proof.Machine.Station

/-- A projection that every step of a fold keeps is kept by the fold. -/
theorem foldl_kept {α β : Type} (p : Station → β) (f : Station → α → Station) (h : ∀ u a, p (f u a) = p u)
    (l : List α) (t : Station) : p (l.foldl f t) = p t := by
  induction l generalizing t with
  | nil => rfl
  | cons a l ih => simp only [List.foldl_cons, ih, h]

/-- `pop` changes `lif` alone. -/
@[simp] theorem pop_frame (t : Station) (rest : List RxEntry) :
    (t.pop rest).powered = t.powered ∧ (t.pop rest).straps = t.straps ∧ (t.pop rest).standby = t.standby ∧
    (t.pop rest).ticks = t.ticks ∧ (t.pop rest).free = t.free ∧ (t.pop rest).smg = t.smg ∧
    (t.pop rest).sst = t.sst ∧ (t.pop rest).acq = t.acq ∧ (t.pop rest).tgu = t.tgu ∧ (t.pop rest).rse = t.rse ∧
    (t.pop rest).pns = t.pns := by
  simp only [Station.pop]
  simp

/-- `place` changes `lif` alone. -/
@[simp] theorem place_frame (t : Station) (m : Msg) (o : Origin) :
    (t.place m o).powered = t.powered ∧ (t.place m o).straps = t.straps ∧ (t.place m o).standby = t.standby ∧
    (t.place m o).ticks = t.ticks ∧ (t.place m o).free = t.free ∧ (t.place m o).smg = t.smg ∧
    (t.place m o).sst = t.sst ∧ (t.place m o).acq = t.acq ∧ (t.place m o).tgu = t.tgu ∧ (t.place m o).rse = t.rse ∧
    (t.place m o).pns = t.pns := by
  simp only [Station.place]
  simp

/-- `setWindow` changes `smg` alone. -/
@[simp] theorem setWindow_frame (t : Station) (i : Nat) (w : Window) :
    (t.setWindow i w).powered = t.powered ∧ (t.setWindow i w).straps = t.straps ∧
    (t.setWindow i w).standby = t.standby ∧ (t.setWindow i w).ticks = t.ticks ∧ (t.setWindow i w).free = t.free ∧
    (t.setWindow i w).lif = t.lif ∧ (t.setWindow i w).sst = t.sst ∧ (t.setWindow i w).acq = t.acq ∧
    (t.setWindow i w).tgu = t.tgu ∧ (t.setWindow i w).rse = t.rse ∧ (t.setWindow i w).pns = t.pns := by
  simp only [Station.setWindow]
  simp

/-- `freeWindows` changes `smg` alone. -/
@[simp] theorem freeWindows_frame (t : Station) (p : Window → Bool) :
    (t.freeWindows p).powered = t.powered ∧ (t.freeWindows p).straps = t.straps ∧
    (t.freeWindows p).standby = t.standby ∧ (t.freeWindows p).ticks = t.ticks ∧ (t.freeWindows p).free = t.free ∧
    (t.freeWindows p).lif = t.lif ∧ (t.freeWindows p).sst = t.sst ∧ (t.freeWindows p).acq = t.acq ∧
    (t.freeWindows p).tgu = t.tgu ∧ (t.freeWindows p).rse = t.rse ∧ (t.freeWindows p).pns = t.pns := by
  simp only [Station.freeWindows]
  simp

/-- `drainKept` changes `smg`, `sst` alone. -/
@[simp] theorem drainKept_frame (t : Station) :
    (t.drainKept).powered = t.powered ∧ (t.drainKept).straps = t.straps ∧ (t.drainKept).standby = t.standby ∧
    (t.drainKept).ticks = t.ticks ∧ (t.drainKept).free = t.free ∧ (t.drainKept).lif = t.lif ∧
    (t.drainKept).acq = t.acq ∧ (t.drainKept).tgu = t.tgu ∧ (t.drainKept).rse = t.rse ∧ (t.drainKept).pns = t.pns := by
  simp only [Station.drainKept]
  simp

/-- `offerRequest` changes `smg`, `sst` alone. -/
@[simp] theorem offerRequest_frame (t : Station) (r : Request) :
    (t.offerRequest r).powered = t.powered ∧ (t.offerRequest r).straps = t.straps ∧
    (t.offerRequest r).standby = t.standby ∧ (t.offerRequest r).ticks = t.ticks ∧
    (t.offerRequest r).free = t.free ∧ (t.offerRequest r).lif = t.lif ∧ (t.offerRequest r).acq = t.acq ∧
    (t.offerRequest r).tgu = t.tgu ∧ (t.offerRequest r).rse = t.rse ∧ (t.offerRequest r).pns = t.pns := by
  simp only [Station.offerRequest]
  simp

/-- `mapStored` changes `sst` alone. -/
@[simp] theorem mapStored_frame (t : Station) (f : Request → Request) :
    (t.mapStored f).powered = t.powered ∧ (t.mapStored f).straps = t.straps ∧ (t.mapStored f).standby = t.standby ∧
    (t.mapStored f).ticks = t.ticks ∧ (t.mapStored f).free = t.free ∧ (t.mapStored f).lif = t.lif ∧
    (t.mapStored f).smg = t.smg ∧ (t.mapStored f).acq = t.acq ∧ (t.mapStored f).tgu = t.tgu ∧
    (t.mapStored f).rse = t.rse ∧ (t.mapStored f).pns = t.pns := by
  simp only [Station.mapStored]
  simp

/-- `trackingSave` changes `smg`, `sst` alone. -/
@[simp] theorem trackingSave_frame (t : Station) :
    (t.trackingSave).powered = t.powered ∧ (t.trackingSave).straps = t.straps ∧
    (t.trackingSave).standby = t.standby ∧ (t.trackingSave).ticks = t.ticks ∧ (t.trackingSave).free = t.free ∧
    (t.trackingSave).lif = t.lif ∧ (t.trackingSave).acq = t.acq ∧ (t.trackingSave).tgu = t.tgu ∧
    (t.trackingSave).rse = t.rse ∧ (t.trackingSave).pns = t.pns := by
  simp only [Station.trackingSave]
  simp

/-- `restartSettle` changes `smg` alone. -/
@[simp] theorem restartSettle_frame (t : Station) (x : Nat) :
    (t.restartSettle x).powered = t.powered ∧ (t.restartSettle x).straps = t.straps ∧
    (t.restartSettle x).standby = t.standby ∧ (t.restartSettle x).ticks = t.ticks ∧
    (t.restartSettle x).free = t.free ∧ (t.restartSettle x).lif = t.lif ∧ (t.restartSettle x).sst = t.sst ∧
    (t.restartSettle x).acq = t.acq ∧ (t.restartSettle x).tgu = t.tgu ∧ (t.restartSettle x).rse = t.rse ∧
    (t.restartSettle x).pns = t.pns := by
  simp only [Station.restartSettle]
  simp

/-- `writeBackDirty` changes `smg`, `sst` alone. -/
@[simp] theorem writeBackDirty_frame (t : Station) :
    (t.writeBackDirty).powered = t.powered ∧ (t.writeBackDirty).straps = t.straps ∧
    (t.writeBackDirty).standby = t.standby ∧ (t.writeBackDirty).ticks = t.ticks ∧
    (t.writeBackDirty).free = t.free ∧ (t.writeBackDirty).lif = t.lif ∧ (t.writeBackDirty).acq = t.acq ∧
    (t.writeBackDirty).tgu = t.tgu ∧ (t.writeBackDirty).rse = t.rse ∧ (t.writeBackDirty).pns = t.pns := by
  simp only [Station.writeBackDirty]
  refine ⟨?_, ?_, ?_, ?_, ?_, ?_, ?_, ?_, ?_, ?_⟩ <;> exact foldl_kept _ _ (by intro u w; simp) _ _

/-- `refreshLeds` changes `pns` alone. -/
@[simp] theorem refreshLeds_frame (t : Station) (x : Nat) :
    (t.refreshLeds x).powered = t.powered ∧ (t.refreshLeds x).straps = t.straps ∧
    (t.refreshLeds x).standby = t.standby ∧ (t.refreshLeds x).ticks = t.ticks ∧ (t.refreshLeds x).free = t.free ∧
    (t.refreshLeds x).lif = t.lif ∧ (t.refreshLeds x).smg = t.smg ∧ (t.refreshLeds x).sst = t.sst ∧
    (t.refreshLeds x).acq = t.acq ∧ (t.refreshLeds x).tgu = t.tgu ∧ (t.refreshLeds x).rse = t.rse := by
  simp only [Station.refreshLeds]
  simp

/-- `startOverlay` changes `pns` alone. -/
@[simp] theorem startOverlay_frame (t : Station) (led : Led) (p : Pattern) (x : Nat) :
    (t.startOverlay led p x).powered = t.powered ∧ (t.startOverlay led p x).straps = t.straps ∧
    (t.startOverlay led p x).standby = t.standby ∧ (t.startOverlay led p x).ticks = t.ticks ∧
    (t.startOverlay led p x).free = t.free ∧ (t.startOverlay led p x).lif = t.lif ∧
    (t.startOverlay led p x).smg = t.smg ∧ (t.startOverlay led p x).sst = t.sst ∧
    (t.startOverlay led p x).acq = t.acq ∧ (t.startOverlay led p x).tgu = t.tgu ∧
    (t.startOverlay led p x).rse = t.rse := by
  simp only [Station.startOverlay]
  repeat' split
  all_goals simp

/-- `endOverlays` changes `pns` alone. -/
@[simp] theorem endOverlays_frame (t : Station) :
    (t.endOverlays).powered = t.powered ∧ (t.endOverlays).straps = t.straps ∧ (t.endOverlays).standby = t.standby ∧
    (t.endOverlays).ticks = t.ticks ∧ (t.endOverlays).free = t.free ∧ (t.endOverlays).lif = t.lif ∧
    (t.endOverlays).smg = t.smg ∧ (t.endOverlays).sst = t.sst ∧ (t.endOverlays).acq = t.acq ∧
    (t.endOverlays).tgu = t.tgu ∧ (t.endOverlays).rse = t.rse := by
  simp only [Station.endOverlays]
  simp

/-- `rebuildChannel` changes `rse` alone. -/
@[simp] theorem rebuildChannel_frame (t : Station) (b : Bool) :
    (t.rebuildChannel b).powered = t.powered ∧ (t.rebuildChannel b).straps = t.straps ∧
    (t.rebuildChannel b).standby = t.standby ∧ (t.rebuildChannel b).ticks = t.ticks ∧
    (t.rebuildChannel b).free = t.free ∧ (t.rebuildChannel b).lif = t.lif ∧ (t.rebuildChannel b).smg = t.smg ∧
    (t.rebuildChannel b).sst = t.sst ∧ (t.rebuildChannel b).acq = t.acq ∧ (t.rebuildChannel b).tgu = t.tgu ∧
    (t.rebuildChannel b).pns = t.pns := by
  simp only [Station.rebuildChannel]
  simp

/-- `rebuildCommon` changes `rse` alone. -/
@[simp] theorem rebuildCommon_frame (t : Station) :
    (t.rebuildCommon).powered = t.powered ∧ (t.rebuildCommon).straps = t.straps ∧
    (t.rebuildCommon).standby = t.standby ∧ (t.rebuildCommon).ticks = t.ticks ∧ (t.rebuildCommon).free = t.free ∧
    (t.rebuildCommon).lif = t.lif ∧ (t.rebuildCommon).smg = t.smg ∧ (t.rebuildCommon).sst = t.sst ∧
    (t.rebuildCommon).acq = t.acq ∧ (t.rebuildCommon).tgu = t.tgu ∧ (t.rebuildCommon).pns = t.pns := by
  simp only [Station.rebuildCommon]
  repeat' split
  all_goals simp

/-- `rebuildAll` changes `rse` alone. -/
@[simp] theorem rebuildAll_frame (t : Station) :
    (t.rebuildAll).powered = t.powered ∧ (t.rebuildAll).straps = t.straps ∧ (t.rebuildAll).standby = t.standby ∧
    (t.rebuildAll).ticks = t.ticks ∧ (t.rebuildAll).free = t.free ∧ (t.rebuildAll).lif = t.lif ∧
    (t.rebuildAll).smg = t.smg ∧ (t.rebuildAll).sst = t.sst ∧ (t.rebuildAll).acq = t.acq ∧
    (t.rebuildAll).tgu = t.tgu ∧ (t.rebuildAll).pns = t.pns := by
  simp only [Station.rebuildAll]
  simp

/-- `performClears` changes `rse` alone. -/
@[simp] theorem performClears_frame (t : Station) :
    (t.performClears).powered = t.powered ∧ (t.performClears).straps = t.straps ∧
    (t.performClears).standby = t.standby ∧ (t.performClears).ticks = t.ticks ∧ (t.performClears).free = t.free ∧
    (t.performClears).lif = t.lif ∧ (t.performClears).smg = t.smg ∧ (t.performClears).sst = t.sst ∧
    (t.performClears).acq = t.acq ∧ (t.performClears).tgu = t.tgu ∧ (t.performClears).pns = t.pns := by
  simp only [Station.performClears]
  simp

/-- `requestClear` changes `rse` alone. -/
@[simp] theorem requestClear_frame (t : Station) (a b : Bool) :
    (t.requestClear a b).powered = t.powered ∧ (t.requestClear a b).straps = t.straps ∧
    (t.requestClear a b).standby = t.standby ∧ (t.requestClear a b).ticks = t.ticks ∧
    (t.requestClear a b).free = t.free ∧ (t.requestClear a b).lif = t.lif ∧ (t.requestClear a b).smg = t.smg ∧
    (t.requestClear a b).sst = t.sst ∧ (t.requestClear a b).acq = t.acq ∧ (t.requestClear a b).tgu = t.tgu ∧
    (t.requestClear a b).pns = t.pns := by
  simp only [Station.requestClear]
  repeat' split
  all_goals simp

/-- `startDraw` changes `acq`, `rse` alone. -/
@[simp] theorem startDraw_frame (t : Station) (i : Nat) (r : Record) :
    (t.startDraw i r).powered = t.powered ∧ (t.startDraw i r).straps = t.straps ∧
    (t.startDraw i r).standby = t.standby ∧ (t.startDraw i r).ticks = t.ticks ∧ (t.startDraw i r).free = t.free ∧
    (t.startDraw i r).lif = t.lif ∧ (t.startDraw i r).smg = t.smg ∧ (t.startDraw i r).sst = t.sst ∧
    (t.startDraw i r).tgu = t.tgu ∧ (t.startDraw i r).pns = t.pns := by
  simp only [Station.startDraw]
  simp

/-- `setDrawnFlags` changes `rse` alone. -/
@[simp] theorem setDrawnFlags_frame (t : Station) (r : Record) :
    (t.setDrawnFlags r).powered = t.powered ∧ (t.setDrawnFlags r).straps = t.straps ∧
    (t.setDrawnFlags r).standby = t.standby ∧ (t.setDrawnFlags r).ticks = t.ticks ∧
    (t.setDrawnFlags r).free = t.free ∧ (t.setDrawnFlags r).lif = t.lif ∧ (t.setDrawnFlags r).smg = t.smg ∧
    (t.setDrawnFlags r).sst = t.sst ∧ (t.setDrawnFlags r).acq = t.acq ∧ (t.setDrawnFlags r).tgu = t.tgu ∧
    (t.setDrawnFlags r).pns = t.pns := by
  simp only [Station.setDrawnFlags]
  repeat' split
  all_goals simp

/-- `reserve` changes `acq` alone. -/
@[simp] theorem reserve_frame (t : Station) :
    (t.reserve).powered = t.powered ∧ (t.reserve).straps = t.straps ∧ (t.reserve).standby = t.standby ∧
    (t.reserve).ticks = t.ticks ∧ (t.reserve).free = t.free ∧ (t.reserve).lif = t.lif ∧ (t.reserve).smg = t.smg ∧
    (t.reserve).sst = t.sst ∧ (t.reserve).tgu = t.tgu ∧ (t.reserve).rse = t.rse ∧ (t.reserve).pns = t.pns := by
  simp only [Station.reserve]
  repeat' split
  all_goals simp

/-- `endDraw` changes `free`, `acq`, `rse` alone. -/
@[simp] theorem endDraw_frame (t : Station) :
    (t.endDraw).powered = t.powered ∧ (t.endDraw).straps = t.straps ∧ (t.endDraw).standby = t.standby ∧
    (t.endDraw).ticks = t.ticks ∧ (t.endDraw).lif = t.lif ∧ (t.endDraw).smg = t.smg ∧ (t.endDraw).sst = t.sst ∧
    (t.endDraw).tgu = t.tgu ∧ (t.endDraw).pns = t.pns := by
  simp only [Station.endDraw]
  repeat' split
  all_goals simp

/-- `drawNext` changes `free`, `acq`, `rse` alone. -/
@[simp] theorem drawNext_frame (t : Station) (n : Nat) :
    (t.drawNext n).powered = t.powered ∧ (t.drawNext n).straps = t.straps ∧ (t.drawNext n).standby = t.standby ∧
    (t.drawNext n).ticks = t.ticks ∧ (t.drawNext n).lif = t.lif ∧ (t.drawNext n).smg = t.smg ∧
    (t.drawNext n).sst = t.sst ∧ (t.drawNext n).tgu = t.tgu ∧ (t.drawNext n).pns = t.pns := by
  induction n generalizing t with
  | zero => simp [Station.drawNext]
  | succ n ih =>
    simp only [Station.drawNext]
    repeat' split
    all_goals simp [ih]

/-- `sendWord` changes `smg`, `acq` alone. -/
@[simp] theorem sendWord_frame (t : Station) (b : Bool) (w : FrontWord) (x : Nat) :
    (t.sendWord b w x).powered = t.powered ∧ (t.sendWord b w x).straps = t.straps ∧
    (t.sendWord b w x).standby = t.standby ∧ (t.sendWord b w x).ticks = t.ticks ∧
    (t.sendWord b w x).free = t.free ∧ (t.sendWord b w x).lif = t.lif ∧ (t.sendWord b w x).sst = t.sst ∧
    (t.sendWord b w x).tgu = t.tgu ∧ (t.sendWord b w x).rse = t.rse ∧ (t.sendWord b w x).pns = t.pns := by
  simp only [Station.sendWord]
  repeat' split
  all_goals simp

/-- `takeCapture` changes `smg`, `acq` alone. -/
@[simp] theorem takeCapture_frame (t : Station) (x : Nat) :
    (t.takeCapture x).powered = t.powered ∧ (t.takeCapture x).straps = t.straps ∧
    (t.takeCapture x).standby = t.standby ∧ (t.takeCapture x).ticks = t.ticks ∧ (t.takeCapture x).free = t.free ∧
    (t.takeCapture x).lif = t.lif ∧ (t.takeCapture x).sst = t.sst ∧ (t.takeCapture x).tgu = t.tgu ∧
    (t.takeCapture x).rse = t.rse ∧ (t.takeCapture x).pns = t.pns := by
  simp only [Station.takeCapture]
  simp

/-- `settleAcq` changes `acq` alone. -/
@[simp] theorem settleAcq_frame (t : Station) :
    (t.settleAcq).powered = t.powered ∧ (t.settleAcq).straps = t.straps ∧ (t.settleAcq).standby = t.standby ∧
    (t.settleAcq).ticks = t.ticks ∧ (t.settleAcq).free = t.free ∧ (t.settleAcq).lif = t.lif ∧
    (t.settleAcq).smg = t.smg ∧ (t.settleAcq).sst = t.sst ∧ (t.settleAcq).tgu = t.tgu ∧ (t.settleAcq).rse = t.rse ∧
    (t.settleAcq).pns = t.pns := by
  simp only [Station.settleAcq]
  repeat' split
  all_goals simp

/-- `enterPreparing` changes `smg`, `acq` alone. -/
@[simp] theorem enterPreparing_frame (t : Station) (x : Nat) :
    (t.enterPreparing x).powered = t.powered ∧ (t.enterPreparing x).straps = t.straps ∧
    (t.enterPreparing x).standby = t.standby ∧ (t.enterPreparing x).ticks = t.ticks ∧
    (t.enterPreparing x).free = t.free ∧ (t.enterPreparing x).lif = t.lif ∧ (t.enterPreparing x).sst = t.sst ∧
    (t.enterPreparing x).tgu = t.tgu ∧ (t.enterPreparing x).rse = t.rse ∧ (t.enterPreparing x).pns = t.pns := by
  simp only [Station.enterPreparing]
  simp

/-- `toIdle` changes `acq` alone. -/
@[simp] theorem toIdle_frame (t : Station) :
    (t.toIdle).powered = t.powered ∧ (t.toIdle).straps = t.straps ∧ (t.toIdle).standby = t.standby ∧
    (t.toIdle).ticks = t.ticks ∧ (t.toIdle).free = t.free ∧ (t.toIdle).lif = t.lif ∧ (t.toIdle).smg = t.smg ∧
    (t.toIdle).sst = t.sst ∧ (t.toIdle).tgu = t.tgu ∧ (t.toIdle).rse = t.rse ∧ (t.toIdle).pns = t.pns := by
  simp only [Station.toIdle]
  simp

/-- `dropRecord` changes `acq`, `tgu` alone. -/
@[simp] theorem dropRecord_frame (t : Station) :
    (t.dropRecord).powered = t.powered ∧ (t.dropRecord).straps = t.straps ∧ (t.dropRecord).standby = t.standby ∧
    (t.dropRecord).ticks = t.ticks ∧ (t.dropRecord).free = t.free ∧ (t.dropRecord).lif = t.lif ∧
    (t.dropRecord).smg = t.smg ∧ (t.dropRecord).sst = t.sst ∧ (t.dropRecord).rse = t.rse ∧
    (t.dropRecord).pns = t.pns := by
  simp only [Station.dropRecord]
  repeat' split
  all_goals simp

/-- `followRun` changes `smg`, `acq` alone. -/
@[simp] theorem followRun_frame (t : Station) (x : Nat) :
    (t.followRun x).powered = t.powered ∧ (t.followRun x).straps = t.straps ∧ (t.followRun x).standby = t.standby ∧
    (t.followRun x).ticks = t.ticks ∧ (t.followRun x).free = t.free ∧ (t.followRun x).lif = t.lif ∧
    (t.followRun x).sst = t.sst ∧ (t.followRun x).tgu = t.tgu ∧ (t.followRun x).rse = t.rse ∧
    (t.followRun x).pns = t.pns := by
  simp only [Station.followRun]
  repeat' split
  all_goals simp

/-- `setRun` changes `tgu`, `rse` alone. -/
@[simp] theorem setRun_frame (t : Station) (r : RunState) :
    (t.setRun r).powered = t.powered ∧ (t.setRun r).straps = t.straps ∧ (t.setRun r).standby = t.standby ∧
    (t.setRun r).ticks = t.ticks ∧ (t.setRun r).free = t.free ∧ (t.setRun r).lif = t.lif ∧
    (t.setRun r).smg = t.smg ∧ (t.setRun r).sst = t.sst ∧ (t.setRun r).acq = t.acq ∧ (t.setRun r).pns = t.pns := by
  simp only [Station.setRun]
  repeat' split
  all_goals simp

/-- `flip` changes `lif`, `smg`, `acq`, `tgu`, `rse` alone. -/
@[simp] theorem flip_frame (t : Station) :
    (t.flip).powered = t.powered ∧ (t.flip).straps = t.straps ∧ (t.flip).standby = t.standby ∧
    (t.flip).ticks = t.ticks ∧ (t.flip).free = t.free ∧ (t.flip).sst = t.sst ∧ (t.flip).pns = t.pns := by
  simp only [Station.flip]
  repeat' split
  all_goals simp

/-- `flipNow` changes `lif`, `smg`, `acq`, `tgu`, `rse` alone. -/
@[simp] theorem flipNow_frame (t : Station) (x : Nat) :
    (t.flipNow x).powered = t.powered ∧ (t.flipNow x).straps = t.straps ∧ (t.flipNow x).standby = t.standby ∧
    (t.flipNow x).ticks = t.ticks ∧ (t.flipNow x).free = t.free ∧ (t.flipNow x).sst = t.sst ∧
    (t.flipNow x).pns = t.pns := by
  simp only [Station.flipNow]
  repeat' split
  all_goals simp

/-- `meetBoundary` changes `lif`, `smg`, `acq`, `tgu`, `rse` alone. -/
@[simp] theorem meetBoundary_frame (t : Station) (x : Nat) :
    (t.meetBoundary x).powered = t.powered ∧ (t.meetBoundary x).straps = t.straps ∧
    (t.meetBoundary x).standby = t.standby ∧ (t.meetBoundary x).ticks = t.ticks ∧
    (t.meetBoundary x).free = t.free ∧ (t.meetBoundary x).sst = t.sst ∧ (t.meetBoundary x).pns = t.pns := by
  simp only [Station.meetBoundary]
  repeat' split
  all_goals simp

/-- `tryStart` changes `lif`, `smg`, `acq`, `tgu`, `rse` alone. -/
@[simp] theorem tryStart_frame (t : Station) (x : Nat) :
    (t.tryStart x).powered = t.powered ∧ (t.tryStart x).straps = t.straps ∧ (t.tryStart x).standby = t.standby ∧
    (t.tryStart x).ticks = t.ticks ∧ (t.tryStart x).free = t.free ∧ (t.tryStart x).sst = t.sst ∧
    (t.tryStart x).pns = t.pns := by
  simp only [Station.tryStart]
  repeat' split
  all_goals simp

/-- `stopAcq` changes `lif`, `smg`, `acq`, `tgu`, `rse` alone. -/
@[simp] theorem stopAcq_frame (t : Station) (x : Nat) :
    (t.stopAcq x).powered = t.powered ∧ (t.stopAcq x).straps = t.straps ∧ (t.stopAcq x).standby = t.standby ∧
    (t.stopAcq x).ticks = t.ticks ∧ (t.stopAcq x).free = t.free ∧ (t.stopAcq x).sst = t.sst ∧
    (t.stopAcq x).pns = t.pns := by
  simp only [Station.stopAcq]
  repeat' split
  all_goals simp

/-- `enterArmed` changes `acq`, `tgu` alone. -/
@[simp] theorem enterArmed_frame (t : Station) (x : Nat) :
    (t.enterArmed x).powered = t.powered ∧ (t.enterArmed x).straps = t.straps ∧
    (t.enterArmed x).standby = t.standby ∧ (t.enterArmed x).ticks = t.ticks ∧ (t.enterArmed x).free = t.free ∧
    (t.enterArmed x).lif = t.lif ∧ (t.enterArmed x).smg = t.smg ∧ (t.enterArmed x).sst = t.sst ∧
    (t.enterArmed x).rse = t.rse ∧ (t.enterArmed x).pns = t.pns := by
  simp only [Station.enterArmed]
  repeat' split
  all_goals simp

/-- `takeTrigger` changes `acq`, `tgu` alone. -/
@[simp] theorem takeTrigger_frame (t : Station) (at_ tick offset : Nat) (k : TriggerKind) :
    (t.takeTrigger at_ tick offset k).powered = t.powered ∧ (t.takeTrigger at_ tick offset k).straps = t.straps ∧
    (t.takeTrigger at_ tick offset k).standby = t.standby ∧ (t.takeTrigger at_ tick offset k).ticks = t.ticks ∧
    (t.takeTrigger at_ tick offset k).free = t.free ∧ (t.takeTrigger at_ tick offset k).lif = t.lif ∧
    (t.takeTrigger at_ tick offset k).smg = t.smg ∧ (t.takeTrigger at_ tick offset k).sst = t.sst ∧
    (t.takeTrigger at_ tick offset k).rse = t.rse ∧ (t.takeTrigger at_ tick offset k).pns = t.pns := by
  simp only [Station.takeTrigger]
  repeat' split
  all_goals simp

/-- `offerTriggered` changes `lif`, `tgu` alone. -/
@[simp] theorem offerTriggered_frame (t : Station) (m : Msg) :
    (t.offerTriggered m).powered = t.powered ∧ (t.offerTriggered m).straps = t.straps ∧
    (t.offerTriggered m).standby = t.standby ∧ (t.offerTriggered m).ticks = t.ticks ∧
    (t.offerTriggered m).free = t.free ∧ (t.offerTriggered m).smg = t.smg ∧ (t.offerTriggered m).sst = t.sst ∧
    (t.offerTriggered m).acq = t.acq ∧ (t.offerTriggered m).rse = t.rse ∧ (t.offerTriggered m).pns = t.pns := by
  simp only [Station.offerTriggered]
  repeat' split
  all_goals simp

/-- `storeRecord` changes `acq`, `tgu` alone. -/
@[simp] theorem storeRecord_frame (t : Station) (f : Fill) (fin : Finished) :
    (t.storeRecord f fin).powered = t.powered ∧ (t.storeRecord f fin).straps = t.straps ∧
    (t.storeRecord f fin).standby = t.standby ∧ (t.storeRecord f fin).ticks = t.ticks ∧
    (t.storeRecord f fin).free = t.free ∧ (t.storeRecord f fin).lif = t.lif ∧ (t.storeRecord f fin).smg = t.smg ∧
    (t.storeRecord f fin).sst = t.sst ∧ (t.storeRecord f fin).rse = t.rse ∧ (t.storeRecord f fin).pns = t.pns := by
  simp only [Station.storeRecord]
  simp

/-- `afterRecord` changes `free`, `lif`, `smg`, `acq`, `tgu`, `rse` alone. -/
@[simp] theorem afterRecord_frame (t : Station) (x : Nat) :
    (t.afterRecord x).powered = t.powered ∧ (t.afterRecord x).straps = t.straps ∧
    (t.afterRecord x).standby = t.standby ∧ (t.afterRecord x).ticks = t.ticks ∧ (t.afterRecord x).sst = t.sst ∧
    (t.afterRecord x).pns = t.pns := by
  simp only [Station.afterRecord]
  repeat' split
  all_goals simp

/-- `completeRecord` changes `free`, `lif`, `smg`, `acq`, `tgu`, `rse`, `pns` alone. -/
@[simp] theorem completeRecord_frame (t : Station) (x : Nat) (b : Bool) :
    (t.completeRecord x b).powered = t.powered ∧ (t.completeRecord x b).straps = t.straps ∧
    (t.completeRecord x b).standby = t.standby ∧ (t.completeRecord x b).ticks = t.ticks ∧
    (t.completeRecord x b).sst = t.sst := by
  simp only [Station.completeRecord]
  repeat' split
  all_goals simp

/-- `alignRecord` changes `free`, `lif`, `smg`, `acq`, `tgu`, `rse`, `pns` alone. -/
@[simp] theorem alignRecord_frame (t : Station) (x : Nat) (tr : FillTrigger) (b : Bool) :
    (t.alignRecord x tr b).powered = t.powered ∧ (t.alignRecord x tr b).straps = t.straps ∧
    (t.alignRecord x tr b).standby = t.standby ∧ (t.alignRecord x tr b).ticks = t.ticks ∧
    (t.alignRecord x tr b).sst = t.sst := by
  simp only [Station.alignRecord]
  repeat' split
  all_goals simp

/-- `alignFine` changes `free`, `lif`, `smg`, `acq`, `tgu`, `rse`, `pns` alone. -/
@[simp] theorem alignFine_frame (t : Station) (x : Nat) (h : HeldFrame) :
    (t.alignFine x h).powered = t.powered ∧ (t.alignFine x h).straps = t.straps ∧
    (t.alignFine x h).standby = t.standby ∧ (t.alignFine x h).ticks = t.ticks ∧ (t.alignFine x h).sst = t.sst := by
  simp only [Station.alignFine]
  repeat' split
  all_goals simp

/-- `alignCoarse` changes `free`, `lif`, `smg`, `acq`, `tgu`, `rse`, `pns` alone. -/
@[simp] theorem alignCoarse_frame (t : Station) (x : Nat) :
    (t.alignCoarse x).powered = t.powered ∧ (t.alignCoarse x).straps = t.straps ∧
    (t.alignCoarse x).standby = t.standby ∧ (t.alignCoarse x).ticks = t.ticks ∧ (t.alignCoarse x).sst = t.sst := by
  simp only [Station.alignCoarse]
  repeat' split
  all_goals simp

/-- `enterAligning` changes `free`, `lif`, `smg`, `acq`, `tgu`, `rse`, `pns` alone. -/
@[simp] theorem enterAligning_frame (t : Station) (x : Nat) :
    (t.enterAligning x).powered = t.powered ∧ (t.enterAligning x).straps = t.straps ∧
    (t.enterAligning x).standby = t.standby ∧ (t.enterAligning x).ticks = t.ticks ∧ (t.enterAligning x).sst = t.sst := by
  simp only [Station.enterAligning]
  repeat' split
  all_goals simp

/-- `queueProto` changes `lif`, `smg` alone. -/
@[simp] theorem queueProto_frame (t : Station) (m : Msg) :
    (t.queueProto m).powered = t.powered ∧ (t.queueProto m).straps = t.straps ∧
    (t.queueProto m).standby = t.standby ∧ (t.queueProto m).ticks = t.ticks ∧ (t.queueProto m).free = t.free ∧
    (t.queueProto m).sst = t.sst ∧ (t.queueProto m).acq = t.acq ∧ (t.queueProto m).tgu = t.tgu ∧
    (t.queueProto m).rse = t.rse ∧ (t.queueProto m).pns = t.pns := by
  simp only [Station.queueProto]
  repeat' split
  all_goals simp

/-- `offerChain` changes `lif`, `smg` alone. -/
@[simp] theorem offerChain_frame (t : Station) :
    (t.offerChain).powered = t.powered ∧ (t.offerChain).straps = t.straps ∧ (t.offerChain).standby = t.standby ∧
    (t.offerChain).ticks = t.ticks ∧ (t.offerChain).free = t.free ∧ (t.offerChain).sst = t.sst ∧
    (t.offerChain).acq = t.acq ∧ (t.offerChain).tgu = t.tgu ∧ (t.offerChain).rse = t.rse ∧
    (t.offerChain).pns = t.pns := by
  simp only [Station.offerChain]
  repeat' split
  all_goals simp

/-- `chainTo` changes `lif`, `smg` alone. -/
@[simp] theorem chainTo_frame (t : Station) (c : Chain) :
    (t.chainTo c).powered = t.powered ∧ (t.chainTo c).straps = t.straps ∧ (t.chainTo c).standby = t.standby ∧
    (t.chainTo c).ticks = t.ticks ∧ (t.chainTo c).free = t.free ∧ (t.chainTo c).sst = t.sst ∧
    (t.chainTo c).acq = t.acq ∧ (t.chainTo c).tgu = t.tgu ∧ (t.chainTo c).rse = t.rse ∧ (t.chainTo c).pns = t.pns := by
  simp only [Station.chainTo]
  simp

/-- `chainAtClose` changes `lif`, `smg` alone. -/
@[simp] theorem chainAtClose_frame (t : Station) (k : OpKind) (o : OutcomeCode) :
    (t.chainAtClose k o).powered = t.powered ∧ (t.chainAtClose k o).straps = t.straps ∧
    (t.chainAtClose k o).standby = t.standby ∧ (t.chainAtClose k o).ticks = t.ticks ∧
    (t.chainAtClose k o).free = t.free ∧ (t.chainAtClose k o).sst = t.sst ∧ (t.chainAtClose k o).acq = t.acq ∧
    (t.chainAtClose k o).tgu = t.tgu ∧ (t.chainAtClose k o).rse = t.rse ∧ (t.chainAtClose k o).pns = t.pns := by
  simp only [Station.chainAtClose]
  repeat' split
  all_goals simp

/-- `stageImage` changes `lif`, `smg` alone. -/
@[simp] theorem stageImage_frame (t : Station) (e : Epoch) (slot : Nat) (image : List Byte) :
    (t.stageImage e slot image).powered = t.powered ∧ (t.stageImage e slot image).straps = t.straps ∧
    (t.stageImage e slot image).standby = t.standby ∧ (t.stageImage e slot image).ticks = t.ticks ∧
    (t.stageImage e slot image).free = t.free ∧ (t.stageImage e slot image).sst = t.sst ∧
    (t.stageImage e slot image).acq = t.acq ∧ (t.stageImage e slot image).tgu = t.tgu ∧
    (t.stageImage e slot image).rse = t.rse ∧ (t.stageImage e slot image).pns = t.pns := by
  simp only [Station.stageImage]
  repeat' split
  all_goals simp

/-- `obtainImage` changes `lif`, `smg`, `sst` alone. -/
@[simp] theorem obtainImage_frame (t : Station) (e : Epoch) (slot : Nat) :
    (t.obtainImage e slot).powered = t.powered ∧ (t.obtainImage e slot).straps = t.straps ∧
    (t.obtainImage e slot).standby = t.standby ∧ (t.obtainImage e slot).ticks = t.ticks ∧
    (t.obtainImage e slot).free = t.free ∧ (t.obtainImage e slot).acq = t.acq ∧
    (t.obtainImage e slot).tgu = t.tgu ∧ (t.obtainImage e slot).rse = t.rse ∧ (t.obtainImage e slot).pns = t.pns := by
  simp only [Station.obtainImage]
  repeat' split
  all_goals simp

/-- `beginStaging` changes `lif`, `smg`, `sst` alone. -/
@[simp] theorem beginStaging_frame (t : Station) (o : Op) (e : Epoch) :
    (t.beginStaging o e).powered = t.powered ∧ (t.beginStaging o e).straps = t.straps ∧
    (t.beginStaging o e).standby = t.standby ∧ (t.beginStaging o e).ticks = t.ticks ∧
    (t.beginStaging o e).free = t.free ∧ (t.beginStaging o e).acq = t.acq ∧ (t.beginStaging o e).tgu = t.tgu ∧
    (t.beginStaging o e).rse = t.rse ∧ (t.beginStaging o e).pns = t.pns := by
  simp only [Station.beginStaging]
  repeat' split
  all_goals simp

/-- `takeStaged` changes `smg` alone. -/
@[simp] theorem takeStaged_frame (t : Station) (w : Window) :
    (t.takeStaged w).powered = t.powered ∧ (t.takeStaged w).straps = t.straps ∧
    (t.takeStaged w).standby = t.standby ∧ (t.takeStaged w).ticks = t.ticks ∧ (t.takeStaged w).free = t.free ∧
    (t.takeStaged w).lif = t.lif ∧ (t.takeStaged w).sst = t.sst ∧ (t.takeStaged w).acq = t.acq ∧
    (t.takeStaged w).tgu = t.tgu ∧ (t.takeStaged w).rse = t.rse ∧ (t.takeStaged w).pns = t.pns := by
  simp only [Station.takeStaged]
  repeat' split
  all_goals simp

/-- `defaultsFlip` changes `lif`, `smg`, `acq`, `tgu`, `rse` alone. -/
@[simp] theorem defaultsFlip_frame (t : Station) (x : Nat) :
    (t.defaultsFlip x).powered = t.powered ∧ (t.defaultsFlip x).straps = t.straps ∧
    (t.defaultsFlip x).standby = t.standby ∧ (t.defaultsFlip x).ticks = t.ticks ∧
    (t.defaultsFlip x).free = t.free ∧ (t.defaultsFlip x).sst = t.sst ∧ (t.defaultsFlip x).pns = t.pns := by
  simp only [Station.defaultsFlip]
  repeat' split
  all_goals simp

/-- `releaseRequests` changes `smg`, `sst` alone. -/
@[simp] theorem releaseRequests_frame (t : Station) :
    (t.releaseRequests).powered = t.powered ∧ (t.releaseRequests).straps = t.straps ∧
    (t.releaseRequests).standby = t.standby ∧ (t.releaseRequests).ticks = t.ticks ∧
    (t.releaseRequests).free = t.free ∧ (t.releaseRequests).lif = t.lif ∧ (t.releaseRequests).acq = t.acq ∧
    (t.releaseRequests).tgu = t.tgu ∧ (t.releaseRequests).rse = t.rse ∧ (t.releaseRequests).pns = t.pns := by
  simp only [Station.releaseRequests]
  simp

/-- `dueSave` changes `smg`, `sst` alone. -/
@[simp] theorem dueSave_frame (t : Station) :
    (t.dueSave).powered = t.powered ∧ (t.dueSave).straps = t.straps ∧ (t.dueSave).standby = t.standby ∧
    (t.dueSave).ticks = t.ticks ∧ (t.dueSave).free = t.free ∧ (t.dueSave).lif = t.lif ∧ (t.dueSave).acq = t.acq ∧
    (t.dueSave).tgu = t.tgu ∧ (t.dueSave).rse = t.rse ∧ (t.dueSave).pns = t.pns := by
  simp only [Station.dueSave]
  repeat' split
  all_goals simp

/-- `withdrawAnswers` changes `lif`, `smg` alone. -/
@[simp] theorem withdrawAnswers_frame (t : Station) :
    (t.withdrawAnswers).powered = t.powered ∧ (t.withdrawAnswers).straps = t.straps ∧
    (t.withdrawAnswers).standby = t.standby ∧ (t.withdrawAnswers).ticks = t.ticks ∧
    (t.withdrawAnswers).free = t.free ∧ (t.withdrawAnswers).sst = t.sst ∧ (t.withdrawAnswers).acq = t.acq ∧
    (t.withdrawAnswers).tgu = t.tgu ∧ (t.withdrawAnswers).rse = t.rse ∧ (t.withdrawAnswers).pns = t.pns := by
  simp only [Station.withdrawAnswers]
  simp

/-- `closeOp` changes `lif`, `smg`, `sst`, `acq`, `tgu`, `rse`, `pns` alone. -/
@[simp] theorem closeOp_frame (t : Station) (o : OutcomeCode) (x : Nat) :
    (t.closeOp o x).powered = t.powered ∧ (t.closeOp o x).straps = t.straps ∧ (t.closeOp o x).standby = t.standby ∧
    (t.closeOp o x).ticks = t.ticks ∧ (t.closeOp o x).free = t.free := by
  simp only [Station.closeOp]
  repeat' split
  all_goals simp

/-- `markPending` changes `smg` alone. -/
@[simp] theorem markPending_frame (t : Station) (r : RunState) :
    (t.markPending r).powered = t.powered ∧ (t.markPending r).straps = t.straps ∧
    (t.markPending r).standby = t.standby ∧ (t.markPending r).ticks = t.ticks ∧ (t.markPending r).free = t.free ∧
    (t.markPending r).lif = t.lif ∧ (t.markPending r).sst = t.sst ∧ (t.markPending r).acq = t.acq ∧
    (t.markPending r).tgu = t.tgu ∧ (t.markPending r).rse = t.rse ∧ (t.markPending r).pns = t.pns := by
  simp only [Station.markPending]
  repeat' split
  all_goals simp

/-- `agree` changes `lif`, `smg`, `sst`, `acq`, `tgu`, `rse`, `pns` alone. -/
@[simp] theorem agree_frame (t : Station) (o : Op) (sect : List Byte) (run x : Nat) :
    (t.agree o sect run x).powered = t.powered ∧ (t.agree o sect run x).straps = t.straps ∧
    (t.agree o sect run x).standby = t.standby ∧ (t.agree o sect run x).ticks = t.ticks ∧
    (t.agree o sect run x).free = t.free := by
  simp only [Station.agree]
  repeat' split
  all_goals simp

/-- `enterResult` changes `smg` alone. -/
@[simp] theorem enterResult_frame (t : Station) (o : Op) (sender : Nat) (r : OpResult) :
    (t.enterResult o sender r).powered = t.powered ∧ (t.enterResult o sender r).straps = t.straps ∧
    (t.enterResult o sender r).standby = t.standby ∧ (t.enterResult o sender r).ticks = t.ticks ∧
    (t.enterResult o sender r).free = t.free ∧ (t.enterResult o sender r).lif = t.lif ∧
    (t.enterResult o sender r).sst = t.sst ∧ (t.enterResult o sender r).acq = t.acq ∧
    (t.enterResult o sender r).tgu = t.tgu ∧ (t.enterResult o sender r).rse = t.rse ∧
    (t.enterResult o sender r).pns = t.pns := by
  simp only [Station.enterResult]
  simp

/-- `takeListed` changes `lif`, `smg`, `sst`, `acq`, `tgu`, `rse`, `pns` alone. -/
@[simp] theorem takeListed_frame (t : Station) (o : Op) (sender : Nat) (epochs : List Epoch) (x : Nat) :
    (t.takeListed o sender epochs x).powered = t.powered ∧ (t.takeListed o sender epochs x).straps = t.straps ∧
    (t.takeListed o sender epochs x).standby = t.standby ∧ (t.takeListed o sender epochs x).ticks = t.ticks ∧
    (t.takeListed o sender epochs x).free = t.free := by
  simp only [Station.takeListed]
  repeat' split
  all_goals simp

/-- `takeStagedResult` changes `lif`, `smg`, `sst`, `acq`, `tgu`, `rse`, `pns` alone. -/
@[simp] theorem takeStagedResult_frame (t : Station) (o : Op) (sender : Nat) (r : OpResult) (x : Nat) :
    (t.takeStagedResult o sender r x).powered = t.powered ∧ (t.takeStagedResult o sender r x).straps = t.straps ∧
    (t.takeStagedResult o sender r x).standby = t.standby ∧ (t.takeStagedResult o sender r x).ticks = t.ticks ∧
    (t.takeStagedResult o sender r x).free = t.free := by
  simp only [Station.takeStagedResult]
  repeat' split
  all_goals simp

/-- `takeSavedResult` changes `lif`, `smg`, `sst`, `acq`, `tgu`, `rse`, `pns` alone. -/
@[simp] theorem takeSavedResult_frame (t : Station) (o : Op) (sender : Nat) (outcome : OutcomeCode) (x : Nat) :
    (t.takeSavedResult o sender outcome x).powered = t.powered ∧
    (t.takeSavedResult o sender outcome x).straps = t.straps ∧
    (t.takeSavedResult o sender outcome x).standby = t.standby ∧
    (t.takeSavedResult o sender outcome x).ticks = t.ticks ∧ (t.takeSavedResult o sender outcome x).free = t.free := by
  simp only [Station.takeSavedResult]
  repeat' split
  all_goals simp

/-- `openOp` changes `smg` alone. -/
@[simp] theorem openOp_frame (t : Station) (kind : OpKind) (slot : Nat) (epoch : Option Epoch) (x : Nat) :
    (t.openOp kind slot epoch x).powered = t.powered ∧ (t.openOp kind slot epoch x).straps = t.straps ∧
    (t.openOp kind slot epoch x).standby = t.standby ∧ (t.openOp kind slot epoch x).ticks = t.ticks ∧
    (t.openOp kind slot epoch x).free = t.free ∧ (t.openOp kind slot epoch x).lif = t.lif ∧
    (t.openOp kind slot epoch x).sst = t.sst ∧ (t.openOp kind slot epoch x).acq = t.acq ∧
    (t.openOp kind slot epoch x).tgu = t.tgu ∧ (t.openOp kind slot epoch x).rse = t.rse ∧
    (t.openOp kind slot epoch x).pns = t.pns := by
  simp only [Station.openOp]
  simp

/-- `sendListed` changes `lif`, `smg` alone. -/
@[simp] theorem sendListed_frame (t : Station) (slot : Nat) :
    (t.sendListed slot).powered = t.powered ∧ (t.sendListed slot).straps = t.straps ∧
    (t.sendListed slot).standby = t.standby ∧ (t.sendListed slot).ticks = t.ticks ∧
    (t.sendListed slot).free = t.free ∧ (t.sendListed slot).sst = t.sst ∧ (t.sendListed slot).acq = t.acq ∧
    (t.sendListed slot).tgu = t.tgu ∧ (t.sendListed slot).rse = t.rse ∧ (t.sendListed slot).pns = t.pns := by
  simp only [Station.sendListed]
  simp

/-- `resumeStaging` changes `lif`, `smg`, `sst` alone. -/
@[simp] theorem resumeStaging_frame (t : Station) :
    (t.resumeStaging).powered = t.powered ∧ (t.resumeStaging).straps = t.straps ∧
    (t.resumeStaging).standby = t.standby ∧ (t.resumeStaging).ticks = t.ticks ∧ (t.resumeStaging).free = t.free ∧
    (t.resumeStaging).acq = t.acq ∧ (t.resumeStaging).tgu = t.tgu ∧ (t.resumeStaging).rse = t.rse ∧
    (t.resumeStaging).pns = t.pns := by
  simp only [Station.resumeStaging]
  repeat' split
  all_goals simp

/-- `setEntry` changes `sst` alone. -/
@[simp] theorem setEntry_frame (t : Station) (block : Nat) (e : IndexEntry) :
    (t.setEntry block e).powered = t.powered ∧ (t.setEntry block e).straps = t.straps ∧
    (t.setEntry block e).standby = t.standby ∧ (t.setEntry block e).ticks = t.ticks ∧
    (t.setEntry block e).free = t.free ∧ (t.setEntry block e).lif = t.lif ∧ (t.setEntry block e).smg = t.smg ∧
    (t.setEntry block e).acq = t.acq ∧ (t.setEntry block e).tgu = t.tgu ∧ (t.setEntry block e).rse = t.rse ∧
    (t.setEntry block e).pns = t.pns := by
  simp only [Station.setEntry]
  simp

/-- `endFill` changes `lif`, `smg`, `sst` alone. -/
@[simp] theorem endFill_frame (t : Station) (i slot : Nat) (o : OutcomeCode) (bytes : List Byte) :
    (t.endFill i slot o bytes).powered = t.powered ∧ (t.endFill i slot o bytes).straps = t.straps ∧
    (t.endFill i slot o bytes).standby = t.standby ∧ (t.endFill i slot o bytes).ticks = t.ticks ∧
    (t.endFill i slot o bytes).free = t.free ∧ (t.endFill i slot o bytes).acq = t.acq ∧
    (t.endFill i slot o bytes).tgu = t.tgu ∧ (t.endFill i slot o bytes).rse = t.rse ∧
    (t.endFill i slot o bytes).pns = t.pns := by
  simp only [Station.endFill]
  repeat' split
  all_goals simp

/-- `endStaging` changes `lif`, `smg` alone. -/
@[simp] theorem endStaging_frame (t : Station) (o : OutcomeCode) (bytes : List Byte) :
    (t.endStaging o bytes).powered = t.powered ∧ (t.endStaging o bytes).straps = t.straps ∧
    (t.endStaging o bytes).standby = t.standby ∧ (t.endStaging o bytes).ticks = t.ticks ∧
    (t.endStaging o bytes).free = t.free ∧ (t.endStaging o bytes).sst = t.sst ∧
    (t.endStaging o bytes).acq = t.acq ∧ (t.endStaging o bytes).tgu = t.tgu ∧ (t.endStaging o bytes).rse = t.rse ∧
    (t.endStaging o bytes).pns = t.pns := by
  simp only [Station.endStaging]
  repeat' split
  all_goals simp

/-- `endSave` changes `lif`, `smg` alone. -/
@[simp] theorem endSave_frame (t : Station) (o : OutcomeCode) :
    (t.endSave o).powered = t.powered ∧ (t.endSave o).straps = t.straps ∧ (t.endSave o).standby = t.standby ∧
    (t.endSave o).ticks = t.ticks ∧ (t.endSave o).free = t.free ∧ (t.endSave o).sst = t.sst ∧
    (t.endSave o).acq = t.acq ∧ (t.endSave o).tgu = t.tgu ∧ (t.endSave o).rse = t.rse ∧ (t.endSave o).pns = t.pns := by
  simp only [Station.endSave]
  repeat' split
  all_goals simp

/-- `clearDirty` changes `smg` alone. -/
@[simp] theorem clearDirty_frame (t : Station) (r : Request) :
    (t.clearDirty r).powered = t.powered ∧ (t.clearDirty r).straps = t.straps ∧
    (t.clearDirty r).standby = t.standby ∧ (t.clearDirty r).ticks = t.ticks ∧ (t.clearDirty r).free = t.free ∧
    (t.clearDirty r).lif = t.lif ∧ (t.clearDirty r).sst = t.sst ∧ (t.clearDirty r).acq = t.acq ∧
    (t.clearDirty r).tgu = t.tgu ∧ (t.clearDirty r).rse = t.rse ∧ (t.clearDirty r).pns = t.pns := by
  simp only [Station.clearDirty]
  simp

/-- `recordLast` changes `sst` alone. -/
@[simp] theorem recordLast_frame (t : Station) (k : ReqKind) (block : Nat) (o : Option OutcomeCode) :
    (t.recordLast k block o).powered = t.powered ∧ (t.recordLast k block o).straps = t.straps ∧
    (t.recordLast k block o).standby = t.standby ∧ (t.recordLast k block o).ticks = t.ticks ∧
    (t.recordLast k block o).free = t.free ∧ (t.recordLast k block o).lif = t.lif ∧
    (t.recordLast k block o).smg = t.smg ∧ (t.recordLast k block o).acq = t.acq ∧
    (t.recordLast k block o).tgu = t.tgu ∧ (t.recordLast k block o).rse = t.rse ∧
    (t.recordLast k block o).pns = t.pns := by
  simp only [Station.recordLast]
  simp

/-- `answerRequester` changes `lif`, `smg`, `sst` alone. -/
@[simp] theorem answerRequester_frame (t : Station) (r : Request) (o : OutcomeCode) (bytes : List Byte) :
    (t.answerRequester r o bytes).powered = t.powered ∧ (t.answerRequester r o bytes).straps = t.straps ∧
    (t.answerRequester r o bytes).standby = t.standby ∧ (t.answerRequester r o bytes).ticks = t.ticks ∧
    (t.answerRequester r o bytes).free = t.free ∧ (t.answerRequester r o bytes).acq = t.acq ∧
    (t.answerRequester r o bytes).tgu = t.tgu ∧ (t.answerRequester r o bytes).rse = t.rse ∧
    (t.answerRequester r o bytes).pns = t.pns := by
  simp only [Station.answerRequester]
  repeat' split
  all_goals simp

/-- `endRequest` changes `lif`, `smg`, `sst` alone. -/
@[simp] theorem endRequest_frame (t : Station) (r : Request) (o : OutcomeCode) (bytes : List Byte) :
    (t.endRequest r o bytes).powered = t.powered ∧ (t.endRequest r o bytes).straps = t.straps ∧
    (t.endRequest r o bytes).standby = t.standby ∧ (t.endRequest r o bytes).ticks = t.ticks ∧
    (t.endRequest r o bytes).free = t.free ∧ (t.endRequest r o bytes).acq = t.acq ∧
    (t.endRequest r o bytes).tgu = t.tgu ∧ (t.endRequest r o bytes).rse = t.rse ∧
    (t.endRequest r o bytes).pns = t.pns := by
  simp only [Station.endRequest]
  simp

/-- `toReady` changes `sst` alone. -/
@[simp] theorem toReady_frame (t : Station) :
    (t.toReady).powered = t.powered ∧ (t.toReady).straps = t.straps ∧ (t.toReady).standby = t.standby ∧
    (t.toReady).ticks = t.ticks ∧ (t.toReady).free = t.free ∧ (t.toReady).lif = t.lif ∧ (t.toReady).smg = t.smg ∧
    (t.toReady).acq = t.acq ∧ (t.toReady).tgu = t.tgu ∧ (t.toReady).rse = t.rse ∧ (t.toReady).pns = t.pns := by
  simp only [Station.toReady]
  simp

/-- `finishCurrent` changes `lif`, `smg`, `sst` alone. -/
@[simp] theorem finishCurrent_frame (t : Station) (o : OutcomeCode) (bytes : List Byte) :
    (t.finishCurrent o bytes).powered = t.powered ∧ (t.finishCurrent o bytes).straps = t.straps ∧
    (t.finishCurrent o bytes).standby = t.standby ∧ (t.finishCurrent o bytes).ticks = t.ticks ∧
    (t.finishCurrent o bytes).free = t.free ∧ (t.finishCurrent o bytes).acq = t.acq ∧
    (t.finishCurrent o bytes).tgu = t.tgu ∧ (t.finishCurrent o bytes).rse = t.rse ∧
    (t.finishCurrent o bytes).pns = t.pns := by
  simp only [Station.finishCurrent]
  repeat' split
  all_goals simp

/-- `enterStage` changes `sst` alone. -/
@[simp] theorem enterStage_frame (t : Station) (seq : SeqState) (c : Current) (stage : Stage) :
    (t.enterStage seq c stage).powered = t.powered ∧ (t.enterStage seq c stage).straps = t.straps ∧
    (t.enterStage seq c stage).standby = t.standby ∧ (t.enterStage seq c stage).ticks = t.ticks ∧
    (t.enterStage seq c stage).free = t.free ∧ (t.enterStage seq c stage).lif = t.lif ∧
    (t.enterStage seq c stage).smg = t.smg ∧ (t.enterStage seq c stage).acq = t.acq ∧
    (t.enterStage seq c stage).tgu = t.tgu ∧ (t.enterStage seq c stage).rse = t.rse ∧
    (t.enterStage seq c stage).pns = t.pns := by
  simp only [Station.enterStage]
  simp

/-- `setUnverified` changes `sst` alone. -/
@[simp] theorem setUnverified_frame (t : Station) (block : Nat) (b : Bool) :
    (t.setUnverified block b).powered = t.powered ∧ (t.setUnverified block b).straps = t.straps ∧
    (t.setUnverified block b).standby = t.standby ∧ (t.setUnverified block b).ticks = t.ticks ∧
    (t.setUnverified block b).free = t.free ∧ (t.setUnverified block b).lif = t.lif ∧
    (t.setUnverified block b).smg = t.smg ∧ (t.setUnverified block b).acq = t.acq ∧
    (t.setUnverified block b).tgu = t.tgu ∧ (t.setUnverified block b).rse = t.rse ∧
    (t.setUnverified block b).pns = t.pns := by
  simp only [Station.setUnverified]
  simp

/-- `failCurrent` changes `lif`, `smg`, `sst` alone. -/
@[simp] theorem failCurrent_frame (t : Station) (c : Current) (o : OutcomeCode) (d : Bool) :
    (t.failCurrent c o d).powered = t.powered ∧ (t.failCurrent c o d).straps = t.straps ∧
    (t.failCurrent c o d).standby = t.standby ∧ (t.failCurrent c o d).ticks = t.ticks ∧
    (t.failCurrent c o d).free = t.free ∧ (t.failCurrent c o d).acq = t.acq ∧ (t.failCurrent c o d).tgu = t.tgu ∧
    (t.failCurrent c o d).rse = t.rse ∧ (t.failCurrent c o d).pns = t.pns := by
  simp only [Station.failCurrent]
  repeat' split
  all_goals simp

/-- `abandon` changes `free`, `lif`, `smg`, `sst` alone. -/
@[simp] theorem abandon_frame (t : Station) (c : Current) (o : OutcomeCode) :
    (t.abandon c o).powered = t.powered ∧ (t.abandon c o).straps = t.straps ∧ (t.abandon c o).standby = t.standby ∧
    (t.abandon c o).ticks = t.ticks ∧ (t.abandon c o).acq = t.acq ∧ (t.abandon c o).tgu = t.tgu ∧
    (t.abandon c o).rse = t.rse ∧ (t.abandon c o).pns = t.pns := by
  simp only [Station.abandon]
  simp

/-- `testProtection` changes `free`, `lif`, `smg`, `sst` alone. -/
@[simp] theorem testProtection_frame (t : Station) :
    (t.testProtection).powered = t.powered ∧ (t.testProtection).straps = t.straps ∧
    (t.testProtection).standby = t.standby ∧ (t.testProtection).ticks = t.ticks ∧ (t.testProtection).acq = t.acq ∧
    (t.testProtection).tgu = t.tgu ∧ (t.testProtection).rse = t.rse ∧ (t.testProtection).pns = t.pns := by
  simp only [Station.testProtection]
  repeat' split
  all_goals simp

/-- `beginWrite` changes `sst` alone. -/
@[simp] theorem beginWrite_frame (t : Station) (c : Current) (p : Nat) (image : List Byte) (last : Bool) :
    (t.beginWrite c p image last).powered = t.powered ∧ (t.beginWrite c p image last).straps = t.straps ∧
    (t.beginWrite c p image last).standby = t.standby ∧ (t.beginWrite c p image last).ticks = t.ticks ∧
    (t.beginWrite c p image last).free = t.free ∧ (t.beginWrite c p image last).lif = t.lif ∧
    (t.beginWrite c p image last).smg = t.smg ∧ (t.beginWrite c p image last).acq = t.acq ∧
    (t.beginWrite c p image last).tgu = t.tgu ∧ (t.beginWrite c p image last).rse = t.rse ∧
    (t.beginWrite c p image last).pns = t.pns := by
  simp only [Station.beginWrite]
  simp

/-- `beginClear` changes `sst` alone. -/
@[simp] theorem beginClear_frame (t : Station) (c : Current) :
    (t.beginClear c).powered = t.powered ∧ (t.beginClear c).straps = t.straps ∧
    (t.beginClear c).standby = t.standby ∧ (t.beginClear c).ticks = t.ticks ∧ (t.beginClear c).free = t.free ∧
    (t.beginClear c).lif = t.lif ∧ (t.beginClear c).smg = t.smg ∧ (t.beginClear c).acq = t.acq ∧
    (t.beginClear c).tgu = t.tgu ∧ (t.beginClear c).rse = t.rse ∧ (t.beginClear c).pns = t.pns := by
  simp only [Station.beginClear]
  simp

/-- `startRequest` changes `lif`, `smg`, `sst` alone. -/
@[simp] theorem startRequest_frame (t : Station) (r : Request) :
    (t.startRequest r).powered = t.powered ∧ (t.startRequest r).straps = t.straps ∧
    (t.startRequest r).standby = t.standby ∧ (t.startRequest r).ticks = t.ticks ∧
    (t.startRequest r).free = t.free ∧ (t.startRequest r).acq = t.acq ∧ (t.startRequest r).tgu = t.tgu ∧
    (t.startRequest r).rse = t.rse ∧ (t.startRequest r).pns = t.pns := by
  simp only [Station.startRequest]
  repeat' split
  all_goals simp

/-- `takeOldest` changes `lif`, `smg`, `sst` alone. -/
@[simp] theorem takeOldest_frame (t : Station) :
    (t.takeOldest).powered = t.powered ∧ (t.takeOldest).straps = t.straps ∧ (t.takeOldest).standby = t.standby ∧
    (t.takeOldest).ticks = t.ticks ∧ (t.takeOldest).free = t.free ∧ (t.takeOldest).acq = t.acq ∧
    (t.takeOldest).tgu = t.tgu ∧ (t.takeOldest).rse = t.rse ∧ (t.takeOldest).pns = t.pns := by
  simp only [Station.takeOldest]
  repeat' split
  all_goals simp

/-- `resumeClear` changes `sst` alone. -/
@[simp] theorem resumeClear_frame (t : Station) :
    (t.resumeClear).powered = t.powered ∧ (t.resumeClear).straps = t.straps ∧ (t.resumeClear).standby = t.standby ∧
    (t.resumeClear).ticks = t.ticks ∧ (t.resumeClear).free = t.free ∧ (t.resumeClear).lif = t.lif ∧
    (t.resumeClear).smg = t.smg ∧ (t.resumeClear).acq = t.acq ∧ (t.resumeClear).tgu = t.tgu ∧
    (t.resumeClear).rse = t.rse ∧ (t.resumeClear).pns = t.pns := by
  simp only [Station.resumeClear]
  repeat' split
  all_goals simp

/-- `takeInHold` changes `lif`, `smg`, `sst` alone. -/
@[simp] theorem takeInHold_frame (t : Station) :
    (t.takeInHold).powered = t.powered ∧ (t.takeInHold).straps = t.straps ∧ (t.takeInHold).standby = t.standby ∧
    (t.takeInHold).ticks = t.ticks ∧ (t.takeInHold).free = t.free ∧ (t.takeInHold).acq = t.acq ∧
    (t.takeInHold).tgu = t.tgu ∧ (t.takeInHold).rse = t.rse ∧ (t.takeInHold).pns = t.pns := by
  simp only [Station.takeInHold]
  repeat' split
  all_goals simp

/-- `failWrite` changes `lif`, `smg`, `sst` alone. -/
@[simp] theorem failWrite_frame (t : Station) (c : Current) :
    (t.failWrite c).powered = t.powered ∧ (t.failWrite c).straps = t.straps ∧ (t.failWrite c).standby = t.standby ∧
    (t.failWrite c).ticks = t.ticks ∧ (t.failWrite c).free = t.free ∧ (t.failWrite c).acq = t.acq ∧
    (t.failWrite c).tgu = t.tgu ∧ (t.failWrite c).rse = t.rse ∧ (t.failWrite c).pns = t.pns := by
  simp only [Station.failWrite]
  simp

/-- `offerStore` changes `sst` alone. -/
@[simp] theorem offerStore_frame (t : Station) (k : ReqKind) (block : Nat) :
    (t.offerStore k block).powered = t.powered ∧ (t.offerStore k block).straps = t.straps ∧
    (t.offerStore k block).standby = t.standby ∧ (t.offerStore k block).ticks = t.ticks ∧
    (t.offerStore k block).free = t.free ∧ (t.offerStore k block).lif = t.lif ∧
    (t.offerStore k block).smg = t.smg ∧ (t.offerStore k block).acq = t.acq ∧ (t.offerStore k block).tgu = t.tgu ∧
    (t.offerStore k block).rse = t.rse ∧ (t.offerStore k block).pns = t.pns := by
  simp only [Station.offerStore]
  repeat' split
  all_goals simp

/-- `offerEnrol` changes `lif` alone. -/
@[simp] theorem offerEnrol_frame (t : Station) :
    (t.offerEnrol).powered = t.powered ∧ (t.offerEnrol).straps = t.straps ∧ (t.offerEnrol).standby = t.standby ∧
    (t.offerEnrol).ticks = t.ticks ∧ (t.offerEnrol).free = t.free ∧ (t.offerEnrol).smg = t.smg ∧
    (t.offerEnrol).sst = t.sst ∧ (t.offerEnrol).acq = t.acq ∧ (t.offerEnrol).tgu = t.tgu ∧
    (t.offerEnrol).rse = t.rse ∧ (t.offerEnrol).pns = t.pns := by
  simp only [Station.offerEnrol]
  repeat' split
  all_goals simp

/-- `announce` changes `lif` alone. -/
@[simp] theorem announce_frame (t : Station) (x : Nat) :
    (t.announce x).powered = t.powered ∧ (t.announce x).straps = t.straps ∧ (t.announce x).standby = t.standby ∧
    (t.announce x).ticks = t.ticks ∧ (t.announce x).free = t.free ∧ (t.announce x).smg = t.smg ∧
    (t.announce x).sst = t.sst ∧ (t.announce x).acq = t.acq ∧ (t.announce x).tgu = t.tgu ∧
    (t.announce x).rse = t.rse ∧ (t.announce x).pns = t.pns := by
  simp only [Station.announce]
  simp

/-- `freshRecord` changes `lif` alone. -/
@[simp] theorem freshRecord_frame (t : Station) :
    (t.freshRecord).powered = t.powered ∧ (t.freshRecord).straps = t.straps ∧ (t.freshRecord).standby = t.standby ∧
    (t.freshRecord).ticks = t.ticks ∧ (t.freshRecord).free = t.free ∧ (t.freshRecord).smg = t.smg ∧
    (t.freshRecord).sst = t.sst ∧ (t.freshRecord).acq = t.acq ∧ (t.freshRecord).tgu = t.tgu ∧
    (t.freshRecord).rse = t.rse ∧ (t.freshRecord).pns = t.pns := by
  simp only [Station.freshRecord]
  simp

/-- `setEnrolState` changes `lif` alone. -/
@[simp] theorem setEnrolState_frame (t : Station) (e : EnrolState) :
    (t.setEnrolState e).powered = t.powered ∧ (t.setEnrolState e).straps = t.straps ∧
    (t.setEnrolState e).standby = t.standby ∧ (t.setEnrolState e).ticks = t.ticks ∧
    (t.setEnrolState e).free = t.free ∧ (t.setEnrolState e).smg = t.smg ∧ (t.setEnrolState e).sst = t.sst ∧
    (t.setEnrolState e).acq = t.acq ∧ (t.setEnrolState e).tgu = t.tgu ∧ (t.setEnrolState e).rse = t.rse ∧
    (t.setEnrolState e).pns = t.pns := by
  simp only [Station.setEnrolState]
  simp

/-- `becomeUnenrolled` changes `lif` alone. -/
@[simp] theorem becomeUnenrolled_frame (t : Station) (x : Nat) :
    (t.becomeUnenrolled x).powered = t.powered ∧ (t.becomeUnenrolled x).straps = t.straps ∧
    (t.becomeUnenrolled x).standby = t.standby ∧ (t.becomeUnenrolled x).ticks = t.ticks ∧
    (t.becomeUnenrolled x).free = t.free ∧ (t.becomeUnenrolled x).smg = t.smg ∧
    (t.becomeUnenrolled x).sst = t.sst ∧ (t.becomeUnenrolled x).acq = t.acq ∧ (t.becomeUnenrolled x).tgu = t.tgu ∧
    (t.becomeUnenrolled x).rse = t.rse ∧ (t.becomeUnenrolled x).pns = t.pns := by
  simp only [Station.becomeUnenrolled]
  simp

/-- `enterLaneFault` changes `lif` alone. -/
@[simp] theorem enterLaneFault_frame (t : Station) (x : Nat) :
    (t.enterLaneFault x).powered = t.powered ∧ (t.enterLaneFault x).straps = t.straps ∧
    (t.enterLaneFault x).standby = t.standby ∧ (t.enterLaneFault x).ticks = t.ticks ∧
    (t.enterLaneFault x).free = t.free ∧ (t.enterLaneFault x).smg = t.smg ∧ (t.enterLaneFault x).sst = t.sst ∧
    (t.enterLaneFault x).acq = t.acq ∧ (t.enterLaneFault x).tgu = t.tgu ∧ (t.enterLaneFault x).rse = t.rse ∧
    (t.enterLaneFault x).pns = t.pns := by
  simp only [Station.enterLaneFault]
  simp

/-- `settleAtEnrolment` changes `smg` alone. -/
@[simp] theorem settleAtEnrolment_frame (t : Station) (b : Bool) (x : Nat) :
    (t.settleAtEnrolment b x).powered = t.powered ∧ (t.settleAtEnrolment b x).straps = t.straps ∧
    (t.settleAtEnrolment b x).standby = t.standby ∧ (t.settleAtEnrolment b x).ticks = t.ticks ∧
    (t.settleAtEnrolment b x).free = t.free ∧ (t.settleAtEnrolment b x).lif = t.lif ∧
    (t.settleAtEnrolment b x).sst = t.sst ∧ (t.settleAtEnrolment b x).acq = t.acq ∧
    (t.settleAtEnrolment b x).tgu = t.tgu ∧ (t.settleAtEnrolment b x).rse = t.rse ∧
    (t.settleAtEnrolment b x).pns = t.pns := by
  simp only [Station.settleAtEnrolment]
  repeat' split
  all_goals simp

/-- `completeEnrolment` changes `lif`, `smg`, `acq`, `tgu`, `rse`, `pns` alone. -/
@[simp] theorem completeEnrolment_frame (t : Station) (epoch : Epoch) (b : Bool) (x : Nat) :
    (t.completeEnrolment epoch b x).powered = t.powered ∧ (t.completeEnrolment epoch b x).straps = t.straps ∧
    (t.completeEnrolment epoch b x).standby = t.standby ∧ (t.completeEnrolment epoch b x).ticks = t.ticks ∧
    (t.completeEnrolment epoch b x).free = t.free ∧ (t.completeEnrolment epoch b x).sst = t.sst := by
  simp only [Station.completeEnrolment]
  repeat' split
  all_goals simp

/-- `takeEnrol` changes `lif`, `smg`, `acq`, `tgu`, `rse`, `pns` alone. -/
@[simp] theorem takeEnrol_frame (t : Station) (sender count heard : Nat) (epoch : Epoch) (b : Bool) (x : Nat) :
    (t.takeEnrol sender count heard epoch b x).powered = t.powered ∧
    (t.takeEnrol sender count heard epoch b x).straps = t.straps ∧
    (t.takeEnrol sender count heard epoch b x).standby = t.standby ∧
    (t.takeEnrol sender count heard epoch b x).ticks = t.ticks ∧
    (t.takeEnrol sender count heard epoch b x).free = t.free ∧
    (t.takeEnrol sender count heard epoch b x).sst = t.sst := by
  simp only [Station.takeEnrol]
  repeat' split
  all_goals simp

/-- `restartSst` changes `sst` alone. -/
@[simp] theorem restartSst_frame (t : Station) :
    (t.restartSst).powered = t.powered ∧ (t.restartSst).straps = t.straps ∧ (t.restartSst).standby = t.standby ∧
    (t.restartSst).ticks = t.ticks ∧ (t.restartSst).free = t.free ∧ (t.restartSst).lif = t.lif ∧
    (t.restartSst).smg = t.smg ∧ (t.restartSst).acq = t.acq ∧ (t.restartSst).tgu = t.tgu ∧
    (t.restartSst).rse = t.rse ∧ (t.restartSst).pns = t.pns := by
  simp only [Station.restartSst]
  simp

/-- `restartSmg` changes `smg`, `sst` alone. -/
@[simp] theorem restartSmg_frame (t : Station) :
    (t.restartSmg).powered = t.powered ∧ (t.restartSmg).straps = t.straps ∧ (t.restartSmg).standby = t.standby ∧
    (t.restartSmg).ticks = t.ticks ∧ (t.restartSmg).free = t.free ∧ (t.restartSmg).lif = t.lif ∧
    (t.restartSmg).acq = t.acq ∧ (t.restartSmg).tgu = t.tgu ∧ (t.restartSmg).rse = t.rse ∧
    (t.restartSmg).pns = t.pns := by
  simp only [Station.restartSmg]
  simp

/-- `restartAcq` changes `acq`, `tgu` alone. -/
@[simp] theorem restartAcq_frame (t : Station) :
    (t.restartAcq).powered = t.powered ∧ (t.restartAcq).straps = t.straps ∧ (t.restartAcq).standby = t.standby ∧
    (t.restartAcq).ticks = t.ticks ∧ (t.restartAcq).free = t.free ∧ (t.restartAcq).lif = t.lif ∧
    (t.restartAcq).smg = t.smg ∧ (t.restartAcq).sst = t.sst ∧ (t.restartAcq).rse = t.rse ∧
    (t.restartAcq).pns = t.pns := by
  simp only [Station.restartAcq]
  simp

/-- `restartRse` changes `rse` alone. -/
@[simp] theorem restartRse_frame (t : Station) (x : Nat) :
    (t.restartRse x).powered = t.powered ∧ (t.restartRse x).straps = t.straps ∧
    (t.restartRse x).standby = t.standby ∧ (t.restartRse x).ticks = t.ticks ∧ (t.restartRse x).free = t.free ∧
    (t.restartRse x).lif = t.lif ∧ (t.restartRse x).smg = t.smg ∧ (t.restartRse x).sst = t.sst ∧
    (t.restartRse x).acq = t.acq ∧ (t.restartRse x).tgu = t.tgu ∧ (t.restartRse x).pns = t.pns := by
  simp only [Station.restartRse]
  simp

/-- `restartPns` changes `pns` alone. -/
@[simp] theorem restartPns_frame (t : Station) (x : Nat) :
    (t.restartPns x).powered = t.powered ∧ (t.restartPns x).straps = t.straps ∧
    (t.restartPns x).standby = t.standby ∧ (t.restartPns x).ticks = t.ticks ∧ (t.restartPns x).free = t.free ∧
    (t.restartPns x).lif = t.lif ∧ (t.restartPns x).smg = t.smg ∧ (t.restartPns x).sst = t.sst ∧
    (t.restartPns x).acq = t.acq ∧ (t.restartPns x).tgu = t.tgu ∧ (t.restartPns x).rse = t.rse := by
  simp only [Station.restartPns]
  simp

/-- `restartLif` changes `lif` alone. -/
@[simp] theorem restartLif_frame (t : Station) (x : Nat) :
    (t.restartLif x).powered = t.powered ∧ (t.restartLif x).straps = t.straps ∧
    (t.restartLif x).standby = t.standby ∧ (t.restartLif x).ticks = t.ticks ∧ (t.restartLif x).free = t.free ∧
    (t.restartLif x).smg = t.smg ∧ (t.restartLif x).sst = t.sst ∧ (t.restartLif x).acq = t.acq ∧
    (t.restartLif x).tgu = t.tgu ∧ (t.restartLif x).rse = t.rse ∧ (t.restartLif x).pns = t.pns := by
  simp only [Station.restartLif]
  repeat' split
  all_goals simp

/-- `restartStation` changes `lif`, `smg`, `sst`, `acq`, `tgu`, `rse`, `pns` alone. -/
@[simp] theorem restartStation_frame (t : Station) (x : Nat) :
    (t.restartStation x).powered = t.powered ∧ (t.restartStation x).straps = t.straps ∧
    (t.restartStation x).standby = t.standby ∧ (t.restartStation x).ticks = t.ticks ∧
    (t.restartStation x).free = t.free := by
  simp only [Station.restartStation]
  simp

/-- `raiseKeyEvent` changes `pns` alone. -/
@[simp] theorem raiseKeyEvent_frame (t : Station) (e : PanelEvent) (b : Bool) :
    (t.raiseKeyEvent e b).powered = t.powered ∧ (t.raiseKeyEvent e b).straps = t.straps ∧
    (t.raiseKeyEvent e b).standby = t.standby ∧ (t.raiseKeyEvent e b).ticks = t.ticks ∧
    (t.raiseKeyEvent e b).free = t.free ∧ (t.raiseKeyEvent e b).lif = t.lif ∧ (t.raiseKeyEvent e b).smg = t.smg ∧
    (t.raiseKeyEvent e b).sst = t.sst ∧ (t.raiseKeyEvent e b).acq = t.acq ∧ (t.raiseKeyEvent e b).tgu = t.tgu ∧
    (t.raiseKeyEvent e b).rse = t.rse := by
  simp only [Station.raiseKeyEvent]
  repeat' split
  all_goals simp

/-- `setHold` changes `pns` alone. -/
@[simp] theorem setHold_frame (t : Station) (a : Action) (h : Option Nat) :
    (t.setHold a h).powered = t.powered ∧ (t.setHold a h).straps = t.straps ∧ (t.setHold a h).standby = t.standby ∧
    (t.setHold a h).ticks = t.ticks ∧ (t.setHold a h).free = t.free ∧ (t.setHold a h).lif = t.lif ∧
    (t.setHold a h).smg = t.smg ∧ (t.setHold a h).sst = t.sst ∧ (t.setHold a h).acq = t.acq ∧
    (t.setHold a h).tgu = t.tgu ∧ (t.setHold a h).rse = t.rse := by
  simp only [Station.setHold]
  repeat' split
  all_goals simp

/-- `scanKey` changes `pns` alone. -/
@[simp] theorem scanKey_frame (t : Station) (x : Nat) (was now : BitVec 64) (position : Nat) :
    (scanKey x was now t position).powered = t.powered ∧ (scanKey x was now t position).straps = t.straps ∧
    (scanKey x was now t position).standby = t.standby ∧ (scanKey x was now t position).ticks = t.ticks ∧
    (scanKey x was now t position).free = t.free ∧ (scanKey x was now t position).lif = t.lif ∧
    (scanKey x was now t position).smg = t.smg ∧ (scanKey x was now t position).sst = t.sst ∧
    (scanKey x was now t position).acq = t.acq ∧ (scanKey x was now t position).tgu = t.tgu ∧
    (scanKey x was now t position).rse = t.rse := by
  simp only [Station.scanKey]
  repeat' split
  all_goals simp

/-- `setCount` changes `pns` alone. -/
@[simp] theorem setCount_frame (t : Station) (position : Nat) (v : Int) :
    (t.setCount position v).powered = t.powered ∧ (t.setCount position v).straps = t.straps ∧
    (t.setCount position v).standby = t.standby ∧ (t.setCount position v).ticks = t.ticks ∧
    (t.setCount position v).free = t.free ∧ (t.setCount position v).lif = t.lif ∧
    (t.setCount position v).smg = t.smg ∧ (t.setCount position v).sst = t.sst ∧
    (t.setCount position v).acq = t.acq ∧ (t.setCount position v).tgu = t.tgu ∧ (t.setCount position v).rse = t.rse := by
  simp only [Station.setCount]
  simp

/-- `handTurn` changes `pns` alone. -/
@[simp] theorem handTurn_frame (t : Station) (x : Nat) (position : Nat) :
    (handTurn x t position).powered = t.powered ∧ (handTurn x t position).straps = t.straps ∧
    (handTurn x t position).standby = t.standby ∧ (handTurn x t position).ticks = t.ticks ∧
    (handTurn x t position).free = t.free ∧ (handTurn x t position).lif = t.lif ∧
    (handTurn x t position).smg = t.smg ∧ (handTurn x t position).sst = t.sst ∧
    (handTurn x t position).acq = t.acq ∧ (handTurn x t position).tgu = t.tgu ∧ (handTurn x t position).rse = t.rse := by
  simp only [Station.handTurn]
  repeat' split
  all_goals simp

/-- `readDetents` changes `pns` alone. -/
@[simp] theorem readDetents_frame (t : Station) (detents : List Int) :
    (t.readDetents detents).powered = t.powered ∧ (t.readDetents detents).straps = t.straps ∧
    (t.readDetents detents).standby = t.standby ∧ (t.readDetents detents).ticks = t.ticks ∧
    (t.readDetents detents).free = t.free ∧ (t.readDetents detents).lif = t.lif ∧
    (t.readDetents detents).smg = t.smg ∧ (t.readDetents detents).sst = t.sst ∧
    (t.readDetents detents).acq = t.acq ∧ (t.readDetents detents).tgu = t.tgu ∧ (t.readDetents detents).rse = t.rse := by
  simp only [Station.readDetents]
  simp

/-- `scan` changes `pns` alone. -/
@[simp] theorem scan_frame (t : Station) (keys : BitVec 64) (detents : List Int) (x : Nat) :
    (t.scan keys detents x).powered = t.powered ∧ (t.scan keys detents x).straps = t.straps ∧
    (t.scan keys detents x).standby = t.standby ∧ (t.scan keys detents x).ticks = t.ticks ∧
    (t.scan keys detents x).free = t.free ∧ (t.scan keys detents x).lif = t.lif ∧
    (t.scan keys detents x).smg = t.smg ∧ (t.scan keys detents x).sst = t.sst ∧
    (t.scan keys detents x).acq = t.acq ∧ (t.scan keys detents x).tgu = t.tgu ∧ (t.scan keys detents x).rse = t.rse := by
  have h : ∀ (was now : BitVec 64) (u : Station), u.powered = t.powered ∧ u.straps = t.straps ∧ u.standby = t.standby ∧
      u.ticks = t.ticks ∧ u.free = t.free ∧ u.lif = t.lif ∧ u.smg = t.smg ∧ u.sst = t.sst ∧ u.acq = t.acq ∧
      u.tgu = t.tgu ∧ u.rse = t.rse →
      let v := (List.range 8).foldl (handTurn x) ((List.range 64).foldl (scanKey x was now) u)
      v.powered = t.powered ∧ v.straps = t.straps ∧ v.standby = t.standby ∧ v.ticks = t.ticks ∧ v.free = t.free ∧
      v.lif = t.lif ∧ v.smg = t.smg ∧ v.sst = t.sst ∧ v.acq = t.acq ∧ v.tgu = t.tgu ∧ v.rse = t.rse := by
    intro was now u hu
    obtain ⟨h1, h2, h3, h4, h5, h6, h7, h8, h9, h10, h11⟩ := hu
    refine ⟨?_, ?_, ?_, ?_, ?_, ?_, ?_, ?_, ?_, ?_, ?_⟩ <;>
      exact (foldl_kept _ _ (by intro v i; simp) _ _).trans ((foldl_kept _ _ (by intro v i; simp) _ _).trans ‹_›)
  simp only [Station.scan]
  split
  · simp
  · apply h; simp

/-- `endSequence` changes `pns` alone. -/
@[simp] theorem endSequence_frame (t : Station) (q : Sequence) (b : Option Pattern) (x : Nat) :
    (t.endSequence q b x).powered = t.powered ∧ (t.endSequence q b x).straps = t.straps ∧
    (t.endSequence q b x).standby = t.standby ∧ (t.endSequence q b x).ticks = t.ticks ∧
    (t.endSequence q b x).free = t.free ∧ (t.endSequence q b x).lif = t.lif ∧ (t.endSequence q b x).smg = t.smg ∧
    (t.endSequence q b x).sst = t.sst ∧ (t.endSequence q b x).acq = t.acq ∧ (t.endSequence q b x).tgu = t.tgu ∧
    (t.endSequence q b x).rse = t.rse := by
  simp only [Station.endSequence]
  repeat' split
  all_goals simp

/-- `openSequence` changes `pns` alone. -/
@[simp] theorem openSequence_frame (t : Station) (k : OpKind) (stamp : Nat) :
    (t.openSequence k stamp).powered = t.powered ∧ (t.openSequence k stamp).straps = t.straps ∧
    (t.openSequence k stamp).standby = t.standby ∧ (t.openSequence k stamp).ticks = t.ticks ∧
    (t.openSequence k stamp).free = t.free ∧ (t.openSequence k stamp).lif = t.lif ∧
    (t.openSequence k stamp).smg = t.smg ∧ (t.openSequence k stamp).sst = t.sst ∧
    (t.openSequence k stamp).acq = t.acq ∧ (t.openSequence k stamp).tgu = t.tgu ∧
    (t.openSequence k stamp).rse = t.rse := by
  simp only [Station.openSequence]
  simp

/-- `eventSequence` changes `pns` alone. -/
@[simp] theorem eventSequence_frame (t : Station) (x : Nat) (e : PanelEvent) :
    (t.eventSequence x e).powered = t.powered ∧ (t.eventSequence x e).straps = t.straps ∧
    (t.eventSequence x e).standby = t.standby ∧ (t.eventSequence x e).ticks = t.ticks ∧
    (t.eventSequence x e).free = t.free ∧ (t.eventSequence x e).lif = t.lif ∧ (t.eventSequence x e).smg = t.smg ∧
    (t.eventSequence x e).sst = t.sst ∧ (t.eventSequence x e).acq = t.acq ∧ (t.eventSequence x e).tgu = t.tgu ∧
    (t.eventSequence x e).rse = t.rse := by
  simp only [Station.eventSequence]
  repeat' split
  all_goals simp

/-- `tryEvent` changes `lif`, `pns` alone. -/
theorem tryEvent_frame (t : Station) (x : Nat) (e : PanelEvent) (u : Station) (h : t.tryEvent x e = some u) :
    u.powered = t.powered ∧ u.straps = t.straps ∧ u.standby = t.standby ∧ u.ticks = t.ticks ∧ u.free = t.free ∧
    u.smg = t.smg ∧ u.sst = t.sst ∧ u.acq = t.acq ∧ u.tgu = t.tgu ∧ u.rse = t.rse := by
  simp only [Station.tryEvent] at h
  repeat' split at h
  all_goals simp only [Option.some.injEq, reduceCtorEq] at h
  all_goals subst h
  all_goals simp

/-- `dispatchNext` changes `lif`, `pns` alone. -/
@[simp] theorem dispatchNext_frame (t : Station) (x : Nat) :
    (t.dispatchNext x).powered = t.powered ∧ (t.dispatchNext x).straps = t.straps ∧
    (t.dispatchNext x).standby = t.standby ∧ (t.dispatchNext x).ticks = t.ticks ∧
    (t.dispatchNext x).free = t.free ∧ (t.dispatchNext x).smg = t.smg ∧ (t.dispatchNext x).sst = t.sst ∧
    (t.dispatchNext x).acq = t.acq ∧ (t.dispatchNext x).tgu = t.tgu ∧ (t.dispatchNext x).rse = t.rse := by
  simp only [Station.dispatchNext]
  split
  · simp
  · split
    · next u hu => exact tryEvent_frame _ _ _ _ hu
    · split
      · simp
      · next e3 _ =>
        cases hv : t.tryEvent x e3 with
        | none => simp
        | some v => simpa using tryEvent_frame _ _ _ _ hv

/-- `cancelExpired` changes `pns` alone. -/
@[simp] theorem cancelExpired_frame (t : Station) :
    (t.cancelExpired).powered = t.powered ∧ (t.cancelExpired).straps = t.straps ∧
    (t.cancelExpired).standby = t.standby ∧ (t.cancelExpired).ticks = t.ticks ∧ (t.cancelExpired).free = t.free ∧
    (t.cancelExpired).lif = t.lif ∧ (t.cancelExpired).smg = t.smg ∧ (t.cancelExpired).sst = t.sst ∧
    (t.cancelExpired).acq = t.acq ∧ (t.cancelExpired).tgu = t.tgu ∧ (t.cancelExpired).rse = t.rse := by
  simp only [Station.cancelExpired]
  repeat' split
  all_goals simp

/-- `dispatch` changes `lif`, `pns` alone. -/
@[simp] theorem dispatch_frame (t : Station) :
    (t.dispatch).powered = t.powered ∧ (t.dispatch).straps = t.straps ∧ (t.dispatch).standby = t.standby ∧
    (t.dispatch).ticks = t.ticks ∧ (t.dispatch).free = t.free ∧ (t.dispatch).smg = t.smg ∧
    (t.dispatch).sst = t.sst ∧ (t.dispatch).acq = t.acq ∧ (t.dispatch).tgu = t.tgu ∧ (t.dispatch).rse = t.rse := by
  simp only [Station.dispatch]
  simp

/-- `standbyPns` changes `pns` alone. -/
@[simp] theorem standbyPns_frame (t : Station) :
    (t.standbyPns).powered = t.powered ∧ (t.standbyPns).straps = t.straps ∧ (t.standbyPns).standby = t.standby ∧
    (t.standbyPns).ticks = t.ticks ∧ (t.standbyPns).free = t.free ∧ (t.standbyPns).lif = t.lif ∧
    (t.standbyPns).smg = t.smg ∧ (t.standbyPns).sst = t.sst ∧ (t.standbyPns).acq = t.acq ∧
    (t.standbyPns).tgu = t.tgu ∧ (t.standbyPns).rse = t.rse := by
  simp only [Station.standbyPns]
  simp

/-- `offerReport` changes `lif` alone. -/
@[simp] theorem offerReport_frame (t : Station) :
    (t.offerReport).powered = t.powered ∧ (t.offerReport).straps = t.straps ∧ (t.offerReport).standby = t.standby ∧
    (t.offerReport).ticks = t.ticks ∧ (t.offerReport).free = t.free ∧ (t.offerReport).smg = t.smg ∧
    (t.offerReport).sst = t.sst ∧ (t.offerReport).acq = t.acq ∧ (t.offerReport).tgu = t.tgu ∧
    (t.offerReport).rse = t.rse ∧ (t.offerReport).pns = t.pns := by
  simp only [Station.offerReport]
  repeat' split
  all_goals simp

end Sys2Proof.Machine.Station
end

