-- ==== Sys2Proof/Laws/State.lean ====
section
/-! SUPPORT. The small lemmas of the state: what the queue and the station of a machine read as after an update, and
the entries of a group of four. -/

namespace Sys2Proof

namespace Quad

variable {α β : Type}

@[simp] theorem get_fill (v : α) (i : Nat) : (Quad.fill v).get i = v := by
  match i with
  | 0 | 1 | 2 | _ + 3 => rfl

@[simp] theorem get_map (f : α → β) (q : Quad α) (i : Nat) : (q.map f).get i = f (q.get i) := by
  match i with
  | 0 | 1 | 2 | _ + 3 => rfl

/-- A replaced entry reads as its new value. -/
theorem get_set_same (q : Quad α) (i : Nat) (v : α) (h : i < 4) : (q.set i v).get i = v := by
  match i, h with
  | 0, _ | 1, _ | 2, _ | 3, _ => rfl

/-- The other entries read as before. -/
theorem get_set_other (q : Quad α) (i j : Nat) (v : α) (hi : i < 4) (hj : j < 4) (h : i ≠ j) :
    (q.set i v).get j = q.get j := by
  interval_cases i <;> interval_cases j <;> first | rfl | exact absurd rfl h

/-- Replacing an entry by what it reads as changes nothing. -/
theorem set_get (q : Quad α) (i : Nat) (h : i < 4) : q.set i (q.get i) = q := by
  match i, h with
  | 0, _ | 1, _ | 2, _ | 3, _ => rfl

/-- What `find` answers is below 4 and passes the test. -/
theorem find_some (p : α → Bool) (q : Quad α) (i : Nat) (h : q.find p = some i) : i < 4 ∧ p (q.get i) = true := by
  unfold Quad.find at h
  repeat' split at h
  all_goals simp only [Option.some.injEq, reduceCtorEq] at h
  all_goals subst h
  all_goals exact ⟨by omega, ‹_›⟩

/-- An entry of the list of four is an entry by number. -/
theorem mem_toList (q : Quad α) (v : α) : v ∈ q.toList ↔ ∃ i, i < 4 ∧ q.get i = v := by
  constructor
  · intro h
    simp only [Quad.toList, List.mem_cons, List.not_mem_nil, or_false] at h
    rcases h with h | h | h | h
    · exact ⟨0, by omega, h.symm⟩
    · exact ⟨1, by omega, h.symm⟩
    · exact ⟨2, by omega, h.symm⟩
    · exact ⟨3, by omega, h.symm⟩
  · rintro ⟨i, hi, rfl⟩
    match i, hi with
    | 0, _ | 1, _ | 2, _ | 3, _ => simp [Quad.toList, Quad.get]

end Quad

namespace Machine

variable (s : State) (t u : Station)

@[simp] theorem State.put_station : (s.put t).station = t := rfl
@[simp] theorem State.put_pending : (s.put t).pending = s.pending := rfl
@[simp] theorem State.put_put : (s.put t).put u = s.put u := rfl
@[simp] theorem State.put_self : s.put s.station = s := rfl
@[simp] theorem State.tick_pending : s.tick.pending = s.pending := rfl
@[simp] theorem State.tick_ticks : s.tick.station.ticks = s.station.ticks + 1 := rfl
@[simp] theorem State.tick_readyOwn : s.tick.station.lif.readyOwn = s.station.readyReleased := rfl
@[simp] theorem State.tick_edgeAt : s.tick.station.lif.edgeAt = s.station.lif.edgeAt := rfl
@[simp] theorem State.tick_waiting : s.tick.station.lif.waiting = s.station.lif.waiting := rfl
@[simp] theorem State.tick_rx : s.tick.station.lif.rx = s.station.lif.rx := rfl
@[simp] theorem State.tick_tx : s.tick.station.lif.tx = s.station.lif.tx := rfl
@[simp] theorem State.tick_smg : s.tick.station.smg = s.station.smg := rfl
@[simp] theorem State.tick_sst : s.tick.station.sst = s.station.sst := rfl
@[simp] theorem State.tick_acq : s.tick.station.acq = s.station.acq := rfl
@[simp] theorem State.tick_tgu : s.tick.station.tgu = s.station.tgu := rfl
@[simp] theorem State.tick_rse : s.tick.station.rse = s.station.rse := rfl
@[simp] theorem State.tick_pns : s.tick.station.pns = s.station.pns := rfl

namespace Station

@[simp] theorem setWindow_windows (i : Nat) (w : Window) : (t.setWindow i w).smg.windows = t.smg.windows.set i w := rfl
@[simp] theorem place_tx (m : Msg) (o : Origin) :
    (t.place m o).lif.tx = t.lif.tx ++ [{ msg := m, origin := o, placedAt := t.ticks, sending := false }] := rfl
@[simp] theorem place_rx (m : Msg) (o : Origin) : (t.place m o).lif.rx = t.lif.rx := rfl
@[simp] theorem place_lane (m : Msg) (o : Origin) : (t.place m o).lif.lane = t.lif.lane := rfl
@[simp] theorem place_enrol (m : Msg) (o : Origin) : (t.place m o).lif.enrol = t.lif.enrol := rfl
@[simp] theorem place_laneZero (m : Msg) (o : Origin) : (t.place m o).lif.laneZero = t.lif.laneZero := rfl
@[simp] theorem place_answer (m : Msg) (o : Origin) : (t.place m o).lif.answer = t.lif.answer := rfl
@[simp] theorem place_readyOwn (m : Msg) (o : Origin) : (t.place m o).lif.readyOwn = t.lif.readyOwn := rfl
@[simp] theorem place_edgeAt (m : Msg) (o : Origin) : (t.place m o).lif.edgeAt = t.lif.edgeAt := rfl
@[simp] theorem place_waiting (m : Msg) (o : Origin) : (t.place m o).lif.waiting = t.lif.waiting := rfl
@[simp] theorem await_waiting (ev : LineEvent) :
    (t.await ev).lif.waiting = t.lif.waiting ++ [(t.ticks, ev)] := rfl
@[simp] theorem await_rx (ev : LineEvent) : (t.await ev).lif.rx = t.lif.rx := rfl
@[simp] theorem await_tx (ev : LineEvent) : (t.await ev).lif.tx = t.lif.tx := rfl
@[simp] theorem await_smg (ev : LineEvent) : (t.await ev).smg = t.smg := rfl
@[simp] theorem await_sst (ev : LineEvent) : (t.await ev).sst = t.sst := rfl
@[simp] theorem await_acq (ev : LineEvent) : (t.await ev).acq = t.acq := rfl
@[simp] theorem await_tgu (ev : LineEvent) : (t.await ev).tgu = t.tgu := rfl
@[simp] theorem await_rse (ev : LineEvent) : (t.await ev).rse = t.rse := rfl
@[simp] theorem await_pns (ev : LineEvent) : (t.await ev).pns = t.pns := rfl
@[simp] theorem pop_rx (rest : List RxEntry) : (t.pop rest).lif.rx = rest := rfl
@[simp] theorem pop_tx (rest : List RxEntry) : (t.pop rest).lif.tx = t.lif.tx := rfl
@[simp] theorem pop_lane (rest : List RxEntry) : (t.pop rest).lif.lane = t.lif.lane := rfl
@[simp] theorem pop_enrol (rest : List RxEntry) : (t.pop rest).lif.enrol = t.lif.enrol := rfl
@[simp] theorem pop_laneZero (rest : List RxEntry) : (t.pop rest).lif.laneZero = t.lif.laneZero := rfl
@[simp] theorem pop_answer (rest : List RxEntry) : (t.pop rest).lif.answer = t.lif.answer := rfl
@[simp] theorem pop_startUp (rest : List RxEntry) : (t.pop rest).lif.startUp = t.lif.startUp := rfl
@[simp] theorem pop_readyOwn (rest : List RxEntry) : (t.pop rest).lif.readyOwn = t.lif.readyOwn := rfl
@[simp] theorem pop_edgeAt (rest : List RxEntry) : (t.pop rest).lif.edgeAt = t.lif.edgeAt := rfl
@[simp] theorem pop_waiting (rest : List RxEntry) : (t.pop rest).lif.waiting = t.lif.waiting := rfl
@[simp] theorem pop_enrolled (rest : List RxEntry) : (t.pop rest).enrolled = t.enrolled := rfl
@[simp] theorem pop_room (rest : List RxEntry) (m : Msg) : (t.pop rest).room m = t.room m := rfl

end Station

end Machine

end Sys2Proof
end

