-- ==== Sys2Proof/Laws/Ops.lean ====
section
/-! SUPPORT. What the shared guards of the commands do: a command's effect on a powered and on an unpowered station,
the expiry of a timer, an event of the present tick, the take of a frame. Later proofs cite these and unfold none of
the guards. -/

namespace Sys2Proof.Machine

/-- At a powered station a command answers its effect. -/
theorem State.on_powered (s : State) (f : Station → Station) (h : s.station.powered = true) :
    s.on f = .next (s.put (f s.station)) := by simp [State.on, h]

/-- At an unpowered station a command changes nothing. -/
theorem State.on_unpowered (s : State) (f : Station → Station) (h : s.station.powered = false) :
    s.on f = .next s := by simp [State.on, h]

/-- Every command on the station answers a next state with the same queue. -/
theorem State.on_next (s : State) (f : Station → Station) : ∃ t, s.on f = .next (s.put t) := ⟨_, rfl⟩

/-- What holds before and is kept by the effect holds after. -/
theorem State.on_kept (P : Station → Prop) (s s' : State) (f : Station → Station)
    (hf : s.station.powered = true → P s.station → P (f s.station)) (h : s.on f = .next s') (hp : P s.station) :
    P s'.station := by
  cases hb : s.station.powered with
  | true => rw [State.on_powered s f hb] at h; cases h; exact hf hb hp
  | false => rw [State.on_unpowered s f hb] at h; cases h; exact hp

namespace Station

variable (t : Station)

/-- A timer that has run out, next in order and behind the edge that may come in its tick, is acted on at its deadline. -/
theorem expire_due (deadline : Option Nat) (f : Nat → Station → Station) (d : Nat) (h : deadline = some d)
    (hd : d ≤ t.ticks) (ho : t.inOrder d = true) (hx : t.edgePast d = true) : t.expire deadline f = f d t := by
  subst h; simp [Station.expire, hd, ho, hx]

/-- What holds before and is kept at every deadline holds after. -/
theorem expire_kept (P : Station → Prop) (deadline : Option Nat) (f : Nat → Station → Station)
    (hf : ∀ x, P t → P (f x t)) (hp : P t) : P (t.expire deadline f) := by
  unfold Station.expire
  repeat' split
  all_goals first
    | exact hf _ hp
    | exact hp

/-- A line event of the present tick, next in order with none waiting, is acted on. -/
theorem occur_now (ev : LineEvent) (f : Nat → Station → Station) (ho : t.inOrder t.ticks = true)
    (hw : t.lif.waiting = []) : t.occur ev f = f t.ticks t := by
  simp [Station.occur, ho, hw]

/-- A line event of the present tick that is not next in order waits. -/
theorem occur_awaits (ev : LineEvent) (f : Nat → Station → Station)
    (h : t.inOrder t.ticks = false ∨ t.lif.waiting ≠ []) : t.occur ev f = t.await ev := by
  rcases h with h | h
  · simp [Station.occur, h]
  · cases hw : t.lif.waiting with
    | nil => exact absurd hw h
    | cons w ws => simp [Station.occur, hw]

/-- What holds before, and is kept by the act on the event and by its wait, holds after. -/
theorem occur_kept (P : Station → Prop) (ev : LineEvent) (f : Nat → Station → Station) (hf : P t → P (f t.ticks t))
    (hn : P t → P (t.await ev)) (hp : P t) : P (t.occur ev f) := by
  unfold Station.occur
  split
  · exact hf hp
  · exact hn hp

/-- A line event that waits is acted on when it is due; what holds before, and is kept by the act on every line event,
holds after. -/
theorem actWaiting_kept (P : Station → Prop) (u : Station) (h : t.actWaiting = some u)
    (hf : ∀ (ev : LineEvent) (x : Nat) (v : Station), P v → P (v.actEvent ev x))
    (hw : ∀ ws, P t → P { t with lif := { t.lif with waiting := ws } }) (hp : P t) : P u := by
  unfold Station.actWaiting at h
  split at h
  · cases h
  · split at h
    · cases h; exact hf _ _ _ (hw _ hp)
    · cases h

/-- With no line event waiting there is none to act on. -/
theorem actWaiting_none (h : t.lif.waiting = []) : t.actWaiting = none := by
  simp [Station.actWaiting, h]

/-- The frame at the head of the receive list, of the kind picked and next in order, is taken. -/
theorem takeHead_takes {α : Type} (pick : Msg → Option α) (ready : RxEntry → Station → Bool)
    (f : α → RxEntry → Station → Station) (e : RxEntry) (rest : List RxEntry) (a : α) (hrx : t.lif.rx = e :: rest)
    (hp : pick e.msg = some a) (ho : t.inOrder e.acceptedAt = true) (hx : t.edgePast e.acceptedAt = true)
    (hr : ready e t = true) : t.takeHead pick ready f = f a e (t.pop rest) := by
  simp [Station.takeHead, hrx, hp, ho, hx, hr]

/-- What holds before, and of a taken frame's effect, holds after. -/
theorem takeHead_kept {α : Type} (P : Station → Prop) (pick : Msg → Option α) (ready : RxEntry → Station → Bool)
    (f : α → RxEntry → Station → Station)
    (hf : ∀ a e rest, t.lif.rx = e :: rest → pick e.msg = some a → P (t.pop rest) → P (f a e (t.pop rest)))
    (hpop : ∀ e rest, t.lif.rx = e :: rest → P t → P (t.pop rest)) (hp : P t) : P (t.takeHead pick ready f) := by
  unfold Station.takeHead
  split
  · exact hp
  · next e rest h =>
    split
    · exact hp
    · next a ha =>
      split
      · exact hf a e rest h ha (hpop e rest h hp)
      · exact hp

/-- An enrolled station acts on the frame it takes. -/
theorem takeFrame_takes {α : Type} (pick : Msg → Option α) (f : α → RxEntry → Station → Station) (e : RxEntry)
    (rest : List RxEntry) (a : α) (hrx : t.lif.rx = e :: rest) (hp : pick e.msg = some a)
    (ho : t.inOrder e.acceptedAt = true) (hx : t.edgePast e.acceptedAt = true) (hn : t.enrolled = true) :
    t.takeFrame pick f = f a e (t.pop rest) := by
  rw [Station.takeFrame, takeHead_takes t pick _ _ e rest a hrx hp ho hx rfl]; simp [hn]

/-- A station that is not enrolled takes the frame and does no more (R175). -/
theorem takeFrame_dropped {α : Type} (pick : Msg → Option α) (f : α → RxEntry → Station → Station) (e : RxEntry)
    (rest : List RxEntry) (a : α) (hrx : t.lif.rx = e :: rest) (hp : pick e.msg = some a)
    (ho : t.inOrder e.acceptedAt = true) (hx : t.edgePast e.acceptedAt = true) (hn : t.enrolled = false) :
    t.takeFrame pick f = t.pop rest := by
  rw [Station.takeFrame, takeHead_takes t pick _ _ e rest a hrx hp ho hx rfl]; simp [hn]

/-- Taking a frame keeps what the take from the list and the effect keep. -/
theorem takeFrame_kept {α : Type} (P : Station → Prop) (pick : Msg → Option α) (f : α → RxEntry → Station → Station)
    (hf : ∀ a e rest, t.lif.rx = e :: rest → pick e.msg = some a → P (t.pop rest) → P (f a e (t.pop rest)))
    (hpop : ∀ e rest, t.lif.rx = e :: rest → P t → P (t.pop rest)) (hp : P t) : P (t.takeFrame pick f) := by
  refine takeHead_kept t P pick _ _ ?_ hpop hp
  intro a e rest h ha hq
  split
  · exact hf a e rest h ha hq
  · exact hq

end Station

end Sys2Proof.Machine
end

