-- ==== Sys2Proof/Laws/Acts.lean ====
section
/-! SUPPORT. What the shared acts of a station give beside what they leave unchanged: enrolment and RESTART, requests and
their end, the run state and the flip, claims, settings, the boot recall chain. -/

namespace Sys2Proof.Machine

/-- Stations alike in every field are alike. -/
theorem Station.ext_blocks {t u : Station} (h1 : t.powered = u.powered) (h2 : t.straps = u.straps) (h3 :
    t.standby = u.standby)
  (h4 : t.ticks = u.ticks) (h5 : t.free = u.free) (h6 : t.lif = u.lif) (h7 : t.smg = u.smg) (h8 : t.sst = u.sst)
  (h9 : t.acq = u.acq) (h10 : t.tgu = u.tgu) (h11 : t.rse = u.rse) (h12 : t.pns = u.pns) : t = u := by
  cases t; cases u; simp_all

/-- Setup managers alike in every field are alike. -/
theorem Smg.ext_fields {a b : Smg} (h1 : a.windows = b.windows) (h2 : a.op = b.op) (h3 :
    a.lastOutcome = b.lastOutcome) (h4 : a.highest = b.highest) (h5 : a.settle = b.settle) (h6 :
    a.untracked = b.untracked) (h7 : a.due = b.due) (h8 : a.kept = b.kept) (h9 : a.wordA = b.wordA) (h10 :
    a.wordB = b.wordB) (h11 : a.settling = b.settling) (h12 : a.keptProto = b.keptProto) (h13 :
    a.stageWait = b.stageWait) (h14 : a.chain = b.chain) (h15 : a.chainWait = b.chainWait) (h16 :
    a.keptChain = b.keptChain) : a = b := by
  cases a; cases b; simp_all

/-- The greater of two epochs. -/
theorem maxEpochOf_toNat (a b : Epoch) : (maxEpochOf a b).toNat = max a.toNat b.toNat := by
  simp only [maxEpochOf]; split <;> omega

/-- A heard set after a sender's ENROL (R189). -/
theorem heardUnion_get (q : Quad Bool) (sn h i : Nat) (hi : i < 4) (hs : sn < 4) :
   (heardUnion (heardUnion q (heardOnly sn)) (heardOf h)).get i = (q.get i || decide (i = sn) || h.testBit i) := by
  interval_cases i <;> interval_cases sn <;> simp [heardUnion, heardOnly, heardOf, Quad.get, Quad.set, Quad.fill]

/-- The heard set of one id. -/
theorem heardOnly_get (sn i : Nat) (hi : i < 4) : (heardOnly sn).get i = decide (i = sn) := by
  match sn with
  | 0 | 1 | 2 | 3 => interval_cases i <;> rfl
  | n + 4 => interval_cases i <;> simp [heardOnly, Quad.set, Quad.fill, Quad.get]

/-- The ENROL of a station is an ENROL. -/
theorem enrolMsg_isEnrol (t : Station) : t.enrolMsg.isEnrol = true := by simp only [Station.enrolMsg]; split <;> rfl

/-- Placing a frame leaves the start-up period. -/
@[simp] theorem place_startUp (t : Station) (m o) : (t.place m o).lif.startUp = t.lif.startUp := rfl

/-- Placing a frame leaves a kept ENROL. -/
@[simp] theorem place_keptEnrol (t : Station) (m o) : (t.place m o).lif.keptEnrol = t.lif.keptEnrol := rfl

/-- An announcement restarts the announce timer and leaves the rest of the record (R188). -/
@[simp] theorem announce_enrol (t : Station) (x : Nat) :
    (t.announce x).lif.enrol = { t.lif.enrol with announce := some (x + Config.announceTicks) } := by
  simp only [Station.announce, Station.offerEnrol]
  repeat' split
  all_goals rfl

/-- An announcement leaves the receive list. -/
@[simp] theorem announce_rx (t : Station) (x : Nat) : (t.announce x).lif.rx = t.lif.rx := by
  simp only [Station.announce, Station.offerEnrol]
  repeat' split
  all_goals rfl

/-- An announcement leaves the start-up period. -/
@[simp] theorem announce_startUp (t : Station) (x : Nat) : (t.announce x).lif.startUp = t.lif.startUp := by
  simp only [Station.announce, Station.offerEnrol]
  repeat' split
  all_goals rfl

/-- After an announcement an ENROL is in the transmit list or kept (R178, R188). -/
theorem announce_has (t : Station) (x : Nat) : (t.announce x).lif.tx.any (·.msg.isEnrol) = true ∨
    (t.announce x).lif.keptEnrol = true := by
  simp only [Station.announce, Station.offerEnrol]
  split
  · next h => left; exact h
  · split
    · left; simp [enrolMsg_isEnrol]
    · right; rfl

/-- The enrolment record afresh (R187). -/
@[simp] theorem freshRecord_enrol (t : Station) :
    t.freshRecord.lif.enrol = { t.lif.enrol with heard := heardOnly t.straps.station, heardEpoch := t.smg.highest, heardNoLive := t.lif.enrol.ownNoLive } := rfl

/-- A request that SMG offers stands in SST's queue or is kept (R132). -/
theorem offerRequest_requested (t : Station) (r : Request) : (t.offerRequest r).requested r := by
  simp only [Station.requested, Station.offerRequest, Station.drainKept]
  by_cases h : r ∈ List.take (4 - t.sst.queue.length) (t.smg.kept ++ [r])
  · left; simp only [List.mem_append]; right; exact h
  · right
    have := List.take_append_drop (4 - t.sst.queue.length) (t.smg.kept ++ [r])
    have hm : r ∈ t.smg.kept ++ [r] := by simp
    rw [← this] at hm
    rcases List.mem_append.mp hm with h1 | h1
    · exact absurd h1 h
    · exact h1

/-- An offer leaves what is queued in front. -/
theorem offerRequest_queue (t : Station) (r) : t.sst.queue <+: (t.offerRequest r).sst.queue := by
  simp [Station.offerRequest, Station.drainKept]

/-- An offer leaves the highest epoch. -/
@[simp] theorem offerRequest_highest (t : Station) (r) : (t.offerRequest r).smg.highest = t.smg.highest := rfl

/-- Handing kept requests over leaves the highest epoch. -/
@[simp] theorem drainKept_highest (t : Station) : t.drainKept.smg.highest = t.smg.highest := rfl

/-- What every offer leaves, the write-backs leave (R20). -/
theorem writeBackDirty_kept {β : Type} (p : Station → β) (h : ∀ (t : Station) r,
    p (t.offerRequest r) = p t) (t : Station) : p t.writeBackDirty = p t := by
  simp only [Station.writeBackDirty]
  exact Station.foldl_kept p _ (by intro u a; exact h _ _) _ _

/-- The write-backs leave what is queued in front. -/
theorem writeBackDirty_queue (t : Station) : t.sst.queue <+: t.writeBackDirty.sst.queue := by
  simp only [Station.writeBackDirty]
  generalize List.filter _ _ = l
  induction l generalizing t with
  | nil => simp
  | cons a l ih => rw [List.foldl_cons]; exact (offerRequest_queue _ _).trans (ih _)

/-- The write-backs keep no READ where none was kept. -/
theorem writeBackDirty_kept_read (t : Station) (h : ∀ r ∈ t.smg.kept,
    r.kind ≠ .read) : ∀ r ∈ t.writeBackDirty.smg.kept, r.kind ≠ .read := by
  simp only [Station.writeBackDirty]
  generalize List.filter _ _ = l
  induction l generalizing t with
  | nil => simpa using h
  | cons a l ih =>
    rw [List.foldl_cons]; apply ih
    intro r hr
    simp only [Station.offerRequest, Station.drainKept] at hr
    have := List.mem_of_mem_drop hr
    simp at this
    rcases this with h1 | h1
    · exact h r h1
    · subst h1; simp [Station.appendRequest]

/-- RESTART keeps the highest epoch (R20). -/
@[simp] theorem restartSmg_highest (t : Station) : t.restartSmg.smg.highest = t.smg.highest := by
  simp only [Station.restartSmg, Station.freeWindows]
  exact writeBackDirty_kept (fun u => u.smg.highest) (fun _ _ => rfl) _

/-- RESTART keeps the untracked flag (R20). -/
@[simp] theorem restartSmg_untracked (t : Station) : t.restartSmg.smg.untracked = t.smg.untracked := by
  simp only [Station.restartSmg, Station.freeWindows]
  exact writeBackDirty_kept (fun u => u.smg.untracked) (fun _ _ => rfl) _

/-- RESTART frees every HELD and STAGED window (R20). -/
theorem restartSmg_windows (t : Station) :
    t.restartSmg.smg.windows = t.smg.windows.map (fun w => if decide (w.role = .held) || decide (w.role = .staged) then Window.blank else w) := by
  simp only [Station.restartSmg, Station.freeWindows]
  rw [writeBackDirty_kept (fun u => u.smg.windows) (fun _ _ => rfl)]

/-- The enrolment record after a restart (R194). -/
theorem restartStation_enrol (t : Station) (x : Nat) : (t.restartStation x).lif.enrol =
   { t.lif.enrol with state := if t.lif.enrol.state = .laneFault then .laneFault else .unenrolled, heard := heardOnly t.straps.station, heardEpoch := t.smg.highest, heardNoLive := t.lif.enrol.ownNoLive, announce := some (x + Config.announceTicks) } := by
  simp only [Station.restartStation, Station.restartLif]
  split
  · next h => simp at h; simp [h]
  · next h => simp at h; simp [Station.becomeUnenrolled, Station.setEnrolState, h]

/-- A restart keeps the highest epoch (R194). -/
theorem restartStation_highest (t : Station) (x : Nat) : (t.restartStation x).smg.highest = t.smg.highest := by
  simp only [Station.restartStation, Station.restartLif]
  split <;> simp

/-- A restart resets ACQ (R37). -/
theorem restartStation_acq (t : Station) (x : Nat) : (t.restartStation x).acq = Acq.reset := by
  simp only [Station.restartStation, Station.restartLif]
  split <;> simp [Station.restartAcq]

/-- A restart empties the event queue (R115). -/
theorem restartStation_queue (t : Station) (x : Nat) : (t.restartStation x).pns.queue = [] := by
  simp only [Station.restartStation, Station.restartLif]
  split <;> simp [Station.restartPns, Station.refreshLeds]

/-- A restart closes the operation with no outcome (R20). -/
theorem restartStation_op (t : Station) (x : Nat) : (t.restartStation x).smg.op = none := by
  simp only [Station.restartStation, Station.restartLif]
  split <;> simp [Station.restartSmg]

/-- A mismatching ENROL leads into LANE_FAULT (R189). -/
theorem takeEnrol_mismatch (t : Station) (sn c h : Nat) (ep : Epoch) (b : Bool) (x : Nat) (hm :
    t.enrolMatches sn c h = false) : t.takeEnrol sn c h ep b x = t.enterLaneFault x := by
  simp [Station.takeEnrol, hm]

/-- The window of a pending flip is STAGED and flip pending. -/
theorem flipIndex_some (t : Station) (i : Nat) (h : t.flipIndex = some i) : i < 4 ∧
    (t.smg.windows.get i).role = .staged ∧ (t.smg.windows.get i).flipPending = true := by
  have := Quad.find_some _ _ _ h
  simpa using this

/-- Changing its run state leaves which window flips. -/
theorem flipIndex_setRunState (t : Station) (i : Nat) (r : RunState) (h : t.flipIndex = some i) :
    (t.setWindow i { t.smg.windows.get i with runState := r }).flipIndex = some i := by
  have hi := (flipIndex_some t i h).1
  rw [← h]
  simp only [Station.flipIndex, Quad.find, Station.setWindow_windows]
  interval_cases i <;> rfl

/-- Entering PREPARING ends in PREPARING or PREPARED (R41, R42). -/
theorem enterPreparing_state (t : Station) (x) : (t.enterPreparing x).acq.state = .preparing ∨
    (t.enterPreparing x).acq.state = .prepared := by
  simp only [Station.enterPreparing, Station.settleAcq]
  split
  · right; rfl
  · left
    simp only [Station.reserve]
    have : ∀ (t : Station) b w x, t.acq.state = .preparing → (t.sendWord b w x).acq.state = .preparing := by
      intro t b w x h; simp only [Station.sendWord]; (repeat' split) <;> simp_all
    split <;> (simp only [Station.takeCapture]; apply this; apply this; rfl)

/-- A flip brings in the run state, in standby the saved one (R125). -/
theorem flip_tgu (t : Station) (i : Nat) (h : t.flipIndex = some i) :
    t.flip.tgu = if t.standby then { t.tgu with savedRun := some (t.smg.windows.get i).runState } else { t.tgu with run := (t.smg.windows.get i).runState } := by
  simp [Station.flip, h]

/-- A flip makes the window LIVE (R159). -/
theorem flip_window (t : Station) (i : Nat) (h : t.flipIndex = some i) :
    t.flip.smg.windows.get i = Station.flippedWindow (t.smg.windows.get i) := by
  have hi := (flipIndex_some t i h).1
  simp [Station.flip, h, Quad.get_set_same, hi]

/-- A flip leaves a restart of averaging pending (R31). -/
theorem flip_acq (t : Station) (i : Nat) (h : t.flipIndex = some i) :
    t.flip.acq = { t.acq with restartPending := true } := by
  simp [Station.flip, h]

/-- A flip leaves the receive list. -/
theorem flip_rx (t : Station) : t.flip.lif.rx = t.lif.rx := by
  simp only [Station.flip]; split <;> simp

/-- Setting the run state. -/
theorem setRun_tgu (t : Station) (r) : (t.setRun r).tgu = { t.tgu with run := r } := by
  simp only [Station.setRun]; split
  · next h => rw [← h]
  · simp

/-- RUN, SINGLE and STOP set the run state, in standby the saved one (R57, R62). -/
theorem commandRun_tgu (t : Station) (r) :
    (t.commandRun r).tgu = if t.standby then { t.tgu with savedRun := some r } else { t.tgu with run := r } := by
  simp only [Station.commandRun]
  split <;> split <;> simp_all [setRun_tgu]

/-- RUN, SINGLE and STOP leave these fields. -/
theorem commandRun_frame (t : Station) (r) : (t.commandRun r).acq = t.acq ∧ (t.commandRun r).lif = t.lif ∧
    (t.commandRun r).standby = t.standby ∧ (t.commandRun r).straps = t.straps ∧ (t.commandRun r).ticks = t.ticks ∧
    (t.commandRun r).free = t.free ∧ (t.commandRun r).sst = t.sst ∧ (t.commandRun r).powered = t.powered ∧
    (t.commandRun r).pns = t.pns := by
  simp only [Station.commandRun]
  split <;> split <;> simp

/-- Without a pending flip they leave SMG. -/
theorem commandRun_noFlip (t : Station) (r) (h : t.flipIndex = none) :
    (t.commandRun r).smg = t.smg ∧ (t.commandRun r).flipIndex = none := by
  have h2 : ∀ u : Station, u.smg = t.smg → u.flipIndex = none := by
    intro u hu; rw [← h]; simp only [Station.flipIndex, hu]
  have hs : (if t.standby then { t with tgu := { t.tgu with savedRun := some r } } else t.setRun r).smg = t.smg := by
    split <;> simp
  simp only [Station.commandRun, h2 _ hs]
  exact ⟨hs, trivial⟩

/-- With a pending flip they set its run state (R60). -/
theorem commandRun_flip (t : Station) (r) (i) (h : t.flipIndex = some i) :
    (t.commandRun r).smg.windows = t.smg.windows.set i { t.smg.windows.get i with runState := r } ∧
    (t.commandRun r).flipIndex = some i ∧ ((t.commandRun r).smg.windows.get i).runState = r := by
  have h2 : ∀ u : Station, u.smg = t.smg → u.flipIndex = some i := by
    intro u hu; rw [← h]; simp only [Station.flipIndex, hu]
  have hi := (flipIndex_some t i h).1
  have hs : (if t.standby then { t with tgu := { t.tgu with savedRun := some r } } else t.setRun r).smg = t.smg := by
    split <;> simp
  simp only [Station.commandRun, h2 _ hs]
  refine ⟨?_, flipIndex_setRunState _ _ _ (h2 _ hs), ?_⟩
  · rw [Station.setWindow_windows, hs]
  · rw [Station.setWindow_windows, Quad.get_set_same _ _ _ hi]

/-- What leaving IDLE leaves of LIF and SMG. -/
structure StartKeeps (t u : Station) : Prop where
  tx : u.lif.tx = t.lif.tx
  rx : u.lif.rx = t.lif.rx
  kept : u.lif.keptEnrol = t.lif.keptEnrol
  state : u.lif.enrol.state = t.lif.enrol.state
  ann : u.lif.enrol.announce = t.lif.enrol.announce
  zero : u.lif.laneZero = t.lif.laneZero
  hi : u.smg.highest = t.smg.highest
  unt : u.smg.untracked = t.smg.untracked
  settle : u.smg.settle = t.smg.settle
  chain : u.smg.chain = t.smg.chain
  wait : u.smg.chainWait = t.smg.chainWait
  keptChain : u.smg.keptChain = t.smg.keptChain
  due : u.smg.due = t.smg.due
  requests : u.smg.kept = t.smg.kept
  proto : u.smg.keptProto = t.smg.keptProto

/-- Nothing done leaves all of it. -/
theorem StartKeeps.refl (t : Station) : StartKeeps t t := by
  constructor <;> rfl

/-- One after the other. -/
theorem StartKeeps.trans {t u v : Station} (h : StartKeeps t u) (k : StartKeeps u v) : StartKeeps t v :=
  ⟨k.1.trans h.1, k.2.trans h.2, k.3.trans h.3, k.4.trans h.4, k.5.trans h.5, k.6.trans h.6, k.7.trans h.7,
      k.8.trans h.8, k.9.trans h.9, k.10.trans h.10, k.11.trans h.11, k.12.trans h.12,
      k.13.trans h.13, k.14.trans h.14, k.15.trans h.15⟩

/-- An act that leaves LIF and SMG leaves all of it. -/
theorem startKeeps_of (t u : Station) (h1 : u.lif = t.lif) (h2 : u.smg = t.smg) : StartKeeps t u := by
    constructor <;> simp [h1, h2]

/-- Sending a control word. -/
theorem startKeeps_sendWord (t : Station) (b w x) : StartKeeps t (t.sendWord b w x) := by
  simp only [Station.sendWord]; constructor <;> (repeat' split) <;> rfl

/-- Entering PREPARING. -/
theorem startKeeps_enterPreparing (t : Station) (x) : StartKeeps t (t.enterPreparing x) := by
  simp only [Station.enterPreparing, Station.takeCapture]
  have hs : ∀ u : Station, StartKeeps u u.settleAcq := fun u => startKeeps_of _ _ (by simp) (by simp)
  refine StartKeeps.trans ?_ (hs _)
  refine StartKeeps.trans ?_ (startKeeps_sendWord _ _ _ _)
  refine StartKeeps.trans ?_ (startKeeps_sendWord _ _ _ _)
  constructor <;> rfl

/-- A flip. -/
theorem startKeeps_flip (t : Station) : StartKeeps t t.flip := by
  simp only [Station.flip]
  split
  · exact .refl _
  · have hs : ∀ u : Station,
        StartKeeps u (u.rebuildAll.requestClear true true) := fun u => startKeeps_of _ _ (by simp) (by simp)
    refine StartKeeps.trans ?_ (hs _)
    constructor <;> rfl

/-- A flip where one is pending. -/
theorem startKeeps_flipNow (t : Station) (x) : StartKeeps t (t.flipNow x) := by
  simp only [Station.flipNow, Station.followRun]
  repeat' split
  · exact (startKeeps_flip t).trans (startKeeps_enterPreparing _ _)
  · exact (startKeeps_flip t).trans (startKeeps_of _ _ (by simp) (by simp))
  · exact .refl _

/-- Leaving IDLE. -/
theorem startKeeps_tryStart (t : Station) (x) : StartKeeps t (t.tryStart x) := by
  simp only [Station.tryStart]
  repeat' split
  · exact startKeeps_flipNow _ _
  · exact startKeeps_enterPreparing _ _
  · exact .refl _
  · exact .refl _

/-- The chain's state is the one it is put into (R193). -/
theorem chainTo_chain (t : Station) (c) : (t.chainTo c).smg.chain = c := by
  simp only [Station.chainTo, Station.offerChain]; split <;> rfl

/-- The chain leaves the enrolment record. -/
@[simp] theorem chainTo_enrol (t : Station) (c) : (t.chainTo c).lif.enrol = t.lif.enrol := by
  simp only [Station.chainTo, Station.offerChain]; split <;> rfl

/-- The chain leaves the receive list. -/
@[simp] theorem chainTo_rx (t : Station) (c) : (t.chainTo c).lif.rx = t.lif.rx := by
  simp only [Station.chainTo, Station.offerChain]; split <;> rfl

/-- The chain leaves lane time. -/
@[simp] theorem chainTo_laneZero (t : Station) (c) : (t.chainTo c).lif.laneZero = t.lif.laneZero := by
  simp only [Station.chainTo, Station.offerChain]; split <;> rfl

/-- The chain leaves these fields of SMG. -/
@[simp] theorem chainTo_smg (t : Station) (c) : (t.chainTo c).smg.highest = t.smg.highest ∧
    (t.chainTo c).smg.untracked = t.smg.untracked ∧ (t.chainTo c).smg.settle = t.smg.settle := by
  simp only [Station.chainTo, Station.offerChain]; split <;> simp

/-- The chain's RECALL 0 is in the transmit list or kept (R193). -/
theorem chainTo_offers (t : Station) : (t.chainTo .slot0).smg.keptChain = true ∨
    ∃ x ∈ (t.chainTo .slot0).lif.tx, x.msg = .recall 0 ∧ x.origin = .chain := by
  simp only [Station.chainTo, Station.offerChain]; split
  · right; exact ⟨_, by simp [Station.place]; right; rfl, rfl, rfl⟩
  · left; rfl

/-- The chain places no ENROL. -/
theorem chainTo_enrolFrames (t : Station) (c) : ∀ x ∈ (t.chainTo c).lif.tx, x.msg.isEnrol = true → x ∈ t.lif.tx := by
  intro x hx hi
  simp only [Station.chainTo, Station.offerChain] at hx; split at hx
  · simp [Station.place] at hx; rcases hx with h | rfl
    · exact h
    · simp [Msg.isEnrol] at hi
  · exact hx

/-- The settle timer and the untracked flag at enrolment (R20). -/
theorem settleAtEnrolment_smg (t : Station) (b x) : (t.settleAtEnrolment b x).smg.highest = t.smg.highest ∧
   (b = true → (t.settleAtEnrolment b x).smg.untracked = false ∧ (t.settleAtEnrolment b x).smg.settle = none) ∧
   (b = false → (t.settleAtEnrolment b x).smg.untracked = t.smg.untracked ∧
       (t.settleAtEnrolment b x).smg.settle = if t.smg.untracked then some (x + Config.settleTicks) else t.smg.settle) := by
  simp only [Station.settleAtEnrolment]
  cases b <;> simp
  split <;> simp

/-- The best rank is that of a waiting frame, and none is better (R178). -/
theorem bestRank_some {phase : Nat} {tx : List TxEntry} {r : Nat} (h : bestRank phase tx = some r) :
    (∃ e ∈ tx, e.placedAt ≤ phase ∧ e.sending = false ∧ e.msg.rank = r) ∧
        ∀ e ∈ tx, e.placedAt ≤ phase → e.sending = false → r ≤ e.msg.rank := by
  simp only [bestRank] at h
  rw [List.min?_eq_some_iff] at h
  obtain ⟨h1, h2⟩ := h
  simp at h1
  refine ⟨?_, ?_⟩
  · obtain ⟨e, ⟨h3, h4, h5⟩, h6⟩ := h1; exact ⟨e, h3, h4, h5, h6⟩
  · intro e he h4 h5; exact h2 _ (by simp; exact ⟨e, ⟨he, h4, h5⟩, rfl⟩)

/-- With no best rank no frame waits. -/
theorem bestRank_none {phase : Nat} {tx : List TxEntry} (h : bestRank phase tx = none) : ∀ e ∈ tx,
    ¬ (e.placedAt ≤ phase ∧ e.sending = false) := by
  simp only [bestRank, List.min?_eq_none_iff, List.map_eq_nil_iff, List.filter_eq_nil_iff] at h
  intro e he; simpa using h e he

/-- The oldest frame of the best rank begins its transfer (R178). -/
theorem startOldest_eq (phase r : Nat) (m : Msg) (before : List TxEntry) (e : TxEntry) (behind : List TxEntry)
   (he : e.placedAt ≤ phase ∧ e.sending = false) (hr : e.msg.rank = r) (hb : ∀ x ∈ before, x.placedAt ≤ phase ∧
       x.sending = false → r < x.msg.rank) :
   startOldest phase r m (before ++ e :: behind) = before ++ { e with msg := if e.msg.isEnrol then m else e.msg, sending := true } :: behind := by
  induction before with
  | nil => simp [startOldest, he, hr]
  | cons b bs ih =>
    rw [List.cons_append, startOldest, if_neg, ih (fun x hx => hb x (List.mem_cons_of_mem _ hx))]; rfl
    rintro ⟨h1, h2, h3⟩
    have := hb b (by simp) ⟨h1, h2⟩
    omega

/-- What a voided RECALL of the chain leaves (R193). -/
theorem chainVoided_facts (t : Station) : (t.chainVoided).lif.lane = t.lif.lane ∧ (t.chainVoided).lif.rx = t.lif.rx ∧
   t.chainVoided.lif.tx.filter (fun e => !e.msg.isSetupProtocol) = t.lif.tx.filter (fun e => !e.msg.isSetupProtocol) ∧
   (t.smg.chain = .idle → t.chainVoided = t) ∧ t.chainVoided.powered = t.powered ∧
       t.chainVoided.straps = t.straps ∧ t.chainVoided.standby = t.standby ∧
   t.chainVoided.ticks = t.ticks ∧ t.chainVoided.free = t.free ∧ t.chainVoided.sst = t.sst ∧
       t.chainVoided.acq = t.acq ∧ t.chainVoided.tgu = t.tgu ∧ t.chainVoided.rse = t.rse ∧
       t.chainVoided.pns = t.pns := by
  simp only [Station.chainVoided, Station.chainTo, Station.offerChain]
  repeat' split
  · simp
  · simp [Station.place, Msg.isSetupProtocol]; intro h; contradiction
  · simp; intro h; contradiction

/-- Applying a SETTING leaves these fields. -/
@[simp] theorem applySettingFrame_frame (t : Station) (op : SettingOp) (sect : Section) (n : Nat) (v : Int) (x :
    Nat) :
  (t.applySettingFrame op sect n v x).smg.highest = t.smg.highest ∧
      (t.applySettingFrame op sect n v x).smg.op = t.smg.op ∧
      (t.applySettingFrame op sect n v x).smg.kept = t.smg.kept ∧ (t.applySettingFrame op sect n v x).lif = t.lif ∧
      (t.applySettingFrame op sect n v x).powered = t.powered ∧
      (t.applySettingFrame op sect n v x).straps = t.straps ∧
      (t.applySettingFrame op sect n v x).standby = t.standby ∧
      (t.applySettingFrame op sect n v x).ticks = t.ticks ∧ (t.applySettingFrame op sect n v x).free = t.free ∧
      (t.applySettingFrame op sect n v x).sst = t.sst ∧ (t.applySettingFrame op sect n v x).tgu = t.tgu := by
  have hn : ∀ (t : Station), (t.notice sect n).smg = t.smg ∧ (t.notice sect n).lif = t.lif ∧
      (t.notice sect n).powered = t.powered ∧ (t.notice sect n).straps = t.straps ∧
      (t.notice sect n).standby = t.standby ∧ (t.notice sect n).ticks = t.ticks ∧ (t.notice sect n).free = t.free ∧
      (t.notice sect n).sst = t.sst ∧ (t.notice sect n).tgu = t.tgu := by
    intro t; simp only [Station.notice]
    split
    · repeat' split
      all_goals simp
    · repeat' split
      all_goals simp
  have hw : ∀ (t : Station) b w, (t.sendWord b w x).smg.highest = t.smg.highest ∧
      (t.sendWord b w x).smg.op = t.smg.op ∧ (t.sendWord b w x).smg.kept = t.smg.kept ∧
      (t.sendWord b w x).smg.windows = t.smg.windows := by
    intro t b w; simp only [Station.sendWord]
    repeat' split
    all_goals simp
  have hu : ∀ (t : Station), (t.updateCapture x).smg.highest = t.smg.highest ∧
      (t.updateCapture x).smg.op = t.smg.op ∧ (t.updateCapture x).smg.kept = t.smg.kept ∧
      (t.updateCapture x).lif = t.lif ∧ (t.updateCapture x).powered = t.powered ∧
      (t.updateCapture x).straps = t.straps ∧ (t.updateCapture x).standby = t.standby ∧
      (t.updateCapture x).ticks = t.ticks ∧ (t.updateCapture x).free = t.free ∧ (t.updateCapture x).sst = t.sst ∧
      (t.updateCapture x).tgu = t.tgu := by
    intro t; simp only [Station.updateCapture]
    repeat' split
    all_goals simp [hw]
  simp only [Station.applySettingFrame]
  repeat' split
  all_goals simp [hu, hn]
  all_goals simp [Station.setWindow]

/-- A notice leaves SMG (R12). -/
theorem notice_smg (t : Station) (sect : Section) (n : Nat) : (t.notice sect n).smg = t.smg := by
  simp only [Station.notice]
  split
  · repeat' split
    all_goals simp
  · repeat' split
    all_goals simp

/-- Updating the capture leaves the windows (R13). -/
theorem updateCapture_windows (t : Station) (x : Nat) : (t.updateCapture x).smg.windows = t.smg.windows := by
  have hw : ∀ (t : Station) b w, (t.sendWord b w x).smg.windows = t.smg.windows := by
    intro t b w; simp only [Station.sendWord]
    repeat' split
    all_goals simp
  simp only [Station.updateCapture]
  repeat' split
  all_goals simp [hw]

/-- A SETTING is applied to the flip-pending STAGED window, else to the LIVE one (R10). -/
theorem applySettingFrame_windows (t : Station) (op : SettingOp) (sect : Section) (n : Nat) (v : Int) (x : Nat) :
   (t.applySettingFrame op sect n v x).smg.windows =
     t.smg.windows.set (t.flipIndex.getD t.liveIndex) ((t.smg.windows.get (t.flipIndex.getD t.liveIndex)).applySetting t.straps.count op sect n v) := by
  simp only [Station.applySettingFrame]
  split
  · next i h => simp [h]
  · next h =>
    simp only [h, Option.getD_none]
    split
    · next hw =>
      simp only [Station.live] at hw
      rw [hw, Quad.set_get]
      simp only [Station.liveIndex]
      cases hf : t.smg.windows.find (fun w => decide (w.role = .live)) with
      | none => simp
      | some i => simp; exact (Quad.find_some _ _ _ hf).1
    · rw [updateCapture_windows, notice_smg]; rfl

/-- The target window is one of the four. -/
theorem target_lt (t : Station) : t.flipIndex.getD t.liveIndex < 4 := by
  cases h : t.flipIndex with
  | some i => simp; exact (Quad.find_some _ _ _ h).1
  | none =>
    simp only [Option.getD_none, Station.liveIndex]
    cases hf : t.smg.windows.find (fun w => decide (w.role = .live)) with
    | none => simp
    | some i => simp; exact (Quad.find_some _ _ _ hf).1

/-- Queueing a protocol answer touches nothing of SST. -/
theorem queueProto_sst (t : Station) (m : Msg) : (t.queueProto m).sst = t.sst := by
  simp only [Station.queueProto, Station.place]
  repeat' split
  all_goals rfl

/-- A request that ends otherwise than OK, and was not to fill a HELD window, leaves the request queue as it is. -/
theorem endRequest_queue (t : Station) (r : Request) (o : OutcomeCode) (ho : o ≠ .ok) (h : ∀ i, r.purpose ≠ .fill i) :
    (t.endRequest r o []).sst.queue = t.sst.queue := by
  unfold Station.endRequest Station.answerRequester
  simp only [ho, and_false, if_false]
  split
  · rfl
  · cases hp : r.purpose with
    | fill i => exact absurd hp (h i)
    | none => rfl
    | tracking => rfl
    | staging =>
      simp only [Station.endStaging]
      repeat' split
      all_goals first
        | rfl
        | contradiction
        | (rw [queueProto_sst]; rfl)
    | save =>
      simp only [Station.endSave]
      split
      · rfl
      · rw [queueProto_sst]; rfl

/-- A protocol frame queued is in the transmit list or kept (R150). -/
theorem queueProto_answers (t : Station) (m : Msg) : (t.queueProto m).answers m := by
  simp only [Station.answers, Station.queueProto]
  split
  · left; exact ⟨_, by simp [Station.place]; right; rfl, rfl, rfl⟩
  · right; rfl

/-- Queueing a protocol frame leaves the windows. -/
theorem queueProto_windows (t : Station) (m : Msg) : (t.queueProto m).smg.windows = t.smg.windows := by
  simp only [Station.queueProto, Station.place]; split <;> rfl

/-- Where no staging round waits for the load, the end of a fill goes on with nothing (R154). -/
theorem resumeStaging_idle (t : Station) (i : Nat) (w : Window) (h : t.smg.stageWait = false) :
    (t.setWindow i w).resumeStaging = t.setWindow i w := by
  simp [Station.resumeStaging, Station.setWindow, h]

/-- What the end of a request leaves of LIF and SMG (R131, R151, R163, R166). -/
theorem endRequest_ends (t : Station) (r : Request) (o : OutcomeCode) (bs : List Byte) :
    t.requestEnds (t.endRequest r o bs) r o := by
  unfold Station.endRequest Station.answerRequester
  generalize hu : (if r.kind = .append ∧ o = .ok then (t.recordLast r.kind r.block (some o)).clearDirty r
    else t.recordLast r.kind r.block (some o)) = u
  have ⟨h1, h2, h3, h4, h5⟩ : u.smg.op = t.smg.op ∧ u.lif = t.lif ∧ u.smg.keptProto = t.smg.keptProto ∧
      u.smg.stageWait = t.smg.stageWait ∧ ∀ i, u.smg.windows.get i =
        let w := t.smg.windows.get i
        if r.kind = .append ∧ o = .ok ∧ w.role = .held ∧ w.mapped = some r.block ∧ w.epoch = some r.epoch then
          { w with dirty := false }
        else w := by
    subst hu
    split
    · next h => refine ⟨rfl, rfl, rfl, rfl, fun i => ?_⟩; simp [Station.clearDirty, Station.recordLast, h]
    · next h =>
      refine ⟨rfl, rfl, rfl, rfl, fun i => ?_⟩
      exact (if_neg fun k => h ⟨k.1, k.2.1⟩).symm
  refine ⟨?_, ?_, ?_, ?_, ?_⟩
  · intro op E hop hE hp ho
    simp only [ho, hp, Bool.false_eq_true, if_false, Station.endSave, h1, hop, hE, Option.getD_some]
    exact queueProto_answers _ _
  · intro h
    rcases h with h | h | h <;> simp only [h, if_true, ite_self] <;> exact ⟨h2, h3⟩
  · intro h i _
    refine Eq.trans ?_ (h5 i)
    rcases h with h | h | h | h <;> simp only [h, if_true, ite_self]
    split
    · rfl
    · simp only [Station.endSave]; split
      · rfl
      · rw [queueProto_windows]
  · intro i hp ho hi hok hs
    simp only [ho, hp, Bool.false_eq_true, if_false, Station.endFill, hok]
    rw [resumeStaging_idle _ _ _ (h4.trans hs), Station.setWindow_windows, Quad.get_set_same _ _ _ hi, h5 i, if_neg]
    exact fun k => hok k.2.1
  · intro op E hop hE hp ho hok
    simp only [ho, hp, Bool.false_eq_true, if_false, Station.endStaging, h1, hop, hE, hok]
    exact queueProto_answers _ _

/-- The act before a request's end may have changed anything but LIF and SMG, and the act behind it may too. -/
theorem requestEnds_of {s s' t t' : Station} {r : Request} {o : OutcomeCode} (h : s'.requestEnds t' r o)
    (h1 : s'.lif = s.lif) (h2 : s'.smg = s.smg) (h3 : t'.lif = t.lif) (h4 : t'.smg = t.smg) :
    s.requestEnds t r o := by
  simpa only [Station.requestEnds, Station.answers, h1, h2, h3, h4] using h

/-- The run state that an unpacked image gives is the one its byte spells (R121). -/
theorem unpack_runState (t : Station) (slot : Nat) (bs : List Byte) (c : Contents) (h : t.unpack slot bs = .ok c) :
    c.runState.code = byteAt bs 193 := by
  simp only [Station.unpack, unpackImage] at h
  repeat' split at h
  all_goals try contradiction
  next hr =>
    simp only [Except.ok.injEq] at h
    subst h
    simp only [Bool.not_eq_true, Bool.not_eq_false', settingsInRange, Bool.and_eq_true] at hr
    obtain ⟨r, hr⟩ := Option.isSome_iff_exists.mp (by simpa using hr.2)
    simp only [hr, Option.getD_some]
    revert hr
    match byteAt bs 193 with
    | 0 | 1 | 2 => intro hr; cases hr; rfl
    | n + 3 => intro hr; cases hr

/-- What a READ's bytes give (R154, R166). -/
theorem endRequest_gives (t : Station) (r : Request) (bs : List Byte) :
    t.readGives (t.endRequest r .ok bs) r bs := by
  unfold Station.endRequest Station.answerRequester
  generalize hv : t.recordLast r.kind r.block (some .ok) = v
  have ⟨h1, h2⟩ : v.smg = t.smg ∧ v.straps = t.straps := by subst hv; exact ⟨rfl, rfl⟩
  have hu : ∀ slot, v.unpack slot bs = t.unpack slot bs := fun slot => by simp only [Station.unpack, h2]
  refine ⟨?_, ?_, ?_⟩
  · intro i w c hp ho hk hi hw hs hc
    subst hw
    simp only [hk, reduceCtorEq, false_and, ho, hp, Bool.false_eq_true, if_false, if_true, Station.endFill,
      (hu r.block).trans hc]
    rw [resumeStaging_idle _ _ _ (by rw [h1]; exact hs), Station.setWindow_windows, Quad.get_set_same _ _ _ hi, h1]; rfl
  · intro i oc hp ho hk hi hs hc
    simp only [hk, reduceCtorEq, false_and, ho, hp, Bool.false_eq_true, if_false, if_true, Station.endFill,
      (hu r.block).trans hc]
    rw [resumeStaging_idle _ _ _ (by rw [h1]; exact hs), Station.setWindow_windows, Quad.get_set_same _ _ _ hi, h1]
  · intro o E hop hE hp ho hk
    have hop' : v.smg.op = some o := by rw [h1]; exact hop
    simp only [hk, reduceCtorEq, false_and, ho, hp, Bool.false_eq_true, if_false, if_true, Station.endStaging, hop', hE]
    refine ⟨?_, ?_⟩
    · intro c j hc hj
      have hj' : v.freeIndex = some j := by simp only [Station.freeIndex, h1]; exact hj
      simp only [Station.stageImage, (hu o.slot).trans hc, hj']
      refine ⟨?_, ?_⟩
      · rw [queueProto_windows, Station.setWindow_windows, h1]; rfl
      · rw [unpack_runState t o.slot bs c hc]; exact queueProto_answers _ _
    · intro oc hc
      simp only [Station.stageImage, (hu o.slot).trans hc]
      exact ⟨(queueProto_windows _ _).trans (by rw [h1]), queueProto_answers _ _⟩

/-- The boot recall chain, with what it waits for and whether its RECALL is kept (R193). -/
abbrev chainOf (t : Station) : Chain × ChainWait × Bool := (t.smg.chain, t.smg.chainWait, t.smg.keptChain)

/-- Entering the state of the chain offers that state's RECALL (R193). -/
theorem chainTo_offersSlot (t : Station) (c : Chain) : (t.chainTo c).chainOffers (Station.chainSlot c) := by
  simp only [Station.chainTo, Station.offerChain]; split
  · left; exact ⟨_, by simp [Station.place]; right; rfl, rfl, rfl⟩
  · right; rfl

/-- The chain put into a state waits for no close (R193). -/
theorem chainTo_wait (t : Station) (c : Chain) : (t.chainTo c).smg.chainWait = .nothing := by
  simp only [Station.chainTo, Station.offerChain]; split <;> rfl

/-- What the close of an operation does to the chain (R193). -/
theorem chainAtClose_closes (t : Station) (kind : OpKind) (c : OutcomeCode) :
    t.chainCloses (t.chainAtClose kind c) kind c := by
  have h31 := chainTo_offersSlot t .slot31
  have h0 := chainTo_offersSlot t t.smg.chain
  simp only [Station.chainCloses, Station.chainAtClose]
  cases hw : t.smg.chainWait <;> cases hc : t.smg.chain <;> by_cases ho : c = .ok <;> cases kind <;>
    simp_all [chainTo_chain, chainTo_wait, Station.chainSlot]

/-- Leaving IDLE, a flip and entering PREPARING leave the chain. -/
theorem StartKeeps.chainOf {t u : Station} (h : StartKeeps t u) : chainOf u = chainOf t := by
  simp [Machine.chainOf, h.chain, h.wait, h.keptChain]

/-- Meeting the acquisition boundary leaves what leaving IDLE leaves. -/
theorem startKeeps_meetBoundary (t : Station) (x : Nat) : StartKeeps t (t.meetBoundary x) := by
  simp only [Station.meetBoundary]
  repeat' split
  all_goals first
    | exact startKeeps_flipNow _ _
    | exact .refl _
    | exact (startKeeps_of t t.dropRecord (by simp) (by simp)).trans (startKeeps_flipNow _ _)

/-- The flip to the built-in defaults leaves the chain. -/
theorem defaultsFlip_chain (t : Station) (x : Nat) : chainOf (t.defaultsFlip x) = chainOf t := by
  simp only [Station.defaultsFlip]
  split
  · rfl
  · rw [(startKeeps_meetBoundary _ _).chainOf]
    simp only [Station.takeStaged]; split <;> rfl

/-- The close of an operation moves the chain as R193 says. -/
theorem closeOp_chain (t : Station) (o : Op) (c : OutcomeCode) (x : Nat) (ho : t.smg.op = some o) :
    t.chainCloses (t.closeOp c x) o.kind c := by
  simp only [Station.closeOp, ho]
  generalize hu : Station.withdrawAnswers _ = u
  have hk : chainOf u = chainOf t := by
    subst hu
    show chainOf (if _ then _ else _) = _
    have hd : ∀ w : Station, chainOf w.dueSave = chainOf w := by
      intro w; simp only [Station.dueSave]; split <;> rfl
    have hs : ∀ (w : Station) led p, chainOf (w.startOverlay led p x) = chainOf w := by
      intro w led p; simp [chainOf]
    split
    · rw [defaultsFlip_chain, hd, hs]; rfl
    · rw [hd, hs]; rfl
  simp only [chainOf, Prod.mk.injEq] at hk
  have := chainAtClose_closes u o.kind c
  simpa only [Station.chainCloses, hk.1, hk.2.1, hk.2.2] using this

/-- SMG's reaction to the end of a fill may queue further requests, and changes nothing else of SST. -/
theorem resumeStaging_sst (t : Station) :
    ∃ q, t.resumeStaging.sst = { t.sst with queue := t.sst.queue ++ q } := by
  have h0 : ∀ u : Station, ∃ q, u.sst = { u.sst with queue := u.sst.queue ++ q } := fun u => ⟨[], by simp⟩
  have ho : ∀ (u : Station) r, ∃ q, (u.offerRequest r).sst = { u.sst with queue := u.sst.queue ++ q } :=
    fun u r => ⟨_, rfl⟩
  have hs : ∀ (u : Station) e slot image, (u.stageImage e slot image).sst = u.sst := by
    intro u e slot image
    simp only [Station.stageImage]
    repeat' split
    all_goals (rw [queueProto_sst]; try rfl)
  have hb : ∀ (u : Station) e slot, ∃ q, (u.obtainImage e slot).sst = { u.sst with queue := u.sst.queue ++ q } := by
    intro u e slot
    simp only [Station.obtainImage]
    split
    · split
      · split
        · exact ⟨[], by simp⟩
        · exact ⟨[], by rw [hs]; simp⟩
      · exact ho _ _
    · exact ho _ _
  simp only [Station.resumeStaging]
  repeat' split
  · exact hb _ _ _
  all_goals exact h0 t

/-- What the end of a request leaves of SST (R131, R146): the last request recorded, and behind what is queued the
requests that its end made SMG offer; nothing else. -/
theorem endRequest_sst (t : Station) (r : Request) (o : OutcomeCode) (bs : List Byte) :
    ∃ q, (t.endRequest r o bs).sst =
      { t.sst with queue := t.sst.queue ++ q, lastRequest := some ⟨r.kind, r.block, some o⟩ } := by
  unfold Station.endRequest Station.answerRequester
  generalize hu : (if r.kind = .append ∧ o = .ok then (t.recordLast r.kind r.block (some o)).clearDirty r
    else t.recordLast r.kind r.block (some o)) = u
  have h : u.sst = { t.sst with lastRequest := some ⟨r.kind, r.block, some o⟩ } := by subst hu; split <;> rfl
  have h0 : ∀ v : Station, v.sst = u.sst →
      ∃ q, v.sst = { t.sst with queue := t.sst.queue ++ q, lastRequest := some ⟨r.kind, r.block, some o⟩ } :=
    fun v hv => ⟨[], by rw [hv, h]; simp⟩
  have hr : ∀ v : Station, v.sst = u.sst →
      ∃ q, v.resumeStaging.sst =
        { t.sst with queue := t.sst.queue ++ q, lastRequest := some ⟨r.kind, r.block, some o⟩ } := by
    intro v hv
    obtain ⟨q, hq⟩ := resumeStaging_sst v
    exact ⟨q, by rw [hq, hv, h]⟩
  simp only []
  split
  · exact h0 _ rfl
  · split
    · exact h0 _ rfl
    · exact h0 _ rfl
    · simp only [Station.endStaging]
      repeat' split
      · exact h0 _ rfl
      · exact h0 _ rfl
      · refine h0 _ ?_
        simp only [Station.stageImage]
        repeat' split
        all_goals (rw [queueProto_sst]; try rfl)
      · exact h0 _ (queueProto_sst _ _)
    · simp only [Station.endFill]
      apply hr
      repeat' split
      all_goals rfl
    · simp only [Station.endSave]
      split
      · exact h0 _ rfl
      · exact h0 _ (queueProto_sst _ _)
/-- The end of a request at a station that differs from another neither in LIF nor in SMG. -/
theorem endRequest_ends_of (s u : Station) (r : Request) (o : OutcomeCode) (bs : List Byte) (h1 : u.lif = s.lif)
    (h2 : u.smg = s.smg) : s.requestEnds (u.endRequest r o bs) r o :=
  requestEnds_of (endRequest_ends u r o bs) h1 h2 rfl rfl

/-- The bytes of a READ at a station that differs from another neither in SMG nor in its straps. -/
theorem endRequest_gives_of (s u : Station) (r : Request) (bs : List Byte) (h1 : u.smg = s.smg)
    (h2 : u.straps = s.straps) : s.readGives (u.endRequest r .ok bs) r bs := by
  have h := endRequest_gives u r bs
  simpa only [Station.readGives, Station.stages, Station.unpack, Station.freeIndex, h1, h2] using h

/-- A failed operation ends its request (R129, R131). -/
theorem failCurrent_ends (s u : Station) (c : Current) (o : OutcomeCode) (clear : Bool) (h1 : u.lif = s.lif)
    (h2 : u.smg = s.smg) : s.requestEnds (u.failCurrent c o clear) c.request o := by
  cases clear <;> exact endRequest_ends_of _ _ _ _ _ h1 h2

/-- What a failed operation leaves of SST beside its faults: the request's end, the note of an unverified clear, the
block to be rescanned and an empty page buffer (R129, R137). -/
theorem failCurrent_sst (t : Station) (c : Current) (o : OutcomeCode) (clear : Bool) :
    ∃ q, (t.failCurrent c o clear).sst =
      { (if clear then t.setUnverified c.request.block true else t).sst with
        queue := t.sst.queue ++ q, lastRequest := some ⟨c.request.kind, c.request.block, some o⟩
        current := some { c with stage := .rescanning }, abandonAfterRead := false, page := none } := by
  cases clear <;> exact ⟨_, (endRequest_sst _ _ _ _).choose_spec⟩

/-- An abandoned act ends its request (R140, R144). -/
theorem abandon_ends (s u : Station) (c : Current) (o : OutcomeCode) (h1 : u.lif = s.lif) (h2 : u.smg = s.smg) :
    s.requestEnds (u.abandon c o) c.request o :=
  failCurrent_ends _ _ _ _ _ h1 h2

end Sys2Proof.Machine
end

