-- ==== Sys2Proof/Laws/Sparse.lean ====
section
/-! SUPPORT. The sparse form of the addressed memories: every operation keeps it, and a read after a write. -/

namespace Sys2Proof.Machine.Sparse

variable {β : Type}

/-- A lower bound of the addresses may be lowered. -/
theorem rising_mono {lo lo' : Nat} (h : lo' ≤ lo) {m : List (Nat × β)} (hm : rising lo m = true) :
    rising lo' m = true := by
  cases m with
  | nil => rfl
  | cons e m =>
    simp only [rising, Bool.and_eq_true, decide_eq_true_eq] at hm ⊢
    exact ⟨by omega, hm.2⟩

/-- Below the lowest address every read gives the default. -/
theorem read_below (d : β) : ∀ {m : List (Nat × β)} {lo a : Nat}, rising lo m = true → a < lo → read d m a = d
  | [], _, _, _, _ => rfl
  | e :: m, lo, a, hm, ha => by
    simp only [rising, Bool.and_eq_true, decide_eq_true_eq] at hm
    rw [read, if_neg (by omega)]
    exact read_below d hm.2 (by omega)

/-- A write keeps the addresses rising. -/
theorem rising_write [DecidableEq β] (d : β) : ∀ {m : List (Nat × β)} {lo a : Nat} {v : β}, rising lo m = true → lo ≤ a →
    rising lo (write d m a v) = true
  | [], lo, a, v, _, ha => by
    by_cases h : v = d <;> simp [write, h, rising, ha]
  | e :: m, lo, a, v, hm, ha => by
    have hm' := hm
    simp only [rising, Bool.and_eq_true, decide_eq_true_eq] at hm
    unfold write
    split_ifs with h1 h2 h3 h4
    · exact hm'
    · simp only [rising, Bool.and_eq_true, decide_eq_true_eq]
      exact ⟨ha, by omega, hm.2⟩
    · exact rising_mono (by omega) hm.2
    · simp only [rising, Bool.and_eq_true, decide_eq_true_eq]
      exact ⟨ha, by subst h3; exact hm.2⟩
    · simp only [rising, Bool.and_eq_true, decide_eq_true_eq]
      exact ⟨hm.1, rising_write d hm.2 (by omega)⟩

/-- A write lists no default. -/
theorem all_write [DecidableEq β] (d : β) : ∀ {m : List (Nat × β)} {a : Nat} {v : β},
    m.all (fun e => decide (e.2 ≠ d)) = true → (write d m a v).all (fun e => decide (e.2 ≠ d)) = true
  | [], a, v, _ => by by_cases h : v = d <;> simp [write, h]
  | e :: m, a, v, hm => by
    have hm' := hm
    simp only [List.all_cons, Bool.and_eq_true] at hm
    unfold write
    split_ifs with h1 h2 h3 h4
    · exact hm'
    · simp only [List.all_cons, Bool.and_eq_true]
      exact ⟨by simpa using h2, hm⟩
    · exact hm.2
    · simp only [List.all_cons, Bool.and_eq_true]
      exact ⟨by simpa using h4, hm.2⟩
    · simp only [List.all_cons, Bool.and_eq_true]
      exact ⟨hm.1, all_write d hm.2⟩

/-- A write keeps the canonical form. -/
theorem wf_write [DecidableEq β] (d : β) {m : List (Nat × β)} (a : Nat) (v : β) (h : wf d m = true) :
    wf d (write d m a v) = true := by
  simp only [wf, Bool.and_eq_true] at h ⊢
  exact ⟨rising_write d h.1 (Nat.zero_le a), all_write d h.2⟩

/-- A run of writes keeps the canonical form. -/
theorem wf_writeRun [DecidableEq β] (d : β) : ∀ (vs : List β) {m : List (Nat × β)} (a : Nat), wf d m = true →
    wf d (writeRun d m a vs) = true
  | [], _, _, h => h
  | v :: vs, _, a, h => wf_writeRun d vs (a + 1) (wf_write d a v h)

/-- Writes folded over a list keep the canonical form. -/
theorem wf_foldl [DecidableEq β] {γ : Type} (d : β) (addr : γ → Nat) (value : List (Nat × β) → γ → β) :
    ∀ (xs : List γ) {m : List (Nat × β)}, wf d m = true →
      wf d (xs.foldl (fun m x => write d m (addr x) (value m x)) m) = true
  | [], _, h => h
  | _ :: xs, _, h => wf_foldl d addr value xs (wf_write d _ _ h)

/-- Dropping entries keeps the addresses rising. -/
theorem rising_filter (p : Nat × β → Bool) : ∀ {m : List (Nat × β)} {lo : Nat}, rising lo m = true →
    rising lo (m.filter p) = true
  | [], _, _ => rfl
  | e :: m, lo, h => by
    simp only [rising, Bool.and_eq_true, decide_eq_true_eq] at h
    rw [List.filter_cons]
    split_ifs
    · simp only [rising, Bool.and_eq_true, decide_eq_true_eq]
      exact ⟨h.1, rising_filter p h.2⟩
    · exact rising_mono (by omega) (rising_filter p h.2)

/-- Dropping entries keeps the canonical form. -/
theorem wf_filter [DecidableEq β] (d : β) (p : Nat × β → Bool) {m : List (Nat × β)} (h : wf d m = true) :
    wf d (m.filter p) = true := by
  simp only [wf, Bool.and_eq_true, List.all_eq_true] at h ⊢
  exact ⟨rising_filter p h.1, fun e he => h.2 e (List.mem_filter.mp he).1⟩

/-- Changing the values leaves the addresses rising. -/
theorem rising_map (f : Nat → β → β) : ∀ {m : List (Nat × β)} {lo : Nat}, rising lo m = true →
    rising lo (m.map (fun e => (e.1, f e.1 e.2))) = true
  | [], _, _ => rfl
  | e :: m, lo, h => by
    simp only [rising, Bool.and_eq_true, decide_eq_true_eq, List.map_cons] at h ⊢
    exact ⟨h.1, rising_map f h.2⟩

/-- Applying a function to every value gives the canonical form again. -/
theorem wf_mapValues [DecidableEq β] (d : β) (f : Nat → β → β) {m : List (Nat × β)} (h : wf d m = true) :
    wf d (mapValues d f m) = true := by
  simp only [wf, Bool.and_eq_true] at h ⊢
  refine ⟨rising_filter _ (rising_map f h.1), ?_⟩
  simp only [mapValues, List.all_eq_true]
  exact fun e he => (List.mem_filter.mp he).2

/-- A read after a write. -/
theorem read_write [DecidableEq β] (d : β) : ∀ {m : List (Nat × β)} {lo a b : Nat} {v : β}, rising lo m = true →
    read d (write d m a v) b = if b = a then v else read d m b
  | [], lo, a, b, v, _ => by
    by_cases h : v = d <;> by_cases hb : b = a <;> simp [write, h, read, hb]
  | e :: m, lo, a, b, v, hm => by
    simp only [rising, Bool.and_eq_true, decide_eq_true_eq] at hm
    have below : ∀ x, x ≤ e.1 → read d m x = d := fun x hx => read_below d hm.2 (by omega)
    have ih := read_write d (a := a) (b := b) (v := v) hm.2
    unfold write
    by_cases h1 : a < e.1
    · rw [if_pos h1]
      by_cases h2 : v = d
      · by_cases hb : b = a
        · simp [h2, hb, read, show ¬ a = e.1 by omega, below a (by omega)]
        · simp [h2, hb]
      · by_cases hb : b = a <;> simp [h2, hb, read]
    · rw [if_neg h1]
      by_cases h2 : a = e.1
      · rw [if_pos h2]
        subst h2
        by_cases h3 : v = d
        · by_cases hb : b = e.1
          · simp [h3, hb, below e.1 (by omega)]
          · simp [h3, hb, read]
        · by_cases hb : b = e.1 <;> simp [h3, hb, read]
      · rw [if_neg h2]
        by_cases hb : b = e.1
        · simp [read, hb, show ¬ e.1 = a from fun h => h2 h.symm]
        · simp [read, hb, ih]

/-- A read outside a run of writes gives what it gave before. -/
theorem read_writeRun_outside [DecidableEq β] (d : β) : ∀ (vs : List β) {m : List (Nat × β)} {a b : Nat}, wf d m = true →
    (b < a ∨ a + vs.length ≤ b) → read d (writeRun d m a vs) b = read d m b
  | [], _, _, _, _, _ => rfl
  | v :: vs, m, a, b, h, hb => by
    rw [writeRun, read_writeRun_outside d vs (wf_write d a v h) (by simp only [List.length_cons] at hb; omega),
      read_write d (lo := 0) (by simp only [wf, Bool.and_eq_true] at h; exact h.1),
      if_neg (by simp only [List.length_cons] at hb; omega)]

/-- A read inside a run of writes gives the value written there. -/
theorem read_writeRun_inside [DecidableEq β] (d : β) : ∀ (vs : List β) {m : List (Nat × β)} {a i : Nat}, wf d m = true →
    (h : i < vs.length) → read d (writeRun d m a vs) (a + i) = vs[i]
  | v :: vs, m, a, 0, h, _ => by
    rw [writeRun, read_writeRun_outside d vs (wf_write d a v h) (by omega),
      read_write d (lo := 0) (by simp only [wf, Bool.and_eq_true] at h; exact h.1)]
    simp
  | v :: vs, m, a, i + 1, h, hi => by
    rw [writeRun, show a + (i + 1) = a + 1 + i by omega,
      read_writeRun_inside d vs (wf_write d a v h) (by simpa using hi)]
    simp

/-- A read at an address that a filter on addresses keeps. -/
theorem read_filter_kept (d : β) (p : Nat → Bool) : ∀ {m : List (Nat × β)} {a : Nat}, p a = true →
    read d (m.filter (fun e => p e.1)) a = read d m a
  | [], _, _ => rfl
  | e :: m, a, h => by
    rw [List.filter_cons]
    by_cases he : a = e.1
    · subst he
      simp [h, read]
    · split_ifs
      · simp [read, he, read_filter_kept d p h]
      · simp [read, he, read_filter_kept d p h]

/-- A read at an address that a filter on addresses drops. -/
theorem read_filter_dropped (d : β) (p : Nat → Bool) : ∀ {m : List (Nat × β)} {a : Nat}, p a = false →
    read d (m.filter (fun e => p e.1)) a = d
  | [], _, _ => rfl
  | e :: m, a, h => by
    rw [List.filter_cons]
    by_cases he : a = e.1
    · subst he
      simp [h, read_filter_dropped d p h]
    · split_ifs
      · simp [read, he, read_filter_dropped d p h]
      · simp [read_filter_dropped d p h]

/-- A run read back has the length asked for. -/
@[simp] theorem length_readRun (d : β) (m : List (Nat × β)) : ∀ (n a : Nat), (readRun d m a n).length = n
  | 0, _ => rfl
  | n + 1, a => by simp [readRun, length_readRun d m n (a + 1)]

end Sys2Proof.Machine.Sparse
end

