-- ==== Sys2Proof/Laws/Memory.lean ====
section
/-! SUPPORT. Every operation over an addressed memory of the part keeps its canonical form: the store's array, the
layers, the sums and the annotation grid; and a command that replaces one of them keeps `Station.memoryWf`. -/

namespace Sys2Proof.Machine

/-! The store's array. -/

theorem wf_eraseBlock (array : List Host.Cell) (block : Nat) (h : Sparse.wf erasedByte array = true) :
    Sparse.wf erasedByte (eraseBlock array block) = true := Sparse.wf_filter _ _ h

theorem wf_abandonedArray (free block : Nat) (stage : Stage) (array : List Host.Cell)
    (h : Sparse.wf erasedByte array = true) : Sparse.wf erasedByte (abandonedArray free block stage array) = true := by
  cases stage <;> simp only [abandonedArray] <;>
    first
      | exact h
      | exact Sparse.wf_writeRun _ _ _ h
      | exact Sparse.wf_filter _ _ h

theorem wf_cutErase (free block : Nat) (array : List Host.Cell) (h : Sparse.wf erasedByte array = true) :
    Sparse.wf erasedByte (cutErase free block array) = true := by
  have hl : Sparse.wf erasedByte (partialErase free block array) = true := Sparse.wf_filter _ _ h
  simp only [cutErase]
  by_cases hd : (scanBlock (partialErase free block array) block .opened).disordered = true
  · rw [if_pos hd]; exact hl
  · rw [if_neg hd]
    split
    · exact hl
    · exact Sparse.wf_filter _ _ h

theorem wf_lostArray (free block : Nat) (stage : Stage) (array : List Host.Cell)
    (h : Sparse.wf erasedByte array = true) : Sparse.wf erasedByte (lostArray free block stage array) = true := by
  unfold lostArray
  split
  · exact Sparse.wf_writeRun _ _ _ h
  · exact wf_cutErase _ _ _ h
  all_goals exact wf_abandonedArray _ _ _ _ h

theorem wf_cutArray (t : Station) (h : Sparse.wf erasedByte t.sst.array = true) :
    Sparse.wf erasedByte t.cutArray = true := by
  unfold Station.cutArray
  split
  · exact h
  · exact wf_lostArray _ _ _ _ h

theorem wf_clearedArray (block : Nat) (left array : List Host.Cell) (h : Sparse.wf erasedByte array = true) :
    Sparse.wf erasedByte (Station.clearedArray block left array) = true := by
  unfold Station.clearedArray
  have h0 := wf_eraseBlock array block h
  generalize eraseBlock array block = m at h0
  induction left generalizing m with
  | nil => exact h0
  | cons c left ih =>
    rw [List.foldl_cons]
    apply ih
    split
    · exact Sparse.wf_write _ _ _ h0
    · exact h0

/-- The array as manufacture leaves it is in canonical form. -/
theorem wf_factoryArray (station : Nat) : Sparse.wf erasedByte (factoryArray station) = true :=
  Sparse.wf_writeRun _ _ _ (Sparse.wf_writeRun _ _ _ rfl)

/-! Layers. -/

theorem wf_advance (amount : Nat) (pass : Bool) (drawn decays first : Nat → Bool) (L : Layer)
    (h : Sparse.wf 0 L.cells = true) : Sparse.wf 0 (L.advance amount pass drawn decays first).cells = true := by
  simp only [Layer.advance]
  apply Sparse.wf_mapValues
  exact Sparse.wf_foldl (0 : BitVec 8) (fun a => a) _ (L.todo.filter drawn) h

@[simp] theorem wf_clear (L : Layer) : Sparse.wf 0 L.clear.cells = true := rfl

theorem wf_prepareLayer (persist : Nat) (drawn : DrawnSnapshot) (enable : Nat) (cells : List Nat) (L : Layer)
    (h : Sparse.wf 0 L.cells = true) :
    Sparse.wf 0 (Station.prepareLayer persist drawn enable cells L).cells = true := by
  simp only [Station.prepareLayer]
  repeat' split
  all_goals first
    | exact h
    | rfl

theorem wf_finishLayer (free layer amount : Nat) (pass : Bool) (L : Layer) (h : Sparse.wf 0 L.cells = true) :
    Sparse.wf 0 (Station.finishLayer free layer amount pass L).cells = true := wf_advance _ _ _ _ _ _ h

theorem wf_decayLayer (free layer amount : Nat) (reach : DrawReach) (L : Layer) (h : Sparse.wf 0 L.cells = true) :
    Sparse.wf 0 (Station.decayLayer free layer amount reach L).cells = true := by
  simp only [Station.decayLayer]
  exact wf_advance _ _ _ _ _ _ h

theorem wf_rowLayer (free layer r amount : Nat) (pass : Bool) (reach : DrawReach) (L : Layer)
    (h : Sparse.wf 0 L.cells = true) : Sparse.wf 0 (Station.rowLayer free layer r amount pass reach L).cells = true :=
  wf_advance amount pass _ _ _ L h

/-! Sums. -/

theorem wf_foldSums (k a : Nat) (xs : List Int) : ∀ (m : Sums) (i : Nat), Sparse.wf 0 m = true →
    Sparse.wf 0 (foldSums k a m i xs) = true := by
  induction xs with
  | nil => intro m i h; exact h
  | cons x xs ih => intro m i h; exact ih _ _ (Sparse.wf_write _ _ _ h)

theorem wf_finishRecord (c : Capture) (f : Fill) (tr : FillTrigger) (coarse : Bool) (a b : Sums) (k : Nat)
    (ha : Sparse.wf 0 a = true) (hb : Sparse.wf 0 b = true) :
    Sparse.wf 0 (finishRecord c f tr coarse a b k).sumsA = true ∧
    Sparse.wf 0 (finishRecord c f tr coarse a b k).sumsB = true := by
  simp only [finishRecord]
  constructor <;> split <;> first
    | exact wf_foldSums _ _ _ _ _ ‹_›
    | assumption

/-! The annotation grid. -/

theorem wf_writeChannelReadout (station : Nat) (isB : Bool) (c : Channel) (clipped saturated : Bool)
    (grid : List (Nat × GridCell)) (h : Sparse.wf GridCell.blank grid = true) :
    Sparse.wf GridCell.blank (writeChannelReadout station isB c clipped saturated grid) = true :=
  Sparse.wf_writeRun _ _ _ h

theorem wf_writeCommonReadout (c : Common) (run : RunState) (grid : List (Nat × GridCell))
    (h : Sparse.wf GridCell.blank grid = true) : Sparse.wf GridCell.blank (writeCommonReadout c run grid) = true :=
  Sparse.wf_writeRun _ _ _ h

theorem wf_readoutGrid (straps : Straps) (c : Common) (a b : Channel) (run : RunState) (p q r s : Bool) :
    Sparse.wf GridCell.blank (readoutGrid straps c a b run p q r s) = true := by
  have h := wf_writeChannelReadout straps.station true b r s _ (wf_writeChannelReadout straps.station false a p q [] rfl)
  simp only [readoutGrid]
  split
  · exact wf_writeCommonReadout _ _ _ h
  · exact h

/-! The station. -/

/-- A station whose memories are those of another is in canonical form with it. -/
theorem memoryWf_congr {t u : Station} (h1 : u.sst = t.sst) (h2 : u.acq = t.acq) (h3 : u.rse = t.rse) :
    u.memoryWf = t.memoryWf := by simp [Station.memoryWf, h1, h2, h3]

/-- A power-on reset leaves every memory in canonical form, over an array that was. -/
theorem memoryWf_powerOn (straps : Straps) (array : List Host.Cell) (h : Sparse.wf erasedByte array = true) :
    (Station.powerOn straps array).memoryWf = true := by
  simp only [Station.memoryWf, Bool.and_eq_true]
  exact ⟨⟨⟨⟨⟨h, rfl⟩, rfl⟩, rfl⟩, rfl⟩, wf_readoutGrid _ _ _ _ _ _ _ _ _⟩

/-- Every memory of the machine right after reset is in canonical form. -/
theorem memoryWf_reset : State.reset.station.memoryWf = true := memoryWf_powerOn _ _ (wf_factoryArray _)

end Sys2Proof.Machine
end

