-- ==== Sys2Proof/Laws/Store.lean ====
section
/-! SUPPORT. What the store's shared operations give: runs of the array, what a cut-off act leaves,
    the walk of a block
(R126 to R130, R140, R147). -/

namespace Sys2Proof.Machine

/-- A position is 256 bytes long (R126). -/
@[simp] theorem readPosition_length (array : List Host.Cell) (b p : Nat) :
    (readPosition array b p).length = 256 := by simp [readPosition]

/-- A byte of a run of reads is the read of its address. -/
theorem getD_readRun (d : Byte) (m : List Host.Cell) : ∀ (n a i : Nat),
    i < n → (Sparse.readRun d m a n).getD i 0 = Sparse.read d m (a + i) := by
  intro n
  induction n with
  | zero => intro a i h; omega
  | succ n ih =>
    intro a i h
    rcases i with _ | i
    · simp [Sparse.readRun]
    · simp only [Sparse.readRun, List.getD_cons_succ]; rw [ih _ _ (by omega)]; congr 1; omega

/-- A run written reads back. -/
theorem readRun_writeRun (m : List Host.Cell) (a : Nat) (vs : List Byte) (h : Sparse.wf erasedByte m = true) :
    Sparse.readRun erasedByte (Sparse.writeRun erasedByte m a vs) a vs.length = vs := by
  apply List.ext_getElem (by simp)
  intro i h1 h2
  have h3 := getD_readRun erasedByte (Sparse.writeRun erasedByte m a vs) vs.length a i h2
  rw [List.getD_eq_getElem _ _ h1] at h3
  rw [h3, Sparse.read_writeRun_inside _ _ h h2]

/-- Programming keeps the length of what is programmed. -/
theorem length_programmed (r : Nat → Bool) (b i : List Byte) : (programmed r b i).length = i.length := by
    simp [programmed]

/-- A byte is the image's where it was reached, else as before. -/
theorem getD_programmed (r : Nat → Bool) (b im : List Byte) (i : Nat) (h : i < im.length) :
   (programmed r b im).getD i 0 = if r i then im.getD i 0 else b.getD i 0 := by
  simp [programmed, h]

/-- A cut-off write leaves as many bytes as its image has. -/
theorem length_partialImage (f : Nat) (b i : List Byte) : (partialImage f b i).length = i.length := by
  simp only [partialImage]; split <;> simp [length_programmed]

/-- A cut-off write leaves each byte the image's or as before (R140). -/
theorem partialImage_byte (f : Nat) (b im : List Byte) (i : Nat) (h : i < im.length) :
   (partialImage f b im).getD i 0 = im.getD i 0 ∨ (partialImage f b im).getD i 0 = b.getD i 0 := by
  simp only [partialImage]
  generalize hp : programmed _ b im = left
  have hl : left.length = im.length := by rw [← hp, length_programmed]
  have h1 : left.getD i 0 = im.getD i 0 ∨ left.getD i 0 = b.getD i 0 := by
    rw [← hp, getD_programmed _ _ _ _ h]; split <;> simp
  split
  · by_cases hi : i = 1
    · right; subst hi; simp [hl, h]
    · have : (left.set 1 (b.getD 1 0)).getD i 0 = left.getD i 0 := by
        simp [List.getElem?_set_ne (Ne.symm hi)]
      rw [this]; exact h1
  · exact h1

/-- A VALID image begins with the valid marker. -/
theorem marker_bytes (bs : List Byte) (h : imageValid bs = true) : bs.getD 0 0 = 0xB4 ∧ bs.getD 1 0 = 0xD2 := by
  simp only [imageValid, Bool.and_eq_true, decide_eq_true_eq] at h
  have h2 := h.1.2
  simp only [slice, show List.range 2 = [0,1] from rfl, List.map_cons, List.map_nil, leNat, Nat.zero_add] at h2
  generalize bs.getD 0 0 = x at *
  generalize bs.getD 1 0 = y at *
  have hx := x.isLt; have hy := y.isLt
  have : x.toNat = 0xB4 ∧ y.toNat = 0xD2 := by simp only [Config.validMarker] at h2; omega
  constructor
  · apply BitVec.eq_of_toNat_eq; exact this.1
  · apply BitVec.eq_of_toNat_eq; exact this.2

/-- A write cut off over a BLANK position leaves no VALID image (R126, R130). -/
theorem partialImage_invalid (f : Nat) (b im : List Byte) (hb : b.length = im.length) (hlen : 2 ≤ im.length) (hbl :
    positionBlank b = true) : imageValid (partialImage f b im) = false := by
  have hbl' : ∀ i, i < im.length → b.getD i 0 = 0xFF := by
    intro i hi
    simp only [positionBlank, List.all_eq_true, decide_eq_true_eq] at hbl
    rw [List.getD_eq_getElem _ _ (by omega)]
    exact hbl _ (List.getElem_mem _)
  by_contra hv
  simp only [Bool.not_eq_false] at hv
  obtain ⟨m0, m1⟩ := marker_bytes _ hv
  simp only [partialImage] at m0 m1
  generalize hr : (fun i => Config.programReached f i && (decide (2 ≤ i) || (List.range im.length).all (fun i => decide (i < 2) || Config.programReached f i))) = r at *
  split at m0
  · next h =>
    rw [if_pos h] at m1
    have hl : (programmed r b im).length = im.length := length_programmed _ _ _
    have h1 : (List.set (programmed r b im) 1 (b.getD 1 0)).getD 1 0 = b.getD 1 0 := by
      rw [List.getD_eq_getElem _ _ (by simp [hl]; omega)]; simp
    rw [h1, hbl' 1 (by omega)] at m1
    simp at m1
  · next h =>
    rw [if_neg h] at m1
    rw [getD_programmed _ _ _ _ (by omega)] at m0 m1
    rw [hbl' _ (by omega)] at m0 m1
    have r0 : r 0 = true := by by_contra hc; simp [hc] at m0
    have r1 : r 1 = true := by by_contra hc; simp [hc] at m1
    apply h
    apply List.ext_getElem (length_programmed _ _ _)
    intro i h1 h2
    have := getD_programmed r b im i h2
    rw [List.getD_eq_getElem _ _ h1, List.getD_eq_getElem _ _ h2] at this
    rw [this, if_pos]
    rcases Nat.lt_or_ge i 2 with h3 | h3
    · interval_cases i <;> assumption
    · rw [← hr] at r0 ⊢
      simp only [Bool.and_eq_true, Bool.or_eq_true, decide_eq_true_eq, List.all_eq_true, List.mem_range] at r0 ⊢
      refine ⟨?_, Or.inl h3⟩
      rcases r0.2 with h4 | h4
      · omega
      · rcases h4 i h2 with h5 | h5
        · omega
        · exact h5

/-- What a power loss during a write leaves has the image's length. -/
theorem length_cutWrite (f : Nat) (b im : List Byte) : (cutWrite f b im).length = im.length := by
  simp only [cutWrite]
  repeat' split
  all_goals simp [length_partialImage]

/-- A power loss during a write leaves the abandoned image, or that with one byte behind the marker programmed. -/
theorem cutWrite_cases (f : Nat) (b im : List Byte) :
    cutWrite f b im = partialImage f b im ∨
      ∃ i, 2 ≤ i ∧ i < im.length ∧ im.getD i 0 ≠ erasedByte ∧
        cutWrite f b im = (partialImage f b im).set i (im.getD i 0) := by
  simp only [cutWrite]
  split
  · split
    · next i hi =>
      have h1 := List.find?_some hi
      have h2 := List.mem_of_find?_eq_some hi
      simp only [Bool.and_eq_true, decide_eq_true_eq] at h1
      exact Or.inr ⟨i, h1.1, List.mem_range.mp h2, h1.2, rfl⟩
    · exact Or.inl rfl
  · exact Or.inl rfl

/-- Each byte of a cut-off write is the image's or that of before. -/
theorem cutWrite_byte (f : Nat) (b im : List Byte) (i : Nat) (h : i < im.length) :
    (cutWrite f b im).getD i 0 = im.getD i 0 ∨ (cutWrite f b im).getD i 0 = b.getD i 0 := by
  rcases cutWrite_cases f b im with hc | ⟨j, _, hj, _, hc⟩ <;> rw [hc]
  · exact partialImage_byte f b im i h
  · by_cases hij : i = j
    · subst hij
      left
      rw [List.getD_eq_getElem _ _ (by simpa [length_partialImage] using h)]
      simp
    · have : ((partialImage f b im).set j (im.getD j 0)).getD i 0 = (partialImage f b im).getD i 0 := by
        simp [List.getElem?_set_ne (Ne.symm hij)]
      rw [this]
      exact partialImage_byte f b im i h

/-- A power loss during a write over a BLANK position leaves no VALID image (R126, R130). -/
theorem cutWrite_invalid (f : Nat) (b im : List Byte) (hb : b.length = im.length) (hlen : 2 ≤ im.length)
    (hbl : positionBlank b = true) : imageValid (cutWrite f b im) = false := by
  simp only [cutWrite]
  split
  · next hleft =>
    split
    · next i hi =>
      have h1 := List.find?_some hi
      simp only [Bool.and_eq_true, decide_eq_true_eq] at h1
      by_contra hv
      simp only [Bool.not_eq_false] at hv
      have m0 := (marker_bytes _ hv).1
      have h0 : ((partialImage f b im).set i (im.getD i 0)).getD 0 0 = (partialImage f b im).getD 0 0 := by
        simp [List.getElem?_set_ne (show i ≠ 0 by omega)]
      have hl : 0 < (partialImage f b im).length := by rw [length_partialImage]; omega
      simp only [positionBlank, List.all_eq_true, decide_eq_true_eq] at hleft
      rw [h0, List.getD_eq_getElem _ _ hl, hleft _ (List.getElem_mem _)] at m0
      simp [erasedByte] at m0
    · exact partialImage_invalid f b im hb hlen hbl
  · exact partialImage_invalid f b im hb hlen hbl

/-- A power loss during a write leaves a position that is not BLANK, where the image has a byte behind its marker that is
not erased (R147). -/
theorem cutWrite_notBlank (f : Nat) (b im : List Byte) (him : ∃ i, 2 ≤ i ∧ i < im.length ∧ im.getD i 0 ≠ erasedByte) :
    positionBlank (cutWrite f b im) = false := by
  simp only [cutWrite]
  split
  · split
    · next i hi =>
      have h1 := List.find?_some hi
      have h2 := List.mem_range.mp (List.mem_of_find?_eq_some hi)
      simp only [Bool.and_eq_true, decide_eq_true_eq] at h1
      have hl : i < ((partialImage f b im).set i (im.getD i 0)).length := by simpa [length_partialImage] using h2
      by_contra hb
      simp only [Bool.not_eq_false, positionBlank, List.all_eq_true, decide_eq_true_eq] at hb
      have := hb _ (List.getElem_mem hl)
      simp at this
      exact h1.2 (by simpa using this)
    · next hn =>
      obtain ⟨i, h2, hi, hne⟩ := him
      refine absurd ?_ (List.find?_eq_none.mp hn i (List.mem_range.mpr hi))
      simp only [Bool.and_eq_true, decide_eq_true_eq]
      exact ⟨h2, hne⟩
  · next h => simpa using h

/-- A cut-off mark leaves four bytes. -/
theorem length_partialMark (f : Nat) (b : List Byte) : (partialMark f b).length = 4 := by
  simp only [partialMark]
  have : ∀ r, (programmed r b (leBytes 4 Config.keepPattern)).length = 4 := fun r => length_programmed _ _ _
  repeat' split
  all_goals simp [this]

/-- A cut-off mark does not leave the full pattern where it was not before (R130). -/
theorem partialMark_unset (f : Nat) (b : List Byte) (hb : b.length = 4) (h : b ≠ leBytes 4 Config.keepPattern) :
    partialMark f b ≠ leBytes 4 Config.keepPattern := by
  simp only [partialMark]
  split
  · next he =>
    have hlen : (leBytes 4 Config.keepPattern).length = 4 := rfl
    split
    · next i hi =>
      intro hc
      simp only [firstDifferent] at hi
      have h1 := List.find?_some hi
      have h2 := List.mem_of_find?_eq_some hi
      simp only [List.mem_range] at h2
      simp only [decide_eq_true_eq] at h1
      apply h1
      rw [← hc, he]
      rw [List.getD_eq_getElem (l := List.set _ _ _) _ (by simpa using h2)]
      simp
    · next hn =>
      exfalso; apply h
      simp only [firstDifferent, List.find?_eq_none, List.mem_range, decide_eq_true_eq, not_not] at hn
      apply List.ext_getElem (by rw [hb, hlen])
      intro i h1 h2
      have := hn i h2
      rwa [List.getD_eq_getElem _ _ h1, List.getD_eq_getElem _ _ h2] at this
  · next he => exact he

/-- Four bytes are known by their number. -/
theorem leNat_four_injective (a b : List Byte) (ha : a.length = 4) (hb : b.length = 4) (h : leNat a = leNat b) :
    a = b := by
  match a, ha, b, hb with
  | [a0,a1,a2,a3], _, [b0,b1,b2,b3], _ =>
    simp only [leNat] at h
    have := a0.isLt; have := a1.isLt; have := a2.isLt; have := a3.isLt
    have := b0.isLt; have := b1.isLt; have := b2.isLt; have := b3.isLt
    have e0 : a0 = b0 := BitVec.eq_of_toNat_eq (by omega)
    have e1 : a1 = b1 := BitVec.eq_of_toNat_eq (by omega)
    have e2 : a2 = b2 := BitVec.eq_of_toNat_eq (by omega)
    have e3 : a3 = b3 := BitVec.eq_of_toNat_eq (by omega)
    simp [*]

/-- The keep mark word is set when it holds the pattern. -/
theorem keepSet_iff (m : List Host.Cell) (b : Nat) :
    keepSet m b = true ↔ Sparse.readRun erasedByte m (keepAddress b) 4 = leBytes 4 Config.keepPattern := by
  simp only [keepSet, decide_eq_true_eq]
  constructor
  · intro h; apply leNat_four_injective _ _ (by simp) rfl; rw [h]; rfl
  · intro h; rw [h]; rfl

/-- The greatest epoch of a list and a start: not below any of them, and one of them. -/
theorem foldl_max_epoch (l : List Epoch) : ∀ h : Epoch,
    h.toNat ≤ (l.foldl (fun h e => if h.toNat < e.toNat then e else h) h).toNat ∧
   (∀ e ∈ l, e.toNat ≤ (l.foldl (fun h e => if h.toNat < e.toNat then e else h) h).toNat) ∧
   ((l.foldl (fun h e => if h.toNat < e.toNat then e else h) h) = h ∨
       (l.foldl (fun h e => if h.toNat < e.toNat then e else h) h) ∈ l) := by
  induction l with
  | nil => intro h; simp
  | cons a l ih =>
    intro h
    rw [List.foldl_cons]
    have hm : h.toNat ≤ (if h.toNat < a.toNat then a else h).toNat ∧
        a.toNat ≤ (if h.toNat < a.toNat then a else h).toNat ∧
      ((if h.toNat < a.toNat then a else h) = h ∨ (if h.toNat < a.toNat then a else h) = a) := by
      split <;> simp <;> omega
    generalize (if h.toNat < a.toNat then a else h) = m at hm
    obtain ⟨h1, h2, h3⟩ := ih m
    refine ⟨by omega, ?_, ?_⟩
    · intro e he
      rcases List.mem_cons.mp he with rfl | he
      · omega
      · exact h2 e he
    · rcases h3 with h3 | h3
      · rcases hm.2.2 with h4 | h4
        · left; rw [h3, h4]
        · right; rw [h3, h4]; simp
      · right; exact List.mem_cons_of_mem _ h3

/-- The entry of a block in an index built block by block. -/
theorem entry_of_range (t : Station) (f : Nat →
    IndexEntry) (h : t.sst.index = (List.range 32).map f) (b : Nat) (hb : b < 32) : t.entry b = f b := by
  simp [Station.entry, h, hb]

/-- Positions with their contents, numbered from a start. -/
abbrev numbered (k : Nat) (cs : List (List Byte)) : List (Nat × List Byte) := (cs.zipIdx k).map (fun c => (c.2, c.1))

/-- One position of the walk of R128. -/
theorem walk_cons (p : Nat × List Byte) (ps : List (Nat × List Byte)) (acc : List (Nat × Epoch)) :
    walk (p :: ps) acc =
    if positionBlank p.2 then (acc, some p.1, ps.any (fun q => !positionBlank q.2))
    else if imageValid p.2 then
      match acc with
      | [] => walk ps [(p.1, imageEpoch p.2)]
      | g :: acc =>
        if decide (g.2.toNat < (imageEpoch p.2).toNat) then walk ps ((p.1,
            imageEpoch p.2) :: g :: acc) else walk ps (g :: acc)
    else walk ps acc := by
  cases acc <;> rfl

/-- The generations that a walk finds (R128). -/
theorem walk_mem (cs : List (List Byte)) : ∀ (k : Nat) (acc : List (Nat × Epoch)) (p : Nat) (e : Epoch),
    (p, e) ∈ (walk (numbered k cs) acc).1 ↔ (p, e) ∈ acc ∨
      ∃ j, ∃ h : j < (cs.takeWhile (fun c => !positionBlank c)).length, p = k + j ∧
        imageValid (cs.takeWhile (fun c => !positionBlank c))[j] = true ∧
            imageEpoch (cs.takeWhile (fun c => !positionBlank c))[j] = e ∧
        (∀ (q : Nat) (hq : q < j), imageValid ((cs.takeWhile (fun c => !positionBlank c))[q]'(by omega)) = true →
          (imageEpoch ((cs.takeWhile (fun c => !positionBlank c))[q]'(by omega))).toNat < e.toNat) ∧
        (∀ g, acc.head? = some g → g.2.toNat < e.toNat) := by
  induction cs with
  | nil => intro k acc p e; simp [walk, numbered]
  | cons c cs ih =>
    intro k acc p e
    have hz : numbered k (c :: cs) = (k, c) :: numbered (k+1) cs := by simp [numbered]
    rw [hz, walk_cons]
    by_cases hb : positionBlank c = true
    · simp [hb]
    · simp only [hb, List.takeWhile_cons, Bool.not_eq_true] at *
      simp only [Bool.not_false, if_true, Bool.false_eq_true, if_false]
      have shift : ∀ (acc' : List (Nat × Epoch)),
        (∃ j, ∃ h : j < (cs.takeWhile (fun c => !positionBlank c)).length, p = k + 1 + j ∧
        imageValid (cs.takeWhile (fun c => !positionBlank c))[j] = true ∧
            imageEpoch (cs.takeWhile (fun c => !positionBlank c))[j] = e ∧
        (∀ (q : Nat) (hq : q < j), imageValid ((cs.takeWhile (fun c => !positionBlank c))[q]'(by omega)) = true →
          (imageEpoch ((cs.takeWhile (fun c => !positionBlank c))[q]'(by omega))).toNat < e.toNat) ∧
        (∀ g, acc'.head? = some g → g.2.toNat < e.toNat)) ∧ (imageValid c = true → (imageEpoch c).toNat < e.toNat) ↔
        (∃ j, ∃ h : j < (c :: cs.takeWhile (fun c => !positionBlank c)).length, j ≠ 0 ∧ p = k + j ∧
        imageValid (c :: cs.takeWhile (fun c => !positionBlank c))[j] = true ∧
            imageEpoch (c :: cs.takeWhile (fun c => !positionBlank c))[j] = e ∧
        (∀ (q : Nat) (hq : q < j), imageValid ((c :: cs.takeWhile (fun c => !positionBlank c))[q]'(by omega)) = true →
          (imageEpoch ((c :: cs.takeWhile (fun c => !positionBlank c))[q]'(by omega))).toNat < e.toNat) ∧
        (∀ g, acc'.head? = some g → g.2.toNat < e.toNat)) := by
        intro acc'
        constructor
        · rintro ⟨⟨j, hj, h1, h2, h3, h4, h5⟩, h6⟩
          refine ⟨j+1, by simp; omega, by omega, by omega, by simpa using h2, by simpa using h3, ?_, h5⟩
          intro q hq hv
          rcases q with _ | q
          · simpa using h6 (by simpa using hv)
          · simpa using h4 q (by omega) (by simpa using hv)
        · rintro ⟨j, hj, h0, h1, h2, h3, h4, h5⟩
          rcases j with _ | j
          · omega
          refine ⟨⟨j, by simpa using hj, by omega, by simpa using h2, by simpa using h3, ?_, h5⟩, ?_⟩
          · intro q hq hv
            simpa using h4 (q+1) (by omega) (by simpa using hv)
          · intro hv; simpa using h4 0 (by omega) (by simpa using hv)
      by_cases hv : imageValid c = true
      · simp only [hv, if_true]
        cases acc with
        | nil =>
          rw [ih]
          simp only [List.mem_singleton, Prod.mk.injEq, List.not_mem_nil, false_or]
          constructor
          · rintro (⟨rfl, rfl⟩ | ⟨j, hj, h1, h2, h3, h4, h5⟩)
            · exact ⟨0, by simp, by omega, by simpa using hv, by simp, by intro q hq; omega, by simp⟩
            · obtain ⟨j, hj, _, r⟩ := (shift [(k, imageEpoch c)]).mp ⟨⟨j, hj, h1, h2, h3, h4, h5⟩, fun _ => h5 _ rfl⟩
              exact ⟨j, hj, r.1, r.2.1, r.2.2.1, r.2.2.2.1, by simp⟩
          · rintro ⟨j, hj, h1, h2, h3, h4, h5⟩
            by_cases h0 : j = 0
            · subst h0; left; exact ⟨by omega, by simpa using h3.symm⟩
            · right
              have h6 : (imageEpoch c).toNat < e.toNat := by simpa using h4 0 (by omega) (by simpa using hv)
              exact ((shift [(k, imageEpoch c)]).mpr ⟨j, hj, h0, h1, h2, h3, h4, by simpa using h6⟩).1
        | cons g acc =>
          by_cases hg : g.2.toNat < (imageEpoch c).toNat
          · simp only [hg, decide_true, if_true]
            rw [ih]
            simp only [List.mem_cons, Prod.mk.injEq]
            constructor
            · rintro ((⟨rfl, rfl⟩ | hm) | ⟨j, hj, h1, h2, h3, h4, h5⟩)
              · right; exact ⟨0, by simp, by omega, by simpa using hv, by simp, by intro q hq; omega,
                    by simpa using hg⟩
              · left; exact hm
              · right
                have h6 := h5 _ rfl
                obtain ⟨j, hj, _, r⟩ := (shift ((k, imageEpoch c) :: g :: acc)).mp ⟨⟨j, hj, h1, h2, h3, h4, h5⟩,
                    fun _ => h5 _ rfl⟩
                exact ⟨j, hj, r.1, r.2.1, r.2.2.1, r.2.2.2.1, by simp; simp at h6; omega⟩
            · rintro (hm | ⟨j, hj, h1, h2, h3, h4, h5⟩)
              · left; right; exact hm
              · by_cases h0 : j = 0
                · subst h0; left; left; exact ⟨by omega, by simpa using h3.symm⟩
                · right
                  have h6 : (imageEpoch c).toNat < e.toNat := by simpa using h4 0 (by omega) (by simpa using hv)
                  exact ((shift ((k, imageEpoch c) :: g :: acc)).mpr ⟨j, hj, h0, h1, h2, h3, h4, by simpa using h6⟩).1
          · simp only [hg, decide_false, Bool.false_eq_true, if_false]
            rw [ih]
            constructor
            · rintro (hm | ⟨j, hj, h1, h2, h3, h4, h5⟩)
              · left; exact hm
              · right
                have h6 := h5 _ rfl
                obtain ⟨j, hj, _, r⟩ := (shift (g :: acc)).mp ⟨⟨j, hj, h1, h2, h3, h4, h5⟩, fun _ => by omega⟩
                exact ⟨j, hj, r⟩
            · rintro (hm | ⟨j, hj, h1, h2, h3, h4, h5⟩)
              · left; exact hm
              · right
                have h6 := h5 _ rfl
                by_cases h0 : j = 0
                · subst h0; simp at h3; subst h3; omega
                · exact ((shift (g :: acc)).mpr ⟨j, hj, h0, h1, h2, h3, h4, h5⟩).1
      · simp only [hv, Bool.false_eq_true, if_false]
        rw [ih]
        constructor
        · rintro (hm | ⟨j, hj, h1, h2, h3, h4, h5⟩)
          · left; exact hm
          · right
            obtain ⟨j, hj, _, r⟩ := (shift acc).mp ⟨⟨j, hj, h1, h2, h3, h4, h5⟩, fun h => absurd h hv⟩
            exact ⟨j, hj, r⟩
        · rintro (hm | ⟨j, hj, h1, h2, h3, h4, h5⟩)
          · left; exact hm
          · right
            by_cases h0 : j = 0
            · subst h0; simp at h2; exact absurd h2 hv
            · exact ((shift acc).mpr ⟨j, hj, h0, h1, h2, h3, h4, h5⟩).1

/-- The generations stand in rising position and rising epoch (R129). -/
theorem walk_pairwise (cs : List (List Byte)) : ∀ (k : Nat) (acc : List (Nat × Epoch)),
    acc.Pairwise (fun a b => b.1 < a.1 ∧ b.2.toNat < a.2.toNat) → (∀ g ∈ acc, g.1 < k) →
    (walk (numbered k cs) acc).1.Pairwise (fun a b => b.1 < a.1 ∧ b.2.toNat < a.2.toNat) := by
  induction cs with
  | nil => intro k acc h _; simpa [walk, numbered]
  | cons c cs ih =>
    intro k acc h hk
    have hz : numbered k (c :: cs) = (k, c) :: numbered (k+1) cs := by simp [numbered]
    have hk' : ∀ g ∈ acc, g.1 < k+1 := fun g hg => by have := hk g hg; omega
    rw [hz, walk_cons]
    split
    · exact h
    split
    · split
      · apply ih
        · simp
        · simp
      · next g acc _ _ =>
        split
        · next hg =>
          simp only [decide_eq_true_eq] at hg
          apply ih
          · rw [List.pairwise_cons]
            refine ⟨?_, h⟩
            intro b hb
            refine ⟨hk b hb, ?_⟩
            rcases List.mem_cons.mp hb with rfl | hb
            · exact hg
            · have := (List.pairwise_cons.mp h).1 b hb; show b.2.toNat < (imageEpoch c).toNat; omega
          · intro x hx
            rcases List.mem_cons.mp hx with rfl | hx
            · simp
            · exact hk' x hx
        · exact ih _ _ h hk'
    · exact ih _ _ h hk'

/-- Numbering positions does not change what is not BLANK. -/
theorem numbered_any (k : Nat) (cs : List (List Byte)) :
    (numbered k cs).any (fun q => !positionBlank q.2) = cs.any (fun c => !positionBlank c) := by
  induction cs generalizing k with
  | nil => rfl
  | cons c cs ih => 
    have hz : numbered k (c :: cs) = (k, c) :: numbered (k+1) cs := by simp [numbered]
    rw [hz, List.any_cons, List.any_cons, ih]

/-- The next BLANK position and DISORDERED that a walk finds (R128). -/
theorem walk_next (cs : List (List Byte)) : ∀ (k : Nat) (acc : List (Nat × Epoch)),
    (walk (numbered k cs) acc).2.1 = (if (cs.takeWhile (fun c => !positionBlank c)).length < cs.length then some (k + (cs.takeWhile (fun c => !positionBlank c)).length) else none) ∧
    (walk (numbered k cs) acc).2.2 = (cs.drop (cs.takeWhile (fun c => !positionBlank c)).length).any (fun c => !positionBlank c) := by
  induction cs with
  | nil => intro k acc; simp [walk, numbered]
  | cons c cs ih =>
    intro k acc
    have hz : numbered k (c :: cs) = (k, c) :: numbered (k+1) cs := by simp [numbered]
    rw [hz, walk_cons]
    by_cases hb : positionBlank c = true
    · simp only [hb, if_true, List.takeWhile_cons]
      refine ⟨by simp, ?_⟩
      simpa [hb] using numbered_any (k+1) cs
    · simp only [Bool.not_eq_true] at hb
      have hl : ∀ acc', (walk (numbered (k+1) cs) acc').2.1 = (if ((c :: cs).takeWhile (fun c => !positionBlank c)).length < (c :: cs).length then some (k + ((c :: cs).takeWhile (fun c => !positionBlank c)).length) else none) ∧
        (walk (numbered (k+1) cs) acc').2.2 = ((c :: cs).drop ((c :: cs).takeWhile (fun c => !positionBlank c)).length).any (fun c => !positionBlank c) := by
        intro acc'
        have h3 := ih (k+1) acc'
        rw [List.takeWhile_cons]
        simp only [hb, Bool.not_false, if_true, List.length_cons, List.drop_succ_cons]
        refine ⟨?_, h3.2⟩
        rw [h3.1]
        have e : k + ((cs.takeWhile (fun c => !positionBlank c)).length + 1) = k + 1 + (cs.takeWhile (fun c => !positionBlank c)).length := by omega
        rw [e]
        simp
      simp only [hb, Bool.false_eq_true, if_false]
      repeat' split
      all_goals first | exact hl _ | (refine ⟨(hl _).1.trans ?_, (hl _).2⟩; rw [if_pos (by assumption)]) | (refine ⟨(hl _).1.trans ?_, (hl _).2⟩; rw [if_neg (by assumption)])

end Sys2Proof.Machine
end

