-- ==== Sys2Proof/Laws/Array.lean ====
section
/-! SUPPORT. What the acts of the sequencer leave of the store's array: an abandoned act (R140, R144), and a clear's
verify (R137, R138, R141). -/

namespace Sys2Proof.Machine

/-- What a run of bytes written leaves: every other address reads as before, and each of its own reads as one of two
values where the run's byte does. -/
theorem read_writeRun_either (m : List Host.Cell) (a : Nat) (vs image : List Byte) (n : Nat)
    (h : Sparse.wf erasedByte m = true) (hl : vs.length = image.length)
    (hv : ∀ i, i < image.length →
      vs.getD i 0 = image.getD i 0 ∨ vs.getD i 0 = (Sparse.readRun erasedByte m a n).getD i 0) (hn : image.length ≤ n)
    (i : Nat) (hi : i < image.length) :
    Sparse.read erasedByte (Sparse.writeRun erasedByte m a vs) (a + i) = image[i] ∨
      Sparse.read erasedByte (Sparse.writeRun erasedByte m a vs) (a + i) = Sparse.read erasedByte m (a + i) := by
  have hi' : i < vs.length := hl ▸ hi
  rw [Sparse.read_writeRun_inside _ _ h hi', ← List.getD_eq_getElem vs 0 hi', ← List.getD_eq_getElem image 0 hi,
    ← getD_readRun erasedByte m n a i (by omega)]
  exact hv i hi

/-- What an abandoned act leaves of the array (R140, R144, log 7). -/
theorem abandonedArray_leaves (free block : Nat) (stage : Stage) (array : List Host.Cell)
    (h : Sparse.wf erasedByte array = true) :
    abandonLeaves block stage array (abandonedArray free block stage array) := by
  refine ⟨?_, ?_, ?_, ?_⟩
  · rintro p image last start rfl hlen
    have hl : (partialImage free (readPosition array block p) image).length = 256 :=
      (length_partialImage ..).trans hlen
    refine ⟨fun a ha => Sparse.read_writeRun_outside _ _ h (by rw [hl]; exact ha), fun i hi => ?_, fun hb => ?_⟩
    · exact read_writeRun_either array _ _ image 256 h (length_partialImage ..)
        (fun j hj => partialImage_byte free _ image j hj) hlen.le i hi
    · have := readRun_writeRun array (positionAddress block p) (partialImage free (readPosition array block p) image) h
      rw [hl] at this
      simp only [abandonedArray]
      rw [readPosition, this]
      exact partialImage_invalid free _ image (by simp [hlen]) (by omega) hb
  · rintro start rfl
    have hl := length_partialMark free (Sparse.readRun erasedByte array (keepAddress block) 4)
    refine ⟨fun a ha => Sparse.read_writeRun_outside _ _ h (by rw [hl]; exact ha), fun hk => ?_⟩
    rw [Bool.eq_false_iff, Ne, keepSet_iff] at hk ⊢
    have := readRun_writeRun array (keepAddress block)
      (partialMark free (Sparse.readRun erasedByte array (keepAddress block) 4)) h
    rw [hl] at this
    simp only [abandonedArray]
    rw [this]
    exact partialMark_unset free _ (by simp) hk
  · rintro spent since rfl
    simp only [abandonedArray, partialErase]
    refine ⟨fun a ha => ?_, fun a _ => ?_⟩
    · exact Sparse.read_filter_kept erasedByte (fun b => !(inBlock block b && Config.eraseReached free b))
        (by simp [ha])
    · cases hp : !(inBlock block a && Config.eraseReached free a) with
      | true =>
        exact .inr (Sparse.read_filter_kept erasedByte (fun b => !(inBlock block b && Config.eraseReached free b)) hp)
      | false =>
        exact .inl (Sparse.read_filter_dropped erasedByte (fun b => !(inBlock block b && Config.eraseReached free b)) hp)
  · rintro p (rfl | rfl) <;> rfl

/-- The two ranges of a block's offsets give its addresses, each by one offset. -/
theorem blockAddress_injective (block x y : Nat) (hb : block ≤ 31) (hx : x < 4100) (hy : y < 4100)
    (h : blockAddress block x = blockAddress block y) : x = y := by
  unfold blockAddress keepAddress at h
  split at h <;> split at h <;> omega

/-- An offset of a block gives an address of it. -/
theorem inBlock_blockAddress (block x : Nat) (hb : block ≤ 31) (hx : x < 4100) :
    inBlock block (blockAddress block x) = true := by
  unfold inBlock blockAddress keepAddress
  simp only [Bool.or_eq_true, Bool.and_eq_true, decide_eq_true_eq]
  split <;> omega

/-- What a byte of the array reads as after a clear whose verify found these bytes not erased: the last given of its
offset, else erased in the block and as before elsewhere (R137, R138, R141, log 8). -/
theorem read_clearedArray (block a : Nat) (left array : List Host.Cell) (h : Sparse.wf erasedByte array = true) :
    Sparse.read erasedByte (Station.clearedArray block left array) a =
      match left.reverse.find? (fun x => decide (x.1 < 4100) && decide (blockAddress block x.1 = a)) with
      | some x => x.2
      | none => if inBlock block a then erasedByte else Sparse.read erasedByte array a := by
  have h0 := wf_eraseBlock array block h
  have hr : Sparse.read erasedByte (eraseBlock array block) a =
      if inBlock block a then erasedByte else Sparse.read erasedByte array a := by
    simp only [eraseBlock]
    split
    · next hb => exact Sparse.read_filter_dropped erasedByte (fun b => !inBlock block b) (by simp [hb])
    · next hb => exact Sparse.read_filter_kept erasedByte (fun b => !inBlock block b) (by simpa using hb)
  rw [← hr, Station.clearedArray]
  clear hr
  generalize eraseBlock array block = m at h0 ⊢
  induction left generalizing m with
  | nil => rfl
  | cons c left ih =>
    rw [List.foldl_cons, List.reverse_cons, List.find?_append]
    by_cases hc : c.1 < 4100
    · rw [if_pos hc, ih _ (Sparse.wf_write _ _ _ h0)]
      cases left.reverse.find? _ with
      | some x => rfl
      | none =>
        simp only [Option.none_or, List.find?_cons, List.find?_nil, hc, decide_true, Bool.true_and,
          Sparse.read_write erasedByte (lo := 0) (by simp only [Sparse.wf, Bool.and_eq_true] at h0; exact h0.1)]
        by_cases ha : blockAddress block c.1 = a
        · subst ha; simp
        · simp [ha, Ne.symm ha]
    · rw [if_neg hc, ih _ h0]
      cases left.reverse.find? _ <;> simp [hc]

/-- An act abandoned at a station leaves its array so (R140, R144, log 7). -/
theorem abandon_leaves (t : Station) (c : Current) (o : OutcomeCode) (h : Sparse.wf erasedByte t.sst.array = true) :
    abandonLeaves c.request.block c.stage t.sst.array (t.abandon c o).sst.array := by
  have ha : (t.abandon c o).sst.array = abandonedArray t.free c.request.block c.stage t.sst.array := by
    rw [Station.abandon, (failCurrent_sst _ c o _).choose_spec]
    split <;> rfl
  rw [ha]
  exact abandonedArray_leaves _ _ _ _ h

end Sys2Proof.Machine
end

