-- ==== Sys2Proof/Laws/Close.lean ====
section
/-! SUPPORT. What a flip leaves and shows, and what the close of an operation leaves (R90, R125, R151, R158, R159):
one lemma for each shared operation on the way to `closeOp_leaves`. -/

namespace Sys2Proof.Machine

/-- Following the run state leaves the windows. -/
theorem followRun_windows (t : Station) (x : Nat) : (t.followRun x).smg.windows = t.smg.windows := by
  have hw : ∀ (t : Station) b w, (t.sendWord b w x).smg.windows = t.smg.windows := by
    intro t b w; simp only [Station.sendWord]; repeat' split
    all_goals simp
  simp only [Station.followRun, Station.enterPreparing, Station.takeCapture]
  split
  · rw [show ∀ u : Station, u.settleAcq.smg = u.smg from fun u => by simp, hw, hw]
  · simp

/-- A flip performed leaves the window LIVE and the old LIVE window FREE (R159). -/
theorem flipNow_windows (t : Station) (x i : Nat) (h : t.flipIndex = some i) :
    (t.flipNow x).smg.windows =
      (t.smg.windows.set t.liveIndex Window.blank).set i (Station.flippedWindow (t.smg.windows.get i)) := by
  have hf : t.flipPending = true := by simp [Station.flipPending, h]
  rw [Station.flipNow, if_pos hf, followRun_windows]
  simp [Station.flip, h]

/-- The windows after meeting the boundary with a flip pending (R59). -/
theorem meetBoundary_windows (t : Station) (x i : Nat) (h : t.flipIndex = some i) :
    (t.meetBoundary x).smg.windows =
      if t.acq.state = .posttrig ∨ t.acq.state = .aligning then t.smg.windows
      else (t.smg.windows.set t.liveIndex Window.blank).set i (Station.flippedWindow (t.smg.windows.get i)) := by
  have hf : t.flipPending = true := by simp [Station.flipPending, h]
  have hd : t.dropRecord.smg = t.smg := by simp
  have hdf : t.dropRecord.flipIndex = some i := by simp only [Station.flipIndex, hd]; exact h
  have hdl : t.dropRecord.liveIndex = t.liveIndex := by simp only [Station.liveIndex, hd]
  simp only [Station.meetBoundary]
  cases hs : t.acq.state <;> simp [hf, flipNow_windows _ _ _ h, flipNow_windows _ _ _ hdf, hdl]

/-- Following the run state leaves run state, layers, the restart of averaging and the own no-live flag. -/
theorem followRun_keeps (t : Station) (x : Nat) :
    (t.followRun x).tgu = t.tgu ∧ (t.followRun x).rse = t.rse ∧ (t.followRun x).lif = t.lif ∧
    (t.followRun x).acq.restartPending = t.acq.restartPending := by
  have hw : ∀ (t : Station) b w, (t.sendWord b w x).acq.restartPending = t.acq.restartPending := by
    intro t b w; simp only [Station.sendWord]; repeat' split
    all_goals rfl
  have hs : ∀ t : Station, t.settleAcq.acq.restartPending = t.acq.restartPending := by
    intro t; simp only [Station.settleAcq, Station.reserve]; repeat' split
    all_goals rfl
  refine ⟨by simp, by simp, by simp, ?_⟩
  simp only [Station.followRun, Station.enterPreparing, Station.takeCapture]
  split
  · rw [hs, hw, hw]
  · rfl

/-- Rebuilding the readouts leaves the draw in progress (R90). -/
@[simp] theorem rebuildAll_draw (t : Station) : t.rebuildAll.rse.draw = t.rse.draw := by
  simp only [Station.rebuildAll, Station.rebuildCommon]; split <;> rfl

/-- A clear of both layers is performed at once, or pending while a draw is in progress (R67). -/
theorem requestClear_layers (t : Station) :
    (t.rse.draw = none → ∀ a, (t.requestClear true true).rse.layerA.cell a = 0 ∧
      (t.requestClear true true).rse.layerB.cell a = 0) ∧
    (t.rse.draw ≠ none → (t.requestClear true true).rse.layerA.clearPending = true ∧
      (t.requestClear true true).rse.layerB.clearPending = true) := by
  simp only [Station.requestClear]
  refine ⟨?_, ?_⟩
  · intro h a
    rw [if_pos (by simp [h])]
    simp [Station.performClears, Layer.clear, Layer.cell, Sparse.read]
  · intro h
    rw [if_neg (by simpa using h)]
    simp

/-- What a flip performed leaves beside the windows (R125, R159). -/
theorem flipNow_flips (t : Station) (x i : Nat) (h : t.flipIndex = some i) :
    t.flippedIn (t.flipNow x) (t.smg.windows.get i).runState := by
  have hf : t.flipPending = true := by simp [Station.flipPending, h]
  obtain ⟨h1, h2, h3, h4⟩ := followRun_keeps t.flip x
  have ht := flip_tgu t i h
  rw [Station.flipNow, if_pos hf]
  refine ⟨?_, ?_, ?_, ?_, ?_, ?_⟩
  · intro hs; rw [h1, ht]; simp [hs]
  · intro hs; rw [h1, ht]; simp [hs]
  · rw [h4, flip_acq t i h]
  · rw [h3]; simp [Station.flip, h]
  · intro hd a
    rw [h2]; simp only [Station.flip, h]
    refine (requestClear_layers _).1 ?_ a
    rw [rebuildAll_draw]; exact hd
  · intro hd
    rw [h2]; simp only [Station.flip, h]
    refine (requestClear_layers _).2 (fun k => hd ?_)
    rw [rebuildAll_draw] at k; exact k

/-- What meeting the boundary with a flip pending leaves, where the flip does not wait (R59, R125). -/
theorem meetBoundary_flips (t : Station) (x i : Nat) (h : t.flipIndex = some i)
    (hb : ¬ (t.acq.state = .posttrig ∨ t.acq.state = .aligning)) :
    t.flippedIn (t.meetBoundary x) (t.smg.windows.get i).runState := by
  have hf : t.flipPending = true := by simp [Station.flipPending, h]
  have hd : t.dropRecord.smg = t.smg := by simp
  have hdf : t.dropRecord.flipIndex = some i := by simp only [Station.flipIndex, hd]; exact h
  have hk := flipNow_flips t.dropRecord x i hdf
  have hr : t.dropRecord.tgu.run = t.tgu.run := by simp only [Station.dropRecord]; split <;> rfl
  have hdrop : t.flippedIn (t.dropRecord.flipNow x) (t.smg.windows.get i).runState := by
    rw [hd] at hk
    simpa [Station.flippedIn, hr] using hk
  simp only [Station.meetBoundary]
  cases hs : t.acq.state <;> simp_all [flipNow_flips]

/-- In windows none of which flips, the one taken as STAGED, flip pending, is the one to flip. -/
theorem find_taken (q : Quad Window) (i : Nat) (w : Window) (hi : i < 4) (hr : w.role = .staged)
    (hp : w.flipPending = true) (h : q.find (fun w => decide (w.role = .staged) && w.flipPending) = none) :
    (q.set i w).find (fun w => decide (w.role = .staged) && w.flipPending) = some i := by
  simp only [Quad.find] at h ⊢
  repeat' split at h
  all_goals first
    | contradiction
    | (interval_cases i <;> simp only [Quad.set, hr, hp, decide_true, Bool.and_self, if_true] <;>
        simp only [*, Bool.false_eq_true, reduceIte])

/-- A FREE window taken as STAGED leaves which window is LIVE. -/
theorem find_live_taken (q : Quad Window) (i : Nat) (w : Window) (hi : i < 4) (hr : w.role = .staged)
    (h : (q.get i).role = .free) :
    (q.set i w).find (fun w => decide (w.role = .live)) = q.find (fun w => decide (w.role = .live)) := by
  simp only [Quad.find]
  interval_cases i <;> simp_all [Quad.set, Quad.get]

/-- The flip to the built-in defaults leaves them in the window of a pending flip, or in the lowest-numbered FREE window,
which waits in POSTTRIG and ALIGNING and else is LIVE (R158). -/
theorem defaultsFlip_windows (t : Station) (x i : Nat) :
    let d := Window.builtIn t.straps.station
    let staged : Window := { d with role := .staged, epoch := some 0, flipPending := true }
    (t.flipIndex = some i → (t.defaultsFlip x).smg.windows = t.smg.windows.set i staged) ∧
    (t.flipIndex = none → t.freeIndex = some i →
      (t.defaultsFlip x).smg.windows =
        if t.acq.state = .posttrig ∨ t.acq.state = .aligning then t.smg.windows.set i staged
        else (t.smg.windows.set t.liveIndex Window.blank).set i { d with role := .live }) := by
  intro d staged
  refine ⟨?_, ?_⟩
  · intro h; simp only [Station.defaultsFlip, h]; rfl
  · intro h hf
    obtain ⟨hi, hr⟩ := Quad.find_some _ _ _ hf
    have hr' : (t.smg.windows.get i).role = .free := by simpa using hr
    simp only [Station.defaultsFlip, h, Station.takeStaged, hf]
    have hfl : (Station.restartSettle x (t.setWindow i staged)).flipIndex = some i :=
      find_taken _ _ _ hi rfl rfl h
    have hli : (Station.restartSettle x (t.setWindow i staged)).liveIndex = t.liveIndex := by
      show (Quad.find _ (t.smg.windows.set i staged)).getD 0 = _
      rw [find_live_taken _ _ staged hi rfl hr']; rfl
    have := meetBoundary_windows (Station.restartSettle x (t.setWindow i staged)) x i hfl
    rw [hli] at this
    refine this.trans ?_
    show (if t.acq.state = .posttrig ∨ t.acq.state = .aligning then t.smg.windows.set i staged
      else ((t.smg.windows.set i staged).set t.liveIndex Window.blank).set i
        (Station.flippedWindow ((t.smg.windows.set i staged).get i))) = _
    rw [Quad.get_set_same _ _ _ hi]
    split
    · rfl
    · have hc : ∀ (q : Quad Window) (j : Nat) (a b c : Window), ((q.set i a).set j b).set i c = (q.set j b).set i c := by
        intro q j a b c
        match j with
        | 0 | 1 | 2 | 3 => interval_cases i <;> rfl
        | n + 4 => interval_cases i <;> rfl
      rw [hc]; rfl

/-- What the chain's move at a close leaves: SMG but for the chain, and a transmit list with at most a RECALL more. -/
theorem chainAtClose_leaves (t : Station) (kind : OpKind) (c : OutcomeCode) :
    let u := t.chainAtClose kind c
    { u.smg with chain := t.smg.chain, chainWait := t.smg.chainWait, keptChain := t.smg.keptChain } = t.smg ∧
    { u.lif with tx := t.lif.tx } = t.lif ∧ (∀ e ∈ u.lif.tx, e ∈ t.lif.tx ∨ e.msg.isAnswer = false) ∧
    { u with lif := t.lif, smg := t.smg } = t := by
  have hc : ∀ k, let u := t.chainTo k
      { u.smg with chain := t.smg.chain, chainWait := t.smg.chainWait, keptChain := t.smg.keptChain } = t.smg ∧
      { u.lif with tx := t.lif.tx } = t.lif ∧ (∀ e ∈ u.lif.tx, e ∈ t.lif.tx ∨ e.msg.isAnswer = false) ∧
      { u with lif := t.lif, smg := t.smg } = t := by
    intro k
    simp only [Station.chainTo, Station.offerChain]
    split
    · refine ⟨rfl, rfl, ?_, rfl⟩
      intro e he
      simp only [Station.place, List.mem_append, List.mem_singleton] at he
      rcases he with h | rfl
      · exact .inl h
      · exact .inr rfl
    · exact ⟨rfl, rfl, fun e he => .inl he, rfl⟩
  have hq : ∀ k w, let u : Station := { t with smg := { t.smg with chain := k, chainWait := w } }
      { u.smg with chain := t.smg.chain, chainWait := t.smg.chainWait, keptChain := t.smg.keptChain } = t.smg ∧
      { u.lif with tx := t.lif.tx } = t.lif ∧ (∀ e ∈ u.lif.tx, e ∈ t.lif.tx ∨ e.msg.isAnswer = false) ∧
      { u with lif := t.lif, smg := t.smg } = t := fun k w => ⟨rfl, rfl, fun e he => .inl he, rfl⟩
  simp only [Station.chainAtClose]
  repeat' split
  all_goals first
    | exact hc _
    | exact hq _ _

/-- Windows after the freeing of a close (R151). -/
theorem windows_afterClose (t : Station) :
    (t.freeWindows (fun w => decide (w.role = .staged) && !w.flipPending)).smg.windows =
      t.smg.windows.map Window.afterClose := by
  simp only [Station.freeWindows]
  congr 1
  funext w
  simp [Window.afterClose]

/-- What the flip to the built-in defaults leaves beside the windows, where it does not wait (R158). -/
theorem defaultsFlip_flips (t : Station) (x i : Nat) (h : t.flipIndex = none) (hf : t.freeIndex = some i)
    (hb : ¬ (t.acq.state = .posttrig ∨ t.acq.state = .aligning)) : t.flippedIn (t.defaultsFlip x) .running := by
  obtain ⟨hi, -⟩ := Quad.find_some _ _ _ hf
  simp only [Station.defaultsFlip, h, Station.takeStaged, hf]
  generalize hs : ({ Window.builtIn t.straps.station with
    epoch := some 0, role := .staged, flipPending := true } : Window) = staged
  have hr : staged.role = .staged ∧ staged.flipPending = true ∧ staged.runState = .running := by
    subst hs; exact ⟨rfl, rfl, rfl⟩
  have hfl : (Station.restartSettle x (t.setWindow i staged)).flipIndex = some i :=
    find_taken _ _ _ hi hr.1 hr.2.1 h
  have hk := meetBoundary_flips (Station.restartSettle x (t.setWindow i staged)) x i hfl hb
  have hw : (Station.restartSettle x (t.setWindow i staged)).smg.windows.get i = staged := Quad.get_set_same _ _ _ hi
  rw [hw, hr.2.2] at hk
  exact hk

/-- The settings of SMG that the flip to the built-in defaults leaves (R158). -/
theorem defaultsFlip_smg (t : Station) (x : Nat) :
    (t.defaultsFlip x).smg.settle = some (x + 10000 * Config.ms) ∧ (t.defaultsFlip x).smg.untracked = true ∧
    (t.defaultsFlip x).smg.due = false ∧ (t.defaultsFlip x).smg.highest = t.smg.highest := by
  simp only [Station.defaultsFlip]
  split
  · exact ⟨rfl, rfl, rfl, rfl⟩
  · have h := startKeeps_meetBoundary
      (Station.restartSettle x (t.takeStaged { Window.builtIn t.straps.station with epoch := some 0 })) x
    have hh :
        (Station.restartSettle x (t.takeStaged { Window.builtIn t.straps.station with epoch := some 0 })).smg.highest =
          t.smg.highest := by
      simp only [Station.takeStaged]; split <;> rfl
    exact ⟨h.settle.trans rfl, h.unt.trans rfl, h.due.trans rfl, h.hi.trans hh⟩

/-- A text aligned to the left of a field fills it. -/
theorem length_alignLeft (w : Nat) (t : List Nat) : (alignLeft w t).length = w := by
  simp only [alignLeft, List.length_append, List.length_take, List.length_replicate]; omega

/-- A text aligned to the right of a field fills it. -/
theorem length_alignRight (w : Nat) (t : List Nat) : (alignRight w t).length = w := by
  simp only [alignRight, List.length_append, List.length_drop, List.length_replicate]; omega

/-- A channel's readout has twelve cells (R88). -/
theorem length_channelReadout (n : Nat) (c : Channel) (p q : Bool) : (channelReadout n c p q).length = 12 := by
  have h2 : (fontCodes "CH").length = 2 := by decide
  simp only [channelReadout, channelText, nameText]
  repeat' split
  all_goals simp [length_alignLeft, length_alignRight, h2]

/-- The common readout has fifty cells (R89). -/
theorem length_commonReadout (c : Common) (r : RunState) : (commonReadout c r).length = 50 := by
  have h2 : (fontCodes "CH").length = 2 := by decide
  have h4 : (fontCodes (if c.runmode = 0 then "AUTO" else "NORM")).length = 4 := by split <;> decide
  simp [commonReadout, length_alignLeft, length_alignRight, h2, h4]

/-- Rebuilding every readout shows the LIVE window's values and the run state (R88 to R90). -/
theorem rebuildAll_shows (t : Station) : t.showsReadouts t.rebuildAll t.live.common t.live.chA t.live.chB := by
  intro hw own
  have hA := length_channelReadout (2 * own + 1) t.live.chA t.rse.clipA t.rse.satA
  have hB := length_channelReadout (2 * own + 2) t.live.chB t.rse.clipB t.rse.satB
  have hC := length_commonReadout t.live.common t.tgu.run
  obtain ⟨gA, hgA⟩ : ∃ g, g = Sparse.writeRun GridCell.blank t.rse.grid (2400 + 25 * own)
    (channelReadout (2 * own + 1) t.live.chA t.rse.clipA t.rse.satA) := ⟨_, rfl⟩
  obtain ⟨gB, hgB⟩ : ∃ g, g = Sparse.writeRun GridCell.blank gA (2400 + 25 * own + 12)
    (channelReadout (2 * own + 2) t.live.chB t.rse.clipB t.rse.satB) := ⟨_, rfl⟩
  have wA : Sparse.wf GridCell.blank gA = true := hgA ▸ Sparse.wf_writeRun _ _ _ hw
  have wB : Sparse.wf GridCell.blank gB = true := hgB ▸ Sparse.wf_writeRun _ _ _ wA
  have hgrid : ∀ g : List (Nat × GridCell), Station.live { t with rse := { t.rse with grid := g } } = t.live :=
    fun _ => rfl
  have hg : t.rebuildAll.rse.grid =
      if t.straps.panel = .common then Sparse.writeRun GridCell.blank gB 0 (commonReadout t.live.common t.tgu.run)
      else gB := by
    have ha : gridAddress 24 (25 * own) = 2400 + 25 * own := by simp only [gridAddress]
    have hb : gridAddress 24 (25 * own + 12) = 2400 + 25 * own + 12 := by simp only [gridAddress]; omega
    simp only [Station.rebuildAll, Station.rebuildCommon, Station.rebuildChannel, writeChannelReadout,
      writeCommonReadout, hgrid, Bool.false_eq_true, if_false, if_true, Nat.add_zero]
    rw [hgB, hgA, ← hb, ← ha]
    split
    · rfl
    · rfl
  have hB' : ∀ a, 2400 ≤ a → Sparse.read GridCell.blank t.rebuildAll.rse.grid a = Sparse.read GridCell.blank gB a := by
    intro a ha
    rw [hg]
    split
    · exact Sparse.read_writeRun_outside _ _ wB (.inr (by omega))
    · rfl
  refine ⟨?_, ?_, ?_⟩
  · intro j cell hj
    obtain ⟨hlt, hc⟩ := List.getElem?_eq_some_iff.mp hj
    rw [hB' _ (by omega), hgB, Sparse.read_writeRun_outside _ _ wA (.inl (by omega)), hgA,
      Sparse.read_writeRun_inside _ _ hw hlt, hc]
  · intro j cell hj
    obtain ⟨hlt, hc⟩ := List.getElem?_eq_some_iff.mp hj
    rw [hB' _ (by omega), hgB, Sparse.read_writeRun_inside _ _ wA hlt, hc]
  · intro hp j cell hj
    have hrun : t.rebuildAll.tgu.run = t.tgu.run := by simp
    rw [hrun] at hj
    obtain ⟨hlt, hc⟩ := List.getElem?_eq_some_iff.mp hj
    rw [hg, if_pos hp]
    have := Sparse.read_writeRun_inside (a := 0) GridCell.blank _ wB hlt
    rw [Nat.zero_add] at this
    rw [this, hc]

/-- A request for a clear leaves the grid (R67). -/
theorem requestClear_grid (a b : Bool) (t : Station) : (t.requestClear a b).rse.grid = t.rse.grid := by
  simp only [Station.requestClear, Station.performClears]
  repeat' split
  all_goals rfl

/-- What a flip performed shows (R90, R159). -/
theorem flipNow_shows (t : Station) (x i : Nat) (h : t.flipIndex = some i)
    (hl : ((t.smg.windows.set t.liveIndex Window.blank).set i (Station.flippedWindow (t.smg.windows.get i))).find
      (fun w => decide (w.role = .live)) = some i) :
    let w := t.smg.windows.get i
    t.showsReadouts (t.flipNow x) { w.common with runmode := w.runMode } w.chA w.chB := by
  intro w
  have hi : i < 4 := (flipIndex_some t i h).1
  have hf : t.flipPending = true := by simp [Station.flipPending, h]
  obtain ⟨h1, h2, -, -⟩ := followRun_keeps t.flip x
  obtain ⟨u, hu⟩ : ∃ u : Station, u =
      { t with
        lif := { t.lif with enrol := { t.lif.enrol with ownNoLive := false } }
        smg := { t.smg with
          windows := (t.smg.windows.set t.liveIndex Window.blank).set i (Station.flippedWindow w) }
        acq := { t.acq with restartPending := true }
        tgu := if t.standby then { t.tgu with savedRun := some w.runState } else { t.tgu with run := w.runState } } :=
    ⟨_, rfl⟩
  have e : t.flip = Station.requestClear true true u.rebuildAll := by
    simp only [Station.flip, h, hu]; rfl
  have hlive : u.live = Station.flippedWindow w := by
    have : u.liveIndex = i := by
      have hq : u.smg.windows.find (fun w => decide (w.role = .live)) = some i := by rw [hu]; exact hl
      simp only [Station.liveIndex, hq, Option.getD_some]
    rw [Station.live, this, hu]
    exact Quad.get_set_same _ _ _ hi
  have hs := rebuildAll_shows u
  rw [hlive] at hs
  rw [Station.flipNow, if_pos hf]
  have k1 : u.rse = t.rse := by rw [hu]
  have k2 : u.straps = t.straps := by rw [hu]
  have k3 : t.flip.tgu.run = u.rebuildAll.tgu.run := by rw [e]; simp
  have k4 : t.flip.rse.grid = u.rebuildAll.rse.grid := by rw [e, requestClear_grid]
  simp only [Station.showsReadouts, k1, k2] at hs
  simp only [Station.showsReadouts, h1, h2, k3, k4]
  exact hs

/-- A window that becomes LIVE in place of the only one is the LIVE one. -/
theorem find_live_flipped (q : Quad Window) (i : Nat) (w v : Window) (hi : i < 4) (hr : v.role = .live)
    (hw : w.role ≠ .live) (h : q.count (fun w => decide (w.role = .live)) = 1) :
    ((q.set ((q.find (fun w => decide (w.role = .live))).getD 0) w).set i v).find (fun w => decide (w.role = .live))
      = some i := by
  obtain ⟨a, b, c, d⟩ := q
  simp only [Quad.count, Quad.find] at h ⊢
  by_cases ha : a.role = .live <;> by_cases hb : b.role = .live <;> by_cases hc : c.role = .live <;>
    by_cases hd : d.role = .live <;> simp [ha, hb, hc, hd] at h <;>
    interval_cases i <;> simp [Quad.set, ha, hb, hc, hd, hr, hw]

/-- What meeting the boundary with a flip pending shows, where the flip does not wait (R59, R90). -/
theorem meetBoundary_shows (t : Station) (x i : Nat) (h : t.flipIndex = some i)
    (hb : ¬ (t.acq.state = .posttrig ∨ t.acq.state = .aligning))
    (hl : t.smg.windows.count (fun w => decide (w.role = .live)) = 1) :
    let w := t.smg.windows.get i
    t.showsReadouts (t.meetBoundary x) { w.common with runmode := w.runMode } w.chA w.chB := by
  intro w
  have hf : t.flipPending = true := by simp [Station.flipPending, h]
  have hd : t.dropRecord.smg = t.smg := by simp
  have hdf : t.dropRecord.flipIndex = some i := by simp only [Station.flipIndex, hd]; exact h
  have hfind := find_live_flipped t.smg.windows i Window.blank (Station.flippedWindow w) (flipIndex_some t i h).1 rfl
    (by decide) hl
  have hs := flipNow_shows t x i h hfind
  have hk := flipNow_shows t.dropRecord x i hdf (by simp only [Station.liveIndex, hd]; exact hfind)
  have k1 : t.dropRecord.rse = t.rse := by simp
  have k2 : t.dropRecord.straps = t.straps := by simp
  simp only [hd, Station.showsReadouts, k1, k2] at hk
  simp only [Station.meetBoundary]
  split
  · exact hs
  · exact hs
  · exact hs
  · rw [if_pos hf]; exact hk
  · rw [if_pos hf]; exact hk
  · next h => exact absurd (Or.inl h) hb
  · next h => exact absurd (Or.inr h) hb

/-- What the flip to the built-in defaults shows, where it does not wait (R90, R158). -/
theorem defaultsFlip_shows (t : Station) (x i : Nat) (h : t.flipIndex = none) (hf : t.freeIndex = some i)
    (hb : ¬ (t.acq.state = .posttrig ∨ t.acq.state = .aligning))
    (hl : t.smg.windows.count (fun w => decide (w.role = .live)) = 1) :
    t.showsReadouts (t.defaultsFlip x) Common.default (Window.builtIn t.straps.station).chA
      (Window.builtIn t.straps.station).chB := by
  obtain ⟨hi, hfr⟩ := Quad.find_some _ _ _ hf
  simp only [Station.defaultsFlip, h, Station.takeStaged, hf]
  obtain ⟨st, hs⟩ : ∃ w : Window, w = { Window.builtIn t.straps.station with
    epoch := some 0, role := .staged, flipPending := true } := ⟨_, rfl⟩
  have hfl : (Station.restartSettle x (t.setWindow i st)).flipIndex = some i :=
    find_taken _ _ _ hi (by rw [hs]) (by rw [hs]) h
  have hc : (t.smg.windows.set i st).count (fun w => decide (w.role = .live)) = 1 := by
    have hfr' : (t.smg.windows.get i).role = .free := by simpa using hfr
    have hst : st.role = .staged := by rw [hs]
    rw [← hl]
    simp only [Quad.count]
    interval_cases i <;> simp_all [Quad.set, Quad.get]
  have hk := meetBoundary_shows (Station.restartSettle x (t.setWindow i st)) x i hfl hb hc
  have hw : (Station.restartSettle x (t.setWindow i st)).smg.windows.get i = st := Quad.get_set_same _ _ _ hi
  rw [hw, hs] at hk
  exact hk

/-- The freeing of a close leaves which windows are LIVE. -/
theorem afterClose_live (w : Window) : w.afterClose.role = .live ↔ w.role = .live := by
  simp only [Window.afterClose]
  split
  · next h => simp [Window.blank, h.1]
  · rfl

/-- The freeing of a close leaves the LIVE window. -/
theorem live_afterClose (t u : Station) (hl : t.smg.windows.count (fun w => decide (w.role = .live)) = 1)
    (hu : u.smg.windows = t.smg.windows.map Window.afterClose) : u.live = t.live := by
  have hli : u.liveIndex = t.liveIndex := by
    simp only [Station.liveIndex, hu, Quad.find, Quad.map, decide_eq_true_eq, afterClose_live]
  have hlive : t.live.role = .live := by
    simp only [Station.live, Station.liveIndex]
    cases hq : t.smg.windows.find (fun w => decide (w.role = .live)) with
    | none =>
      simp only [Quad.find, decide_eq_true_eq] at hq
      simp only [Quad.count, decide_eq_true_eq] at hl
      repeat' split at hq
      all_goals simp_all
    | some i => simpa using (Quad.find_some _ _ _ hq).2
  simp only [Station.live, hli, hu, Quad.get_map] at hlive ⊢
  simp [Window.afterClose, hlive]

/-- A packed image is that of the LIVE window and the run state (R119). -/
theorem packLive_congr (t u : Station) (slot : Nat) (e : Epoch) (h1 : u.straps = t.straps) (h2 : u.live = t.live)
    (h3 : u.standby = t.standby) (h4 : u.tgu = t.tgu) : u.packLive slot e = t.packLive slot e := by
  simp only [Station.packLive, Station.imageRun, h1, h2, h3, h4]

/-- What the due save of a close gives (R17, R18). -/
theorem dueSave_saves (t : Station) :
    (t.smg.due = true → t.smg.highest ≠ 0xFFFFFFFF →
      t.dueSave.smg.highest = t.smg.highest + 1 ∧ t.dueSave.smg.due = false ∧
      t.dueSave.requested
        ⟨.append, 0, t.smg.highest + 1, t.packLive 0 (t.smg.highest + 1), .tracking, false⟩) ∧
    (t.smg.due = false ∨ t.smg.highest = 0xFFFFFFFF → t.dueSave = t) := by
  simp only [Station.dueSave, Config.maxEpoch]
  refine ⟨fun h1 h2 => ?_, fun h => if_neg ?_⟩
  · rw [if_pos (by simp [h1]; exact h2)]
    exact ⟨rfl, rfl, offerRequest_requested _ _⟩
  · rcases h with h | h <;> simp [h]

/-- What a later act leaves of the saving steps of a close. -/
theorem closeSaves_of {s t u : Station} (h : s.closeSaves t) (h1 : u.sst = t.sst) (h2 : u.smg.kept = t.smg.kept)
    (h3 : u.smg.highest = t.smg.highest) (h4 : u.smg.due = t.smg.due ∨ u.smg.due = false)
    (h5 : u.smg.keptProto = t.smg.keptProto) (h6 : u.lif.tx = t.lif.tx) : s.closeSaves u := by
  obtain ⟨g1, g2, g3, g4⟩ := h
  refine ⟨fun a b => ?_, fun a => h3.trans (g2 a), h5.trans g3, by rw [h6]; exact g4⟩
  obtain ⟨k1, k2, k3⟩ := g1 a b
  refine ⟨h3.trans k1, ?_, fun l => ?_⟩
  · rcases h4 with h4 | h4
    · exact h4.trans k2
    · exact h4
  · simpa only [Station.requested, h1, h2] using k3 l

/-- The flip to the built-in defaults leaves what SMG keeps, and the transmit list. -/
theorem defaultsFlip_keeps (t : Station) (x : Nat) :
    (t.defaultsFlip x).smg.kept = t.smg.kept ∧ (t.defaultsFlip x).smg.keptProto = t.smg.keptProto ∧
    (t.defaultsFlip x).lif.tx = t.lif.tx := by
  simp only [Station.defaultsFlip]
  split
  · exact ⟨rfl, rfl, rfl⟩
  · have h := startKeeps_meetBoundary
      (Station.restartSettle x (t.takeStaged { Window.builtIn t.straps.station with epoch := some 0 })) x
    have hk : ∀ w : Window, (t.takeStaged w).smg.kept = t.smg.kept ∧ (t.takeStaged w).smg.keptProto = t.smg.keptProto ∧
        (t.takeStaged w).lif.tx = t.lif.tx := by
      intro w; simp only [Station.takeStaged]; split <;> exact ⟨rfl, rfl, rfl⟩
    obtain ⟨k1, k2, k3⟩ := hk { Window.builtIn t.straps.station with epoch := some 0 }
    exact ⟨h.requests.trans k1, h.proto.trans k2, h.tx.trans k3⟩

/-- The due save and the withdrawal of every close (R151, steps 5 and 7). -/
theorem closeOp_saves (t : Station) (o : Op) (c : OutcomeCode) (x : Nat) (ho : t.smg.op = some o) :
    t.closeSaves (t.closeOp c x) := by
  simp only [Station.closeOp, ho]
  generalize hw : Station.startOverlay (Station.kindLed o.kind) (.code c.code) x _ = w
  have ⟨w1, w2, w3, w4, w5, w6⟩ : w.smg.windows = t.smg.windows.map Window.afterClose ∧ w.smg.due = t.smg.due ∧
      w.smg.highest = t.smg.highest ∧ w.straps = t.straps ∧ w.standby = t.standby ∧ w.tgu = t.tgu := by
    subst hw
    simp only [Station.startOverlay]
    split <;> exact ⟨windows_afterClose t, rfl, rfl, rfl, rfl, rfl⟩
  obtain ⟨d1, d2⟩ := dueSave_saves w
  generalize w.dueSave = v at *
  generalize hu : (if o.kind = .recall ∧ o.slot = 31 ∧ c ≠ .ok then v.defaultsFlip x else v) = u
  obtain ⟨h1, -, h3, h4⟩ := chainAtClose_leaves u.withdrawAnswers o.kind c
  generalize u.withdrawAnswers.chainAtClose o.kind c = f at *
  have hfs : f.sst = u.sst := by have k := congrArg Station.sst h4; exact k
  have hfk : f.smg.kept = u.smg.kept := by have k := congrArg Smg.kept h1; exact k
  have hfh : f.smg.highest = u.smg.highest := by have k := congrArg Smg.highest h1; exact k
  have hfd : f.smg.due = u.smg.due := by have k := congrArg Smg.due h1; exact k
  have ⟨u1, u2, u3, u4⟩ : u.sst = v.sst ∧ u.smg.kept = v.smg.kept ∧ u.smg.highest = v.smg.highest ∧
      (u.smg.due = v.smg.due ∨ u.smg.due = false) := by
    subst hu
    split
    · exact ⟨by simp, (defaultsFlip_keeps v x).1, (defaultsFlip_smg v x).2.2.2, .inr (defaultsFlip_smg v x).2.2.1⟩
    · exact ⟨rfl, rfl, rfl, .inl rfl⟩
  refine ⟨fun a b => ?_, fun a => ?_, congrArg Smg.keptProto h1, ?_⟩
  · obtain ⟨k1, k2, k3⟩ := d1 (w2.trans a) (by rw [w3]; exact b)
    refine ⟨(hfh.trans u3).trans (by rw [k1, w3]), ?_, fun hl => ?_⟩
    · rcases u4 with u4 | u4
      · exact (hfd.trans u4).trans k2
      · exact hfd.trans u4
    · rw [w3, packLive_congr t w 0 _ w4 (live_afterClose t w hl w1) w5 w6] at k3
      simpa only [Station.requested, hfs, hfk, u1, u2] using k3
  · have := d2 (a.imp w2.trans w3.trans)
    exact (hfh.trans u3).trans (by rw [this, w3])
  · intro e he ha
    rcases h3 e he with h | h
    · simp only [Station.withdrawAnswers, List.mem_filter] at h
      simpa [ha] using h.2
    · simp [h] at ha

/-- Station u has of station t the operation, the LIVE window and what a tracking save is made from. -/
structure SavesAlike (t u : Station) : Prop where
  op : u.smg.op = t.smg.op
  due : u.smg.due = t.smg.due
  highest : u.smg.highest = t.smg.highest
  straps : u.straps = t.straps
  standby : u.standby = t.standby
  tgu : u.tgu = t.tgu
  count : u.smg.windows.count (fun w => decide (w.role = .live)) = t.smg.windows.count (fun w => decide (w.role = .live))
  live : t.smg.windows.count (fun w => decide (w.role = .live)) = 1 → u.live = t.live

/-- Nothing done. -/
theorem SavesAlike.refl (t : Station) : SavesAlike t t := ⟨rfl, rfl, rfl, rfl, rfl, rfl, rfl, fun _ => rfl⟩

/-- One after the other. -/
theorem SavesAlike.trans {t u v : Station} (h : SavesAlike t u) (k : SavesAlike u v) : SavesAlike t v :=
  ⟨k.op.trans h.op, k.due.trans h.due, k.highest.trans h.highest, k.straps.trans h.straps, k.standby.trans h.standby,
    k.tgu.trans h.tgu, k.count.trans h.count, fun hl => (k.live (h.count.trans hl)).trans (h.live hl)⟩

/-- A window that is not LIVE takes contents that are not. -/
theorem savesAlike_setWindow (t : Station) (i : Nat) (w : Window) (hi : i < 4)
    (h : (t.smg.windows.get i).role ≠ .live) (hw : w.role ≠ .live) : SavesAlike t (t.setWindow i w) := by
  rcases t with ⟨_, _, _, _, _, _, ⟨⟨a, b, c, d⟩, _, _, _, _, _, _, _, _, _, _, _, _, _, _, _⟩, _, _, _, _, _⟩
  refine ⟨rfl, rfl, rfl, rfl, rfl, rfl, ?_, ?_⟩ <;>
    simp only [Station.live, Station.liveIndex, Station.setWindow, Quad.find, Quad.count] at * <;>
    interval_cases i <;> simp only [Quad.set, Quad.get] at * <;>
    by_cases ha : a.role = .live <;> by_cases hb : b.role = .live <;> by_cases hc : c.role = .live <;>
    by_cases hd : d.role = .live <;> simp_all

/-- The STAGED window becomes flip pending. -/
theorem savesAlike_markPending (t : Station) (r : RunState) : SavesAlike t (t.markPending r) := by
  simp only [Station.markPending]
  split
  · next i hi =>
    obtain ⟨h4, hr⟩ := Quad.find_some _ _ _ hi
    have hr : (t.smg.windows.get i).role = .staged := by simpa using hr
    exact savesAlike_setWindow t i _ h4 (by simp [hr]) (by simp [hr])
  · exact .refl t

/-- A FREE window becomes the STAGED one. -/
theorem savesAlike_takeStaged (t : Station) (w : Window) : SavesAlike t (t.takeStaged w) := by
  simp only [Station.takeStaged]
  split
  · next i hi =>
    obtain ⟨h4, hr⟩ := Quad.find_some _ _ _ hi
    have hr : (t.smg.windows.get i).role = .free := by simpa using hr
    exact savesAlike_setWindow t i _ h4 (by simp [hr]) (by simp)
  · exact .refl t

/-- The saving steps of a close at a station that a tracking save would be made alike from. -/
theorem closeSaves_alike {t u v : Station} (k : SavesAlike t u) (h : u.closeSaves v) : t.closeSaves v := by
  obtain ⟨g1, g2, g3, g4⟩ := h
  refine ⟨fun a b => ?_, fun a => ?_, g3, g4⟩
  · obtain ⟨e1, e2, e3⟩ := g1 (k.due.trans a) (by rw [k.highest]; exact b)
    refine ⟨by rw [e1, k.highest], e2, fun hl => ?_⟩
    have := e3 (k.count.trans hl)
    rwa [k.highest, packLive_congr t u 0 _ k.straps (k.live hl) k.standby k.tgu] at this
  · rw [g2 (by rw [k.due, k.highest]; exact a), k.highest]

/-- The due save and the withdrawal of an agreement (R151, R157, log 17). -/
theorem agree_saves (t : Station) (o : Op) (sect : List Byte) (run x : Nat) (ho : t.smg.op = some o) :
    t.closeSaves (t.agree o sect run x) := by
  simp only [Station.agree]
  generalize hv : Station.markPending _ _ = v
  have k : SavesAlike t v := by
    subst hv
    split
    · exact savesAlike_markPending _ _
    · exact (savesAlike_takeStaged _ _).trans (savesAlike_markPending _ _)
  have hb := startKeeps_meetBoundary (Station.restartSettle x (v.closeOp .ok x)) x
  exact closeSaves_of (closeSaves_alike k (closeOp_saves v o .ok x (k.op.trans ho))) (by simp [Station.restartSettle])
    (hb.requests.trans rfl) (hb.hi.trans rfl) (.inr (hb.due.trans rfl)) (hb.proto.trans rfl) (hb.tx.trans rfl)

/-- What a close leaves beside the operation's record and the chain (R151, R158). -/
theorem closeOp_leaves (t : Station) (o : Op) (c : OutcomeCode) (x : Nat) (ho : t.smg.op = some o) :
    t.closeLeaves (t.closeOp c x) o c x := by
  suffices main : _ ∧ _ from ⟨main.1, main.2, closeOp_saves t o c x ho⟩
  simp only [Station.closeOp, ho]
  generalize hv : Station.dueSave _ = v
  have hvw : v.smg.windows = t.smg.windows.map Window.afterClose := by
    subst hv
    have hd : ∀ w : Station, w.dueSave.smg.windows = w.smg.windows := by
      intro w; simp only [Station.dueSave]; split <;> rfl
    rw [hd]
    simp only [Station.startOverlay]
    split <;> exact windows_afterClose t
  have hva : v.acq = t.acq := by subst hv; simp [Station.freeWindows]
  have hvs : v.straps = t.straps := by subst hv; simp [Station.freeWindows]
  have hfl : v.flipIndex = t.flipIndex := by
    simp only [Station.flipIndex, hvw, Quad.find, Quad.map, Window.afterClose]
    repeat' split
    all_goals simp_all [Window.blank]
  have hli : v.liveIndex = t.liveIndex := by
    simp only [Station.liveIndex, hvw, Quad.find, Quad.map, decide_eq_true_eq, afterClose_live]
  generalize hu : (if o.kind = .recall ∧ o.slot = 31 ∧ c ≠ .ok then v.defaultsFlip x else v) = u
  obtain ⟨h1, h2, h3, h4⟩ := chainAtClose_leaves u.withdrawAnswers o.kind c
  generalize u.withdrawAnswers.chainAtClose o.kind c = f at *
  have hfw : f.smg.windows = u.smg.windows := by have k := congrArg Smg.windows h1; exact k
  have e1 : f.smg.settle = u.smg.settle := by have k := congrArg Smg.settle h1; exact k
  have e2 : f.smg.untracked = u.smg.untracked := by have k := congrArg Smg.untracked h1; exact k
  have e3 : f.smg.due = u.smg.due := by have k := congrArg Smg.due h1; exact k
  refine ⟨?_, ?_⟩
  · intro h i _
    rw [hfw, ← hu, if_neg (by rintro ⟨a, b, -⟩; rcases h with h | h <;> simp_all), hvw, Quad.get_map]
  · intro hk hs hc
    have hu' : v.defaultsFlip x = u := by rw [← hu, if_pos ⟨hk, hs, hc⟩]
    obtain ⟨d1, d2, d3, d4⟩ := defaultsFlip_smg v x
    rw [hu'] at d1 d2 d3 d4
    refine ⟨e1.trans d1, e2.trans d2, e3.trans d3, ?_, ?_⟩
    · intro i hi j hj
      have := (defaultsFlip_windows v x i).1 (hfl.trans hi)
      rw [hfw, ← hu', this, hvw, hvs]
      have hi4 := (flipIndex_some t i hi).1
      by_cases hji : j = i
      · subst hji; rw [if_pos rfl, Quad.get_set_same _ _ _ hj]; rfl
      · rw [if_neg hji, Quad.get_set_other _ _ _ _ hi4 hj (Ne.symm hji), Quad.get_map]
    · intro i hn hi4 hfree hlow
      have hfi : v.freeIndex = some i := by
        simp only [Station.freeIndex, hvw, Quad.find, Quad.map]
        have g0 := hlow 0; have g1 := hlow 1; have g2 := hlow 2
        interval_cases i <;> simp_all [Quad.get]
      have hw := (defaultsFlip_windows v x i).2 (hfl.trans hn) hfi
      rw [hu', ← hfw, hva, hvs, hvw, hli] at hw
      refine ⟨?_, ?_⟩
      · intro hb j hj
        rw [hw, if_pos hb]
        by_cases hji : j = i
        · subst hji; rw [if_pos rfl, Quad.get_set_same _ _ _ hj]; rfl
        · rw [if_neg hji, Quad.get_set_other _ _ _ _ hi4 hj (Ne.symm hji), Quad.get_map]
      · intro hb
        refine ⟨?_, ?_, ?_⟩
        · intro j hj
          rw [hw, if_neg hb]
          by_cases hji : j = i
          · subst hji; rw [if_pos rfl, Quad.get_set_same _ _ _ hj]; rfl
          · rw [if_neg hji, Quad.get_set_other _ _ _ _ hi4 hj (Ne.symm hji)]
            by_cases hjl : j = t.liveIndex
            · rw [if_pos hjl, ← hjl, Quad.get_set_same _ _ _ hj]
            · rw [if_neg hjl]
              have hl4 : t.liveIndex < 4 := by
                simp only [Station.liveIndex]
                cases hq : t.smg.windows.find (fun w => decide (w.role = .live)) with
                | none => simp
                | some k => simpa using (Quad.find_some _ _ _ hq).1
              rw [Quad.get_set_other _ _ _ _ hl4 hj (Ne.symm hjl), Quad.get_map]
        · have hk := defaultsFlip_flips v x i (hfl.trans hn) hfi (by rw [hva]; exact hb)
          rw [hu'] at hk
          have g1 : f.tgu = u.tgu := by have k := congrArg Station.tgu h4; exact k
          have g2 : f.acq = u.acq := by have k := congrArg Station.acq h4; exact k
          have g3 : f.rse = u.rse := by have k := congrArg Station.rse h4; exact k
          have g4 : f.lif.enrol = u.lif.enrol := by have k := congrArg Lif.enrol h2; exact k
          have v1 : v.standby = t.standby := by subst hv; simp [Station.freeWindows]
          have v2 : v.tgu = t.tgu := by subst hv; simp [Station.freeWindows]
          have v3 : v.rse = t.rse := by subst hv; simp [Station.freeWindows]
          simpa only [Station.flippedIn, g1, g2, g3, g4, v1, v2, v3] using hk
        · intro hl
          have hc : v.smg.windows.count (fun w => decide (w.role = .live)) = 1 := by
            rw [← hl, hvw]
            simp only [Quad.count, Quad.map, afterClose_live]
          have hk := defaultsFlip_shows v x i (hfl.trans hn) hfi (by rw [hva]; exact hb) hc
          rw [hu'] at hk
          have g1 : f.tgu = u.tgu := by have k := congrArg Station.tgu h4; exact k
          have g3 : f.rse = u.rse := by have k := congrArg Station.rse h4; exact k
          have v3 : v.rse = t.rse := by subst hv; simp [Station.freeWindows]
          simp only [Station.showsReadouts, v3, hvs] at hk
          simp only [Station.showsReadouts, g1, g3]
          exact hk

end Sys2Proof.Machine
end

