-- ==== Sys2Proof/Laws/Draw.lean ====
section
/-! SUPPORT. What the end of a draw and the take of the next record do to the channel readouts in the annotation grid
(R73, R90). -/

namespace Sys2Proof.Machine

/-- The last drawn flags of a channel, CLIPPED and SATURATED (R73); true names channel B. -/
abbrev Station.drawnFlags (t : Station) (isB : Bool) : Bool × Bool :=
  if isB then (t.rse.clipB, t.rse.satB) else (t.rse.clipA, t.rse.satA)

/-- The readout that a station's LIVE window and last drawn flags give for a channel (R88). -/
abbrev Station.readoutOf (t : Station) (isB : Bool) : List GridCell :=
  channelReadout (if isB then 2 * t.straps.station + 2 else 2 * t.straps.station + 1)
    (if isB then t.live.chB else t.live.chA) (t.drawnFlags isB).1 (t.drawnFlags isB).2

/-- The first cell of a channel's readout (R87). -/
abbrev Station.readoutAt (t : Station) (isB : Bool) : Nat := 2400 + 25 * t.straps.station + if isB then 12 else 0

/-- A cell of a station's grid. -/
abbrev Station.cellAt (t : Station) (k : Nat) : GridCell := Sparse.read GridCell.blank t.rse.grid k

/-- A rebuilt readout stands in its twelve cells, and every other cell stays (R88, R90). -/
theorem rebuildChannel_cell (t : Station) (isB : Bool) (h : Sparse.wf GridCell.blank t.rse.grid = true) :
    (∀ j c, (t.readoutOf isB)[j]? = some c → (t.rebuildChannel isB).cellAt (t.readoutAt isB + j) = c) ∧
    (∀ k, k < t.readoutAt isB ∨ t.readoutAt isB + 12 ≤ k → (t.rebuildChannel isB).cellAt k = t.cellAt k) := by
  have hl := length_channelReadout (if isB then 2 * t.straps.station + 2 else 2 * t.straps.station + 1)
    (if isB then t.live.chB else t.live.chA) (t.drawnFlags isB).1 (t.drawnFlags isB).2
  have hg : (t.rebuildChannel isB).rse.grid =
      Sparse.writeRun GridCell.blank t.rse.grid (t.readoutAt isB) (t.readoutOf isB) := by
    have ha : gridAddress 24 (25 * t.straps.station + if isB then 12 else 0) = t.readoutAt isB := by
      simp only [gridAddress, Station.readoutAt]; omega
    simp only [Station.rebuildChannel, writeChannelReadout, ha]
    cases isB <;> rfl
  simp only [Station.cellAt, hg]
  refine ⟨fun j c hj => ?_, fun k hk => Sparse.read_writeRun_outside _ _ h (by rw [hl]; exact hk)⟩
  obtain ⟨hlt, hc⟩ := List.getElem?_eq_some_iff.mp hj
  rw [Sparse.read_writeRun_inside _ _ h hlt, hc]

/-- Station t, come out of station s, shows of each channel the readout of its last drawn flags, or has left flags and
readout as they were; every other cell of the grid stays (R73, R90). -/
structure GridFollows (s t : Station) : Prop where
  straps : t.straps = s.straps
  smg : t.smg = s.smg
  wf : Sparse.wf GridCell.blank t.rse.grid = true
  outside : ∀ k, k < 2400 + 25 * s.straps.station ∨ 2400 + 25 * s.straps.station + 24 ≤ k → t.cellAt k = s.cellAt k
  channel : ∀ isB : Bool,
    (∀ j c, (t.readoutOf isB)[j]? = some c → t.cellAt (t.readoutAt isB + j) = c) ∨
    t.drawnFlags isB = s.drawnFlags isB ∧
      ∀ j, j < 12 → t.cellAt (t.readoutAt isB + j) = s.cellAt (t.readoutAt isB + j)

/-- An act that leaves grid and flags. -/
theorem gridFollows_of {s t : Station} (h1 : t.straps = s.straps) (h2 : t.smg = s.smg)
    (hw : Sparse.wf GridCell.blank s.rse.grid = true) (hg : t.rse.grid = s.rse.grid)
    (hf : ∀ isB, t.drawnFlags isB = s.drawnFlags isB) : GridFollows s t :=
  ⟨h1, h2, by rw [hg]; exact hw, fun k _ => by simp only [Station.cellAt, hg],
    fun isB => .inr ⟨hf isB, fun j _ => by simp only [Station.cellAt, hg]⟩⟩

theorem GridFollows.trans {s t u : Station} (h : GridFollows s t) (k : GridFollows t u) : GridFollows s u := by
  have hlive : u.live = t.live := by simp only [Station.live, Station.liveIndex, k.smg]
  refine ⟨k.straps.trans h.straps, k.smg.trans h.smg, k.wf, fun a ha => ?_, fun isB => ?_⟩
  · exact (k.outside a (by rw [h.straps]; exact ha)).trans (h.outside a ha)
  · rcases k.channel isB with hu | ⟨hf, hc⟩
    · exact .inl hu
    · have hr : u.readoutOf isB = t.readoutOf isB := by simp only [Station.readoutOf, hf, k.straps, hlive]
      have ha : u.readoutAt isB = t.readoutAt isB := by simp only [Station.readoutAt, k.straps]
      rcases h.channel isB with ht | ⟨hf', hc'⟩
      · refine .inl fun j c hj => ?_
        have hj' : j < 12 := by
          have := (List.getElem?_eq_some_iff.mp hj).1
          rwa [Station.readoutOf, length_channelReadout] at this
        rw [hc j hj', ha]
        exact ht j c (by rw [← hr]; exact hj)
      · exact .inr ⟨hf.trans hf', fun j hj => (hc j hj).trans (by rw [ha]; exact hc' j hj)⟩

/-- A rebuild of a channel's readout unless a condition holds: what it leaves of station, flags and cells. -/
theorem rebuildUnless_cell (p : Prop) [Decidable p] (t : Station) (isB : Bool)
    (h : Sparse.wf GridCell.blank t.rse.grid = true) :
    let u := if p then t else t.rebuildChannel isB
    u.straps = t.straps ∧ u.smg = t.smg ∧ Sparse.wf GridCell.blank u.rse.grid = true ∧
    (∀ b, u.drawnFlags b = t.drawnFlags b) ∧
    (¬ p → ∀ j c, (t.readoutOf isB)[j]? = some c → u.cellAt (t.readoutAt isB + j) = c) ∧
    (∀ k, p ∨ k < t.readoutAt isB ∨ t.readoutAt isB + 12 ≤ k → u.cellAt k = t.cellAt k) := by
  by_cases hp : p
  · rw [if_pos hp]
    exact ⟨rfl, rfl, h, fun _ => rfl, fun hn => absurd hp hn, fun _ _ => rfl⟩
  · rw [if_neg hp]
    obtain ⟨h1, h2⟩ := rebuildChannel_cell t isB h
    exact ⟨rfl, rfl, Sparse.wf_writeRun _ _ _ h, fun b => by cases b <;> rfl, fun _ => h1,
      fun k hk => h2 k (hk.resolve_left hp)⟩

/-- A channel whose flags change has its readout rebuilt (R73). -/
theorem setDrawnFlags_follows (t : Station) (r : Record) (h : Sparse.wf GridCell.blank t.rse.grid = true) :
    GridFollows t (t.setDrawnFlags r) := by
  simp only [Station.setDrawnFlags]
  generalize (decide (r.snapshot.a.enable = 1) && r.clippedA) = cA
  generalize (decide (r.snapshot.a.enable = 1) && r.saturatedA) = sA
  generalize (decide (r.snapshot.b.enable = 1) && r.clippedB) = cB
  generalize (decide (r.snapshot.b.enable = 1) && r.saturatedB) = sB
  obtain ⟨u, hu⟩ : ∃ u : Station,
      u = { t with rse := { t.rse with clipA := cA, satA := sA, clipB := cB, satB := sB } } := ⟨_, rfl⟩
  rw [← hu]
  have ⟨s1, s2, s3, s4, s5⟩ : u.straps = t.straps ∧ u.smg = t.smg ∧ u.rse.grid = t.rse.grid ∧
      u.drawnFlags false = (cA, sA) ∧ u.drawnFlags true = (cB, sB) := by subst hu; exact ⟨rfl, rfl, rfl, rfl, rfl⟩
  obtain ⟨v1, v2, v3, v4, v5, v6⟩ :=
    rebuildUnless_cell (cA = t.rse.clipA ∧ sA = t.rse.satA) u false (by rw [s3]; exact h)
  generalize (if cA = t.rse.clipA ∧ sA = t.rse.satA then u else u.rebuildChannel false) = v at *
  obtain ⟨w1, w2, w3, w4, w5, w6⟩ := rebuildUnless_cell (cB = t.rse.clipB ∧ sB = t.rse.satB) v true v3
  generalize (if cB = t.rse.clipB ∧ sB = t.rse.satB then v else v.rebuildChannel true) = w at *
  have hvl : v.live = u.live := by simp only [Station.live, Station.liveIndex, v2]
  have hwl : w.live = v.live := by simp only [Station.live, Station.liveIndex, w2]
  have hc : ∀ k, u.cellAt k = t.cellAt k := fun k => by simp only [Station.cellAt, s3]
  have av : ∀ b, v.readoutAt b = t.readoutAt b := fun b => by simp only [Station.readoutAt, v1, s1]
  have au : ∀ b, u.readoutAt b = t.readoutAt b := fun b => by simp only [Station.readoutAt, s1]
  have aw : ∀ b, w.readoutAt b = t.readoutAt b := fun b => by simp only [Station.readoutAt, w1, v1, s1]
  have ru : ∀ b, w.readoutOf b = u.readoutOf b := fun b => by
    simp only [Station.readoutOf, w4, v4, w1, v1, hwl, hvl]
  have rv : ∀ b, w.readoutOf b = v.readoutOf b := fun b => by simp only [Station.readoutOf, w4, w1, hwl]
  have fA : t.readoutAt false = 2400 + 25 * t.straps.station := rfl
  have fB : t.readoutAt true = 2400 + 25 * t.straps.station + 12 := by
    simp only [Station.readoutAt, if_true]
  refine ⟨w1.trans (v1.trans s1), w2.trans (v2.trans s2), w3, fun k hk => ?_, fun b => ?_⟩
  · rw [w6 k (.inr (by rw [av, fB]; omega)), v6 k (.inr (by rw [au, fA]; omega)), hc]
  · cases b
    · have hw : ∀ j, j < 12 → w.cellAt (w.readoutAt false + j) = v.cellAt (u.readoutAt false + j) := fun j hj => by
        rw [aw, w6 _ (.inr (.inl (by rw [av, fA, fB]; omega))), au]
      by_cases hp : cA = t.rse.clipA ∧ sA = t.rse.satA
      · refine .inr ⟨by rw [w4, v4, s4, hp.1, hp.2]; rfl, fun j hj => ?_⟩
        rw [hw j hj, v6 _ (.inl hp), hc, au, aw]
      · refine .inl fun j c hj => ?_
        have hj' : j < 12 := by
          have := (List.getElem?_eq_some_iff.mp hj).1
          rwa [Station.readoutOf, length_channelReadout] at this
        rw [hw j hj']
        exact v5 hp j c (by rw [← ru]; exact hj)
    · by_cases hp : cB = t.rse.clipB ∧ sB = t.rse.satB
      · refine .inr ⟨by rw [w4, v4, s5, hp.1, hp.2]; rfl, fun j hj => ?_⟩
        rw [w6 _ (.inl hp), v6 _ (.inr (.inr (by rw [aw, au, fA, fB]; omega))), hc]
      · refine .inl fun j c hj => ?_
        rw [aw, ← av]
        exact w5 hp j c (by rw [← rv]; exact hj)

/-- The end of a draw (R72, R73). -/
theorem endDraw_follows (t : Station) (h : Sparse.wf GridCell.blank t.rse.grid = true) : GridFollows t t.endDraw := by
  have frame : ∀ (u : Station), Sparse.wf GridCell.blank u.rse.grid = true → ∀ p : DrawParams,
      GridFollows u (Station.reserve (Station.performClears
        { u with acq := { u.acq with slots := u.acq.slots.set p.slot .free }, rse := { u.rse with draw := none } })) := by
    intro u hu p
    have hr : ∀ v : Station, v.reserve.straps = v.straps ∧ v.reserve.smg = v.smg ∧ v.reserve.rse = v.rse := by
      intro v; simp only [Station.reserve]; split <;> exact ⟨rfl, rfl, rfl⟩
    obtain ⟨r1, r2, r3⟩ := hr (Station.performClears
      { u with acq := { u.acq with slots := u.acq.slots.set p.slot .free }, rse := { u.rse with draw := none } })
    exact gridFollows_of r1 r2 hu (by rw [r3]; rfl) (fun b => by simp only [Station.drawnFlags, r3]; rfl)
  simp only [Station.endDraw]
  split
  · exact gridFollows_of rfl rfl h rfl fun _ => rfl
  · next p _ =>
    generalize hd : ({ t with
      free := t.free + 1
      rse := { t.rse with
        layerA := Station.finishLayer t.free 0 (16 * p.intensity) t.rse.decayPass t.rse.layerA
        layerB := Station.finishLayer t.free 1 (16 * p.intensity) t.rse.decayPass t.rse.layerB } } : Station) = d
    have hf : GridFollows t d := by subst hd; exact gridFollows_of rfl rfl h rfl fun _ => rfl
    have hs : ∀ r, GridFollows t (d.setDrawnFlags r) := fun r => hf.trans (setDrawnFlags_follows d r hf.wf)
    split
    · next r _ => exact (hs r).trans (frame _ (hs r).wf p)
    · exact hf.trans (frame _ hf.wf p)

/-- The takes of the next records, each complete at once but the last (R64, R66). -/
theorem drawNext_follows (n : Nat) : ∀ t : Station, Sparse.wf GridCell.blank t.rse.grid = true →
    GridFollows t (t.drawNext n) := by
  induction n with
  | zero => exact fun t h => gridFollows_of rfl rfl h rfl fun _ => rfl
  | succ n ih =>
    intro t h
    simp only [Station.drawNext]
    split
    · exact gridFollows_of rfl rfl h rfl fun _ => rfl
    · split
      · exact gridFollows_of rfl rfl h rfl fun _ => rfl
      · next i r _ =>
        have hs : GridFollows t (t.startDraw i r) := gridFollows_of rfl rfl h rfl fun _ => rfl
        split
        · have he := endDraw_follows _ hs.wf
          exact hs.trans (he.trans (ih _ he.wf))
        · exact hs

end Sys2Proof.Machine
end

