-- ==== Sys2Proof/Laws/Events.lean ====
section
/-! SUPPORT. What the act on a line event that waits looks at (R177): its own instant, never the present tick; and
the step that acts on it. -/

namespace Sys2Proof.Machine.Station

variable (t : Station) (n : Nat) (l : Lif)

/-- The station at another time, with another state of the lane. -/
def retimed : Station := { t with ticks := n, lif := l }

theorem enterArmed_retimed (x : Nat) : (t.retimed n l).enterArmed x = (t.enterArmed x).retimed n l := by
  unfold Station.enterArmed
  rw [show (t.retimed n l).acq = t.acq from rfl]
  cases t.acq.capture <;> rfl

/-- Arming does not look at the present tick. -/
theorem arm_retimed (x : Nat) : (t.retimed n l).arm x = (t.arm x).retimed n l := by
  unfold Station.arm
  rw [show (t.retimed n l).acq = t.acq from rfl]
  cases t.acq.capture with
  | none => rfl
  | some c =>
    cases t.acq.reserved with
    | none => rfl
    | some i =>
      dsimp only
      rw [apply_ite (fun u : Station => u.retimed n l), ← enterArmed_retimed]
      rfl

/-- A trigger does not look at the present tick. -/
theorem takeTrigger_retimed (at_ tick offset : Nat) (k : TriggerKind) (hz : l.laneZero = t.lif.laneZero) :
    (t.retimed n l).takeTrigger at_ tick offset k = (t.takeTrigger at_ tick offset k).retimed n l := by
  have ht : (t.retimed n l).laneTimeAt tick = t.laneTimeAt tick := by simp [Station.laneTimeAt, retimed, hz]
  unfold Station.takeTrigger
  rw [show (t.retimed n l).acq = t.acq from rfl, ht]
  cases t.acq.fill <;> cases t.acq.capture <;> rfl

/-- A sample is judged by its own tick. -/
theorem sourceSample_retimed (wanted : Option Bool) (s : Sample) (offset tick : Nat)
    (hz : l.laneZero = t.lif.laneZero) :
    (t.retimed n l).sourceSample wanted s offset tick = (t.sourceSample wanted s offset tick).retimed n l := by
  have ht : (t.retimed n l).laneTimeAt tick = t.laneTimeAt tick := by simp [Station.laneTimeAt, retimed, hz]
  have hc (c : Capture) (v : Int) : (t.retimed n l).takesCandidate c v tick offset = t.takesCandidate c v tick offset := by
    unfold Station.takesCandidate
    rw [ht]
    rfl
  have htake (g : Tgu) (k : TriggerKind) :
      (({ t with tgu := g } : Station).takeTrigger tick tick offset k).retimed n l =
        ({ t.retimed n l with tgu := g } : Station).takeTrigger tick tick offset k :=
    (takeTrigger_retimed { t with tgu := g } n l tick tick offset k hz).symm
  unfold Station.sourceSample
  rw [show (t.retimed n l).acq = t.acq from rfl]
  cases t.acq.fill with
  | none => cases t.acq.capture <;> rfl
  | some f =>
    cases t.acq.capture with
    | none => rfl
    | some c =>
      dsimp only
      rw [hc, apply_ite (fun u : Station => u.retimed n l), apply_ite (fun u : Station => u.retimed n l),
        htake]
      rfl

/-- The act on a line event looks at the event's own instant alone, not at the present tick, nor at anything of LIF but
the enrolment state and the zero of lane time (R177). -/
theorem actEvent_retimed (ev : LineEvent) (x : Nat) (he : l.enrol = t.lif.enrol) (hz : l.laneZero = t.lif.laneZero) :
    (t.retimed n l).actEvent ev x = (t.actEvent ev x).retimed n l := by
  have hn : (t.retimed n l).enrolled = t.enrolled := by simp [Station.enrolled, retimed, he]
  cases ev with
  | readyEdge =>
    simp only [Station.actEvent, Station.readyEdge]
    rw [hn, apply_ite (fun u : Station => u.retimed n l), apply_ite (fun u : Station => u.retimed n l), ← arm_retimed]
    rfl
  | trig =>
    have ht : (t.retimed n l).laneTimeAt x = t.laneTimeAt x := by simp [Station.laneTimeAt, retimed, hz]
    simp only [Station.actEvent, Station.trigPulse]
    rw [show (t.retimed n l).acq = t.acq from rfl, ht]
    cases t.acq.fill with
    | none => cases t.acq.capture <;> rfl
    | some f =>
      cases t.acq.capture with
      | none => rfl
      | some c =>
        dsimp only
        rw [apply_ite (fun u : Station => u.retimed n l)]
        rfl
  | sample s o => exact sourceSample_retimed t n l none s o x hz
  | qual a b c =>
    simp only [Station.actEvent, Station.qualDrive]
    rw [hn]
    rfl

end Sys2Proof.Machine.Station

namespace Sys2Proof.Machine

/-- A step with no command waiting acts on the line event that waits longest, when it is due, as of its own instant:
what the act leaves, at the present tick, with the other line events waiting (R177, log 68). -/
theorem step_due (s : State) (x : Nat) (ev : LineEvent) (rest : List (Nat × LineEvent)) (hp : s.pending = [])
    (hw : s.station.powered = true) (h : s.station.lif.waiting = (x, ev) :: rest) (ho : s.station.inOrder x = true)
    (hg : s.station.groupsBefore (Station.eventIndex ev x) = true) :
    step s = .next (s.put (((s.station.setBack x).actEvent ev x).retimed s.station.ticks
      { s.station.lif with waiting := rest })) := by
  have ha : s.station.actWaiting =
      some (({ s.station with lif := { s.station.lif with waiting := rest } } : Station).actEvent ev x) := by
    unfold Station.actWaiting
    rw [h]
    exact if_pos (by simp [hw, Station.eventDue, ho, hg])
  have hl : ({ s.station with lif := { s.station.lif with waiting := rest } } : Station).actEvent ev x =
      ((s.station.setBack x).actEvent ev x).retimed s.station.ticks { s.station.lif with waiting := rest } :=
    Station.actEvent_retimed (s.station.setBack x) s.station.ticks { s.station.lif with waiting := rest } ev x rfl rfl
  simp only [step, hp, State.idle, ha, hl, State.put]

end Sys2Proof.Machine
end

