-- ==== Sys2Proof/Laws/Panel.lean ====
section
/-! SUPPORT. What a scan does (R94 to R98, R113): one key position, the run over the positions, one encoder and the run
over them, in the terms of the control maps of R99 and R100. -/

namespace Sys2Proof.Machine

/-- How many key positions a role's control map has, from position 0 on (R99, R100). -/
abbrev mappedKeys (role : PanelRole) : Nat := if role = .common then 24 else 8

/-- How many encoder positions a role's control map has, from position 0 on (R99, R100). -/
abbrev mappedEncoders (role : PanelRole) : Nat := if role = .common then 6 else 4

/-- The level of a key position of a role's control map (R97). -/
abbrev keyLevel (role : PanelRole) (k : Nat) : Nat :=
  if role = .channel then 1 else if k ≤ 2 ∨ k = 23 then 3 else if 9 ≤ k then 2 else 1

/-- The key positions of the control maps with the level of their actions; the timed ones are 9 and 23 of a COMMON panel
(R95, R97, R99, R100). -/
theorem keyAction_cases (role : PanelRole) (k : Nat) :
    (mappedKeys role ≤ k ∧ keyAction role k = none) ∨
    (k < mappedKeys role ∧ ∃ a, keyAction role k = some a ∧ a.level = keyLevel role k ∧
      (a = .save ↔ role = .common ∧ k = 9) ∧ (a = .power ↔ role = .common ∧ k = 23)) := by
  cases role with
  | common =>
    by_cases h : k < 24
    · right
      refine ⟨h, ?_⟩
      interval_cases k <;> exact ⟨_, rfl, by decide, by decide, by decide⟩
    · left
      refine ⟨by show 24 ≤ k; omega, ?_⟩
      unfold keyAction
      dsimp only
      rw [if_neg (by omega)]
      split <;> first | omega | rfl
  | channel =>
    by_cases h : k < 8
    · right
      refine ⟨h, ?_⟩
      interval_cases k <;> exact ⟨_, rfl, by decide, by decide, by decide⟩
    · left
      refine ⟨by show 8 ≤ k; omega, ?_⟩
      unfold keyAction
      dsimp only
      split <;> first | omega | rfl

/-- The encoder positions of the control maps (R99, R100). -/
theorem encoderAction_isSome (role : PanelRole) (i : Nat) :
    (encoderAction role i).isSome = decide (i < mappedEncoders role) := by
  cases role with
  | common =>
    by_cases h : i < 6
    · interval_cases i <;> rfl
    · rw [decide_eq_false (by show ¬ i < 6; exact h)]
      unfold encoderAction
      dsimp only
      split <;> first | omega | rfl
  | channel =>
    by_cases h : i < 4
    · interval_cases i <;> rfl
    · rw [decide_eq_false (by show ¬ i < 4; exact h)]
      unfold encoderAction
      dsimp only
      split <;> first | omega | rfl

namespace Station

/-- The event that a scan raises for a key position, by the states before and after and the hold noted for the position
(R94, R95). -/
def keyEvent (role : PanelRole) (x : Nat) (was now : BitVec 64) (hold : Option Nat) (k : Nat) : Option PanelEvent :=
  if mappedKeys role ≤ k then none
  else if now.getLsbD k = true ∧ was.getLsbD k = false then some ⟨.down, k, 0, keyLevel role k, x⟩
  else if now.getLsbD k = true ∧ heldFor x hold = true then some ⟨.hold, k, 0, keyLevel role k, x⟩
  else none

/-- The hold noted for a key position (R95). -/
def holdAt (k : Nat) (t : Station) : Option Nat :=
  if t.straps.panel = .common ∧ k = 9 then t.pns.holdSave
  else if t.straps.panel = .common ∧ k = 23 then t.pns.holdPower
  else none

/-- The hold that a scan leaves for a timed key position (R95). -/
def nextHold (x : Nat) (was now : Bool) (hold : Option Nat) : Option Nat :=
  if now = false then none
  else if was = false then some x
  else if heldFor x hold = true then none
  else hold

/-- Stated over any duration, so that no proof evaluates one. -/
theorem any_le_some (H x noted : Nat) : (some noted).any (fun n => decide (n + H ≤ x)) = true ↔ noted + H ≤ x := by
  simp

/-- The hold noted has lasted its time, as an inequality of instants (R95). -/
theorem heldFor_some (x noted : Nat) : heldFor x (some noted) = true ↔ noted + Config.holdTicks ≤ x :=
  any_le_some Config.holdTicks x noted

/-- A hold goes on until it has lasted its time (R95). -/
theorem nextHold_some (x noted : Nat) :
    nextHold x true true (some noted) = if noted + Config.holdTicks ≤ x then none else some noted := by
  unfold nextHold
  rw [if_neg (by decide), if_neg (by decide)]
  by_cases h : noted + Config.holdTicks ≤ x
  · rw [if_pos h, if_pos ((heldFor_some x noted).mpr h)]
  · rw [if_neg h, if_neg (fun e => h ((heldFor_some x noted).mp e))]

/-- Where two scans in a row read a key alike, its state is the one read; else it stays (R94). -/
theorem debounce_bit (keys raw acc : BitVec 64) (k : Nat) (hk : k < 64) :
    (debounce keys raw acc).getLsbD k = if keys.getLsbD k = raw.getLsbD k then keys.getLsbD k else acc.getLsbD k := by
  simp only [debounce, BitVec.getLsbD_or, BitVec.getLsbD_and, BitVec.getLsbD_not, BitVec.getLsbD_xor, hk, decide_true]
  cases keys.getLsbD k <;> cases raw.getLsbD k <;> cases acc.getLsbD k <;> rfl

/-- What is queued of the events a scan raises: in standby a POWER DOWN alone (R113). -/
def queues (standby : Bool) (role : PanelRole) (e : PanelEvent) : Bool :=
  !standby || decide (role = .common ∧ e.kind = .down ∧ e.control = 23)

variable (t : Station) (x : Nat) (was now : BitVec 64)

/-- The station with another queue of panel events and other holds: all that a key position can change. -/
def withKeys (q : List PanelEvent) (save power : Option Nat) : Station :=
  { t with pns := { t.pns with queue := q, holdSave := save, holdPower := power } }

theorem setHold_save (h : Option Nat) : t.setHold .save h = t.withKeys t.pns.queue h t.pns.holdPower := rfl

theorem setHold_power (h : Option Nat) : t.setHold .power h = t.withKeys t.pns.queue t.pns.holdSave h := rfl

theorem setHold_other (a : Action) (h : Option Nat) (hs : a ≠ .save) (hp : a ≠ .power) : t.setHold a h = t := by
  unfold setHold; split <;> simp_all

theorem holdOf_other (a : Action) (hs : a ≠ .save) (hp : a ≠ .power) : t.holdOf a = none := by
  unfold holdOf; split <;> simp_all

/-- An event joins the tail of a queue of less than sixteen, in standby a POWER DOWN alone (R98, R113). -/
theorem raiseKeyEvent_eq (e : PanelEvent) (p : Bool) :
    t.raiseKeyEvent e p =
      t.withKeys (if 16 ≤ t.pns.queue.length ∨ (t.standby = true ∧ p = false) then t.pns.queue else t.pns.queue ++ [e])
        t.pns.holdSave t.pns.holdPower := by
  unfold raiseKeyEvent
  by_cases h : 16 ≤ t.pns.queue.length ∨ (t.standby = true ∧ p = false)
  · rw [if_pos h, if_pos (by simpa [or_comm] using h)]; rfl
  · rw [if_neg h, if_neg (by simpa [or_comm] using h)]; rfl

/-- What a scan does for one key position: the event it raises joins the tail of a queue of less than sixteen, in
standby a POWER DOWN alone, and the hold of a timed position goes on (R94, R95, R98, R113). -/
theorem scanKey_eq (k : Nat) :
    scanKey x was now t k =
      t.withKeys
        (if 16 ≤ t.pns.queue.length then t.pns.queue
         else t.pns.queue ++
          (keyEvent t.straps.panel x was now (t.holdAt k) k).toList.filter (queues t.standby t.straps.panel))
        (if t.straps.panel = .common ∧ k = 9 then nextHold x (was.getLsbD k) (now.getLsbD k) t.pns.holdSave
         else t.pns.holdSave)
        (if t.straps.panel = .common ∧ k = 23 then nextHold x (was.getLsbD k) (now.getLsbD k) t.pns.holdPower
         else t.pns.holdPower) := by
  rcases keyAction_cases t.straps.panel k with ⟨hk, ha⟩ | ⟨hk, a, ha, hl, hs, hp⟩
  · have h9 : ¬ (t.straps.panel = .common ∧ k = 9) := by
      rintro ⟨h, rfl⟩; simp [h, mappedKeys] at hk
    have h23 : ¬ (t.straps.panel = .common ∧ k = 23) := by
      rintro ⟨h, rfl⟩; simp [h, mappedKeys] at hk
    simp only [scanKey, ha, h9, h23, if_false, keyEvent, if_pos hk, Option.toList_none, List.filter_nil,
      List.append_nil, ite_self]
    rfl
  · have hnk : ¬ mappedKeys t.straps.panel ≤ k := by omega
    simp only [scanKey, ha, keyEvent, if_neg hnk, hl, nextHold]
    generalize now.getLsbD k = n
    generalize was.getLsbD k = w
    generalize keyLevel t.straps.panel k = level
    have id_keys : t = t.withKeys t.pns.queue t.pns.holdSave t.pns.holdPower := rfl
    by_cases h9 : t.straps.panel = .common ∧ k = 9
    · obtain rfl := hs.mpr h9
      have hH : t.holdAt k = t.pns.holdSave := by simp [holdAt, h9]
      have h23 : ¬ (t.straps.panel = .common ∧ k = 23) := by omega
      have h23' : k ≠ 23 := by omega
      rw [hH, if_neg h23, if_pos h9]
      simp only [setHold_save, holdOf, raiseKeyEvent_eq]
      cases n
      · simp
      cases w
      · by_cases hq : 16 ≤ t.pns.queue.length <;> cases hb : t.standby <;> simp [queues, withKeys, hb, hq, h23']
      · cases hd : heldFor x t.pns.holdSave
        · simpa [hd] using id_keys
        · by_cases hq : 16 ≤ t.pns.queue.length <;> cases hb : t.standby <;> simp [queues, withKeys, hb, hq, h23']
    by_cases h23 : t.straps.panel = .common ∧ k = 23
    · obtain rfl := hp.mpr h23
      have hH : t.holdAt k = t.pns.holdPower := by simp [holdAt, h23]
      rw [hH, if_neg h9, if_pos h23]
      simp only [setHold_power, holdOf, raiseKeyEvent_eq]
      cases n
      · simp
      cases w
      · by_cases hq : 16 ≤ t.pns.queue.length <;> cases hb : t.standby <;> simp [queues, withKeys, hb, hq, h23]
      · cases hd : heldFor x t.pns.holdPower
        · simpa [hd] using id_keys
        · by_cases hq : 16 ≤ t.pns.queue.length <;> cases hb : t.standby <;> simp [queues, withKeys, hb, hq]
    · have hsa : a ≠ .save := fun h => h9 (hs.mp h)
      have hpa : a ≠ .power := fun h => h23 (hp.mp h)
      have hH : t.holdAt k = none := by simp [holdAt, h9, h23]
      have hqs (e : PanelEvent) (he : e.control = k) : queues t.standby t.straps.panel e = !t.standby := by
        simp only [queues, he, Bool.or_eq_left_iff_imp, decide_eq_true_eq]
        rintro ⟨hr, _, hk⟩
        exact absurd ⟨hr, hk⟩ h23
      rw [hH, if_neg h9, if_neg h23]
      simp only [setHold_other _ _ _ hsa hpa, holdOf_other _ _ hsa hpa, raiseKeyEvent_eq, decide_eq_false hpa]
      cases n
      · simpa using id_keys
      cases w
      · by_cases hq : 16 ≤ t.pns.queue.length <;> cases hb : t.standby <;> simp [hb] at hqs <;>
          simp [hqs, withKeys, hq, hb]
      · simpa [heldFor] using id_keys

/-- Entries beyond the sixteenth are lost, whenever they come. -/
theorem take_append_take {α : Type} (n : Nat) (a b : List α) : (a.take n ++ b).take n = (a ++ b).take n := by
  rcases Nat.le_total a.length n with h | h
  · rw [List.take_of_length_le h]
  · rw [List.take_append_of_le_length (by simpa using h), List.take_append_of_le_length h, List.take_take, Nat.min_self]

/-- What a scan leaves of the holds after a run of key positions (R95). -/
theorem scanKeys_eq (l : List Nat) (hl : l.Nodup) (t : Station) :
    l.foldl (scanKey x was now) t =
      t.withKeys (l.foldl (scanKey x was now) t).pns.queue
        (if t.straps.panel = .common ∧ 9 ∈ l then nextHold x (was.getLsbD 9) (now.getLsbD 9) t.pns.holdSave
         else t.pns.holdSave)
        (if t.straps.panel = .common ∧ 23 ∈ l then nextHold x (was.getLsbD 23) (now.getLsbD 23) t.pns.holdPower
         else t.pns.holdPower) := by
  induction l generalizing t with
  | nil => simp only [List.foldl_nil, List.not_mem_nil, and_false, if_false]; rfl
  | cons k l ih =>
    obtain ⟨hk, hl⟩ := List.nodup_cons.mp hl
    have hnext : ∀ (j : Nat) (h : Option Nat),
        (if t.straps.panel = .common ∧ j ∈ l then
            nextHold x (was.getLsbD j) (now.getLsbD j)
              (if t.straps.panel = .common ∧ k = j then nextHold x (was.getLsbD k) (now.getLsbD k) h else h)
          else if t.straps.panel = .common ∧ k = j then nextHold x (was.getLsbD k) (now.getLsbD k) h else h) =
        if t.straps.panel = .common ∧ j ∈ k :: l then nextHold x (was.getLsbD j) (now.getLsbD j) h else h := by
      intro j h
      by_cases hr : t.straps.panel = .common
      · by_cases hjk : k = j
        · subst hjk; simp [hr, hk]
        · simp [hr, hjk, Ne.symm hjk]
      · simp [hr]
    rw [List.foldl_cons, ih hl]
    generalize (l.foldl (scanKey x was now) (scanKey x was now t k)).pns.queue = q
    rw [scanKey_eq, ← hnext 9 t.pns.holdSave, ← hnext 23 t.pns.holdPower]
    rfl

/-- The events of a run of key positions join the tail up to sixteen, in the run's order, in standby a POWER DOWN alone
(R94, R98, R113). -/
theorem scanKeys_queue (l : List Nat) (hl : l.Nodup) (t : Station) (hq : t.pns.queue.length ≤ 16) :
    (l.foldl (scanKey x was now) t).pns.queue =
      (t.pns.queue ++
        (l.filterMap (fun k => keyEvent t.straps.panel x was now (t.holdAt k) k)).filter
          (queues t.standby t.straps.panel)).take 16 := by
  induction l generalizing t with
  | nil => simp [List.take_of_length_le hq]
  | cons k l ih =>
    obtain ⟨hk, hl⟩ := List.nodup_cons.mp hl
    have hqueue : (scanKey x was now t k).pns.queue =
        (t.pns.queue ++
          (keyEvent t.straps.panel x was now (t.holdAt k) k).toList.filter (queues t.standby t.straps.panel)).take 16 := by
      rw [scanKey_eq]
      show (if 16 ≤ t.pns.queue.length then t.pns.queue else _) = _
      by_cases h16 : 16 ≤ t.pns.queue.length
      · rw [if_pos h16, List.take_append_of_le_length h16, List.take_of_length_le hq]
      · rw [if_neg h16, List.take_of_length_le]
        have hle : ∀ o : Option PanelEvent, (o.toList.filter (queues t.standby t.straps.panel)).length ≤ 1 := by
          intro o; refine le_trans (List.length_filter_le _ _) ?_; cases o <;> simp
        have := hle (keyEvent t.straps.panel x was now (t.holdAt k) k)
        rw [List.length_append]; omega
    have hhold : ∀ j ∈ l, (scanKey x was now t k).holdAt j = t.holdAt j := by
      intro j hj
      have hjk : j ≠ k := fun h => hk (h ▸ hj)
      rw [scanKey_eq]
      simp only [holdAt, withKeys]
      by_cases h9 : t.straps.panel = .common ∧ j = 9
      · simp [h9]
        omega
      · by_cases h23 : t.straps.panel = .common ∧ j = 23
        · simp [h23]
          omega
        · simp [h9, h23]
    rw [List.foldl_cons, ih hl _ (by rw [hqueue]; exact List.length_take_le _ _), hqueue]
    have hs : (scanKey x was now t k).straps = t.straps := by rw [scanKey_eq]; rfl
    have hb : (scanKey x was now t k).standby = t.standby := by rw [scanKey_eq]; rfl
    rw [hs, hb]
    rw [List.filterMap_congr (fun j hj => by rw [hhold j hj]), take_append_take, List.append_assoc,
      ← List.filter_append, List.filterMap_cons]
    cases keyEvent t.straps.panel x was now (t.holdAt k) k <;> rfl

/-- A full queue takes no key event (R98). -/
theorem scanKeys_full (l : List Nat) (t : Station) (hq : 16 ≤ t.pns.queue.length) :
    (l.foldl (scanKey x was now) t).pns.queue = t.pns.queue := by
  induction l generalizing t with
  | nil => rfl
  | cons k l ih =>
    have h : (scanKey x was now t k).pns.queue = t.pns.queue := by rw [scanKey_eq]; exact if_pos hq
    rw [List.foldl_cons, ih _ (by rw [h]; exact hq), h]

/-! Encoders. -/

/-- Setting one encoder's count leaves the others'. -/
theorem countOf_setCount (i j : Nat) (v : Int) (hj : j < t.pns.counts.length) :
    (t.setCount i v).countOf j = if i = j then v else t.countOf j := by
  simp only [countOf, setCount, List.getD_eq_getElem?_getD, List.getElem?_set]
  by_cases h : i = j
  · subst h; simp [hj]
  · simp [h]

/-- A TURN merges into the queued TURN of its control that stands first (R98). -/
theorem addTurn_eq (i : Nat) (v : Int) (before behind : List PanelEvent) (e : PanelEvent)
    (he : e.kind = .turn ∧ e.control = i) (hb : ∀ y ∈ before, ¬ (y.kind = .turn ∧ y.control = i)) :
    addTurn i v (before ++ e :: behind) =
      before ++
        (if clampTo (-127) 127 (e.detents + v) = 0 then []
         else [{ e with detents := clampTo (-127) 127 (e.detents + v) }]) ++ behind := by
  induction before with
  | nil => by_cases h : clampTo (-127) 127 (e.detents + v) = 0 <;> simp [addTurn, he, h]
  | cons y ys ih =>
    have hy := hb y (List.mem_cons_self ..)
    rw [List.cons_append, addTurn, if_neg hy, ih (fun z hz => hb z (List.mem_cons_of_mem _ hz))]
    simp

/-- An encoder outside the control map, or one whose count is 0, hands nothing over (R96). -/
theorem handTurn_none (i : Nat) (h : mappedEncoders t.straps.panel ≤ i ∨ t.countOf i = 0) : handTurn x t i = t := by
  have he := encoderAction_isSome t.straps.panel i
  unfold handTurn
  cases ha : encoderAction t.straps.panel i with
  | none => rfl
  | some a =>
    rw [ha] at he
    have : i < mappedEncoders t.straps.panel := by simpa using he.symm
    rcases h with h | h
    · omega
    · simp [h]

/-- What an encoder of the control map with a count that is not 0 does (R96, R98, R113). -/
theorem handTurn_some (i : Nat) (hi : i < mappedEncoders t.straps.panel) (hv : t.countOf i ≠ 0) :
    handTurn x t i =
      if t.standby = true then t.setCount i 0
      else if t.pns.queue.any (fun e => decide (e.kind = .turn) && decide (e.control = i)) = true then
        { t.setCount i 0 with pns := { (t.setCount i 0).pns with queue := addTurn i (t.countOf i) t.pns.queue } }
      else if t.pns.queue.length < 16 then
        { t.setCount i 0 with
          pns := { (t.setCount i 0).pns with queue := t.pns.queue ++ [⟨.turn, i, t.countOf i, 1, x⟩] } }
      else t := by
  have he := encoderAction_isSome t.straps.panel i
  obtain ⟨a, ha⟩ := Option.isSome_iff_exists.mp (he.trans (decide_eq_true hi))
  unfold handTurn
  rw [ha]
  dsimp only
  rw [if_neg hv]
  rfl

/-- An encoder's count enters the queue, and nothing else of the panel changes but that count (R96). -/
theorem handTurn_counts (i : Nat) :
    handTurn x t i =
      { t with pns := { t.pns with queue := (handTurn x t i).pns.queue, counts := (handTurn x t i).pns.counts } } ∧
    (handTurn x t i).pns.counts.length = t.pns.counts.length ∧
    ∀ j, j ≠ i → (handTurn x t i).countOf j = t.countOf j := by
  by_cases h : mappedEncoders t.straps.panel ≤ i ∨ t.countOf i = 0
  · rw [handTurn_none t x i h]
    exact ⟨rfl, rfl, fun _ _ => rfl⟩
  · have hne : ∀ j, j ≠ i → (t.setCount i 0).countOf j = t.countOf j := by
      intro j hj
      simp [countOf, setCount, List.getD_eq_getElem?_getD, Ne.symm hj]
    have hlen : (t.setCount i 0).pns.counts.length = t.pns.counts.length := by simp [setCount]
    rw [handTurn_some t x i (by omega) (fun hv => h (Or.inr hv))]
    split_ifs
    · exact ⟨rfl, hlen, hne⟩
    · exact ⟨rfl, hlen, hne⟩
    · exact ⟨rfl, hlen, hne⟩
    · exact ⟨rfl, rfl, fun _ _ => rfl⟩

/-- The first n encoders hand their counts over, in increasing position (R96). -/
def handTurns (x : Nat) (t : Station) (n : Nat) : Station := (List.range n).foldl (handTurn x) t

/-- One encoder after the other. -/
theorem handTurns_succ (n : Nat) : handTurns x t (n + 1) = handTurn x (handTurns x t n) n := by
  simp [handTurns, List.range_succ]

/-- The first n encoders change the queue and their own counts alone. -/
theorem handTurns_frame (n : Nat) :
    handTurns x t n =
      { t with
        pns := { t.pns with queue := (handTurns x t n).pns.queue, counts := (handTurns x t n).pns.counts } } ∧
    (handTurns x t n).pns.counts.length = t.pns.counts.length ∧
    ∀ j, n ≤ j → (handTurns x t n).countOf j = t.countOf j := by
  induction n with
  | zero => exact ⟨rfl, rfl, fun _ _ => rfl⟩
  | succ n ih =>
    obtain ⟨ht, hlen, hcount⟩ := ih
    obtain ⟨ht', hlen', hcount'⟩ := handTurn_counts (handTurns x t n) x n
    rw [handTurns_succ]
    refine ⟨?_, hlen'.trans hlen, fun j hj => (hcount' j (by omega)).trans (hcount j (by omega))⟩
    rw [ht']
    generalize (handTurn x (handTurns x t n) n).pns.queue = queue
    generalize (handTurn x (handTurns x t n) n).pns.counts = counts
    rw [ht]

/-- What an encoder leaves of its count stays to the end of the scan. -/
theorem handTurns_countOf (i m : Nat) : (handTurns x t (i + 1 + m)).countOf i = (handTurns x t (i + 1)).countOf i := by
  induction m with
  | zero => rfl
  | succ m ih => rw [← ih, ← Nat.add_assoc, handTurns_succ]; exact (handTurn_counts _ x _).2.2 i (by omega)

end Station

end Sys2Proof.Machine
end

