-- ==== Sys2Proof/Laws/PerInstr.lean ====
section
/-! SUPPORT. One lemma per command, as syntax: every row of the table has a well-formed command. -/

namespace Sys2Proof.Laws

/-- The row of this command has a well-formed command. -/
def Admissible.Statement (i : Instr) : Prop := ∃ j : Instr, j.ctorIdx = i.ctorIdx ∧ j.wf = true

theorem Admissible.powerOnReset (straps : Straps) : Admissible.Statement (.powerOnReset straps) :=
  ⟨.powerOnReset ⟨0, 1, .common, .sole⟩, rfl, by decide⟩

theorem Admissible.powerOnScan : Admissible.Statement .powerOnScan := ⟨.powerOnScan, rfl, rfl⟩

theorem Admissible.announceTimerExpiry : Admissible.Statement .announceTimerExpiry := ⟨.announceTimerExpiry, rfl, rfl⟩

theorem Admissible.faultTimerExpiry : Admissible.Statement .faultTimerExpiry := ⟨.faultTimerExpiry, rfl, rfl⟩

theorem Admissible.claimPhase (others : List Nat) : Admissible.Statement (.claimPhase others) :=
  ⟨.claimPhase [], rfl, by decide⟩

theorem Admissible.frameEnd (bytes : List Byte) (otherVoid : Bool) : Admissible.Statement (.frameEnd bytes otherVoid) :=
  ⟨.frameEnd [0, 0, 0, 0, 0] false, rfl, by decide⟩

theorem Admissible.transmitListRoom (block : Offerer) : Admissible.Statement (.transmitListRoom block) :=
  ⟨.transmitListRoom block, rfl, rfl⟩

theorem Admissible.restart : Admissible.Statement .restart := ⟨.restart, rfl, rfl⟩

theorem Admissible.runctlRun : Admissible.Statement .runctlRun := ⟨.runctlRun, rfl, rfl⟩

theorem Admissible.runctlStop : Admissible.Statement .runctlStop := ⟨.runctlStop, rfl, rfl⟩

theorem Admissible.runctlSingle : Admissible.Statement .runctlSingle := ⟨.runctlSingle, rfl, rfl⟩

theorem Admissible.runctlForce : Admissible.Statement .runctlForce := ⟨.runctlForce, rfl, rfl⟩

theorem Admissible.runctlCleardisplay : Admissible.Statement .runctlCleardisplay := ⟨.runctlCleardisplay, rfl, rfl⟩

theorem Admissible.runctlStandby : Admissible.Statement .runctlStandby := ⟨.runctlStandby, rfl, rfl⟩

theorem Admissible.runctlWake : Admissible.Statement .runctlWake := ⟨.runctlWake, rfl, rfl⟩

theorem Admissible.triggered : Admissible.Statement .triggered := ⟨.triggered, rfl, rfl⟩

theorem Admissible.recall : Admissible.Statement .recall := ⟨.recall, rfl, rfl⟩

theorem Admissible.listed : Admissible.Statement .listed := ⟨.listed, rfl, rfl⟩

theorem Admissible.staged : Admissible.Statement .staged := ⟨.staged, rfl, rfl⟩

theorem Admissible.save : Admissible.Statement .save := ⟨.save, rfl, rfl⟩

theorem Admissible.saved : Admissible.Statement .saved := ⟨.saved, rfl, rfl⟩

theorem Admissible.mapHold : Admissible.Statement .mapHold := ⟨.mapHold, rfl, rfl⟩

theorem Admissible.mapRelease : Admissible.Statement .mapRelease := ⟨.mapRelease, rfl, rfl⟩

theorem Admissible.settingSet : Admissible.Statement .settingSet := ⟨.settingSet, rfl, rfl⟩

theorem Admissible.settingStep : Admissible.Statement .settingStep := ⟨.settingStep, rfl, rfl⟩

theorem Admissible.enrol : Admissible.Statement .enrol := ⟨.enrol, rfl, rfl⟩

theorem Admissible.storeOpen : Admissible.Statement .storeOpen := ⟨.storeOpen, rfl, rfl⟩

theorem Admissible.storeGuard : Admissible.Statement .storeGuard := ⟨.storeGuard, rfl, rfl⟩

theorem Admissible.storePin : Admissible.Statement .storePin := ⟨.storePin, rfl, rfl⟩

theorem Admissible.storeKeep : Admissible.Statement .storeKeep := ⟨.storeKeep, rfl, rfl⟩

theorem Admissible.storeDiscard : Admissible.Statement .storeDiscard := ⟨.storeDiscard, rfl, rfl⟩

theorem Admissible.storeOverrideOn : Admissible.Statement .storeOverrideOn := ⟨.storeOverrideOn, rfl, rfl⟩

theorem Admissible.storeOverrideOff : Admissible.Statement .storeOverrideOff := ⟨.storeOverrideOff, rfl, rfl⟩

theorem Admissible.storeClearStatus : Admissible.Statement .storeClearStatus := ⟨.storeClearStatus, rfl, rfl⟩

theorem Admissible.annot : Admissible.Statement .annot := ⟨.annot, rfl, rfl⟩

theorem Admissible.queryStation : Admissible.Statement .queryStation := ⟨.queryStation, rfl, rfl⟩

theorem Admissible.querySetting : Admissible.Statement .querySetting := ⟨.querySetting, rfl, rfl⟩

theorem Admissible.queryBlock : Admissible.Statement .queryBlock := ⟨.queryBlock, rfl, rfl⟩

theorem Admissible.queryWindows : Admissible.Statement .queryWindows := ⟨.queryWindows, rfl, rfl⟩

theorem Admissible.report : Admissible.Statement .report := ⟨.report, rfl, rfl⟩

theorem Admissible.illFittingFrame : Admissible.Statement .illFittingFrame := ⟨.illFittingFrame, rfl, rfl⟩

theorem Admissible.readyRisingEdge : Admissible.Statement .readyRisingEdge := ⟨.readyRisingEdge, rfl, rfl⟩

theorem Admissible.groupCompletion (samplesA samplesB : List Sample) : Admissible.Statement (.groupCompletion samplesA samplesB) :=
  ⟨.groupCompletion [0] [0], rfl, by decide⟩

theorem Admissible.trigger (sample : Sample) (offset : Nat) : Admissible.Statement (.trigger sample offset) :=
  ⟨.trigger 0 0, rfl, by decide⟩

theorem Admissible.trig : Admissible.Statement .trig := ⟨.trig, rfl, rfl⟩

theorem Admissible.autoTimerExpiry : Admissible.Statement .autoTimerExpiry := ⟨.autoTimerExpiry, rfl, rfl⟩

theorem Admissible.alignmentTimerExpiry : Admissible.Statement .alignmentTimerExpiry :=
  ⟨.alignmentTimerExpiry, rfl, rfl⟩

theorem Admissible.settlingTimerExpiry : Admissible.Statement .settlingTimerExpiry := ⟨.settlingTimerExpiry, rfl, rfl⟩

theorem Admissible.settleTimerExpiry : Admissible.Statement .settleTimerExpiry := ⟨.settleTimerExpiry, rfl, rfl⟩

theorem Admissible.operationWindowExpiry : Admissible.Statement .operationWindowExpiry :=
  ⟨.operationWindowExpiry, rfl, rfl⟩

theorem Admissible.sstQueueRoom : Admissible.Statement .sstQueueRoom := ⟨.sstQueueRoom, rfl, rfl⟩

theorem Admissible.sequencerTake : Admissible.Statement .sequencerTake := ⟨.sequencerTake, rfl, rfl⟩

theorem Admissible.readEnd : Admissible.Statement .readEnd := ⟨.readEnd, rfl, rfl⟩

theorem Admissible.writeEnd (readBack : List Byte) : Admissible.Statement (.writeEnd readBack) :=
  ⟨.writeEnd [0, 0, 0, 0], rfl, by decide⟩

theorem Admissible.clearEnd (left : List Host.Cell) : Admissible.Statement (.clearEnd left) :=
  ⟨.clearEnd [], rfl, by decide⟩

theorem Admissible.clearSuspend : Admissible.Statement .clearSuspend := ⟨.clearSuspend, rfl, rfl⟩

theorem Admissible.storeTimeLimit : Admissible.Statement .storeTimeLimit := ⟨.storeTimeLimit, rfl, rfl⟩

theorem Admissible.rescanEnd : Admissible.Statement .rescanEnd := ⟨.rescanEnd, rfl, rfl⟩

theorem Admissible.drawCompletion : Admissible.Statement .drawCompletion := ⟨.drawCompletion, rfl, rfl⟩

theorem Admissible.decayTimerExpiry : Admissible.Statement .decayTimerExpiry := ⟨.decayTimerExpiry, rfl, rfl⟩

theorem Admissible.decayPassEnd : Admissible.Statement .decayPassEnd := ⟨.decayPassEnd, rfl, rfl⟩

theorem Admissible.frameTimerExpiry : Admissible.Statement .frameTimerExpiry := ⟨.frameTimerExpiry, rfl, rfl⟩

theorem Admissible.wf_rowMerge (u : List Pixel) : (Instr.rowMerge u).wf = decide (u.length = 800) := rfl

theorem Admissible.rowMerge (upstream : List Pixel) : Admissible.Statement (.rowMerge upstream) :=
  ⟨.rowMerge (List.replicate 800 ⟨0, 0⟩), rfl, by rw [Admissible.wf_rowMerge, List.length_replicate]; rfl⟩

theorem Admissible.frameStartMarker : Admissible.Statement .frameStartMarker := ⟨.frameStartMarker, rfl, rfl⟩

theorem Admissible.lossTimerExpiry : Admissible.Statement .lossTimerExpiry := ⟨.lossTimerExpiry, rfl, rfl⟩

theorem Admissible.scanTimerExpiry (keys : BitVec 64) (detents : List Int) : Admissible.Statement (.scanTimerExpiry keys detents) :=
  ⟨.scanTimerExpiry 0 [0, 0, 0, 0, 0, 0, 0, 0], rfl, by decide⟩

theorem Admissible.panelDispatch : Admissible.Statement .panelDispatch := ⟨.panelDispatch, rfl, rfl⟩

theorem Admissible.sequenceDeadline : Admissible.Statement .sequenceDeadline := ⟨.sequenceDeadline, rfl, rfl⟩

theorem Admissible.ledOverlayEnd (led : Led) : Admissible.Statement (.ledOverlayEnd led) :=
  ⟨.ledOverlayEnd led, rfl, rfl⟩

theorem Admissible.qualDrive (sampleA sampleB : Sample) (othersRelease : Bool) : Admissible.Statement (.qualDrive sampleA sampleB othersRelease) :=
  ⟨.qualDrive sampleA sampleB othersRelease, rfl, rfl⟩

theorem Admissible.triggerCrossing (sample : Sample) (offset : Nat) : Admissible.Statement (.triggerCrossing sample offset) :=
  ⟨.triggerCrossing 0 0, rfl, by decide⟩

theorem Admissible.compactionReadEnd : Admissible.Statement .compactionReadEnd := ⟨.compactionReadEnd, rfl, rfl⟩

theorem Admissible.powerLoss : Admissible.Statement .powerLoss := ⟨.powerLoss, rfl, rfl⟩

end Sys2Proof.Laws
end

