-- ==== Sys2Proof/Laws/Rows.lean ====
section
/-! SUPPORT. The rows on their way out (R80, R82): a merge puts its row in front of them and loses none whose row period
has not ended, and it changes nothing of what is being sent while its own row period has not begun. -/

namespace Sys2Proof.Machine

/-- A merged row is still on its way out exactly when its row period has not ended. -/
theorem mem_currentRows (x : Nat) (rows : List MergedRow) (m : MergedRow) :
    m ∈ Station.currentRows x rows ↔ m ∈ rows ∧ x < m.sendAt + Config.rowTicks := by
  simp [Station.currentRows]

namespace Station

variable (t : Station) (f : Frame) (received : List Pixel)

/-- What a merge leaves of the rows: its own in front of those whose row period has not ended. -/
theorem mergeRow_rows :
    ∃ pixels, (t.mergeRow f received).rse.rows =
      ⟨f.next, pixels, t.rowSendAt f, f.outStart⟩ :: Station.currentRows t.ticks t.rse.rows := ⟨_, rfl⟩

/-- A merge changes nothing of the row being sent while its own row period has not begun. -/
theorem sentRow_mergeRow (h : t.ticks < t.rowSendAt f) : (t.mergeRow f received).sentRow = t.sentRow := by
  have hf : ∀ o : OutFrame,
      (Station.currentRows t.ticks t.rse.rows).find? (t.rowSent o) = t.rse.rows.find? (t.rowSent o) := by
    intro o
    rw [Station.currentRows, List.find?_filter]
    congr 1
    funext m
    by_cases hm : t.ticks < m.sendAt + Config.rowTicks <;> simp [rowSent, hm]
  unfold Station.sentRow
  show t.outFrame.bind _ = t.outFrame.bind _
  congr 1
  funext o
  show List.find? (t.rowSent o) (⟨f.next, _, t.rowSendAt f, f.outStart⟩ :: Station.currentRows t.ticks t.rse.rows) = _
  rw [List.find?_cons_of_neg, hf o]
  simp [rowSent, Nat.not_le.mpr h]

end Station

end Sys2Proof.Machine
end

