-- ==== Sys2Proof/Tests/Slice0.lean ====
section
/-! SUPPORT. Tests on fixed values: an ill-formed term for each check of well-formedness, the check values and worked
examples of the spec, one small step for many commands, and for every statement with hypotheses a state and operands
that meet them. -/

namespace Sys2Proof.Tests

-- one theorem after the other: checked side by side the tests take a thread's stack each
set_option Elab.async false

open Sys2Proof.Machine

/-! Small states. -/

/-- An enrolled station 0 of 1 at power-on values, ten lane ticks after its reset. -/
def base : Station :=
  { Station.powerOn resetStraps [] with
    ticks := 10
    lif :=
      { Lif.powerOn 0 with startUp := false, enrol := { (Lif.powerOn 0).enrol with state := .enrolled } } }

/-- The machine with a station and no command waiting. -/
def at_ (t : Station) : State := ⟨[], t⟩

/-- A frame of a sender, accepted at tick 5. -/
def frame (m : Msg) (sender : Nat) : RxEntry := ⟨m, sender, 5, false⟩

/-- A station with one frame of station 0 in its receive list. -/
def receiving (m : Msg) (t : Station) : State := at_ { t with lif := { t.lif with rx := [frame m 0] } }

/-- A station in an enrolment state. -/
def inState (e : EnrolState) (t : Station) : Station := t.setEnrolState e

/-- The next state's station; of a fault or a refusal, the station at reset. -/
def after (o : Answered) : Station :=
  match o with
  | .next s => s.station
  | _ => State.reset.station

/-! Well-formedness: each check refuses an ill-formed term. -/

theorem test_wf_station : (Instr.powerOnReset ⟨4, 4, .common, .sole⟩).wf = false := by decide
theorem test_wf_count_low : (Instr.powerOnReset ⟨0, 0, .common, .sole⟩).wf = false := by decide
theorem test_wf_count_high : (Instr.powerOnReset ⟨0, 5, .channel, .head⟩).wf = false := by decide
theorem test_wf_claim : (Instr.claimPhase [3, 32]).wf = false := by decide
theorem test_wf_frameEnd : (Instr.frameEnd [0, 0, 0, 0] false).wf = false := by decide
theorem test_wf_group_empty : (Instr.groupCompletion [] []).wf = false := by decide
theorem test_wf_group_uneven : (Instr.groupCompletion [1] [1, 2]).wf = false := by decide
theorem test_wf_trigger : (Instr.trigger 0 25).wf = false := by decide
theorem test_wf_crossing : (Instr.triggerCrossing 0 25).wf = false := by decide
theorem test_wf_writeEnd : (Instr.writeEnd [1, 2, 3]).wf = false := by decide
theorem test_wf_clearEnd_offset : (Instr.clearEnd [(4100, 0)]).wf = false := by decide
theorem test_wf_clearEnd_erased : (Instr.clearEnd [(0, 0xFF)]).wf = false := by decide
theorem test_wf_rowMerge : (Instr.rowMerge []).wf = false := by decide
theorem test_wf_scan : (Instr.scanTimerExpiry 0 [1]).wf = false := by decide

/-- The table gives no command bits, so no word spells one. -/
theorem test_no_word_spells_a_command : decodeTableWord 8 5 = none := by decide

/-! Check values and worked examples of the spec. -/

/-- The check values of R197. -/
theorem test_crc :
    crc16 [0x31, 0x32, 0x33, 0x34, 0x35, 0x36, 0x37, 0x38, 0x39] = 0x29B1 ∧
    crc32 [0x31, 0x32, 0x33, 0x34, 0x35, 0x36, 0x37, 0x38, 0x39] = 0xCBF43926 := by decide +kernel

/-- The examples of R9 and R8. -/
theorem test_steps :
    (commonSpec 2 2).map (fun sp => sp.apply .step 980 5) = some 1000 ∧
    (channelSpec 3).map (fun sp => sp.apply .step (-495) (-1)) = some (-500) ∧
    (commonSpec 2 6).map (fun sp => sp.apply .step 4 1) = some 1 ∧
    (commonSpec 2 4).map (fun sp => sp.apply .step 0 (-1)) = some 2 ∧
    (channelSpec 1).map (fun sp => sp.apply .step 1 2) = some 1 ∧
    (commonSpec 2 6).map (fun sp => sp.apply .set 3 5) = some 3 ∧
    (channelSpec 3).map (fun sp => sp.apply .set 0 501) = some 0 := by decide

/-- Labels: replace, append, a gap, position 8, truncate (R3). -/
theorem test_labels :
    setLabel [1, 2] 64 = [1, 0] ∧ setLabel [1, 2] (2 * 64 + 5) = [1, 2, 5] ∧ setLabel [1, 2] (3 * 64) = [1, 2] ∧
    setLabel [1, 1, 1, 1, 1, 1, 1, 1] 512 = [1, 1, 1, 1, 1, 1, 1, 1] ∧ setLabel [1, 2, 3] (-3) = [1, 2] ∧
    setLabel [1, 2] (-1) = [] ∧ setLabel [1, 2] (-10) = [1, 2] ∧ setLabel [1, 2] 576 = [1, 2] := by decide

/-- Geometry: the default setup takes 8192 points of 305 samples, 4 of its records last 3.997696 ms (R25, R50), HPOS at
either end (R26), and 1 ns per division takes 25 points. -/
theorem test_geometry :
    effectiveLength 15 3 = 8192 ∧ decimation 15 3 = 305 ∧ 4 * 8192 * 305 * 4 = 3997696 * 10 ∧
    preTrigger 15 3 0 = 0 ∧ preTrigger 15 3 1000 = 8191 ∧ effectiveLength 0 5 = 25 ∧ decimation 0 5 = 1 := by decide

/-- A pulse of 250 samples is 100 ns: neither SHORTER nor LONGER; 249 is SHORTER and 251 LONGER (R46). -/
theorem test_pulse_width :
    pulseMeets 0 6 (some 0) 250 = false ∧ pulseMeets 1 6 (some 0) 250 = false ∧
    pulseMeets 0 6 (some 0) 249 = true ∧ pulseMeets 1 6 (some 0) 251 = true := by decide

/-- Holdoff 1 is 250 samples, 25 is 25 000 000 000 (R48). -/
theorem test_holdoff : holdoffSamples 1 = 250 ∧ holdoffSamples 25 = 25000000000 := by decide

/-- Code 0 lies on row 200, the codes at the ends on the first and the last row (R69); a cell at 255 decays as R76
lists. -/
theorem test_rows_and_decay :
    rowOf 0 = 200 ∧ rowOf 32767 = 0 ∧ rowOf (-32768) = 399 ∧
    [decay 255, decay 191, decay 143, decay 107, decay 2, decay 1] = [191, 143, 107, 80, 1, 0] ∧
    increment 128 200 = 255 := by decide

/-- CODE(0) runs 5400 ms and CODE(8) 12 000 ms (R109). -/
theorem test_code_durations :
    (Pattern.code 0).ticks = 5400 * Config.ms ∧ (Pattern.code 8).ticks = 12000 * Config.ms := by decide

/-- A RESTART frame of station 2, spelled out byte by byte, is received as it was sent; with a bit changed it fails. -/
theorem test_frame_bytes :
    (Msg.restart.frame 2).take 3 = [0, 2, 0] ∧ frameChecks 2 (Msg.restart.frame 2) = true ∧
    receivedMsg (Msg.restart.frame 2) = .restart ∧ frameChecks 2 ((Msg.restart.frame 2).set 1 3) = false := by decide +kernel

/-- A SETTING's body: channel, setting number, operation, value (12, section 12.1). -/
theorem test_setting_body :
    (Msg.setting 1 3 0 (-500)).body = [1, 3, 0, 0x0C, 0xFE, 0xFF, 0xFF] ∧
    Msg.ofBody 9 [1, 3, 0, 0x0C, 0xFE, 0xFF, 0xFF] = .setting 1 3 0 (-500) := by decide

/-- The guard states of R142. -/
theorem test_guard_table :
    Guard.opened.after .pinned = .pinned ∧ Guard.guarded.after .pinned = .pinned ∧
    Guard.opened.after .guarded = .opened ∧ Guard.pinned.after .opened = .pinned := by decide

/-- The walk skips a position that is neither BLANK nor VALID, and finds a block DISORDERED (R128). -/
theorem test_walk :
    walk [(0, [0x12]), (1, [0xFF]), (2, [0xFF])] [] = ([], some 1, false) ∧
    walk [(0, [0xFF]), (1, [0x12])] [] = ([], some 0, true) := by decide

/-! For each statement with hypotheses, states and operands that meet them. -/

/-- A station of another count and number, with base's other values. -/
def stationOf (number count : Nat) : Station := { base with straps := ⟨number, count, .common, .sole⟩ }

/-- StepRunsFrontCommand and EveryStepAnswersNextState. -/
theorem witness_queue :
    (⟨[.powerLoss], base⟩ : State).pending = .powerLoss :: [] ∧ (at_ base).pending = [] ∧
    ({ base with powered := false } : Station).powered = false := by decide

/-- PowerOnScanBuildsIndex: without and with a strap fault. -/
theorem witness_scan_of_array :
    State.reset.station.powered = true ∧ State.reset.station.lif.startUp = true ∧
    State.reset.station.strapFault = false ∧ (stationOf 3 3).strapFault = true ∧ (stationOf 3 4).strapFault = false := by
  decide

/-- PowerLossCutsOffTheAct: each act in progress. -/
theorem witness_power_loss :
    let busy (stage : Stage) : Station :=
      { base with
        sst :=
          { base.sst with
            current := some { request := ⟨.append, 3, 1, [], .none, false⟩, stage := stage, keepAtTake := false } } }
    (busy (.writing 15 (List.replicate 256 0) true 0)).powered = true ∧
    (List.replicate 256 (0 : Byte)).length = 256 ∧ (List.replicate 256 (0 : Byte)).getD 2 0 ≠ erasedByte ∧
    positionBlank (readPosition base.sst.array 3 15) = true ∧ (busy (.marking 0)).sst.current.isSome = true ∧
    (busy (.clearing 0 0)).sst.current.isSome = true ∧ Sparse.wf erasedByte base.sst.array = true ∧
    positionBlank (readPosition [(positionAddress 3 1, 0)] 3 1) = false ∧
    positionBlank (readPosition [(positionAddress 3 15 + 255, 0)] 3 15) = false := by decide +kernel

/-- EnrolmentTimersExpire. -/
theorem witness_enrolment_timers :
    (at_ { base with lif := { base.lif with enrol := { base.lif.enrol with announce := some 10 } } }).expires
      (some 10) 10 ∧
    (at_ { inState .laneFault base with
           lif := { (inState .laneFault base).lif with
                    enrol := { (inState .laneFault base).lif.enrol with fault := some 10 } } }).expires (some 10) 10 := by
  decide

/-- MatchingEnrolMergesRecord, FullEnrolCompletesEnrolment, EnrolMismatchAndLateJoiner: a matching frame that lacks an
id, a full one with either flag, a console node, a mismatch by count, sender and heard set. -/
theorem witness_enrol :
    (receiving (.enrol 2 1 0 1) (inState .unenrolled (stationOf 0 2))).headIs (.enrol 2 1 0 1) (frame (.enrol 2 1 0 1) 0)
      [] ∧
    (receiving (.enrol 1 1 7 0) (inState .unenrolled base)).headIs (.enrol 1 1 7 0) (frame (.enrol 1 1 7 0) 0) [] ∧
    (receiving (.enrol 4 16 7 1) (inState .laneFault (stationOf 0 4))).headIs (.enrol 4 16 7 1)
      (frame (.enrol 4 16 7 1) 0) [] ∧
    (receiving (.enrol 1 1 7 2) base).headIs (.enrol 1 1 7 2) (frame (.enrol 1 1 7 2) 0) [] ∧
    (receiving (.enrol 4 7 7 1) (stationOf 0 4)).headIs (.enrol 4 7 7 1) (frame (.enrol 4 7 7 1) 0) [] ∧
    (1 + 1 = 2 ^ 1 ∧ 1 + 1 ≠ 2 ^ 2 ∧ 15 + 1 = 2 ^ 4 ∧ 7 + 1 ≠ 2 ^ 4 ∧ ¬ 16 < 2 ^ 4) := by decide

/-- AcqResetIsTheSameAtBothResets and RestartGivesEveryBlockItsState. -/
theorem witness_restart : (receiving .restart base).headIs .restart (frame .restart 0) [] := by decide

/-- RestartGivesEveryBlockItsState: a READ served in the hold of a clear, which RESTART orphans (R147). -/
theorem witness_restart_in_hold :
    let read : Request := ⟨.read, 30, 1, [], .staging, false⟩
    let t : Station := { base with sst := { base.sst with seq := .readingInHold, holdRead := some (read, 15) } }
    (receiving .restart t).headIs .restart (frame .restart 0) [] ∧ t.sst.holdRead.isSome = true ∧
    (after (exec .restart (receiving .restart t))).sst.holdRead = some ({ read with orphaned := true }, 15) := by decide

/-- A HELD window of a slot, dirty. -/
def heldWindow (slot : Nat) : Window := { Window.blank with role := .held, mapped := some slot, dirty := true }

/-- RestartGivesEveryBlockItsState and StandbyIsEnteredAndLeft: a dirty HELD window; readouts of settings in their
ranges, at every border of the rows' cells. -/
theorem witness_readouts :
    (heldWindow 5).role = .held ∧ (heldWindow 5).dirty = true ∧ resetStraps.station < 4 ∧
    (Channel.default 1).inRange = true ∧ (Channel.default 1).enable = 1 ∧ (Channel.default 0).enable ≠ 1 ∧
    Common.default.inRange 4 = true ∧ (commonReadout Common.default .running).length = 50 ∧
    (channelReadout 1 (Channel.default 1) false false).length = 12 := by decide

/-- A frame of the transmit list, placed as the phase began. -/
def waiting (m : Msg) : TxEntry := ⟨m, .setup, 0, false⟩

/-- ClaimPhaseEarliestPulseWins: no claim, another node's, and this station's at the first and the last position. -/
theorem witness_claim :
    (at_ base).station.powered = true ∧ (Instr.claimPhase [0, 31]).wf = true ∧ base.lif.lane = .idle 0 ∧
    0 + 64 * 0 ≤ base.ticks ∧ base.ticks < 0 + 64 * 0 + 64 ∧ (waiting .restart).placedAt ≤ 0 + 64 * 0 ∧
    (waiting .restart).sending = false ∧ (2 : Nat) ≠ 0 ∧ 0 + 64 * 2 < ({ waiting .restart with placedAt := 65 }).placedAt + 64 ∧
    ({ waiting .restart with placedAt := 65 }).placedAt ≤ 0 + 64 * 2 ∧
    Msg.restart.rank * 8 + 0 = 0 ∧ (Msg.report []).rank * 8 + 7 = 31 ∧ 0 < Msg.restart.rank * 8 + 1 := by decide

/-- FrameEndAcceptsOrVoids: the frame of another station, 5 bytes from tick 2 on, whose window ends at tick 86, and
this station's, as it was sent and damaged. -/
theorem witness_frame_end :
    let t : Station := { base with ticks := 86, lif := { base.lif with lane := .transfer 1 none 2 } }
    let bytes := Msg.restart.frame 1
    t.powered = true ∧ (Instr.frameEnd bytes false).wf = true ∧ 2 + 16 * bytes.length + 4 = t.ticks ∧
    2 + 16 * (Msg.restart.frame 0).length + 4 ≤ t.ticks ∧ frameChecks 0 ((Msg.restart.frame 0).set 1 3) = false ∧
    ((Msg.restart.frame 0).set 1 3).length = (Msg.restart.frame 0).length ∧
    (crc16 (bytes.take (bytes.length - 2))).toNat = leNat (bytes.drop (bytes.length - 2)) ∧
    byteAt bytes 2 ≤ 80 ∧ byteAt bytes 2 = bytes.length - 5 ∧ byteAt bytes 1 = 1 ∧
    t.lif.startUp = false ∧ t.enrolled = true ∧ t.lif.rx.length < 8 ∧ t.lif.rxFullTake = none ∧
    t.smg.chain = .idle := by decide +kernel

/-- A station that sends its boot recall chain's RECALL 0 (R193). -/
def chaining : Station :=
  { base with
    ticks := 200
    lif := { base.lif with lane := .transfer 0 (some (.recall 0)) 2, tx := [⟨.recall 0, .chain, 0, true⟩] }
    smg := { base.smg with chain := .slot0 } }

/-- FrameEndAcceptsOrVoids: the chain's RECALL at the end of its transfer. -/
theorem witness_chain_sent :
    (∃ e ∈ chaining.lif.tx, e.sending = true ∧ e.origin = .chain) ∧ chaining.smg.chain ≠ .idle ∧
    2 + 16 * ((Msg.recall 0).frame 0).length + 4 ≤ chaining.ticks := by decide +kernel

/-- FrameBytesSpellTheFrame: the longest and the shortest frame. -/
theorem witness_frames :
    (Msg.report (List.replicate 80 0xFF)).wf = true ∧ (Msg.report (List.replicate 80 0xFF)).body.length ≤ 80 ∧
    Msg.restart.wf = true ∧ (Msg.illFitting 255 []).wf = true ∧ (Msg.illFitting 255 []).kindCode < 256 ∧
    (Msg.setting 255 255 255 (-2147483648)).wf = true := by decide +kernel

/-- TransmitListRoomTakesKeptFrame: room, and none behind fourteen frames of rank 3. -/
theorem witness_transmit_room :
    base.room (.listed 0 []) = true ∧
    ({ base with lif := { base.lif with tx := List.replicate 14 (waiting (.report [])) } } : Station).room
      (.store 0 0 0) = false ∧
    ({ base with lif := { base.lif with tx := [waiting (.recall 0)] } } : Station).room (.recall 0) = false := by decide

/-- QueryIsAnsweredByReport: this station and another as target. -/
theorem witness_query :
    (receiving (.query 0 3 255 255) base).takes (.query 0 3 255 255) (frame (.query 0 3 255 255) 0) [] ∧
    (receiving (.query 3 0 0 0) base).takes (.query 3 0 0 0) (frame (.query 3 0 0 0) 0) [] := by decide

/-- FramesWithoutEffectAreTaken: a REPORT, an ill-fitting frame, codes next to the last named, a station that is not
enrolled. -/
theorem witness_ignored :
    (receiving (.report []) base).headIs (.report []) (frame (.report []) 0) [] ∧
    (receiving (.illFitting 15 []) base).headIs (.illFitting 15 []) (frame (.illFitting 15 []) 0) [] ∧
    (receiving (.runctl 7) base).headIs (.runctl 7) (frame (.runctl 7) 0) [] ∧
    (receiving (.setting 0 1 2 0) base).takes (.setting 0 1 2 0) (frame (.setting 0 1 2 0) 0) [] ∧
    base.settingReady (frame (.setting 0 1 2 0) 0) = true ∧
    (receiving (.runctl 0) (inState .unenrolled base)).headIs (.runctl 0) (frame (.runctl 0) 0) [] ∧
    Instr.runctlRun.takesMsg (.runctl 0) = true ∧ (inState .unenrolled base).enrolled = false := by decide

/-! Run control. -/

/-- RunAndSingleSetTheRunState, StopActsOnTheAcquisition, ForceAndAutoTriggerAtTheSource, ClearDisplayClearsBothLayers,
StandbyIsEnteredAndLeft: each frame at an enrolled station, whose windows keep their roles. -/
theorem witness_runctl :
    (∀ a ∈ [0, 1, 2, 3, 4, 5, 6], (receiving (.runctl a) base).takes (.runctl a) (frame (.runctl a) 0) []) ∧
    base.windowsOk = true := by decide

/-- A capture of one sample a group and 25 points, of which 12 lie before the trigger. -/
def smallCapture : Capture :=
  { captureOf Common.default (Channel.default 1) (Channel.default 0) with timebase := 0 }

/-- A record in progress in slot 0, armed in tick 0. -/
def smallFill (completed : Nat) : Fill := ⟨0, 1, 25, completed, [], [], [], none⟩

/-- A station with a record in progress. -/
def recording (state : AcqState) (role : TriggerRole) (f : Fill) : Station :=
  { base with
    acq := { base.acq with state := state, capture := some smallCapture, fill := some f }
    tgu := { base.tgu with role := some role } }

/-- The station's acquisition states that the clauses name, with a record in progress and a pending flip. -/
theorem witness_states :
    (recording .pretrig .source (smallFill 0)).tgu.role = some .source ∧
    (recording .armed .follower (smallFill 0)).acq.state = .armed ∧
    (recording .posttrig .source (smallFill 0)).acq.fill.isSome = true ∧
    ({ base with
       smg :=
         { base.smg with windows := { base.smg.windows with a3 := { Window.blank with role := .staged, flipPending := true } } } } :
      Station).flipIndex = some 3 ∧ base.flipPending = false := by decide

/-- RunAndSingleSetTheRunState, FullEnrolCompletesEnrolment and StandbyIsEnteredAndLeft: a station in IDLE, stopped, on
the way to PREPARING with no word sent. -/
theorem witness_idle :
    let t : Station := { base with tgu := { base.tgu with run := .stopped } }
    t.acq.state = .idle ∧ t.flipPending = false ∧ t.standby = false ∧ t.tgu.run ≠ .running ∧
    t.straps.panel = .common ∧ Sparse.wf GridCell.blank t.rse.grid = true ∧ t.acq.reserved = none ∧
    ¬ t.live.chA.sentAs t.smg.wordA ∧ base.tgu.run ≠ .stopped ∧
    base.live.chA.sentAs (some ⟨base.live.chA.vscale, base.live.chA.voffset, base.live.chA.coupling, base.live.chA.bwlimit⟩)
    := by decide

/-- ForceAndAutoTriggerAtTheSource: the auto timer expires in ARMED. -/
theorem witness_auto :
    (at_ { recording .armed .source (smallFill 0) with
           tgu := { (recording .armed .source (smallFill 0)).tgu with auto := some 10 } }).expires (some 10) 10 := by
  decide

/-- ForceAndAutoTriggerAtTheSource and SourceTakesTheFirstCandidate: a FORCE accepted in the very tick in which TRIG is
driven for the trigger before (R49). -/
theorem test_trig_drives_overlap :
    let armed : Station := recording .armed .source (smallFill 0)
    let t : Station :=
      { armed with
        tgu := { armed.tgu with trigDrives := [10, 7] }
        lif := { armed.lif with rx := [⟨.runctl 3, 0, 10, false⟩] } }
    let u := after (exec .runctlForce (at_ t))
    t.trigDriven = true ∧ u.acq.state = .posttrig ∧ u.trigDriven = true ∧ u.tgu.trigDrives = [12, 10] ∧
    ({ u with ticks := 11 } : Station).trigDriven = false ∧ ({ u with ticks := 12 } : Station).trigDriven = true := by decide

/-! Settings and setup operations. -/

/-- SettingRestartsTheSettleTimer and SettingChangesTheTargetWindow: common settings 1 and 16, both channels of station
3 of 4, a channel beyond 2N, LABEL at both ends of its values. -/
theorem witness_settings :
    (receiving (.setting 0 16 1 (-1)) base).takes (.setting 0 16 1 (-1)) (frame (.setting 0 16 1 (-1)) 0) [] ∧
    (receiving (.setting 7 1 0 1) (stationOf 3 4)).takes (.setting 7 1 0 1) (frame (.setting 7 1 0 1) 0) [] ∧
    (receiving (.setting 8 9 0 575) (stationOf 3 4)).takes (.setting 8 9 0 575) (frame (.setting 8 9 0 575) 0) [] ∧
    (receiving (.setting 1 9 0 (-9)) base).takes (.setting 1 9 0 (-9)) (frame (.setting 1 9 0 (-9)) 0) [] ∧
    (receiving (.setting 3 1 0 1) base).takes (.setting 3 1 0 1) (frame (.setting 3 1 0 1) 0) [] ∧
    ({ Window.builtIn 3 with role := .staged } : Window).runMode = (Window.builtIn 3).common.runmode ∧
    base.settingReady (frame (.setting 0 16 1 (-1)) 0) = true ∧ base.straps.wf = true ∧ (stationOf 3 4).straps.wf = true ∧
    (commonSpec 1 1).isSome = true ∧ (commonSpec 1 16).isSome = true ∧ (channelSpec 1).isSome = true ∧
    (channelSpec 8).isSome = true ∧ (575 : Int) = 64 * (8 : Nat) + (63 : Nat) := by decide

/-- SettingChangesTheTargetWindow: ENABLE of channel A set to 0 with RSE idle and drawing. -/
theorem witness_enable_off :
    let t (draw : Option DrawParams) : Station := { base with rse := { base.rse with draw := draw } }
    (receiving (.setting 1 1 0 0) (t (some ⟨3, 16, 8⟩))).takes (.setting 1 1 0 0) (frame (.setting 1 1 0 0) 0) [] ∧
    (t none).live.chA.enable ≠ 0 ∧ (t none).flipPending = false ∧ (t none).rse.layerB.clearPending = false ∧
    ((after (exec .settingSet (receiving (.setting 1 1 0 0) (t none)))).smg.windows.get 0).chA.enable = 0 ∧
    (after (exec .settingSet (receiving (.setting 1 1 0 0) (t (some ⟨3, 16, 8⟩))))).rse.layerA.clearPending = true := by
  decide

/-- The word of a channel (R15). -/
def wordOf (c : Channel) : FrontWord := ⟨c.vscale, c.voffset, c.coupling, c.bwlimit⟩

/-- SettingChangesTheTargetWindow: a station in PREPARED with capture and words of the LIVE window, one cell of its grid. -/
theorem witness_captured :
    let t : Station :=
      { base with
        acq :=
          { base.acq with
            state := .prepared
            capture := some (captureOf base.live.common base.live.chA base.live.chB), reserved := some 0 }
        smg := { base.smg with wordA := some (wordOf base.live.chA), wordB := some (wordOf base.live.chB) } }
    t.captured ∧ t.acq.state = .prepared ∧ t.flipPending = false ∧ Sparse.wf GridCell.blank t.rse.grid = true := by decide

/-- SettleAndSettlingTimersExpire: the tick of the settle expiry has ended; every slot free, and none. -/
theorem witness_settle :
    let late : Station := { base with ticks := 11, smg := { base.smg with settle := some 10 } }
    let settling : Station :=
      { base with smg := { base.smg with settling := some 10 }, acq := { base.acq with state := .preparing } }
    (at_ late).expires (some 10) 10 ∧ late.closedTick 10 = true ∧ late.noOpening 10 = true ∧
    (at_ settling).expires (some 10) 10 ∧ settling.acq.slots.get 3 = .free ∧ settling.acq.reserved = none ∧
    (at_ (inState .unenrolled settling)).expires (some 10) 10 ∧
    (∀ i, i < 4 → (Quad.fill Slot.filling).get i ≠ .free) := by decide

/-- A station with an open operation. -/
def operating (o : Op) (t : Station) : Station := { t with smg := { t.smg with op := some o } }

/-- An open RECALL in a round. -/
def recallOp (round : Round) : Op := ⟨.recall, 5, none, 4, round, some 9, Quad.fill none⟩

/-- An open SAVE. -/
def saveOp : Op := ⟨.save, 31, some 8, 4, .listing, none, Quad.fill none⟩

/-- RecallAndSaveOpenAnOperation and SavePacksTheLiveWindow: slots 31 and 32, with and without an open operation; a
HELD window of the slot. -/
theorem witness_open :
    (receiving (.recall 31) base).takes (.recall 31) (frame (.recall 31) 0) [] ∧
    (receiving (.recall 32) base).takes (.recall 32) (frame (.recall 32) 0) [] ∧
    (receiving (.save 31 1) base).takes (.save 31 1) (frame (.save 31 1) 0) [] ∧
    (receiving (.save 30 0) (operating saveOp base)).takes (.save 30 0) (frame (.save 30 0) 0) [] ∧
    base.smg.op = none ∧ (operating saveOp base).smg.op = some saveOp ∧ (0 : Epoch).toNat ≤ base.smg.highest.toNat ∧
    base.smg.highest.toNat < (1 : Epoch).toNat ∧ base.heldIndex 30 = none ∧
    ({ base with
       smg :=
         { base.smg with windows := { base.smg.windows with a1 := { Window.blank with role := .held, mapped := some 30 } } } } :
      Station).heldIndex 30 = some 1 := by decide

/-- LastListedResultMakesTheChoice, LastStagedResultDecides, LastSavedResultCloses: the last result of one station, and
one of two; outcomes 10 and 11. -/
theorem witness_results :
    (receiving (.listed 5 []) (operating (recallOp .listing) base)).takes (.listed 5 []) (frame (.listed 5 []) 0) [] ∧
    (receiving (.staged 10 0 [] 0) (operating (recallOp .staging) base)).takes (.staged 10 0 [] 0)
      (frame (.staged 10 0 [] 0) 0) [] ∧
    (receiving (.saved 31 8 0) (operating saveOp base)).takes (.saved 31 8 0) (frame (.saved 31 8 0) 0) [] ∧
    (receiving (.saved 31 8 11) (operating saveOp base)).takes (.saved 31 8 11) (frame (.saved 31 8 11) 0) [] ∧
    base.straps.wf = true ∧ (operating (recallOp .staging) base).windowsOk = true ∧ saveOp.results.get 0 = none ∧ (0 < base.straps.count) ∧
    OutcomeCode.ofCode 10 = some .absent ∧ OutcomeCode.ofCode 11 = none ∧
    allResults 1 (saveOp.results.set 0 (some (.saved .ok))) = some [.saved .ok] ∧
    allResults 2 (saveOp.results.set 0 (some (.saved .ok))) = none := by decide

/-- LastListedResultMakesTheChoice and LastStagedResultDecides: an epoch chosen with an empty and a listed own result, a
HELD window of the epoch; an agreement at a station with a STAGED window, and at one without; a disagreement. -/
theorem witness_staging :
    let listed (l : List Epoch) : Option OpResult := some (.listed l)
    let staged (o : OutcomeCode) (d : Nat) : OpResult := .staged o d [] 0
    chooseEpoch [[], [9]] = .chosen 9 ∧ chooseEpoch [[9]] = .chosen 9 ∧ chooseEpoch [[]] = .empty ∧
    chooseEpoch [[8], [9]] = .inconsistent ∧ ((Quad.fill none).set 0 (listed [9])).get 0 = listed [9] ∧
    let holding : Station :=
      { operating (recallOp .staging) base with
        smg :=
          { (operating (recallOp .staging) base).smg with
            windows := { base.smg.windows with a1 := { Window.blank with role := .staged, epoch := some 9 } } } }
    base.stagedIndex = none ∧ base.freeIndex = some 1 ∧ holding.stagedIndex = some 1 ∧ holding.windowsOk = true ∧
    ({ heldWindow 5 with epoch := some 9 }).epoch = some 9 ∧ (heldWindow 5).loading = false ∧
    decideStaging [staged .ok 1, staged .absent 0] = .agreed [] 0 ∧
    decideStaging [staged .ok 1, staged .ok 2] = .closes .inconsistent ∧
    decideStaging [staged .damaged 1] = .closes .damaged ∧ base.acq.state ≠ .posttrig := by decide

/-- LastListedResultMakesTheChoice, LastStagedResultDecides, LastSavedResultCloses, WindowExpiryClosesTimeout: a station
whose boot recall chain waits for the close, of its own operation or of another. -/
theorem witness_chain_waits :
    let t (wait : ChainWait) (chain : Chain) (o : Op) : Station :=
      { operating o base with smg := { (operating o base).smg with chain := chain, chainWait := wait } }
    (receiving (.listed 5 []) (t .own .slot0 (recallOp .listing))).takes (.listed 5 []) (frame (.listed 5 []) 0) [] ∧
    (receiving (.staged 10 0 [] 0) (t .own .slot31 (recallOp .staging))).takes (.staged 10 0 [] 0)
      (frame (.staged 10 0 [] 0) 0) [] ∧
    (receiving (.saved 31 8 0) (t .other .slot0 saveOp)).takes (.saved 31 8 0) (frame (.saved 31 8 0) 0) [] ∧
    (t .other .slot31 saveOp).smg.chainWait = .other ∧ (t .own .slot0 (recallOp .listing)).smg.chainWait = .own := by
  decide

/-- RecallAndSaveOpenAnOperation: the boot recall chain's RECALL, which opens an operation and waits for its close. -/
theorem witness_chain_opens :
    let t : Station := { base with smg := { base.smg with chain := .slot31 } }
    let s : State := at_ { t with lif := { t.lif with rx := [⟨.recall 31, 0, 5, true⟩] } }
    s.takes (.recall 31) ⟨.recall 31, 0, 5, true⟩ [] ∧ t.smg.op = none ∧ (after (exec .recall s)).smg.chainWait = .own ∧
    (after (exec .recall s)).smg.op.isSome = true := by decide

/-- A station with an open RECALL of slot 31 and a STAGED window, flip pending or not, in an acquisition state. -/
def recalling31 (round : Round) (pending : Bool) (acq : AcqState) : Station :=
  { base with
    smg :=
      { base.smg with
        op := some { recallOp round with slot := 31 }
        windows := { base.smg.windows with a1 := { Window.blank with role := .staged, flipPending := pending } } }
    acq := { base.acq with state := acq } }

/-- LastListedResultMakesTheChoice, LastStagedResultDecides, WindowExpiryClosesTimeout: a RECALL of slot 31 closes without
OK, with a flip pending, with none in IDLE and in POSTTRIG, where the window just freed is the lowest FREE one (R158). -/
theorem witness_defaults :
    let close (pending : Bool) (acq : AcqState) : Station :=
      after (exec .listed (receiving (.listed 31 []) (recalling31 .listing pending acq)))
    (receiving (.listed 31 []) (recalling31 .listing true .idle)).takes (.listed 31 []) (frame (.listed 31 []) 0) [] ∧
    (receiving (.staged 2 0 [] 0) (recalling31 .staging false .posttrig)).takes (.staged 2 0 [] 0)
      (frame (.staged 2 0 [] 0) 0) [] ∧
    (recalling31 .listing true .idle).flipIndex = some 1 ∧ (recalling31 .listing false .idle).flipIndex = none ∧
    ((recalling31 .listing false .idle).smg.windows.get 1).afterClose.role = .free ∧
    ((recalling31 .listing false .idle).smg.windows.get 0).afterClose.role ≠ .free ∧
    (recalling31 .listing false .idle).smg.windows.count (fun w => decide (w.role = .live)) = 1 ∧
    ((close true .posttrig).smg.windows.get 1).epoch = some 0 ∧ (close false .idle).liveIndex = 1 ∧
    ((close false .idle).smg.windows.get 0).role = .free ∧ (close false .posttrig).flipIndex = some 1 ∧
    (close false .posttrig).liveIndex = 0 ∧
    (after (exec .staged (receiving (.staged 2 0 [] 0) (recalling31 .staging false .idle)))).liveIndex = 1 := by
  decide +kernel

/-- WindowExpiryClosesTimeout: right after the last tick of each window. -/
theorem witness_window :
    let late (o : Op) (x : Nat) : Station :=
      { operating o base with
        ticks := x + 1
        rse := { base.rse with decayTimer := x + 1 }
        pns := { base.pns with scanTimer := x + 1 } }
    (late (recallOp .listing) (4 + 500 * Config.ms)).inOrder (4 + 500 * Config.ms) = true ∧
    (late saveOp (4 + 2000 * Config.ms)).inOrder (4 + 2000 * Config.ms) = true ∧
    (late saveOp (4 + 2000 * Config.ms)).closedTick (4 + 2000 * Config.ms) = true ∧
    (late saveOp (4 + 2000 * Config.ms)).edgePast (4 + 2000 * Config.ms) = true ∧
    (late saveOp (4 + 2000 * Config.ms)).noneWaits (4 + 2000 * Config.ms) = true := by decide

/-- MapHoldsAndReleasesASlot: slots 1 and 30, and 0 and 31. -/
theorem witness_map :
    (∀ slot ∈ [0, 1, 30, 31], (receiving (.map slot 0) base).takes (.map slot 0) (frame (.map slot 0) 0) []) ∧
    (receiving (.map 30 1) base).takes (.map 30 1) (frame (.map 30 1) 0) [] ∧ base.freeIndex = some 1 ∧
    base.smg.windows.count (fun w => decide (w.role = .held)) < 2 ∧ base.newestAppend 1 = none := by decide

/-- MapHoldsAndReleasesASlot: two APPENDs of a slot that have not ended, the older one queued last. -/
theorem witness_newest :
    let made (epoch : Epoch) : Request := ⟨.append, 1, epoch, [], .none, false⟩
    let t : Station := { base with sst := { base.sst with queue := [made 3] }, smg := { base.smg with kept := [made 2] } }
    t.newestAppend 1 = some (made 3) := by decide

/-! The setup store. -/

/-- A station whose sequencer works on a request. -/
def storing (seq : SeqState) (c : Current) : Station :=
  { base with sst := { base.sst with seq := seq, current := some c } }

/-- A request of a kind of block 31. -/
def request (kind : ReqKind) : Request := ⟨kind, 31, 1, List.replicate 256 0, .none, false⟩

/-- A current request of a kind. -/
def current (kind : ReqKind) (stage : Stage) : Current := ⟨request kind, stage, true⟩

/-- GuardActionsMoveTheGuard, OverrideAndStatusActions, RequestsEnterTheQueue: own number and ALL, blocks 31 and 32, a
full queue. -/
theorem witness_store_frames :
    (∀ a ∈ [0, 1, 2, 3, 4, 5, 6, 7],
      (receiving (.store 15 a 31) (storing .clearing (current .discard (.clearing 0 0)))).takes (.store 15 a 31)
        (frame (.store 15 a 31) 0) []) ∧
    (receiving (.store 0 0 32) base).takes (.store 0 0 32) (frame (.store 0 0 32) 0) [] ∧
    base.sst.index.length = 32 ∧ (current .discard (.clearing 0 0)).stage.isRescan = false ∧
    ¬ (List.replicate 4 (request .mark)).length < 4 := by decide

/-- A station, READY, with one request queued. -/
def queued (r : Request) (entry : IndexEntry) : Station :=
  { base with sst := { base.sst with queue := [r], index := base.sst.index.set 31 entry } }

/-- SequencerTakeChecksTheRequest and PassedRequestStarts: each refusal, a plain append at position 15, a compaction of a
full and of a disordered block, a discard, a mark, a read that is listed and one that is not. -/
theorem witness_take :
    let full : IndexEntry := ⟨[(15, 0)], none, false, .opened, false, false⟩
    (queued (request .append) full).sst.seq = .ready ∧ (queued (request .append) full).sst.current = none ∧
    (queued (request .append) full).entry 31 = full ∧ (queued (request .append) full).faulted = false ∧
    (∀ g ∈ full.generations, g.2.toNat < (request .append).epoch.toNat) ∧
    (queued (request .append) { full with next := some 15 }).entry 31 = { full with next := some 15 } ∧
    (queued (request .discard) { full with guard := .guarded }).entry 31 = { full with guard := .guarded } ∧
    (queued (request .discard) { full with keep := true }).sst.override = false ∧
    (request .append).epoch.toNat ≤ (1 : Epoch).toNat ∧ keepSet base.sst.array 31 = false ∧
    (request .mark).kind ≠ .read ∧ (∀ g ∈ full.generations, g.2 ≠ (request .read).epoch) := by decide +kernel

/-- ReadsEnd, WriteEndsWithItsVerify, ClearEndsWithItsVerify, ClearIsSuspendedForReads: each stage, at its limit. -/
theorem witness_stages :
    let other : Request := ⟨.read, 30, 1, [], .staging, false⟩
    let held : Station :=
      { storing .readingInHold (current .discard (.clearing 7 0)) with
        sst :=
          { (storing .readingInHold (current .discard (.clearing 7 0))).sst with
            holdRead := some (other, 15), queue := [request .mark, other] } }
    held.sst.current = some (current .discard (.clearing 7 0)) ∧ held.sst.abandonAfterRead = false ∧
    (storing .reading (current .read (.reading 15))).sst.seq = .reading ∧
    (storing .reading (current .append (.copying 15))).sst.current.isSome = true ∧
    10 ≤ (10 - 5 * Config.ms) + 5 * Config.ms ∧
    (storing .writing (current .append (.writing 0 (List.replicate 256 0) false 0))).ticks ≤ 0 + 5 * Config.ms ∧
    (List.replicate 256 (0 : Byte)).length = 256 ∧ imageValid (List.replicate 256 (0 : Byte)) = false ∧
    (storing .writing (current .mark (.marking 0))).ticks ≤ 0 + 5 * Config.ms ∧
    (leBytes 4 0x3C5AA5C3).length = 4 ∧ (request .mark).block ≤ 31 ∧
    99999990 + ((storing .clearing (current .discard (.clearing 99999990 0))).ticks - 0) ≤ 1000 * Config.ms ∧
    99999989 + ((storing .clearing (current .discard (.clearing 99999989 0))).ticks - 0) < 1000 * Config.ms ∧
    (Instr.clearEnd [(4099, 0)]).wf = true ∧ (Instr.clearEnd []).wf = true ∧ other ∈ held.sst.queue ∧
    other.kind = .read ∧ other.block ≠ 31 := by decide +kernel

/-- TimeLimitAndRescan. -/
theorem witness_limit :
    let late (seq : SeqState) (stage : Stage) (x : Nat) : Station :=
      { storing seq (current .append stage) with
        ticks := x
        rse := { base.rse with decayTimer := x + 1 }
        pns := { base.pns with scanTimer := x + 1 } }
    (at_ (late .writing (.writing 15 [] true 3) (3 + 5 * Config.ms))).expires (some (3 + 5 * Config.ms))
      (3 + 5 * Config.ms) ∧
    (at_ (late .writing (.marking 3) (3 + 5 * Config.ms))).expires (some (3 + 5 * Config.ms)) (3 + 5 * Config.ms) ∧
    (at_ (late .clearing (.clearing 7 0) (0 + (1000 * Config.ms - 7)))).expires (some (0 + (1000 * Config.ms - 7)))
      (0 + (1000 * Config.ms - 7)) ∧
    (storing .writing (current .append (.rescanning))).sst.index.length = 32 := by decide

/-- TimeLimitAndRescan, GuardActionsMoveTheGuard, OverrideAndStatusActions: a write of a whole image over a BLANK position,
a mark over an unset word and a clear, each abandoned at its limit or by a protection action, over a canonical array. -/
theorem witness_abandoned :
    let image : List Byte := List.replicate 256 0
    let write (start : Nat) : Stage := .writing 15 image true start
    let late : Station :=
      { storing .writing (current .append (write 3)) with
        ticks := 3 + 5 * Config.ms
        rse := { base.rse with decayTimer := 4 + 5 * Config.ms }
        pns := { base.pns with scanTimer := 4 + 5 * Config.ms } }
    (at_ late).expires (some (3 + 5 * Config.ms)) (3 + 5 * Config.ms) ∧ image.length = 256 ∧
    Sparse.wf erasedByte late.sst.array = true ∧ positionBlank (readPosition late.sst.array 31 15) = true ∧
    keepSet late.sst.array 31 = false ∧
    (receiving (.store 15 1 31) (storing .writing (current .append (write 0)))).takes (.store 15 1 31)
      (frame (.store 15 1 31) 0) [] ∧
    (receiving (.store 15 5 0) (storing .clearing (current .discard (.clearing 0 0)))).takes (.store 15 5 0)
      (frame (.store 15 5 0) 0) [] ∧
    (storing .writing (current .append (write 0))).sst.seq ≠ .readingInHold ∧
    (current .append (write 0)).keepAtTake = true ∧ (current .append (write 0)).stage.isRescan = false ∧
    inBlock 31 131071 = true ∧ inBlock 31 131199 = true ∧ inBlock 31 131200 = false := by decide +kernel

/-- ClearEndsWithItsVerify: the ends of a block, a byte given twice, and what the block then reads. -/
theorem witness_clear_fault :
    let c : Current := current .discard (.clearing 0 0)
    let s : State := at_ (storing .clearing c)
    let left : List Host.Cell := [(0, 1), (4099, 1), (4099, 0)]
    let t : Station := after (exec (.clearEnd left) s)
    (Instr.clearEnd left).wf = true ∧ Sparse.wf erasedByte s.station.sst.array = true ∧ c.request.block ≤ 31 ∧
    left = [(0, 1), (4099, 1)] ++ (4099, 0) :: [] ∧ (∀ x ∈ left, blockAddress 31 x.1 ≠ 131071) ∧
    inBlock 31 131071 = true ∧ t.sst.clearFault = true ∧
    Sparse.read erasedByte t.sst.array (31 * 4096) = 1 ∧ Sparse.read erasedByte t.sst.array 131199 = 0 ∧
    Sparse.read erasedByte t.sst.array 131071 = erasedByte := by decide +kernel

set_option maxRecDepth 100000 in
/-- SavePacksTheLiveWindow: a SAVE of a held slot whose fill is in progress, queued and kept. -/
theorem witness_save_discards_fill :
    let fill : Request := ⟨.read, 30, 1, [], .fill 1, false⟩
    let t : Station :=
      { base with
        smg :=
          { base.smg with
            kept := [fill, request .append]
            windows :=
              { base.smg.windows with
                a1 := { Window.blank with role := .held, mapped := some 30, loading := true } } }
        sst :=
          { base.sst with
            seq := .reading, current := some ⟨fill, .reading 0, false⟩, queue := [fill, request .mark] } }
    let s : State := receiving (.save 30 1) t
    let u : Station := after (exec .save s)
    s.takes (.save 30 1) (frame (.save 30 1) 0) [] ∧ t.smg.op = none ∧ t.heldIndex 30 = some 1 ∧
    t.smg.highest.toNat < (1 : Epoch).toNat ∧
    (match t.unpack 30 (t.packLive 30 1) with | .ok _ => true | .error _ => false) = true ∧
    u.smg.kept = [request .append] ∧ u.sst.queue = [{ fill with purpose := .none }, request .mark] ∧
    u.sst.current.map (·.request.purpose) = some .none := by decide +kernel

/-- LastStagedResultDecides: an agreement at a station whose tracking save is due, and one at the highest epoch. -/
theorem witness_due_at_agreement :
    let t (highest : Epoch) : Station :=
      { operating (recallOp .staging) base with
        smg :=
          { (operating (recallOp .staging) base).smg with
            due := true, highest := highest
            windows := { base.smg.windows with a1 := { Window.blank with role := .staged, epoch := some 9 } } } }
    let sect : List Byte := List.replicate 48 0
    let s (highest : Epoch) : State := receiving (.staged 0 7 sect 0) (t highest)
    let u (highest : Epoch) : Station := after (exec .staged (s highest))
    (s 9).takes (.staged 0 7 sect 0) (frame (.staged 0 7 sect 0) 0) [] ∧ (t 9).windowsOk = true ∧
    OutcomeCode.ofCode 0 = some .ok ∧ (u 9).smg.op = none ∧ (u 9).smg.highest = 10 ∧ (u 9).smg.due = false ∧
    ((u 9).sst.queue.map (fun r => (r.kind, r.block, r.epoch, r.purpose))) = [(.append, 0, 10, .tracking)] ∧
    (u 0xFFFFFFFF).smg.highest = 0xFFFFFFFF ∧ (u 0xFFFFFFFF).sst.queue = [] := by decide +kernel

/-- ReadsEnd and ClearIsSuspendedForReads: a READ that fills a HELD window, one of the staging round, an image that
unpacks and one that does not; a clear abandoned in the hold. -/
theorem witness_fills :
    let fill : Current := ⟨⟨.read, 5, 9, [], .fill 1, false⟩, .reading 0, false⟩
    let staging : Current := ⟨⟨.read, 5, 9, [], .staging, false⟩, .reading 0, false⟩
    (storing .reading fill).sst.seq = .reading ∧ fill.request.purpose = .fill 1 ∧
    (operating { recallOp .staging with chosen := some 9 } (storing .reading staging)).smg.op.map (·.chosen) = some (some 9) ∧
    base.smg.stageWait = false ∧
    (match base.unpack 5 (readPosition base.sst.array 5 0) with | .ok _ => false | .error _ => true) = true ∧
    ((after (exec .readEnd (at_ (storing .reading fill)))).smg.windows.get 1).role = .held ∧
    ((after (exec .readEnd (at_ (storing .reading fill)))).smg.windows.get 1).epoch = none ∧
    (storing .held (current .discard .rescanning)).sst.seq = .held := by decide +kernel

/-- GuardActionsMoveTheGuard, OverrideAndStatusActions, ReadsEnd, ClearIsSuspendedForReads: a READ in progress in the hold
of a clear, which is to be abandoned once it has ended, and one queued whose epoch is not listed. -/
theorem witness_hold :
    let other : Request := ⟨.read, 30, 1, [], .staging, false⟩
    let c : Current := current .discard (.clearing 7 0)
    let t (seq : SeqState) (abandon : Bool) : Station :=
      { storing seq c with
        sst := { (storing seq c).sst with holdRead := some (other, 15), abandonAfterRead := abandon, queue := [other] } }
    (t .readingInHold true).sst.abandonAfterRead = true ∧ c.keepAtTake = true ∧ c.stage.isRescan = false ∧
    (receiving (.store 15 5 0) (t .readingInHold false)).takes (.store 15 5 0) (frame (.store 15 5 0) 0) [] ∧
    (t .held false).sst.queue = [] ++ other :: [] ∧ (∀ g ∈ ((t .held false).entry 30).generations, g.2 ≠ other.epoch) ∧
    inBlock 31 0 = false ∧ (t .held false).sst.index.length = 32 := by decide +kernel

/-- What the end of a request leaves: an APPEND of an open SAVE whose slot and epoch a dirty HELD window still holds, a
READ that fills a window, one of the staging round. -/
theorem witness_request_ends :
    let t : Station :=
      { operating saveOp base with
        smg :=
          { (operating saveOp base).smg with
            windows :=
              { base.smg.windows with
                a1 := { Window.blank with role := .held, mapped := some 30, epoch := some 1, dirty := true } } } }
    let r : Request := ⟨.append, 30, 1, [], .save, false⟩
    t.smg.op = some saveOp ∧ saveOp.epoch = some 8 ∧ r.purpose = .save ∧ r.orphaned = false ∧
    (t.smg.windows.get 1).role = .held ∧ (t.smg.windows.get 1).mapped = some r.block ∧
    (t.smg.windows.get 1).epoch = some r.epoch ∧ t.smg.stageWait = false ∧ (recallOp .staging).chosen = some 9 := by decide

/-- PackedImageUnpacksToItsContents: the built-in defaults, and values at the ends of their ranges. -/
theorem witness_pack :
    Common.default.inRange 1 = true ∧ (Channel.default 1).inRange = true ∧
    ({ Channel.default 0 with voffset := -500, triglevel := 127, label := [63, 0, 63, 0, 63, 0, 63, 0] } :
      Channel).inRange = true ∧
    ({ Common.default with trigsrc := 8, hpos := 1000, timebase := 32 } : Common).inRange 4 = true := by decide

/-- The first 252 bytes of an image of the built-in defaults, with one byte changed. -/
def bodyWith (i : Nat) (b : Byte) : List Byte :=
  ((packImage 0 5 ⟨Common.default, Channel.default 1, Channel.default 0, 0, .running, 9⟩).take 252).set i b

/-- PackedImageUnpacksToItsContents: any 252 bytes and their CRC-32 hold it. -/
theorem witness_intact (body : List Byte) (h : body.length = 252) :
    let image := body ++ leBytes 4 (crc32 body).toNat
    leNat (slice image 252 4) = (crc32 (image.take 252)).toNat := by
  have hs := (crc32 body).isLt
  simp only [slice, List.take_append, h, List.take_of_length_le (Nat.le_of_eq h), Nat.sub_self, List.take_zero,
    List.append_nil]
  generalize (crc32 body).toNat = n at hs
  simp [List.range_succ, leBytes, leNat, List.getElem?_append, h]
  omega

/-- PackedImageUnpacksToItsContents: a body that passes every check, and bodies that fail one of R121's each. -/
theorem witness_unpack :
    (bodyWith 5 0).length = 252 ∧ leNat (slice (bodyWith 5 0) 0 2) = 0xD2B4 ∧ byteAt (bodyWith 5 0) 2 = 1 ∧
    byteAt (bodyWith 5 0) 3 = 0 ∧ byteAt (bodyWith 5 0) 4 = 5 ∧ byteAt (bodyWith 5 0) 64 = 1 ∧
    byteAt (bodyWith 5 0) 128 = 1 ∧ byteAt (bodyWith 5 0) 192 = byteAt (bodyWith 5 0) 28 ∧
    byteAt (bodyWith 2 2) 2 ≠ 1 ∧ byteAt (bodyWith 33 1) 33 ≠ 0 ∧ byteAt (bodyWith 16 33) 16 = 33 ∧
    byteAt (bodyWith 128 2) 128 = 2 := by decide +kernel

/-! Acquisition, drawing, composition and panel. -/

/-- A station in PREPARED whose release of READY has shown since the start of the tick. -/
def prepared : Station :=
  { base with
    lif := { base.lif with readyOwn := true }
    acq := { base.acq with state := .prepared, capture := some smallCapture, reserved := some 3 } }

/-- ReadyEdgeArmsPreparedStations, SourceTakesTheFirstCandidate, FollowerAlignsItsRecord: events of the present tick. -/
theorem witness_events :
    (at_ prepared).occurs ∧ prepared.enrolled = true ∧ prepared.lif.readyOwn = true ∧
    (∀ y, prepared.lif.edgeAt = some y → y + 1 < prepared.ticks) ∧
    (∀ y, ({ prepared with lif := { prepared.lif with edgeAt := some 8 } } : Station).lif.edgeAt = some y → y + 1 < 10) ∧
    (at_ (recording .armed .source (smallFill 225))).occurs ∧ (at_ (recording .armed .follower (smallFill 225))).occurs ∧
    (at_ (inState .unenrolled base)).occurs ∧ (smallFill 225).origin ≤ 25 * base.ticks + 0 ∧
    (smallFill 225).completed = (25 * base.ticks - (smallFill 225).origin) / smallCapture.d ∧
    (smallFill 225).completed = (25 * base.ticks + 0 - (smallFill 225).origin) / smallCapture.d ∧
    candidate { smallCapture with trigtype := 0 } ⟨true, false, none, none⟩ 0 127 250 = true ∧
    candidate { smallCapture with trigtype := 1, slope := 1, pulsecond := 1 } ⟨true, false, none, some 0⟩ 0 0 251 = true ∧
    candidate smallCapture Crossing.clear 0 127 250 = false := by decide +kernel

/-- A station with one line event of instant x waiting. -/
def awaiting (ev : LineEvent) (x : Nat) (t : Station) : Station := { t with lif := { t.lif with waiting := [(x, ev)] } }

/-- ReadyEdgeArmsPreparedStations, SourceTakesTheFirstCandidate, FollowerAlignsItsRecord: an event of the present tick
that must wait, behind a frame and behind another event. EveryStepAnswersNextState: waiting events that are due, an edge,
a sample that moves the crossings and a TRIG that changes nothing, and two that are not. GroupCompletionFillsTheRecord: a
group that ends before the sample that waits. -/
theorem witness_waits :
    let trigger := recording .armed .source (smallFill 200)
    (receiving .restart prepared).mustWait ∧ prepared.edgePossible 10 = true ∧
    (at_ (awaiting .trig 10 prepared)).mustWait ∧ (at_ (awaiting .readyEdge 9 base)).mustWait ∧
    (awaiting .readyEdge 9 prepared).inOrder 9 = true ∧ prepared.groupsBefore (Station.eventIndex .readyEdge 9) = true ∧
    (awaiting (.sample (-2) 0) 9 trigger).inOrder 9 = true ∧
    trigger.groupsBefore (Station.eventIndex (.sample (-2) 0) 9) = true ∧
    (after (exec (.triggerCrossing (-2) 0) (at_ (trigger.setBack 9)))).tgu ≠ trigger.tgu ∧
    after (exec .trig (at_ (base.setBack 9))) = base.setBack 9 ∧
    (awaiting .readyEdge 9 (receiving .restart prepared).station).inOrder 9 = false ∧
    trigger.groupsBefore (Station.eventIndex (.sample (-2) 1) 9) = false ∧
    25 + (smallFill 199).completed + 1 ≤ Station.eventIndex (.sample (-2) 0) 9 := by
  decide +kernel

/-- EveryStepAnswersNextState: a sample of tick 7 that has waited to tick 10, with the groups before it completed, and
triggers on an empty queue as of its own tick. A drive of TRIG in tick 9 stands. -/
theorem witness_waiting_sample_triggers :
    let armed : Station := recording .armed .source (smallFill 150)
    let t : Station :=
      awaiting (.sample 127 0) 7
        { armed with tgu := { armed.tgu with crossing := ⟨true, false, none, none⟩, trigDrives := [9, 3] } }
    let u := after (step (at_ t))
    t.powered = true ∧ t.inOrder 7 = true ∧ t.groupsBefore (Station.eventIndex (.sample 127 0) 7) = true ∧
    after (exec (.trigger 127 0) (at_ (t.setBack 7))) ≠ t.setBack 7 ∧
    u = (after (exec (.trigger 127 0) (at_ (t.setBack 7)))).broughtUp t [] ∧
    u.acq.state = .posttrig ∧ u.tgu.lastStamp = some (7, 0) ∧ u.tgu.trigDrives = [8, 9] ∧ u.ticks = 10 := by decide +kernel

/-- EveryStepAnswersNextState and SourceTakesTheFirstCandidate: every line event has its commands. -/
theorem witness_raises :
    Instr.raises .readyRisingEdge .readyEdge ∧ Instr.raises .trig .trig ∧ Instr.raises (.trigger 3 24) (.sample 3 24) ∧
    Instr.raises (.triggerCrossing 3 24) (.sample 3 24) ∧ Instr.raises (.qualDrive 1 2 true) (.qual 1 2 true) :=
  ⟨rfl, rfl, .inl rfl, .inr rfl, rfl⟩

/-- GroupCompletionFillsTheRecord: the first and the last pre-trigger point, one more in ARMED, the last post-trigger
point. -/
theorem witness_groups :
    let g : Group := ⟨0, ⟨0, 0, 0, false⟩, ⟨0, 0, 0, false⟩⟩
    let pre (n : Nat) : Fill := { smallFill n with pre := List.replicate n g }
    let post : Fill :=
      { smallFill 24 with
        pre := List.replicate 12 g, post := List.replicate 12 g, trigger := some ⟨12, 0, 0, .edge, 2⟩ }
    smallCapture.d = 1 ∧ smallCapture.p = 12 ∧ smallCapture.le = 25 ∧ [(0 : Sample)].length = smallCapture.d ∧
    (pre 0).pre.length < 12 ∧ (pre 11).pre.length + 1 = 12 ∧ 12 ≤ (pre 12).pre.length ∧ post.post.length + 1 = 25 - 12 ∧
    (25 + (24 + 1) * 1 - 1) / 25 ≤ base.ticks ∧ base.inOrder 1 = true ∧ base.inOrder 2 = true ∧
    (pre 5).completed < 6 ∧ (pre 12).pre ++ [g] = g :: (List.replicate 11 g ++ [g]) := by decide +kernel

/-- GroupCompletionFillsTheRecord: a completed record of two groups and one missing, folded and not, a saturated and a
clipped point, a disabled channel. -/
theorem witness_finish :
    let g (i : Nat) (v : Int) (clipped : Bool) : Group := ⟨i, ⟨v, v, v, clipped⟩, ⟨v, v, v, clipped⟩⟩
    let tr : FillTrigger := ⟨1, 0, 0, .edge, 2⟩
    let f : Fill := { smallFill 2 with pre := [g 0 128 true], post := [g 1 5 false], trigger := some tr }
    let c (acqmode p : Nat) : Capture := { smallCapture with acqmode := acqmode, hpos := p }
    smallCapture.a.enable = 1 ∧ smallCapture.b.enable ≠ 1 ∧ (c 0 50).p = 1 ∧ (c 0 200).p = 5 ∧
    (finishRecord (c 0 50) f tr false [] [] 0).record.pointsA = [(32767, 32767), (1280, 1280)] ∧
    (finishRecord (c 0 50) f tr false [] [] 0).record.saturatedA = true ∧
    (finishRecord (c 2 50) f tr false [] [] 0).count = 1 ∧ (finishRecord (c 2 200) f tr false [] [] 0).count = 0 ∧
    (finishRecord (c 2 200) f tr false [] [] 0).record.shortPretrig = true := by decide +kernel

/-- FollowerAlignsItsRecord: a usable frame, one that is not, one with no record FILLING, one before the tentative
trigger point, and the timer's expiry. -/
theorem witness_align :
    let f : Fill := { smallFill 0 with trigger := some ⟨0, 2, 0, .edge, 2⟩ }
    (receiving (.triggered 1 1 24 3) (recording .posttrig .follower f)).takes (.triggered 1 1 24 3)
      (frame (.triggered 1 1 24 3) 0) [] ∧
    (1 : LaneTick) = (recording .posttrig .follower f).laneTimeAt (2 - 1) ∧ f.number = 1 ∧ f.slot < 4 ∧
    (recording .posttrig .follower f).tgu.heldFrame = none ∧ TriggerKind.ofCode 3 = some .force ∧
    (receiving (.triggered 1 1 25 4) (recording .aligning .follower f)).takes (.triggered 1 1 25 4)
      (frame (.triggered 1 1 25 4) 0) [] ∧
    (receiving (.triggered 1 1 24 3) base).takes (.triggered 1 1 24 3) (frame (.triggered 1 1 24 3) 0) [] ∧
    base.acq.fill = none ∧ (at_ base).occurs ∧
    (receiving (.triggered 1 1 24 3) (recording .armed .follower (smallFill 0))).takes (.triggered 1 1 24 3)
      (frame (.triggered 1 1 24 3) 0) [] ∧ (smallFill 0).trigger = none ∧
    (at_ { recording .aligning .follower f with
           tgu := { (recording .aligning .follower f).tgu with align := some 10 } }).expires (some 10) 10 := by decide

/-- A finished record with both channels of a snapshot enabled. -/
def record : Record :=
  { number := 1, tick := 0, offset := 0, kind := .edge, clippedA := true, clippedB := false, saturatedA := false,
    saturatedB := false, coarse := false, shortPretrig := false, first := 0, average := none, le := 25,
    snapshot := smallCapture.snapshot, pointsA := [(0, 0)], pointsB := [] }

/-- DrawCompletionDrawsAndGoesOn and DecayFollowsPersist. -/
theorem witness_draw :
    let t : Station :=
      { base with
        acq := { base.acq with slots := ⟨.free, .free, .done record, .drawing record⟩ }
        rse := { base.rse with draw := some ⟨3, 16, 8⟩ } }
    t.rse.draw = some ⟨3, 16, 8⟩ ∧ t.acq.slots.get 3 = .drawing record ∧
    oldestDone t.acq.slots = some (2, record) ∧ oldestDone (Quad.fill (.drawing record)) = none ∧
    record.snapshot.a.enable = 1 ∧ Sparse.wf 0 t.rse.layerA.cells = true ∧ t.rse.layerA.todo.Nodup ∧
    (at_ { base with rse := { base.rse with decayTimer := 10 } }).expires (some 10) 10 ∧ base.rse.decayPass = false ∧
    ({ base with rse := { base.rse with decayPass := true } } : Station).rse.decayPass = true := by decide +kernel

/-- DrawCompletionDrawsAndGoesOn: a next record with both channels disabled, a station that waits for a slot, and a
trace whose three columns lie apart above, apart below and alike. -/
theorem witness_next :
    let off : Record :=
      { record with
        snapshot := { record.snapshot with a := { record.snapshot.a with enable := 0 }, b := { record.snapshot.b with enable := 0 } } }
    let slots : Quad Slot := ⟨.filling, .filling, .done off, .drawing record⟩
    oldestDone slots = some (2, off) ∧ off.snapshot.a.enable ≠ 1 ∧ off.snapshot.b.enable ≠ 1 ∧
    oldestDone (slots.set 2 .free) = none ∧ (∀ i, i < 4 → slots.get i ≠ .free) ∧
    (∀ p ∈ [((0 : Int), (0 : Int)), (512, 512), (-512, -512)], p.1 ≤ p.2) ∧
    traceCells 4 0 [(0, 0), (512, 512), (-512, -512), (-512, -512)]
      = [160000, 800 * 196 + 200, 800 * 197 + 200, 800 * 198 + 200, 800 * 199 + 200] ++
          [800 * 200 + 400, 800 * 201 + 400, 800 * 202 + 400, 800 * 203 + 400, 800 * 204 + 400, 800 * 204 + 600] := by decide +kernel

/-- DrawCompletionDrawsAndGoesOn: a CHANNEL-role station whose channel A changes its last drawn flags, its readout and
its CLIP LED, while channel B keeps all three; and one whose channel A keeps them too. -/
theorem witness_readout :
    let t (clipped : Bool) : Station :=
      { Station.powerOn ⟨0, 1, .channel, .sole⟩ [] with
        acq := { base.acq with slots := ⟨.free, .free, .free, .drawing record⟩ }
        rse := { base.rse with draw := some ⟨3, 16, 8⟩, clipA := clipped } }
    let u (clipped : Bool) : Station := after (exec .drawCompletion (at_ (t clipped)))
    let cell (v : Station) (k : Nat) : GridCell := Sparse.read GridCell.blank v.rse.grid k
    Sparse.wf GridCell.blank (t false).rse.grid = true ∧ oldestDone (t false).acq.slots = none ∧
    (t false).pns.leds.any (fun y => decide (y.led = .clipA) && decide (y.mode = .off)) = true ∧
    (u false).rse.clipA = true ∧ (u false).rse.clipB = false ∧ (cell (u false) 2411).code = 67 ∧
    cell (u false) 2423 = cell (t false) 2423 ∧
    (u false).pns.leds.any (fun y => decide (y.led = .clipA) && decide (y.mode = .slow) && decide (y.since = 0)) = true ∧
    (u true).rse.grid = (t true).rse.grid := by decide +kernel

/-- DrawCompletionDrawsAndGoesOn: another DONE record with a channel enabled, over layers that keep what they hold. -/
theorem witness_kept_layers :
    let t : Station :=
      { base with
        acq := { base.acq with slots := ⟨.free, .free, .done record, .drawing record⟩ }
        rse := { base.rse with draw := some ⟨3, 16, 8⟩ } }
    oldestDone t.acq.slots = some (2, record) ∧ record.snapshot.a.enable = 1 ∧ t.rse.layerA.snapshot = none ∧
    t.rse.layerA.clearPending = false ∧ ({ t.live.common with persist := 1 } : Common).persist ≠ 0 := by decide +kernel

/-- FramesStartByTimerMarkerOrLoss. -/
theorem witness_frame_starts :
    let link : Station :=
      { base with
        straps := ⟨0, 1, .common, .link⟩
        rse := { base.rse with lossTimer := some 10, frameTimer := some 10 } }
    link.rse.frameTimer = some 10 ∧ 10 ≤ link.ticks ∧ (at_ link).expires (some 10) 10 ∧
    (∀ d, base.rse.lossTimer = some d → base.ticks ≤ d) ∧ link.straps.chain ≠ .head ∧ base.straps.chain = .sole ∧
    [(⟨4010, none⟩ : OutFrame), ⟨0, some false⟩].Pairwise (fun a b => b.start ≤ a.start) ∧ 50 ∣ 350 ∧ 16 ∣ 784 := by
  refine ⟨by decide, by decide, by decide, ?_, by decide, by decide, by decide, by decide, by decide⟩
  intro d h
  cases h

/-- RowMergeComposesEveryPixel: the first row of a generated frame at its earliest tick, the last of a received one. -/
theorem witness_rows :
    let t : Station := { base with rse := { base.rse with frame := some ⟨some 2, 0, 4010⟩ } }
    let u : Station :=
      { base with
        straps := ⟨0, 1, .common, .tail⟩
        rse := { base.rse with frame := some ⟨none, 399, 4010⟩ } }
    t.originates = true ∧ 4010 + 4000 * 0 ≤ t.ticks + 4000 ∧ u.originates = false ∧
    (Instr.rowMerge (List.replicate 800 ⟨0, 0⟩)).wf = true ∧ 399 < 400 := by decide +kernel

/-- RowMergeComposesEveryPixel: the row just sent behind a merged one that waits, at the first and the last tick of its
row period; a row of another frame ahead of it. -/
theorem witness_row_sent :
    let m (row sendAt out : Nat) : MergedRow := ⟨row, [], sendAt, out⟩
    let t (ticks : Nat) : Station :=
      { base with
        ticks := ticks
        rse := { base.rse with outs := [⟨9000, none⟩, ⟨6, some true⟩], rows := [m 0 4000 9000, m 1 4006 6, m 0 6 6] } }
    (∀ y ∈ [(⟨9000, none⟩ : OutFrame)], (t 4005).ticks < y.start) ∧ 6 ≤ (t 10).ticks ∧
    (∀ n ∈ [m 0 4000 9000, m 1 4006 6], n.out ≠ 6 ∨ (t 4005).ticks < n.sendAt ∨ n.sendAt + 4000 ≤ (t 4005).ticks) ∧
    (t 4005).ticks < 6 + 4000 ∧ (t 8005).rse.rows = [m 0 4000 9000] ++ m 1 4006 6 :: [m 0 6 6] ∧
    (t 8005).ticks < 4006 + 4000 ∧ (t 10).straps.chain = .sole := by decide

/-- Return from free running at tick 12100, behind the merge of generated row 3 (R82): row 0 of the received frame is
merged while row 2 is being sent, which goes on to its last pixel; row 3 follows until the output of the received frame
starts with its row 0. -/
theorem test_rows_of_a_frame_cut_short :
    let row (n sendAt : Nat) : MergedRow := ⟨n, List.replicate 800 ⟨0, 7⟩, sendAt, 4000⟩
    let t : Station :=
      { base with
        straps := ⟨0, 1, .channel, .link⟩
        ticks := 12100
        rse :=
          { base.rse with
            freeRunning := true, frameTimer := some 1666667, frame := some ⟨none, 4, 4000⟩, outs := [⟨4000, none⟩]
            rows := [row 3 16000, row 2 12000, row 1 8000] } }
    let u := after (exec (.rowMerge (List.replicate 800 ⟨0, 9⟩)) (at_ (after (exec .frameStartMarker (at_ t)))))
    let at_ (ticks : Nat) : Station := { u with ticks := ticks }
    u.rse.freeRunning = false ∧ u.rse.rows.map (fun m => (m.row, m.sendAt)) = [(0, 16100), (3, 16000), (2, 12000)] ∧
    (at_ 13599).outputPixel = some ⟨0, 7⟩ ∧ (at_ 13600).outputPixel = none ∧
    ((at_ 16000).outputRow.map (·.1), (at_ 16099).outputRow.map (·.1), (at_ 16100).outputRow.map (·.1))
      = (some 3, some 3, some 0) := by decide +kernel

/-- RowMergeComposesEveryPixel: a pixel in each of its two ticks, the last one, and the first tick without any (R81). -/
theorem test_pixel_schedule :
    let m : MergedRow := ⟨0, [⟨1, 2⟩, ⟨3, 4⟩], 6, 6⟩
    let t (ticks : Nat) : Station :=
      { base with ticks := ticks, rse := { base.rse with outs := [⟨6, some false⟩], rows := [m] } }
    (t 6).outputPixel = some ⟨1, 2⟩ ∧ (t 7).outputPixel = some ⟨1, 2⟩ ∧ (t 8).outputPixel = some ⟨3, 4⟩ ∧
    (t 10).outputPixel = none ∧ (t 6).sendsRowStart = true ∧ (t 7).sendsRowStart = false ∧
    (t 6).sendsFrameStart = true := by decide

/-- AnnotWritesTheGrid: a text that ends in the last column, one that passes it, a reserved cell. -/
theorem witness_annot :
    (receiving (.annot 0 23 99 63 [127]) base).takes (.annot 0 23 99 63 [127]) (frame (.annot 0 23 99 63 [127]) 0) [] ∧
    annotRefused 1 23 99 63 [127] = false ∧ annotRefused 1 23 99 63 [65, 65] = true ∧
    annotRefused 1 24 24 0 [65] = true ∧ annotRefused 1 24 25 0 [65] = false ∧ annotRefused 4 24 99 0 [65] = true ∧
    annotRefused 1 0 49 0 [65] = true ∧ annotRefused 1 0 50 0 [65] = false ∧ annotRefused 1 23 0 64 [65] = true := by
  decide

/-- ScanRaisesEvents. -/
theorem witness_scan :
    (at_ { base with pns := { base.pns with scanTimer := 10 } }).expires (some 10) 10 ∧ base.pns.counts.length = 8 ∧
    [(0 : Int), 0, 0, 0, 0, 0, 0, 127].length = 8 ∧ (∀ i, i < 8 → base.countOf i = 0) ∧ base.pns.firstScan = true ∧
    base.standby = false ∧ base.pns.queue.length ≤ 16 := by decide

/-- ScanRaisesEvents: a TURN into a queued one of its control, within 127 either way and to the sum 0, which makes room for
the next encoder's; a full queue, which loses a press but times its hold, and leaves a count (R95, R96, R98). -/
theorem witness_scan_queue :
    let down : PanelEvent := ⟨.down, 4, 0, 1, 5⟩
    let turn (control : Nat) (detents : Int) (stamp : Nat) : PanelEvent := ⟨.turn, control, detents, 1, stamp⟩
    let t (queue : List PanelEvent) : Station :=
      { base with
        pns := { base.pns with scanTimer := 10, firstScan := false, raw := BitVec.ofNat 64 (2 ^ 9), queue := queue } }
    let scan (keys : Nat) (detents : List Int) (queue : List PanelEvent) : Pns :=
      (after (exec (.scanTimerExpiry (BitVec.ofNat 64 keys) detents) (at_ (t queue)))).pns
    let downs (n : Nat) : List PanelEvent := List.replicate n down
    (at_ (t (downs 15 ++ [turn 2 3 5]))).expires (some 10) 10 ∧ (t (downs 16)).standby = false ∧
    (t (downs 16)).pns.queue.length ≤ 16 ∧ (downs 15 ++ [turn 2 3 5]).length ≤ 16 ∧
    (scan 0 [0, 0, -1, 0, 0, 0, 0, 0] [turn 2 3 5, down]).queue = [turn 2 2 5, down] ∧
    (scan 0 [0, 0, 5, 0, 0, 0, 0, 0] [turn 2 126 5]).queue = [turn 2 127 5] ∧
    (scan 0 [0, 0, -3, 1, 0, 0, 0, 0] (downs 15 ++ [turn 2 3 5])).queue = downs 15 ++ [turn 3 1 10] ∧
    (scan (2 ^ 9) [0, 0, 0, 1, 0, 0, 0, 0] (downs 16)).queue = downs 16 ∧
    (scan (2 ^ 9) [0, 0, 0, 1, 0, 0, 0, 0] (downs 16)).holdSave = some 10 ∧
    (scan (2 ^ 9) [0, 0, 0, 1, 0, 0, 0, 0] (downs 16)).counts = [0, 0, 0, 1, 0, 0, 0, 0] ∧
    (scan (2 ^ 9) [0, 0, 0, 1, 0, 0, 0, 0] (downs 14)).queue = downs 14 ++ [⟨.down, 9, 0, 2, 10⟩, turn 3 1 10] := by
  decide +kernel

/-- ScanRaisesEvents: in standby the POWER key and the SAVE key newly DOWN, detents on mapped encoders and outside the
control map, and the POWER key still DOWN after 2 s (R113). -/
theorem witness_standby_scan :
    let keys : BitVec 64 := BitVec.ofNat 64 (2 ^ 23 + 2 ^ 9)
    let t (accepted : BitVec 64) (held : Option Nat) : Station :=
      { base with
        standby := true
        pns :=
          { base.pns with
            scanTimer := 10, firstScan := false, raw := keys, accepted := accepted, holdPower := held } }
    let scan (u : Station) : Station := after (exec (.scanTimerExpiry keys [1, 0, 0, 0, 0, 0, 2, -1]) (at_ u))
    (at_ (t 0 none)).expires (some 10) 10 ∧ (t 0 none).standby = true ∧ (t 0 none).straps.panel = .common ∧
    (scan (t 0 none)).pns.queue = [⟨.down, 23, 0, 3, 10⟩] ∧ (scan (t 0 none)).pns.holdSave = some 10 ∧
    (scan (t 0 none)).pns.counts = [0, 0, 0, 0, 0, 0, 2, -1] ∧ (scan (t keys (some 4))).pns.queue = [] ∧
    (scan (t keys (some 4))).pns.holdPower = some 4 := by decide +kernel

/-- PanelDispatchCarriesOutTheOldestEvent: an eligible event behind one that is held, and none; room for each rank and
none; an open sequence of either kind at its last tick and past its deadline, with no, one and two digits, slots at both
ends of their ranges. -/
theorem witness_dispatch :
    let e : PanelEvent := ⟨.down, 0, 0, 3, 5⟩
    let held : PanelEvent := ⟨.down, 12, 0, 2, 5⟩
    let t : Station := { operating saveOp base with pns := { base.pns with queue := [held, e] } }
    let full : Station := { base with lif := { base.lif with tx := List.replicate 14 (waiting (.report [])) } }
    let entering (kind : OpKind) (digits : List Nat) : Station :=
      { base with pns := { base.pns with sequence := some ⟨kind, digits, 11⟩ } }
    let opened (u : Station) : Option Sequence := u.pns.sequence.filter (fun q => decide (u.ticks < q.deadline))
    t.pns.queue = [held] ++ e :: [] ∧ (∀ x ∈ [held], x.level ≤ t.panelLevel) ∧ t.panelLevel < e.level ∧
    t.pns.sequence = none ∧ t.room (.runctl 1) = true ∧ base.panelLevel < held.level ∧
    full.room (.setting 0 4 1 1) = false ∧ full.room (.runctl 0) = true ∧ full.panelLevel < 3 ∧
    opened (entering .recall []) = some ⟨.recall, [], 11⟩ ∧ opened { entering .save [0, 5] with ticks := 11 } = none ∧
    slotNumber [0, 0] = 0 ∧ slotNumber [3, 0] = 30 ∧
    slotNumber [3, 1] = 31 ∧ slotNumber [1] = 1 ∧ base.smg.highest ≠ 0xFFFFFFFF ∧ base.room (.save 1 1) = true ∧
    full.room (.store 15 6 0) = false := by decide

/-- PanelDispatchCarriesOutTheOldestEvent: with a slot sequence open, ENTER waits for room and RUNSTOP behind it overtakes
it and cancels the sequence, or waits too; a sequence past its deadline is gone before the ENTER is considered, which is
then ignored, and its LED went dark at the deadline (R102, R104, R107, R108). -/
theorem witness_dispatch_overtakes :
    let enter : PanelEvent := ⟨.down, 22, 0, 2, 5⟩
    let digit : PanelEvent := ⟨.down, 13, 0, 2, 6⟩
    let stop : PanelEvent := ⟨.down, 0, 0, 3, 7⟩
    let saved : TxEntry := waiting (.saved 1 1 0)
    let t (tx : List TxEntry) : Station :=
      { base with
        lif := { base.lif with tx := tx }
        pns :=
          { base.pns with
            queue := [enter, digit, stop], sequence := some ⟨.recall, [5], 11⟩, leds := [⟨.recall, .slow, 0, none⟩] } }
    let dispatched (u : Station) : Station := after (exec .panelDispatch (at_ u))
    let crowded : List TxEntry := saved :: List.replicate 15 (waiting (.runctl 4))
    (t [saved]).room (.recall 5) = false ∧ (t [saved]).room (.runctl 1) = true ∧ (t crowded).room (.runctl 1) = false ∧
    (t [saved]).panelLevel < 2 ∧ digit.level ≠ 3 ∧
    (dispatched (t [saved])).pns.queue = [enter, digit] ∧ (dispatched (t [saved])).pns.sequence = none ∧
    (dispatched (t [saved])).lif.tx.map (·.msg) = [.saved 1 1 0, .runctl 1] ∧
    (dispatched (t crowded)).pns.queue = [enter, digit, stop] ∧
    (dispatched (t crowded)).pns.sequence = some ⟨.recall, [5], 11⟩ ∧
    (dispatched { t [] with ticks := 12 }).pns.queue = [digit, stop] ∧
    (dispatched { t [] with ticks := 12 }).lif.tx = [] ∧ (dispatched { t [] with ticks := 12 }).pns.sequence = none ∧
    (dispatched { t [] with ticks := 12 }).pns.leds = [⟨.recall, .off, 11, none⟩] := by decide +kernel

/-- SequenceAndOverlayTimesEnd. -/
theorem witness_panel_timers :
    let x : LedEntry := ⟨.save, .off, 0, some (.flash, 0)⟩
    let t : Station :=
      { base with
        ticks := 50 * Config.ms
        rse := { base.rse with decayTimer := 51 * Config.ms }
        pns :=
          { base.pns with
            scanTimer := 51 * Config.ms, sequence := some ⟨.save, [], 50 * Config.ms⟩
            leds := [⟨.run, .on, 0, none⟩, x, ⟨.stop, .off, 0, none⟩] } }
    (at_ t).expires (some (50 * Config.ms)) (50 * Config.ms) ∧
    (at_ t).expires (some (0 + Pattern.flash.ticks)) (0 + Pattern.flash.ticks) ∧
    t.pns.leds = [⟨.run, .on, 0, none⟩] ++ x :: [⟨.stop, .off, 0, none⟩] ∧ x.led = .save := by decide

/-- SequenceAndOverlayTimesEnd: an LED with an overlay and one without, in standby and out of it. -/
theorem witness_leds :
    let t (standby : Bool) : Station := { base with standby := standby }
    (⟨.save, .slow, 0, some (.code 10, 3)⟩ : LedEntry).overlay = some (.code 10, 3) ∧
    (⟨.standby, .on, 0, none⟩ : LedEntry).led = .standby ∧ (t true).standby = true ∧
    (t true).ledLit ⟨.standby, .on, 0, none⟩ = true ∧ (t true).ledLit ⟨.save, .on, 0, none⟩ = false ∧
    (t false).ledLit ⟨.save, .on, 0, none⟩ = true := by decide

/-- The invariants hold somewhere: the state that InvariantsHoldAtReset names is one. -/
theorem witness_invariants :
    State.reset.station.listsBounded = true ∧ State.reset.station.windowsOk = true ∧
    Sparse.wf erasedByte base.sst.array = true := by decide

/-! One step of many commands on a small state. -/

/-- The station after a frame's command. -/
def taken (c : Instr) (m : Msg) (t : Station) : Station := after (exec c (receiving m t))

theorem test_runctl :
    (taken .runctlStop (.runctl 1) base).tgu.run = .stopped ∧ (taken .runctlSingle (.runctl 2) base).tgu.run = .single ∧
    (taken .runctlRun (.runctl 0) base).acq.state = .preparing ∧
    (taken .runctlStandby (.runctl 5) base).standby = true ∧ (taken .runctlStandby (.runctl 5) base).rse.blank = true ∧
    (taken .runctlWake (.runctl 6) { base with standby := true, tgu := { base.tgu with savedRun := some .single } }).tgu.run
      = .single ∧
    (taken .runctlForce (.runctl 3) (recording .armed .source (smallFill 0))).acq.state = .posttrig ∧
    (taken .runctlCleardisplay (.runctl 4) base).lif.rx = [] := by decide

theorem test_settings :
    (taken .settingSet (.setting 0 2 0 700) base).live.common.hpos = 700 ∧
    (taken .settingSet (.setting 0 2 0 1001) base).live.common.hpos = 500 ∧
    (taken .settingStep (.setting 1 3 1 (-2)) base).live.chA.voffset = -20 ∧
    (taken .settingSet (.setting 2 9 0 33) base).live.chB.label = [33] ∧
    (taken .settingStep (.setting 2 1 1 1) base).smg.settle = some (5 + 10000 * Config.ms) := by decide

theorem test_operations :
    (taken .recall (.recall 5) base).lif.tx.map (·.msg) = [.listed 5 []] ∧
    (taken .recall (.recall 32) base).smg.op = none ∧
    (taken .save (.save 5 0) base).lif.tx.map (·.msg) = [.saved 5 0 9] ∧
    (taken .save (.save 5 7) base).sst.queue.map (fun r => (r.kind, r.block, r.epoch)) = [(.append, 5, 7)] ∧
    (taken .listed (.listed 5 []) (operating (recallOp .listing) base)).smg.lastOutcome = some ⟨.recall, 5, .empty⟩ ∧
    (taken .staged (.staged 2 0 [] 0) (operating (recallOp .staging) base)).smg.lastOutcome
      = some ⟨.recall, 5, .damaged⟩ ∧
    (taken .saved (.saved 31 8 0) (operating saveOp base)).smg.lastOutcome = some ⟨.save, 31, .ok⟩ ∧
    ((taken .mapHold (.map 3 0) base).smg.windows.get 1).mapped = some 3 := by decide

theorem test_store_frames :
    ((taken .storePin (.store 15 2 31) base).entry 31).guard = .pinned ∧
    ((taken .storeGuard (.store 1 1 31) base).entry 31).guard = .opened ∧
    (taken .storeKeep (.store 0 3 4) base).sst.queue.map (fun r => (r.kind, r.block)) = [(.mark, 4)] ∧
    (taken .storeDiscard (.store 0 7 4)
      { base with sst := { base.sst with queue := List.replicate 4 (request .mark) } }).sst.lastRequest
      = some ⟨.discard, 4, none⟩ ∧
    (taken .storeOverrideOn (.store 0 4 99) base).sst.override = true := by decide

theorem test_sequencer :
    (after (exec .sequencerTake (at_ (queued (request .mark) IndexEntry.erased)))).sst.current
      = some ⟨request .mark, .marking 10, false⟩ ∧
    ((after (exec (.writeEnd (leBytes 4 0x3C5AA5C3))
      (at_ (storing .writing (current .mark (.marking 8)))))).entry 31).keep = true ∧
    (after (exec (.writeEnd [0, 0, 0, 0]) (at_ (storing .writing (current .mark (.marking 8)))))).sst.writeFault = true ∧
    (after (exec (.clearEnd []) (at_ (storing .clearing (current .discard (.clearing 0 0)))))).sst.lastRequest
      = some ⟨.discard, 31, some .ok⟩ ∧
    (after (exec .compactionReadEnd (at_ (storing .reading (current .append (.copying 15)))))).sst.seq = .clearing := by
  decide +kernel

theorem test_acquisition :
    (after (exec .readyRisingEdge (at_ prepared))).acq.state = .pretrig ∧
    (after (exec .readyRisingEdge (at_ { prepared with lif := { prepared.lif with readyOwn := false } }))).acq.state
      = .prepared ∧
    (after (exec (.groupCompletion [5] [6]) (at_ (recording .pretrig .source (smallFill 0))))).acq.fill.map (·.completed)
      = some 1 ∧
    (after (exec .trig (at_ (recording .armed .follower (smallFill 225))))).acq.state = .posttrig ∧
    (after (exec (.qualDrive 0 0 true) (at_ base))).tgu.qualHigh = true ∧
    (after (exec (.triggerCrossing (-2) 0) (at_ (recording .armed .source (smallFill 225))))).tgu.crossing
      = ⟨true, false, none, none⟩ := by decide +kernel

/-- A READY edge given before the take of an earlier frame waits; behind the take a step acts on it with its own instant,
and no time passes (R177). -/
theorem test_waiting_edge :
    let late := after (exec .readyRisingEdge (receiving (.runctl 2) prepared))
    late.lif.waiting = [(10, .readyEdge)] ∧ late.acq.state = .prepared ∧
    late.inOrder 10 = false ∧
    let acted := after (step (at_ { after (exec .runctlSingle (at_ late)) with ticks := 12 }))
    acted.lif.waiting = [] ∧ acted.tgu.run = .single ∧ acted.acq.state = .pretrig ∧
    acted.acq.fill.map (·.origin) = some (25 * 11) ∧ acted.ticks = 12 := by decide +kernel

theorem test_chain_voided :
    let t := after (exec (.frameEnd ((Msg.recall 0).frame 0) true) (at_ chaining))
    t.smg.chain = .slot31 ∧ t.chainOffers 31 := by decide +kernel

theorem test_lane :
    (after (exec (.claimPhase [9]) (at_ { base with ticks := 64 }))).lif.lane = .transfer 1 none (64 + 20) ∧
    (after (exec (.claimPhase []) (at_ { base with ticks := 130 }))).lif.lane = .idle 192 ∧
    (after (exec (.frameEnd (Msg.restart.frame 1) false)
      (at_ { base with ticks := 86, lif := { base.lif with lane := .transfer 1 none 2 } }))).lif.rx
      = [⟨.restart, 1, 86, false⟩] ∧
    (after (exec (.frameEnd (Msg.restart.frame 1) true)
      (at_ { base with ticks := 86, lif := { base.lif with lane := .transfer 1 none 2 } }))).lif.rx = [] := by
  decide +kernel

theorem test_display :
    (after (exec .frameTimerExpiry (at_ { base with ticks := 1666667 }))).rse.frame = some ⟨some 0, 0, 1670667⟩ ∧
    (after (exec .decayTimerExpiry (at_ { base with rse := { base.rse with decayTimer := 10 } }))).rse.decayTimer
      = 10 + 25 * Config.ms ∧
    Sparse.read GridCell.blank (taken .annot (.annot 0 3 4 0x2A [65]) base).rse.grid 304 = ⟨65, 10, false, true⟩ := by
  decide +kernel

theorem test_panel :
    let pressed : Station :=
      { base with pns := { base.pns with scanTimer := 10, firstScan := false, raw := 1 } }
    (after (exec (.scanTimerExpiry 1 [0, 0, 3, 0, 0, 0, 0, 0]) (at_ pressed))).pns.queue
      = [⟨.down, 0, 0, 3, 10⟩, ⟨.turn, 2, 3, 1, 10⟩] ∧
    (after (exec .panelDispatch
      (at_ { base with pns := { base.pns with queue := [⟨.down, 0, 0, 3, 5⟩] } }))).lif.tx.map (·.msg) = [.runctl 1] := by
  decide +kernel

end Sys2Proof.Tests
end

namespace Sys2Proof.Machine

/-! ACQ at the two resets (R37). -/

/-- A restart ends the draw in progress (R78). -/
theorem restartStation_draw (t : Station) (x : Nat) : (t.restartStation x).rse.draw = none := by
  simp only [Station.restartStation, Station.restartLif]
  split <;> simp [Station.restartRse]

/-- A RESTART at the head of the receive list restarts the station (R194). -/
theorem execRestart_restarts (s : State) (e : RxEntry) (rest : List RxEntry) (h : s.headIs .restart e rest) :
    execRestart s = .next (s.put ((s.station.pop rest).restartStation e.acceptedAt)) := by
  obtain ⟨hpowered, hrx, hmsg, horder, hedge⟩ := h
  rw [execRestart, State.on_powered _ _ hpowered,
    Station.takeHead_takes _ _ _ _ e rest () hrx (by rw [hmsg]; rfl) horder hedge rfl]

/-- With nothing armed before, an arm restarts averaging; sums and count that are empty stay so (R31). -/
theorem armAveraging_afterReset (t : Station) (c : Capture) (hlast : t.acq.lastArmed = none)
    (hA : t.acq.sumsA = []) (hB : t.acq.sumsB = []) (hcount : t.acq.avgCount = 0) :
    (t.armAveraging c).acq = { t.acq with lastArmed := some c.armed, restartPending := false } := by
  simp [Station.armAveraging, hlast, hA, hB, hcount]

/-- Settles O4: power-on reset gives ACQ its reset value outright, and RESTART by `restartStation_acq`. -/
theorem acqResetIsTheSameAtBothResets : Obligations.AcqResetIsTheSameAtBothResets := by
  unfold Obligations.AcqResetIsTheSameAtBothResets
  refine ⟨fun straps s => ⟨_, rfl, rfl, rfl⟩, fun s e rest h => ?_, fun i _ => Quad.get_fill Slot.free i, rfl, rfl, rfl,
    rfl, fun _ => ⟨rfl, rfl⟩, rfl, rfl, rfl, rfl, armAveraging_afterReset⟩
  exact ⟨_, execRestart_restarts s e rest h, restartStation_acq _ _, restartStation_draw _ _⟩

/-! What a group of samples gives for its channel (R23, R28, R29). -/

/-- The least working value of a group is one of its values and below none of them (R29). -/
theorem formGroup_least (invert : Nat) (sample : Sample) (rest : List Sample) :
    (formGroup invert (sample :: rest)).least ∈ (sample :: rest).map (workingValue invert) ∧
    ∀ v ∈ (sample :: rest).map (workingValue invert), (formGroup invert (sample :: rest)).least ≤ v := by
  have h : ((sample :: rest).map (workingValue invert)).min? = some (formGroup invert (sample :: rest)).least := by
    rw [List.map_cons, List.min?_cons']
    simp [formGroup]
  exact List.min?_eq_some_iff.mp h

/-- The greatest working value of a group is one of its values and above none of them (R29). -/
theorem formGroup_greatest (invert : Nat) (sample : Sample) (rest : List Sample) :
    (formGroup invert (sample :: rest)).greatest ∈ (sample :: rest).map (workingValue invert) ∧
    ∀ v ∈ (sample :: rest).map (workingValue invert), v ≤ (formGroup invert (sample :: rest)).greatest := by
  have h : ((sample :: rest).map (workingValue invert)).max? = some (formGroup invert (sample :: rest)).greatest := by
    rw [List.map_cons, List.max?_cons']
    simp [formGroup]
  exact List.max?_eq_some_iff.mp h

/-- A group is clipped exactly when one of its raw samples is (R23). -/
theorem formGroup_clipped (invert : Nat) (samples : List Sample) :
    (formGroup invert samples).clipped = true ↔ ∃ y ∈ samples, y.toInt = -128 ∨ y.toInt = 127 := by
  simp [formGroup, sampleClipped]

/-! The held groups of a record and the fold of its points (R27, R30, R55). -/

/-- The held groups, g - P to g + Le - P - 1, by sums in place of differences (R55). -/
theorem heldGroups_eq (c : Capture) (g : Nat) (f : Fill) :
    heldGroups c g f =
      (f.margin ++ f.pre ++ f.post).filter (fun gr =>
        decide (g ≤ gr.index + c.p) && decide (gr.index + c.p < g + c.le)) := by
  unfold heldGroups
  congr 1
  funext gr
  congr 1
  · exact decide_eq_decide.mpr (by omega)
  · exact decide_eq_decide.mpr (by omega)

/-- A fold leaves the sums before and behind its points. -/
theorem read_foldSums_outside (k a : Nat) (xs : List Int) : ∀ (m : Sums) (i b : Nat), Sparse.wf 0 m = true →
    b < i ∨ i + xs.length ≤ b → Sparse.read 0 (foldSums k a m i xs) b = Sparse.read 0 m b := by
  induction xs with
  | nil => intro m i b _ _; rfl
  | cons x xs ih =>
    intro m i b h hb
    rw [List.length_cons] at hb
    have hrising : Sparse.rising 0 m = true := by simp only [Sparse.wf, Bool.and_eq_true] at h; exact h.1
    rw [foldSums, ih _ _ _ (Sparse.wf_write 0 _ _ h) (by omega), Sparse.read_write 0 hrising, if_neg (by omega)]

/-- A fold gives each of its points its new sum (R30). -/
theorem read_foldSums_inside (k a : Nat) (xs : List Int) : ∀ (m : Sums) (i j : Nat) (x : Int), Sparse.wf 0 m = true →
    xs[j]? = some x → Sparse.read 0 (foldSums k a m i xs) (i + j) = foldSum k a (Sparse.read 0 m (i + j)) x := by
  induction xs with
  | nil => intro m i j x _ hx; simp at hx
  | cons y xs ih =>
    intro m i j x h hx
    have hrising : Sparse.rising 0 m = true := by simp only [Sparse.wf, Bool.and_eq_true] at h; exact h.1
    have hwrite := Sparse.wf_write 0 i (foldSum k a (Sparse.read 0 m i) y) h
    cases j with
    | zero =>
      obtain rfl : y = x := by simpa using hx
      rw [foldSums, read_foldSums_outside _ _ _ _ _ _ hwrite (by omega), Sparse.read_write 0 hrising]
      simp
    | succ j =>
      rw [foldSums, show i + (j + 1) = i + 1 + j by omega, ih _ _ _ _ hwrite (by simpa using hx),
        Sparse.read_write 0 hrising, if_neg (by omega)]

/-! The points of one channel (R24, R28 to R30, R34). -/

/-- The least product of point j, which its group gives in SAMPLE and PEAK, and its folded sum in AVERAGE. -/
def lowProduct (c : Capture) (folded : Bool) (n : Nat) (sums : Sums) (first j : Nat) (g : ChannelGroup) : Int :=
  if c.acqmode = 1 then g.least * 256
  else if folded then (Sparse.read 0 sums (first + j) * 256).tdiv n else g.first * 256

/-- The greatest product of point j; it differs from the least in PEAK alone. -/
def highProduct (c : Capture) (folded : Bool) (n : Nat) (sums : Sums) (first j : Nat) (g : ChannelGroup) : Int :=
  if c.acqmode = 1 then g.greatest * 256 else lowProduct c folded n sums first j g

/-- The products of a channel are those of its groups, point by point. -/
theorem pointProducts_eq_mapIdx (c : Capture) (folded : Bool) (n : Nat) (sums : Sums) (first : Nat)
    (gs : List ChannelGroup) :
    pointProducts c folded n sums first gs =
      gs.mapIdx (fun j g => (lowProduct c folded n sums first j g, highProduct c folded n sums first j g)) := by
  unfold pointProducts highProduct lowProduct
  refine List.ext_getElem (by split_ifs <;> simp) fun j _ _ => ?_
  by_cases hpeak : c.acqmode = 1
  · simp [hpeak]
  · cases folded <;> simp [hpeak]

/-- What an enabled channel gets: F zeros and a packed point for each held group, and the flags that say whether a raw
sample was clipped and a product saturated (R24, R34). -/
theorem channelPoints_enabled (c : Capture) (folded : Bool) (n : Nat) (sums : Sums) (first : Nat)
    (gs : List ChannelGroup) :
    let low := lowProduct c folded n sums first
    let high := highProduct c folded n sums first
    let out := channelPoints c 1 folded n sums first gs
    out.1.length = first + gs.length ∧ (∀ i, i < first → out.1[i]? = some (0, 0)) ∧
    (∀ j g, gs[j]? = some g → out.1[first + j]? = some (pack16 (low j g), pack16 (high j g))) ∧
    (out.2.1 = true ↔ ∃ g ∈ gs, g.clipped = true) ∧
    (out.2.2 = true ↔
      ∃ j g, gs[j]? = some g ∧ (saturates16 (low j g) = true ∨ saturates16 (high j g) = true)) := by
  simp only [channelPoints, if_true, pointProducts_eq_mapIdx]
  refine ⟨by simp, fun i hi => ?_, fun j g hg => ?_, by simp, ?_⟩
  · rw [List.getElem?_append_left (by simpa using hi)]
    simp [hi]
  · rw [List.getElem?_append_right (by simp)]
    simp [hg]
  · rw [List.any_eq_true]
    constructor
    · rintro ⟨v, hv, hs⟩
      obtain ⟨j, hj, rfl⟩ := List.mem_mapIdx.mp hv
      exact ⟨j, gs[j], List.getElem?_eq_getElem hj, by simpa using hs⟩
    · rintro ⟨j, g, hg, hs⟩
      obtain ⟨hj, rfl⟩ := List.getElem?_eq_some_iff.mp hg
      exact ⟨_, List.mem_mapIdx.mpr ⟨j, hj, rfl⟩, by simpa using hs⟩

/-- Packing saturates exactly what 16 bits do not hold (R24). -/
theorem saturates16_iff (v : Int) : saturates16 v = true ↔ ¬ (-32768 ≤ v ∧ v ≤ 32767) := by
  simp only [saturates16, Bool.or_eq_true, decide_eq_true_eq]
  omega

/-! The completion work, channel by channel (R30, R34). -/

/-- The average count that a record with F zeros ahead leaves (R30). -/
def countAfter (c : Capture) (F k : Nat) : Nat := if c.acqmode = 2 ∧ F = 0 then foldCount k (2 ^ c.avgcount) else k

/-- The sums that a record with F zeros ahead leaves of a channel: in AVERAGE an enabled channel is folded, unless the
record is short (R30). -/
def sumsAfter (c : Capture) (enable F k : Nat) (held : List Group) (part : Group → ChannelGroup) (old : Sums) : Sums :=
  if decide (c.acqmode = 2 ∧ F = 0) && decide (enable = 1) then
    foldSums k (2 ^ c.avgcount) old F (held.map (fun g => (part g).first))
  else old

/-- A record is folded in AVERAGE unless it is short (R30). -/
theorem folded_iff (acqmode first : Nat) :
    (decide (acqmode = 2) && !decide (0 < first)) = decide (acqmode = 2 ∧ first = 0) := by
  simp [Nat.pos_iff_ne_zero]

section

variable (c : Capture) (f : Fill) (tr : FillTrigger) (coarse : Bool) (sumsA sumsB : Sums) (k : Nat)

theorem finishRecord_count :
    (finishRecord c f tr coarse sumsA sumsB k).count = countAfter c (firstPoint c tr.group) k := by
  simp only [finishRecord, folded_iff, decide_eq_true_eq, countAfter]

/-- The average count stands in the header in AVERAGE alone, as 0 for a short record (R30, R35). -/
theorem finishRecord_average :
    (finishRecord c f tr coarse sumsA sumsB k).record.average =
      if c.acqmode = 2 then some (if firstPoint c tr.group = 0 then foldCount k (2 ^ c.avgcount) else 0) else none := by
  simp only [finishRecord, folded_iff, decide_eq_true_eq]
  by_cases haverage : c.acqmode = 2 <;> by_cases hfull : firstPoint c tr.group = 0 <;> simp [haverage, hfull]

theorem finishRecord_sums :
    let fin := finishRecord c f tr coarse sumsA sumsB k
    let F := firstPoint c tr.group
    let held := heldGroups c tr.group f
    fin.sumsA = sumsAfter c c.a.enable F k held Group.a sumsA ∧
    fin.sumsB = sumsAfter c c.b.enable F k held Group.b sumsB := by
  simp only [finishRecord, folded_iff, sumsAfter, and_self]

theorem finishRecord_points :
    let fin := finishRecord c f tr coarse sumsA sumsB k
    let r := fin.record
    let F := firstPoint c tr.group
    let held := heldGroups c tr.group f
    let folds := decide (c.acqmode = 2 ∧ F = 0)
    (r.pointsA, r.clippedA, r.saturatedA) =
      channelPoints c c.a.enable folds (countAfter c F k) fin.sumsA F (held.map Group.a) ∧
    (r.pointsB, r.clippedB, r.saturatedB) =
      channelPoints c c.b.enable folds (countAfter c F k) fin.sumsB F (held.map Group.b) := by
  simp only [finishRecord, folded_iff, decide_eq_true_eq, countAfter, and_self]

end

/-- One channel's share of the completion work, of the held groups with k averages behind it: what its points, flags and
sums come to (R24, R28 to R30, R34). -/
theorem channelWork_gives (c : Capture) (enable F k : Nat) (held : List Group) (part : Group → ChannelGroup)
    (old new : Sums) (points : List Point) (clipped saturated : Bool)
    (hnew : new = sumsAfter c enable F k held part old)
    (hout : (points, clipped, saturated) =
      channelPoints c enable (decide (c.acqmode = 2 ∧ F = 0)) (countAfter c F k) new F (held.map part)) :
    let folds := c.acqmode = 2 ∧ F = 0
    let a := 2 ^ c.avgcount
    let n := foldCount k a
    let low (j : Nat) (g : ChannelGroup) : Int :=
      if c.acqmode = 1 then g.least * 256
      else if folds then (Sparse.read 0 new (F + j) * 256).tdiv n else g.first * 256
    let high (j : Nat) (g : ChannelGroup) : Int := if c.acqmode = 1 then g.greatest * 256 else low j g
    let fits (v : Int) : Prop := -32768 ≤ v ∧ v ≤ 32767
    (enable ≠ 1 → points = [] ∧ clipped = false ∧ saturated = false) ∧
    (enable = 1 →
      points.length = F + held.length ∧ (∀ i, i < F → points[i]? = some (0, 0)) ∧
      (∀ j g, held[j]? = some g → points[F + j]? = some (pack16 (low j (part g)), pack16 (high j (part g)))) ∧
      (clipped = true ↔ ∃ g ∈ held, (part g).clipped = true) ∧
      (saturated = true ↔ ∃ j g, held[j]? = some g ∧ ¬ (fits (low j (part g)) ∧ fits (high j (part g))))) ∧
    (enable ≠ 1 ∨ ¬ folds → new = old) ∧
    (enable = 1 → folds → Sparse.wf 0 old = true →
      (∀ j g, held[j]? = some g →
        Sparse.read 0 new (F + j) = foldSum k a (Sparse.read 0 old (F + j)) (part g).first) ∧
      (∀ i, F + held.length ≤ i → Sparse.read 0 new i = Sparse.read 0 old i)) := by
  intro folds a n low high fits
  have hlow : ∀ j g, lowProduct c (decide folds) (countAfter c F k) new F j g = low j g := fun j g => by
    simp only [lowProduct, low, decide_eq_true_eq]
    split_ifs with _ hfolds
    · rfl
    · rw [show countAfter c F k = n from if_pos hfolds]
    · rfl
  have hhigh : ∀ j g, highProduct c (decide folds) (countAfter c F k) new F j g = high j g := fun j g => by
    simp only [highProduct, high, hlow]
  obtain ⟨rfl, rfl, rfl⟩ : points = _ ∧ clipped = _ ∧ saturated = _ := by simpa only [Prod.ext_iff] using hout
  refine ⟨fun hoff => by simp [channelPoints, hoff], fun hon => ?_, fun hkept => ?_, fun hon hfolds hwf => ?_⟩
  · obtain ⟨hlength, hzeros, hpoints, hclipped, hsaturated⟩ :=
      channelPoints_enabled c (decide folds) (countAfter c F k) new F (held.map part)
    simp only [hlow, hhigh, saturates16_iff] at hpoints hsaturated
    subst hon
    refine ⟨hlength.trans (by simp), hzeros, fun j g hg => hpoints j _ (by simp [hg]), hclipped.trans (by simp), ?_⟩
    rw [hsaturated]
    constructor
    · rintro ⟨j, g, hg, hs⟩
      rw [List.getElem?_map, Option.map_eq_some_iff] at hg
      obtain ⟨g, hg, rfl⟩ := hg
      exact ⟨j, g, hg, not_and_or.mpr hs⟩
    · rintro ⟨j, g, hg, hs⟩
      exact ⟨j, part g, by simp [hg], not_and_or.mp hs⟩
  · rcases hkept with h | h
    · simp [hnew, sumsAfter, h]
    · simp only [folds] at h
      simp [hnew, sumsAfter, h]
  · rw [hnew, sumsAfter, if_pos (by simpa [hon] using hfolds)]
    refine ⟨fun j g hg => ?_, fun i hi => read_foldSums_outside _ _ _ _ _ _ hwf (.inr (by simpa using hi))⟩
    exact read_foldSums_inside _ _ _ _ _ _ (part g).first hwf (by simp [hg])

/-! What the acts between two records keep of ACQ and TGU (R41, R56, R59). -/

/-- ACQ with the fields that waiting for a record changes at their values in IDLE: what the acts between two records
keep. -/
def Acq.atRest (a : Acq) : Acq := { a with state := .idle, capture := none, reserved := none, restartPending := false }

section

variable (a : Acq)

@[simp] theorem Acq.atRest_slots : a.atRest.slots = a.slots := rfl
@[simp] theorem Acq.atRest_fill : a.atRest.fill = a.fill := rfl
@[simp] theorem Acq.atRest_sumsA : a.atRest.sumsA = a.sumsA := rfl
@[simp] theorem Acq.atRest_sumsB : a.atRest.sumsB = a.sumsB := rfl
@[simp] theorem Acq.atRest_avgCount : a.atRest.avgCount = a.avgCount := rfl

end

/-- TGU with the run states at their reset values: what setting the run state keeps. -/
def Tgu.besideRun (g : Tgu) : Tgu := { g with run := .running, savedRun := none }

namespace Station

variable (t : Station) (x : Nat)

@[simp] theorem reserve_atRest : t.reserve.acq.atRest = t.acq.atRest := by
  simp only [Station.reserve]
  split <;> rfl

@[simp] theorem settleAcq_atRest : t.settleAcq.acq.atRest = t.acq.atRest := by
  simp only [Station.settleAcq]
  split <;> exact reserve_atRest t

@[simp] theorem sendWord_atRest (isB : Bool) (w : FrontWord) : (t.sendWord isB w x).acq.atRest = t.acq.atRest := by
  simp only [Station.sendWord]
  repeat' split
  all_goals rfl

@[simp] theorem enterPreparing_atRest : (t.enterPreparing x).acq.atRest = t.acq.atRest := by
  simp only [Station.enterPreparing, Station.takeCapture, settleAcq_atRest, sendWord_atRest]
  rfl

@[simp] theorem followRun_atRest : (t.followRun x).acq.atRest = t.acq.atRest := by
  simp only [Station.followRun]
  split
  · exact enterPreparing_atRest t x
  · rfl

@[simp] theorem flip_atRest : t.flip.acq.atRest = t.acq.atRest := by
  cases h : t.flipIndex with
  | none => simp [Station.flip, h]
  | some i => rw [flip_acq t i h]; rfl

@[simp] theorem flipNow_atRest : (t.flipNow x).acq.atRest = t.acq.atRest := by
  simp only [Station.flipNow]
  split <;> simp

@[simp] theorem tryStart_atRest : (t.tryStart x).acq.atRest = t.acq.atRest := by
  simp only [Station.tryStart]
  repeat' split
  all_goals simp

@[simp] theorem flip_besideRun : t.flip.tgu.besideRun = t.tgu.besideRun := by
  cases h : t.flipIndex with
  | none => simp [Station.flip, h]
  | some i => rw [flip_tgu t i h]; split <;> rfl

@[simp] theorem flipNow_besideRun : (t.flipNow x).tgu.besideRun = t.tgu.besideRun := by
  simp only [Station.flipNow]
  split <;> simp

@[simp] theorem tryStart_besideRun : (t.tryStart x).tgu.besideRun = t.tgu.besideRun := by
  simp only [Station.tryStart]
  repeat' split
  all_goals simp

/-! The slots while RSE takes records (R36, R64, R72). -/

/-- Slot i holds a record on its way to the screen: DONE, being drawn, or drawn at once where both channels are disabled
(R36, R66). -/
def holdsRecord (i : Nat) (r : Record) (t : Station) : Prop :=
  t.acq.slots.get i = .done r ∨ (t.acq.slots.get i = .drawing r ∧ t.rse.draw.isSome = true) ∨
  (r.snapshot.a.enable ≠ 1 ∧ r.snapshot.b.enable ≠ 1 ∧ t.acq.slots.get i = .free)

/-- The oldest of a list of records is one of them (R36). -/
theorem foldl_olderRecord_mem (rest : List (Nat × Record)) (p : Nat × Record) :
    rest.foldl olderRecord p ∈ p :: rest := by
  induction rest generalizing p with
  | nil => simp
  | cons q rest ih =>
    have hstep : olderRecord p q = p ∨ olderRecord p q = q := by
      simp only [olderRecord]
      split <;> simp
    have hmem := ih (olderRecord p q)
    rcases hstep with h | h <;> simp only [List.foldl_cons, h, List.mem_cons] at hmem ⊢ <;> tauto

/-- A record of a DONE slot is that of its slot number. -/
theorem doneRecords_done (q : Quad Slot) (p : Nat × Record) (hp : p ∈ doneRecords q) :
    p.1 < 4 ∧ q.get p.1 = .done p.2 := by
  simp only [doneRecords, List.mem_filterMap, Option.map_eq_some_iff] at hp
  obtain ⟨⟨j, slot⟩, hj, r, hr, rfl⟩ := hp
  obtain rfl : slot = .done r := by cases slot <;> simp_all [Slot.doneRecord]
  simp only [List.mem_cons, Prod.mk.injEq, List.not_mem_nil, or_false] at hj
  rcases hj with ⟨rfl, h⟩ | ⟨rfl, h⟩ | ⟨rfl, h⟩ | ⟨rfl, h⟩ <;> exact ⟨by omega, h.symm⟩

/-- The head of the draw queue stands DONE in its slot (R36). -/
theorem oldestDone_done (q : Quad Slot) (i : Nat) (r : Record) (h : oldestDone q = some (i, r)) :
    i < 4 ∧ q.get i = .done r := by
  simp only [oldestDone] at h
  split at h
  · cases h
  · next p rest hp =>
    refine doneRecords_done q (i, r) ?_
    rw [hp, ← Option.some.inj h]
    exact foldl_olderRecord_mem rest p

@[simp] theorem reserve_state : t.reserve.acq.state = t.acq.state := by
  simp only [Station.reserve]
  split <;> rfl

@[simp] theorem reserve_slots : t.reserve.acq.slots = t.acq.slots := by
  simp only [Station.reserve]
  split <;> rfl

/-- The end of a draw frees its slot and leaves RSE idle (R72). -/
theorem endDraw_frees (p : DrawParams) (h : t.rse.draw = some p) :
    t.endDraw.acq.slots = t.acq.slots.set p.slot .free ∧ t.endDraw.rse.draw = none := by
  simp only [Station.endDraw, h, reserve_slots]
  split <;> simp [Station.performClears]

/-- The end of a draw changes no more of ACQ than the slots and a reservation that waits (R33, R72). -/
theorem endDraw_acq :
    t.endDraw.acq.state = t.acq.state ∧ t.endDraw.acq.atRest = { t.acq.atRest with slots := t.endDraw.acq.slots } := by
  cases h : t.rse.draw with
  | none => rw [show t.endDraw = t by simp only [Station.endDraw, h]]; exact ⟨rfl, rfl⟩
  | some p =>
    simp only [Station.endDraw, h, reserve_state, reserve_atRest, reserve_slots]
    split <;> simp [Station.performClears, Acq.atRest]

/-- RSE's takes change no more of ACQ than the slots and a reservation that waits (R33, R36). -/
theorem drawNext_acq (n : Nat) : ∀ t : Station,
    (t.drawNext n).acq.state = t.acq.state ∧
    (t.drawNext n).acq.atRest = { t.acq.atRest with slots := (t.drawNext n).acq.slots } := by
  induction n with
  | zero => exact fun t => ⟨rfl, rfl⟩
  | succ n ih =>
    intro t
    simp only [Station.drawNext]
    split
    · exact ⟨rfl, rfl⟩
    · split
      · exact ⟨rfl, rfl⟩
      · next i r _ =>
        split
        · obtain ⟨hstate, hrest⟩ := endDraw_acq (t.startDraw i r)
          obtain ⟨hstate', hrest'⟩ := ih (t.startDraw i r).endDraw
          exact ⟨hstate'.trans hstate, by rw [hrest', hrest]; rfl⟩
        · exact ⟨rfl, rfl⟩

/-- When an idle RSE takes the oldest record, that is the one of slot i, or slot i holds its record DONE or drawn
already (R36). -/
theorem holdsRecord_taken (i j : Nat) (r r' : Record) (hidle : ¬ t.rse.draw.isSome = true)
    (hold : oldestDone t.acq.slots = some (j, r')) (h : t.holdsRecord i r) :
    j = i ∧ r' = r ∨
      j ≠ i ∧
        (t.acq.slots.get i = .done r ∨
          (r.snapshot.a.enable ≠ 1 ∧ r.snapshot.b.enable ≠ 1 ∧ t.acq.slots.get i = .free)) := by
  have hdone := (oldestDone_done _ _ _ hold).2
  simp only [holdsRecord, hidle, Bool.false_eq_true, and_false, false_or] at h
  by_cases hij : j = i
  · subst hij
    exact .inl ⟨rfl, by simpa [hdone] using h⟩
  · exact .inr ⟨hij, h⟩

/-- RSE's take of the oldest record leaves every record in its slot on its way to the screen (R64). -/
theorem startDraw_holdsRecord (i j : Nat) (r r' : Record) (hi : i < 4) (hidle : ¬ t.rse.draw.isSome = true)
    (hold : oldestDone t.acq.slots = some (j, r')) (h : t.holdsRecord i r) : (t.startDraw j r').holdsRecord i r := by
  have hj := (oldestDone_done _ _ _ hold).1
  have hslots : (t.startDraw j r').acq.slots = t.acq.slots.set j (.drawing r') := rfl
  rw [holdsRecord, hslots]
  rcases holdsRecord_taken t i j r r' hidle hold h with ⟨rfl, rfl⟩ | ⟨hij, hwaits⟩
  · exact .inr (.inl ⟨Quad.get_set_same _ _ _ hj, rfl⟩)
  · rw [Quad.get_set_other _ _ _ _ hj hi hij]
    exact hwaits.imp_right .inr

/-- A record with both channels disabled, taken and complete at once, leaves every record in its slot on its way to the
screen (R66). -/
theorem startDraw_endDraw_holdsRecord (i j : Nat) (r r' : Record) (hi : i < 4) (hidle : ¬ t.rse.draw.isSome = true)
    (hold : oldestDone t.acq.slots = some (j, r')) (hoff : r'.snapshot.a.enable ≠ 1 ∧ r'.snapshot.b.enable ≠ 1)
    (h : t.holdsRecord i r) : (t.startDraw j r').endDraw.holdsRecord i r := by
  have hj := (oldestDone_done _ _ _ hold).1
  have hslots : (t.startDraw j r').endDraw.acq.slots = (t.acq.slots.set j (.drawing r')).set j .free :=
    (endDraw_frees (t.startDraw j r') _ rfl).1
  rw [holdsRecord, hslots]
  rcases holdsRecord_taken t i j r r' hidle hold h with ⟨rfl, rfl⟩ | ⟨hij, hwaits⟩
  · exact .inr (.inr ⟨hoff.1, hoff.2, Quad.get_set_same _ _ _ hj⟩)
  · rw [Quad.get_set_other _ _ _ _ hj hi hij, Quad.get_set_other _ _ _ _ hj hi hij]
    exact hwaits.imp_right .inr

/-- RSE's takes, one after another while records have both channels disabled, leave every record in its slot on its way
to the screen (R36, R64, R66). -/
theorem drawNext_holdsRecord (i : Nat) (r : Record) (hi : i < 4) (n : Nat) : ∀ t : Station, t.holdsRecord i r →
    (t.drawNext n).holdsRecord i r := by
  induction n with
  | zero => exact fun t h => h
  | succ n ih =>
    intro t h
    simp only [Station.drawNext]
    split
    · exact h
    · next hidle =>
      split
      · exact h
      · next j r' hold =>
        split
        · next hoff => exact ih _ (startDraw_endDraw_holdsRecord t i j r r' hi hidle hold hoff h)
        · exact startDraw_holdsRecord t i j r r' hi hidle hold h

/-! On from a completed record (R56). -/

/-- Reserving and settling leave a station in IDLE there (R41, R42). -/
theorem settleAcq_state_idle (h : t.acq.state = .idle) : t.settleAcq.acq.state = .idle := by
  simp [Station.settleAcq, h]

/-- A station that waits for a record goes on waiting (R42). -/
theorem settleAcq_state_waiting (h : t.acq.state = .preparing ∨ t.acq.state = .prepared) :
    t.settleAcq.acq.state = .preparing ∨ t.settleAcq.acq.state = .prepared := by
  simp only [Station.settleAcq]
  split
  · exact .inr rfl
  · rwa [reserve_state]

/-- Which window flips depends on SMG alone (R157). -/
theorem flipIndex_congr {t u : Station} (h : u.smg = t.smg) : u.flipIndex = t.flipIndex := by
  simp only [Station.flipIndex, h]

theorem flipPending_congr {t u : Station} (h : u.smg = t.smg) : u.flipPending = t.flipPending := by
  simp only [Station.flipPending, flipIndex_congr h]

/-- The station at the end of a SINGLE: STOPPED (R56, R57). -/
def afterSingle (t : Station) : Station := if t.tgu.run = .single then t.setRun .stopped else t

/-- Where a station goes on leaving ALIGNING: through a pending flip, or on to the next record (R56). -/
def movedOn (x : Nat) (t : Station) : Station := if t.flipPending then t.flipNow x else t.tryStart x

/-- On from a completed record: out of SINGLE, through a flip or a start, and RSE's takes (R56). -/
theorem afterRecord_eq : t.afterRecord x = settleAcq (drawNext 4 (t.afterSingle.movedOn x)) := rfl

@[simp] theorem afterSingle_frame :
    t.afterSingle.acq = t.acq ∧ t.afterSingle.smg = t.smg ∧ t.afterSingle.lif = t.lif ∧
    t.afterSingle.standby = t.standby ∧ t.afterSingle.tgu.besideRun = t.tgu.besideRun := by
  simp only [afterSingle]
  split <;> simp [setRun_tgu, Tgu.besideRun]

/-- Where the station was not RUNNING, it is STOPPED (R56). -/
theorem afterSingle_run (h : t.tgu.run ≠ .running) : t.afterSingle.tgu.run = .stopped := by
  simp only [afterSingle]
  cases hrun : t.tgu.run with
  | running => exact absurd hrun h
  | single => simp [setRun_tgu]
  | stopped => simpa using hrun

@[simp] theorem movedOn_atRest : (t.movedOn x).acq.atRest = t.acq.atRest := by
  simp only [movedOn]
  split <;> simp

@[simp] theorem movedOn_besideRun : (t.movedOn x).tgu.besideRun = t.tgu.besideRun := by
  simp only [movedOn]
  split <;> simp

@[simp] theorem settleAcq_slots : t.settleAcq.acq.slots = t.acq.slots := by
  simp only [Station.settleAcq]
  split <;> exact reserve_slots t

/-- On from a completed record no more of ACQ changes than the slots and what waiting for the next record changes. -/
theorem afterRecord_atRest :
    (t.afterRecord x).acq.atRest = { t.acq.atRest with slots := (t.afterRecord x).acq.slots } := by
  simp only [afterRecord_eq, settleAcq_atRest, settleAcq_slots, (drawNext_acq _ _).2, movedOn_atRest, afterSingle_frame]

/-- On from a completed record no more of TGU changes than the run states. -/
theorem afterRecord_besideRun : (t.afterRecord x).tgu.besideRun = t.tgu.besideRun := by
  simp [afterRecord_eq]

/-- The accumulator, the record FILLING and what TGU holds of a record stay (R56). -/
theorem afterRecord_keeps :
    ((t.afterRecord x).acq.fill = t.acq.fill ∧ (t.afterRecord x).acq.sumsA = t.acq.sumsA ∧
      (t.afterRecord x).acq.sumsB = t.acq.sumsB ∧ (t.afterRecord x).acq.avgCount = t.acq.avgCount) ∧
    (t.afterRecord x).tgu.role = t.tgu.role ∧ (t.afterRecord x).tgu.align = t.tgu.align ∧
      (t.afterRecord x).tgu.heldFrame = t.tgu.heldFrame ∧ (t.afterRecord x).tgu.lastStamp = t.tgu.lastStamp := by
  have hacq := afterRecord_atRest t x
  have htgu := afterRecord_besideRun t x
  simp only [Acq.atRest, Acq.mk.injEq, true_and] at hacq
  simp only [Tgu.besideRun, Tgu.mk.injEq, true_and] at htgu
  obtain ⟨hfill, hsumsA, hsumsB, hcount, _⟩ := hacq
  obtain ⟨hrole, _, hstamp, _, halign, hheld, _⟩ := htgu
  exact ⟨⟨hfill, hsumsA, hsumsB, hcount⟩, hrole, halign, hheld, hstamp⟩

/-- A DONE record stays in its slot on its way to the screen (R36, R56). -/
theorem afterRecord_slot (i : Nat) (r : Record) (hi : i < 4) (h : t.acq.slots.get i = .done r) :
    let slot := (t.afterRecord x).acq.slots.get i
    slot = .done r ∨ slot = .drawing r ∨ (r.snapshot.a.enable ≠ 1 ∧ r.snapshot.b.enable ≠ 1 ∧ slot = .free) := by
  have hslots : (t.afterSingle.movedOn x).acq.slots = t.acq.slots := by
    have h := congrArg Acq.slots (movedOn_atRest t.afterSingle x)
    rwa [(afterSingle_frame t).1] at h
  have hheld := drawNext_holdsRecord i r hi 4 (t.afterSingle.movedOn x) (.inl (by rw [hslots, h]))
  rw [afterRecord_eq, settleAcq_slots]
  rcases hheld with h | ⟨h, _⟩ | h
  · exact .inl h
  · exact .inr (.inl h)
  · exact .inr (.inr h)

/-- A flip that is pending is performed (R56, R59). -/
theorem afterRecord_flips (i : Nat) (h : t.flipIndex = some i) :
    ((t.afterRecord x).smg.windows.get i).role = .live := by
  have hflip : t.afterSingle.flipIndex = some i := (flipIndex_congr (by simp)).trans h
  have hi := (flipIndex_some t i h).1
  have hmoved : t.afterSingle.movedOn x = t.afterSingle.flipNow x := if_pos (by simp [Station.flipPending, hflip])
  have hsmg : (t.afterRecord x).smg = (t.afterSingle.movedOn x).smg := by simp [afterRecord_eq]
  rw [hsmg, hmoved, flipNow_windows _ _ _ hflip, Quad.get_set_same _ _ _ hi]
  rfl

/-- With no flip pending a station in IDLE moves on by a start alone (R41). -/
theorem movedOn_noFlip (hstate : t.acq.state = .idle) (hflip : t.flipPending = false) :
    t.movedOn x = if t.wants then t.enterPreparing x else t := by
  simp [movedOn, Station.tryStart, hstate, hflip]

/-- After a SINGLE or a STOP the station stays in IDLE, STOPPED (R56). -/
theorem afterRecord_stops (hstate : t.acq.state = .idle) (hflip : t.flipPending = false)
    (hrun : t.tgu.run ≠ .running) :
    (t.afterRecord x).tgu.run = .stopped ∧ (t.afterRecord x).acq.state = .idle := by
  have hstopped := afterSingle_run t hrun
  have hmoved : t.afterSingle.movedOn x = t.afterSingle := by
    rw [movedOn_noFlip _ _ (by simpa using hstate) ((flipPending_congr (by simp)).trans hflip)]
    simp [Station.wants, hstopped]
  rw [afterRecord_eq, hmoved]
  refine ⟨by simpa using hstopped, settleAcq_state_idle _ ?_⟩
  rw [(drawNext_acq _ _).1]
  simpa using hstate

/-- A RUNNING station goes on to the next record (R41, R56). -/
theorem afterRecord_goesOn (hstate : t.acq.state = .idle) (hflip : t.flipPending = false)
    (hrun : t.tgu.run = .running) (henrolled : t.enrolled = true) (hstandby : t.standby = false) :
    (t.afterRecord x).tgu.run = .running ∧
    ((t.afterRecord x).acq.state = .preparing ∨ (t.afterRecord x).acq.state = .prepared) := by
  have hsingle : t.afterSingle = t := if_neg (by simp [hrun])
  have hmoved : t.movedOn x = t.enterPreparing x := by
    rw [movedOn_noFlip _ _ hstate hflip, if_pos (by simp [Station.wants, hrun, henrolled, hstandby])]
  rw [afterRecord_eq, hsingle, hmoved]
  refine ⟨by simpa using hrun, settleAcq_state_waiting _ ?_⟩
  rw [(drawNext_acq _ _).1]
  exact enterPreparing_state t x

/-! The LEDs (R109, R113). -/

/-- An overlay started out of standby shows on its LED. -/
theorem startOverlay_shows (led : Led) (p : Pattern) (h : t.standby = false) :
    ∀ y ∈ (t.startOverlay led p x).pns.leds, y.led = led → y.overlay = some (p, x) := by
  intro y hy hled
  simp only [Station.startOverlay, h, Bool.false_eq_true, if_false, List.mem_map] at hy
  obtain ⟨z, _, rfl⟩ := hy
  split_ifs at hled ⊢
  · rfl
  · contradiction

/-- The base modes leave the overlays. -/
theorem refreshLeds_overlay (led : Led) (o : Option (Pattern × Nat))
    (h : ∀ y ∈ t.pns.leds, y.led = led → y.overlay = o) :
    ∀ y ∈ (t.refreshLeds x).pns.leds, y.led = led → y.overlay = o := by
  intro y hy hled
  simp only [Station.refreshLeds, List.mem_map] at hy
  obtain ⟨z, hz, rfl⟩ := hy
  split_ifs at hled ⊢ <;> exact h z hz hled

/-! The completion of a record (R34, R53, R55, R56). -/

/-- A completion as `Station.completed` has it is the same from a station with the same setup, run state and enrolment,
and of a record in the same slot. -/
theorem completed_seenFrom {s u : Station} {f f' : Fill} {fin : Finished} (h : t.completed u f' fin x)
    (hslot : f'.slot = f.slot) (hstandby : t.standby = s.standby) (hsmg : t.smg = s.smg) (hlif : t.lif = s.lif)
    (hrun : t.tgu.run = s.tgu.run) : s.completed u f fin x := by
  have henrolled : t.enrolled = s.enrolled := by simp only [Station.enrolled, hlif]
  simpa only [Station.completed, hstandby, flipIndex_congr hsmg, flipPending_congr hsmg, hrun, henrolled, hslot] using h

/-- The base modes of the LEDs, refreshed behind a completion, leave what it left. -/
theorem completed_refreshLeds {u : Station} {f : Fill} {fin : Finished} (h : t.completed u f fin x) :
    t.completed (u.refreshLeds x) f fin x := by
  obtain ⟨hfill, hled, h⟩ := h
  simp only [Station.completed, refreshLeds_frame]
  exact ⟨hfill, fun hs => refreshLeds_overlay _ _ _ _ (hled hs), h⟩

/-- An offered TRIGGERED stands in the transmit list, or is kept (R53). -/
theorem offerTriggered_offers (m : Msg) :
    (∃ e ∈ (t.offerTriggered m).lif.tx, e.msg = m ∧ e.origin = .trigger) ∨
    (t.offerTriggered m).tgu.keptFrame = some m := by
  simp only [Station.offerTriggered]
  split
  · exact .inl ⟨_, List.mem_append_right _ (List.mem_singleton_self _), rfl, rfl⟩
  · exact .inr rfl

/-- An offered TRIGGERED leaves what TGU holds of the run state and of a record. -/
@[simp] theorem offerTriggered_tgu (m : Msg) :
    (t.offerTriggered m).tgu.run = t.tgu.run ∧ (t.offerTriggered m).tgu.role = t.tgu.role ∧
    (t.offerTriggered m).tgu.align = t.tgu.align ∧ (t.offerTriggered m).tgu.heldFrame = t.tgu.heldFrame := by
  simp only [Station.offerTriggered]
  split <;> simp

/-- The completion work, and what the station goes on to (R34, R56). -/
def storedAndMovedOn (x : Nat) (f : Fill) (fin : Finished) (t : Station) : Station :=
  ((t.storeRecord f fin).startOverlay .triggered .flash x).afterRecord x

/-- The completion work and what follows it are what a completion leaves (R34, R56). -/
theorem storedAndMovedOn_completed (f : Fill) (fin : Finished) (hslot : f.slot < 4) :
    t.completed (t.storedAndMovedOn x f fin) f fin x := by
  obtain ⟨u, hu⟩ : ∃ u, u = (t.storeRecord f fin).startOverlay .triggered .flash x := ⟨_, rfl⟩
  have hacq : u.acq = (t.storeRecord f fin).acq := by simp [hu]
  have htgu : u.tgu = (t.storeRecord f fin).tgu := by simp [hu]
  have hsmg : u.smg = t.smg := by simp [hu]
  have henrolled : u.enrolled = t.enrolled := by simp [hu, Station.enrolled]
  have hstandby : u.standby = t.standby := by simp [hu]
  have hled : t.standby = false → ∀ y ∈ u.pns.leds, y.led = .triggered → y.overlay = some (.flash, x) := fun h => by
    rw [hu]
    exact startOverlay_shows _ _ _ _ (by simpa using h)
  obtain ⟨⟨hfill, hsumsA, hsumsB, hcount⟩, hrole, halign, hheld, _⟩ := afterRecord_keeps u x
  have hslots : u.acq.slots.get f.slot = .done fin.record := by
    rw [hacq]
    exact Quad.get_set_same _ _ _ hslot
  have hstate : u.acq.state = .idle := by rw [hacq]; rfl
  have hrun : u.tgu.run = t.tgu.run := by rw [htgu]; rfl
  rw [htgu] at hrole halign hheld
  rw [hacq] at hfill hsumsA hsumsB hcount
  rw [storedAndMovedOn, ← hu]
  refine ⟨hfill, by simpa using hled, afterRecord_slot u x f.slot fin.record hslot hslots, hsumsA, hsumsB, hcount,
    hrole, halign, hheld, fun i hi => afterRecord_flips u x i ((flipIndex_congr hsmg).trans hi),
    fun hflip => ⟨fun hended => ?_, fun hruns hin hon => ?_⟩⟩
  · exact afterRecord_stops u x hstate ((flipPending_congr hsmg).trans hflip) (by rwa [hrun])
  · exact afterRecord_goesOn u x hstate ((flipPending_congr hsmg).trans hflip) (hrun.trans hruns)
      (henrolled.trans hin) (hstandby.trans hon)

/-- The stamp of the last record stays at its completion. -/
theorem storedAndMovedOn_lastStamp (f : Fill) (fin : Finished) :
    (t.storedAndMovedOn x f fin).tgu.lastStamp = t.tgu.lastStamp := by
  obtain ⟨_, _, _, _, hstamp⟩ := afterRecord_keeps ((t.storeRecord f fin).startOverlay .triggered .flash x) x
  rw [storedAndMovedOn, hstamp]
  simp [Station.storeRecord]

/-- A TRIGGERED offered behind a completion leaves what the completion left. -/
theorem completed_offerTriggered {u : Station} {f : Fill} {fin : Finished} (m : Msg) (h : t.completed u f fin x) :
    t.completed (u.offerTriggered m) f fin x := by
  simpa only [Station.completed, offerTriggered_frame, offerTriggered_tgu] using h

/-- The record FILLING completes (R34, R56): the source offers its TRIGGERED behind it (R53). -/
theorem completeRecord_eq (coarse : Bool) (f : Fill) (c : Capture) (tr : FillTrigger) (hf : t.acq.fill = some f)
    (hc : t.acq.capture = some c) (htr : f.trigger = some tr) :
    t.completeRecord x coarse =
      let fin := finishRecord c f tr coarse t.acq.sumsA t.acq.sumsB t.acq.avgCount
      if t.isSource then
        (t.storedAndMovedOn x f fin).offerTriggered (.triggered f.number tr.tick tr.offset tr.kind.code)
      else t.storedAndMovedOn x f fin := by
  simp only [Station.completeRecord, hf, hc, htr]
  rfl

/-! The last group of a record (R53, R55). -/

/-- The station with this record FILLING. -/
def filledWith (f : Fill) (t : Station) : Station := { t with acq := { t.acq with fill := some f } }

/-- The station in ALIGNING. -/
def inAligning (t : Station) : Station := { t with acq := { t.acq with state := .aligning } }

/-- The source completes its record at once and offers TRIGGERED (R53). -/
theorem enterAligning_source (f : Fill) (c : Capture) (tr : FillTrigger) (hf : t.acq.fill = some f)
    (hc : t.acq.capture = some c) (htr : f.trigger = some tr) (hslot : f.slot < 4) (hsource : t.isSource = true) :
    t.completed (t.enterAligning x) f (finishRecord c f tr false t.acq.sumsA t.acq.sumsB t.acq.avgCount) x ∧
    let m := Msg.triggered f.number tr.tick tr.offset tr.kind.code
    (∃ e ∈ (t.enterAligning x).lif.tx, e.msg = m ∧ e.origin = .trigger) ∨
    (t.enterAligning x).tgu.keptFrame = some m := by
  have hat : t.enterAligning x = t.inAligning.completeRecord x false := if_pos hsource
  rw [hat, completeRecord_eq t.inAligning x false f c tr hf hc htr]
  simp only [show t.inAligning.isSource = true from hsource, if_true]
  have hdone := storedAndMovedOn_completed t.inAligning x f
    (finishRecord c f tr false t.acq.sumsA t.acq.sumsB t.acq.avgCount) hslot
  exact ⟨completed_offerTriggered _ _ _ (completed_seenFrom _ _ hdone rfl rfl rfl rfl rfl), offerTriggered_offers _ _⟩

/-- A follower that holds no frame waits for one, for 1 ms at most (R55). -/
theorem enterAligning_waits (hsource : t.isSource = false) (hheld : t.tgu.heldFrame = none) :
    t.enterAligning x =
      { t.inAligning with tgu := { t.tgu with align := some (x + Config.alignTicks) } } := by
  simp only [Station.enterAligning, hsource, hheld]
  rfl

/-- The station with its record's final trigger point and stamp (R55). -/
def alignedTo (f : Fill) (tr : FillTrigger) (t : Station) : Station :=
  { t with
    acq := { t.acq with fill := some { f with trigger := some tr } }
    tgu := { t.tgu with lastStamp := some (tr.tick, tr.offset) } }

/-- Fine alignment completes the record at the group of the stamped sample (R55). -/
theorem alignFine_eq (f : Fill) (c : Capture) (tr : FillTrigger) (h : HeldFrame) (hf : t.acq.fill = some f)
    (hc : t.acq.capture = some c) (htr : f.trigger = some tr) :
    t.alignFine x h =
      (t.alignedTo f
        { tr with
          group := (25 * (tr.trigTick - 1) + h.offset - f.origin) / c.d, tick := h.tick, offset := h.offset
          kind := h.kind }).completeRecord x false := by
  simp only [Station.alignFine, Station.alignRecord, alignedTo, hf, hc, htr]

/-- A follower's record with its final trigger point completes, and the stamp is the last one (R55). -/
theorem completeRecord_alignedTo (f : Fill) (c : Capture) (tr : FillTrigger) (coarse : Bool)
    (hc : t.acq.capture = some c) (hslot : f.slot < 4) (hsource : t.isSource = false) :
    let u := (t.alignedTo f tr).completeRecord x coarse
    t.completed u f (finishRecord c f tr coarse t.acq.sumsA t.acq.sumsB t.acq.avgCount) x ∧
    u.tgu.lastStamp = some (tr.tick, tr.offset) := by
  intro u
  have hu : u = (t.alignedTo f tr).storedAndMovedOn x { f with trigger := some tr }
      (finishRecord c f tr coarse t.acq.sumsA t.acq.sumsB t.acq.avgCount) := by
    rw [show u = _ from completeRecord_eq (t.alignedTo f tr) x coarse { f with trigger := some tr } c tr rfl hc rfl]
    exact if_neg (Bool.not_eq_true _ ▸ hsource)
  rw [hu]
  refine ⟨?_, storedAndMovedOn_lastStamp _ _ _ _⟩
  exact completed_seenFrom _ _ (storedAndMovedOn_completed _ _ _ _ hslot) rfl rfl rfl rfl rfl

/-- A follower that holds a frame aligns to it at once (R55). -/
theorem enterAligning_aligns (h : HeldFrame) (hsource : t.isSource = false) (hheld : t.tgu.heldFrame = some h) :
    t.enterAligning x = t.inAligning.alignFine x h := by
  simp only [Station.enterAligning, hsource, hheld]
  rfl

/-- What entering ALIGNING leaves: at the source the record complete and TRIGGERED offered, at a follower the wait for a
frame, or the record complete at the stamped sample of the frame it holds (R53, R55). -/
theorem enterAligning_leaves (f : Fill) (c : Capture) (tr : FillTrigger) (hf : t.acq.fill = some f)
    (hc : t.acq.capture = some c) (htr : f.trigger = some tr) (hslot : f.slot < 4) :
    let u := (t.enterAligning x).refreshLeds x
    let fin (tr : FillTrigger) := finishRecord c f tr false t.acq.sumsA t.acq.sumsB t.acq.avgCount
    (t.tgu.role = some .source →
      t.completed u f (fin tr) x ∧
      let m := Msg.triggered f.number tr.tick tr.offset tr.kind.code
      (∃ e ∈ u.lif.tx, e.msg = m ∧ e.origin = .trigger) ∨ u.tgu.keptFrame = some m) ∧
    (¬ t.tgu.role = some .source → t.tgu.heldFrame = none →
      u.acq = { t.acq with state := .aligning } ∧ u.tgu = { t.tgu with align := some (x + Config.alignTicks) }) ∧
    (∀ h, ¬ t.tgu.role = some .source → t.tgu.heldFrame = some h →
      t.completed u f
        (fin
          { tr with
            group := (25 * (tr.trigTick - 1) + h.offset - f.origin) / c.d, tick := h.tick, offset := h.offset
            kind := h.kind }) x ∧
      u.tgu.lastStamp = some (h.tick, h.offset)) := by
  intro u fin
  simp only [u, refreshLeds_frame]
  refine ⟨fun hsource => ?_, fun hfollows hheld => ?_, fun h hfollows hheld => ?_⟩
  · obtain ⟨hdone, hoffers⟩ := enterAligning_source t x f c tr hf hc htr hslot (decide_eq_true hsource)
    exact ⟨completed_refreshLeds _ _ hdone, hoffers⟩
  · rw [enterAligning_waits t x (decide_eq_false hfollows) hheld]
    exact ⟨rfl, rfl⟩
  · rw [enterAligning_aligns t x h (decide_eq_false hfollows) hheld, alignFine_eq t.inAligning x f c tr h hf hc htr]
    obtain ⟨hdone, hstamp⟩ := completeRecord_alignedTo t.inAligning x f c _ false hc hslot (decide_eq_false hfollows)
    exact ⟨completed_refreshLeds _ _ (completed_seenFrom _ _ hdone rfl rfl rfl rfl rfl), hstamp⟩

/-! Where a completed group goes (R27, R52). -/

/-- The margin grows to 25 groups at most (R52). -/
theorem pushMargin_length (margin : List Group) (g : Group) :
    (pushMargin margin g).length = min 25 (margin.length + 1) := by
  simp only [pushMargin, List.length_drop, List.length_append, List.length_singleton]
  omega

/-- With fewer than P pre-trigger points held, the group is one more (R27). -/
theorem pushPre_fewer (p : Nat) (follower : Bool) (g : Group) (f : Fill) (h : f.pre.length < p) :
    pushPre p follower g f = { f with pre := f.pre ++ [g] } := by
  simp only [pushPre, h, if_true]
  split
  · next hnil => simp at hnil
  · rfl

/-- With P held, the oldest goes, at a follower into the alignment margin (R52). -/
theorem pushPre_full (p : Nat) (follower : Bool) (g oldest : Group) (newer : List Group) (f : Fill)
    (h : p ≤ f.pre.length) (hpre : f.pre ++ [g] = oldest :: newer) :
    pushPre p follower g f =
      { f with pre := newer, margin := if follower then pushMargin f.margin oldest else f.margin } := by
  simp only [pushPre, hpre, if_neg (Nat.not_lt.mpr h)]

/-- A pre-trigger point leaves the post-trigger points. -/
theorem pushPre_post (p : Nat) (follower : Bool) (g : Group) (f : Fill) : (pushPre p follower g f).post = f.post := by
  simp only [pushPre]
  repeat' split
  all_goals rfl

section

variable (c : Capture) (f : Fill) (g : Group)

/-- In PRETRIG a group is one more pre-trigger point; with the P-th the station is ARMED (R27, R43). -/
theorem placeGroup_pretrig (hstate : t.acq.state = .pretrig) (htr : f.trigger = none) (hpre : f.pre.length < c.p) :
    t.placeGroup c f g x =
      let u := t.filledWith { f with pre := f.pre ++ [g], completed := f.completed + 1 }
      if f.pre.length + 1 = c.p then u.enterArmed x else u := by
  simp [Station.placeGroup, hstate, htr, pushPre_fewer, hpre, filledWith]

/-- In ARMED a group is the newest pre-trigger point (R27). -/
theorem placeGroup_armed (hstate : t.acq.state = .armed) (htr : f.trigger = none) :
    t.placeGroup c f g x = t.filledWith { pushPre c.p (!t.isSource) g f with completed := f.completed + 1 } := by
  simp [Station.placeGroup, hstate, htr, filledWith]

/-- After the trigger a group ahead of the trigger group is still a pre-trigger point (R27). -/
theorem placeGroup_ahead (hstate : t.acq.state = .posttrig) (tr : FillTrigger) (htr : f.trigger = some tr)
    (hahead : g.index < tr.group) (hpost : f.post.length ≠ c.le - c.p) :
    t.placeGroup c f g x = t.filledWith { pushPre c.p (!t.isSource) g f with completed := f.completed + 1 } := by
  simp [Station.placeGroup, hstate, htr, hahead, pushPre_post, hpost, filledWith]

/-- From the trigger group on a group is a post-trigger point; the last one ends POSTTRIG (R27, R53). -/
theorem placeGroup_behind (hstate : t.acq.state = .posttrig) (tr : FillTrigger) (htr : f.trigger = some tr)
    (hbehind : tr.group ≤ g.index) :
    t.placeGroup c f g x =
      let u := t.filledWith { f with post := f.post ++ [g], completed := f.completed + 1 }
      if f.post.length + 1 = c.le - c.p then u.enterAligning x else u := by
  simp [Station.placeGroup, hstate, htr, Nat.not_lt.mpr hbehind, filledWith]

/-- What a pre-trigger point in PRETRIG leaves: with the P-th the source's auto timer runs when RUNMODE is AUTO (R27,
R50). -/
theorem placeGroup_pretrig_leaves (hc : t.acq.capture = some c) (hstate : t.acq.state = .pretrig)
    (htr : f.trigger = none) (hpre : f.pre.length < c.p) :
    let u := t.placeGroup c f g x
    u.acq =
      { t.acq with
        state := if f.pre.length + 1 = c.p then .armed else .pretrig
        fill := some { f with pre := f.pre ++ [g], completed := f.completed + 1 } } ∧
    u.tgu =
      { t.tgu with
        auto :=
          if f.pre.length + 1 = c.p then
            (if t.tgu.role = some .source ∧ c.runmode = 0 then some (x + c.autoTicks) else none)
          else t.tgu.auto } := by
  intro u
  have hu := placeGroup_pretrig t x c f g hstate htr hpre
  by_cases hlast : f.pre.length + 1 = c.p
  · simp [u, hu, hlast, filledWith, Station.enterArmed, hc, Station.isSource]
  · simp [u, hu, hlast, filledWith, ← hstate]

/-- What a pre-trigger point leaves with P held: the newest P, and at a follower the displaced one in a margin of at
most 25 (R52). -/
theorem filledWith_pushPre_full (oldest : Group) (newer : List Group) (hfull : c.p ≤ f.pre.length)
    (hpre : f.pre ++ [g] = oldest :: newer) :
    ∃ margin,
      (t.filledWith { pushPre c.p (!t.isSource) g f with completed := f.completed + 1 }).acq =
        { t.acq with fill := some { f with pre := newer, margin := margin, completed := f.completed + 1 } } ∧
      (t.tgu.role = some .source → margin = f.margin) ∧
      (¬ t.tgu.role = some .source →
        margin <:+ f.margin ++ [oldest] ∧ margin.length = min 25 (f.margin.length + 1)) := by
  rw [pushPre_full _ _ _ oldest newer f hfull hpre]
  refine ⟨_, rfl, fun hsource => ?_, fun hfollower => ?_⟩
  · simp [Station.isSource, hsource]
  · simp only [Station.isSource, hfollower, decide_false, Bool.not_false, if_true]
    exact ⟨List.drop_suffix _ _, pushMargin_length _ _⟩

end

/-- A group completes where its last sample has come, in order, ahead of the line events that wait (R27, R177). -/
theorem groupCompletion_places (samplesA samplesB : List Sample) (f : Fill) (c : Capture) (hf : t.acq.fill = some f)
    (hc : t.acq.capture = some c) (hA : samplesA.length = c.d) (hB : samplesB.length = c.d)
    (hahead : ∀ w ∈ t.lif.waiting, f.origin + (f.completed + 1) * c.d ≤ Station.eventIndex w.2 w.1)
    (hend : groupEnd c f ≤ t.ticks) (horder : t.inOrder (groupEnd c f) = true) (hstate : t.acq.state ≠ .aligning) :
    t.groupCompletion samplesA samplesB =
      (t.placeGroup c f (formedGroup c f samplesA samplesB) (groupEnd c f)).refreshLeds (groupEnd c f) := by
  have hgroup : t.groupAhead c f = true := by simpa [Station.groupAhead] using hahead
  simp [Station.groupCompletion, hf, hc, hA, hB, hgroup, hend, horder, hstate]

/-- The completion of a group changes none of these. -/
theorem groupCompletion_frame (samplesA samplesB : List Sample) :
    let u := t.groupCompletion samplesA samplesB
    u.powered = t.powered ∧ u.straps = t.straps ∧ u.standby = t.standby ∧ u.ticks = t.ticks ∧ u.sst = t.sst := by
  simp only [Station.groupCompletion, Station.placeGroup]
  repeat' split
  all_goals simp

end Station
/-- Settles O46: a completed group goes where the `placeGroup` lemmas put it, by acquisition state and trigger group,
and the last one on through `enterAligning_leaves`; the completion work is `channelWork_gives`, channel by channel. -/
theorem groupCompletionFillsTheRecord : Obligations.GroupCompletionFillsTheRecord := by
  unfold Obligations.GroupCompletionFillsTheRecord
  refine ⟨fun s samplesA samplesB f c hpowered hf hc hslot hA hB hahead => ?_,
    fun invert samples => ⟨fun sample rest h => ?_, formGroup_clipped invert samples⟩,
    fun c f tr coarse sumsA sumsB k => ?_⟩
  · intro x hend horder acq g source
    have hplaces : acq.state ≠ .aligning →
        s.station.groupCompletion samplesA samplesB = (s.station.placeGroup c f g x).refreshLeds x :=
      Station.groupCompletion_places s.station samplesA samplesB f c hf hc hA hB hahead hend horder
    refine ⟨_, State.on_powered s _ hpowered, ?_, ?_, ?_, ?_, ?_⟩
    · intro hstate htr hpre
      rw [hplaces (by simp [hstate])]
      simp only [Station.refreshLeds_frame]
      exact Station.placeGroup_pretrig_leaves s.station x c f g hc hstate htr hpre
    · intro oldest newer hstate htr hfull hpre
      rw [hplaces (by simp [hstate]), Station.placeGroup_armed _ _ _ _ _ hstate htr]
      simp only [Station.refreshLeds_frame]
      exact ⟨rfl, Station.filledWith_pushPre_full s.station c f g oldest newer hfull hpre⟩
    · intro tr hstate htr hbefore hpost
      rw [hplaces (by simp [hstate]),
        Station.placeGroup_ahead _ _ _ _ _ hstate tr htr hbefore hpost]
      simp only [Station.refreshLeds_frame]
      refine ⟨rfl, fun hpre => ?_, fun oldest newer hfull hpre =>
        Station.filledWith_pushPre_full s.station c f g oldest newer hfull hpre⟩
      rw [Station.pushPre_fewer _ _ _ _ hpre]
      rfl
    · intro tr hstate htr hbehind f'
      have hgoes : s.station.groupCompletion samplesA samplesB =
          (if f.post.length + 1 = c.le - c.p then (s.station.filledWith f').enterAligning x
            else s.station.filledWith f').refreshLeds x := by
        rw [hplaces (by simp [hstate]), Station.placeGroup_behind _ _ _ _ _ hstate tr htr hbehind]
      rw [hgoes]
      refine ⟨fun hmore => ?_, fun hlast => ?_⟩
      · simp only [if_neg hmore, Station.refreshLeds_frame]
        exact ⟨rfl, rfl⟩
      · obtain ⟨hsource, hwaits, haligns⟩ :=
          Station.enterAligning_leaves (s.station.filledWith f') x f' c tr rfl hc htr hslot
        rw [if_pos hlast]
        refine ⟨fun hs => ?_, hwaits, fun h hfollows hheld => ?_⟩
        · exact ⟨Station.completed_seenFrom _ _ (hsource hs).1 rfl rfl rfl rfl rfl, (hsource hs).2⟩
        · obtain ⟨hdone, hstamp⟩ := haligns h hfollows hheld
          exact ⟨Station.completed_seenFrom _ _ hdone rfl rfl rfl rfl rfl, hstamp⟩
    · obtain ⟨hpower, hstraps, hstandby, hticks, hsst⟩ := Station.groupCompletion_frame s.station samplesA samplesB
      exact Station.ext_blocks hpower hstraps hstandby hticks rfl rfl rfl hsst rfl rfl rfl rfl
  · subst h
    obtain ⟨hleastMem, hleast⟩ := formGroup_least invert sample rest
    obtain ⟨hgreatestMem, hgreatest⟩ := formGroup_greatest invert sample rest
    refine ⟨rfl, fun y hy => ?_, List.mem_map.mp hleastMem, List.mem_map.mp hgreatestMem⟩
    have hmem := List.mem_map_of_mem (f := workingValue invert) hy
    exact ⟨hleast _ hmem, hgreatest _ hmem⟩
  · intro fin r held F folds a n snapshot
    have hheld : heldGroups c tr.group f = held := heldGroups_eq c tr.group f
    obtain ⟨hsumsA, hsumsB⟩ := finishRecord_sums c f tr coarse sumsA sumsB k
    obtain ⟨hpointsA, hpointsB⟩ := finishRecord_points c f tr coarse sumsA sumsB k
    rw [hheld] at hsumsA hsumsB hpointsA hpointsB
    refine ⟨rfl, rfl, rfl, rfl, rfl, rfl, decide_eq_true_iff, rfl, rfl,
      finishRecord_average c f tr coarse sumsA sumsB k, finishRecord_count c f tr coarse sumsA sumsB k, ?_⟩
    rintro enable part old new points clipped saturated h
    simp only [List.mem_cons, List.not_mem_nil, or_false, Prod.mk.injEq] at h
    obtain ⟨rfl, rfl, rfl, rfl, rfl, rfl, rfl⟩ | ⟨rfl, rfl, rfl, rfl, rfl, rfl, rfl⟩ := h
    · exact channelWork_gives c c.a.enable F k held Group.a _ _ _ _ _ hsumsA hpointsA
    · exact channelWork_gives c c.b.enable F k held Group.b _ _ _ _ _ hsumsB hpointsB

end Sys2Proof.Machine

namespace Sys2Proof.Machine

/-! The commands that find their event: a line event of the present tick, a timer that has run out, a RUNCTL frame. -/

section

variable (s : State)

/-- A line event of the present tick that is next in order is acted on (R177). -/
theorem State.on_occurs (ev : LineEvent) (f : Nat → Station → Station) (h : s.occurs) :
    s.on (Station.occur ev f) = .next (s.put (f s.station.ticks s.station)) := by
  obtain ⟨hpowered, horder, hwaiting⟩ := h
  rw [State.on_powered _ _ hpowered, Station.occur_now _ _ _ horder hwaiting]

/-- A line event of the present tick that is not next in order waits (R177, log 68). -/
theorem State.on_mustWait (ev : LineEvent) (f : Nat → Station → Station) (h : s.mustWait) :
    s.on (Station.occur ev f) = .next (s.put (s.station.await ev)) := by
  rw [State.on_powered _ _ h.1, Station.occur_awaits _ _ _ h.2]

/-- A timer of the station that has run out is acted on at its deadline (R177). -/
theorem State.on_expires (timer : Station → Option Nat) (f : Nat → Station → Station) (d : Nat)
    (h : s.expires (timer s.station) d) : s.on (fun t => t.expire (timer t) f) = .next (s.put (f d s.station)) := by
  obtain ⟨hpowered, hdeadline, hdue, horder, hedge⟩ := h
  rw [State.on_powered _ _ hpowered, Station.expire_due _ _ _ d hdeadline hdue horder hedge]

/-- A RUNCTL frame at the head of the receive list takes effect as of its acceptance (R175, R177). -/
theorem State.on_runctl (e : RxEntry) (rest : List RxEntry) (a : Nat) (f : Nat → Station → Station)
    (h : s.takes (.runctl a) e rest) :
    s.on (Station.takeRunctl a f) = .next (s.put (f e.acceptedAt (s.station.pop rest))) := by
  obtain ⟨⟨hpowered, hrx, hmsg, horder, hedge⟩, henrolled⟩ := h
  rw [State.on_powered _ _ hpowered, Station.takeRunctl,
    Station.takeFrame_takes _ _ _ e rest () hrx (by simp [hmsg, Msg.runctlFields]) horder hedge henrolled]

end

namespace Station

variable (t : Station) (x : Nat)

/-! The trigger of the source (R49 to R51). -/

/-- What a trigger leaves of the station: POSTTRIG with the group of the trigger sample, its stamp, and TRIG in the
tick behind it (R49). -/
theorem takeTrigger_eq (at_ tick offset : Nat) (kind : TriggerKind) (f : Fill) (c : Capture)
    (hf : t.acq.fill = some f) (hc : t.acq.capture = some c) :
    t.takeTrigger at_ tick offset kind =
      { t with
        acq :=
          { t.acq with
            state := .posttrig
            fill :=
              some
                { f with
                  trigger := some ⟨(25 * tick + offset - f.origin) / c.d, t.laneTimeAt tick, offset, kind, tick + 1⟩ } }
        tgu :=
          { t.tgu with
            auto := none, lastStamp := some (t.laneTimeAt tick, offset)
            trigDrives := (tick + 1) :: t.tgu.trigDrives.filter (fun y => decide (at_ ≤ y)) } } := by
  simp only [Station.takeTrigger, hf, hc, Tgu.driveTrig]

/-- FORCE at the source in PRETRIG or ARMED triggers at the first sample of the next tick (R51). -/
theorem forceEffect_triggers (hsource : t.tgu.role = some .source)
    (hstate : t.acq.state = .pretrig ∨ t.acq.state = .armed) :
    t.forceEffect x = t.takeTrigger x (x + 1) 0 .force :=
  if_pos (by simp [Station.isSource, hsource, hstate])

/-- FORCE at any other station and in any other state is ignored (R51). -/
theorem forceEffect_ignored
    (h : t.tgu.role ≠ some .source ∨ (t.acq.state ≠ .pretrig ∧ t.acq.state ≠ .armed)) : t.forceEffect x = t := by
  refine if_neg fun hacts => ?_
  simp only [Station.isSource, Bool.and_eq_true, Bool.or_eq_true, decide_eq_true_eq] at hacts
  obtain ⟨hsource, hstate⟩ := hacts
  rcases h with h | ⟨hpretrig, harmed⟩
  · exact h hsource
  · exact hstate.elim hpretrig harmed

/-- The auto timer of the source in ARMED triggers at the first sample of the next tick (R50). -/
theorem autoExpiry_triggers (hsource : t.tgu.role = some .source) (hstate : t.acq.state = .armed) :
    t.autoExpiry x = t.takeTrigger x (x + 1) 0 .auto :=
  if_pos (by simp [Station.isSource, hsource, hstate])

end Station

/-- Settles O21: FORCE and the auto timer are triggers as `takeTrigger_eq` has them, and FORCE is ignored where it does
not trigger. -/
theorem forceAndAutoTriggerAtTheSource : Obligations.ForceAndAutoTriggerAtTheSource := by
  unfold Obligations.ForceAndAutoTriggerAtTheSource
  intro triggered
  refine ⟨fun s e rest h => ?_, fun s d f c h hf hc hsource hstate => ?_, fun t => ?_⟩
  · refine ⟨_, State.on_runctl s e rest 3 Station.forceEffect h, fun f c hsource hf hc hstate => ?_,
      fun hother => Station.forceEffect_ignored _ _ hother⟩
    rw [Station.forceEffect_triggers (s.station.pop rest) _ hsource hstate,
      Station.takeTrigger_eq (s.station.pop rest) _ _ _ _ f c hf hc]
    rfl
  · rw [show exec .autoTimerExpiry s = _ from State.on_expires s (·.tgu.auto) Station.autoExpiry d h,
      Station.autoExpiry_triggers _ _ hsource hstate, Station.takeTrigger_eq _ _ _ _ _ f c hf hc]
    rfl
  · simp [Station.trigDriven]

end Sys2Proof.Machine

namespace Sys2Proof.Machine

/-- The accumulator and the acquisition numbers, which no drop of a record changes (R30, R32, R58). -/
def Acq.accumulator (a : Acq) : Sums × Sums × Nat × AcqNumber × AcqNumber :=
  (a.sumsA, a.sumsB, a.avgCount, a.number, a.armedNumber)

namespace Station

variable (t : Station) (x : Nat)

/-- The LIVE window depends on the windows alone (R5). -/
theorem live_congr {t u : Station} (h : u.smg.windows = t.smg.windows) : u.live = t.live := by
  simp only [Station.live, Station.liveIndex, h]

/-- Whether a flip is pending depends on the windows alone (R157). -/
theorem flipPending_of_windows {t u : Station} (h : u.smg.windows = t.smg.windows) :
    u.flipPending = t.flipPending := by
  simp only [Station.flipPending, Station.flipIndex, h]

/-- Reserving and settling leave SMG. -/
theorem settleAcq_smg : t.settleAcq.smg = t.smg := by simp

/-! Entering PREPARING (R13, R15, R16, R41, R42). -/

/-- A control word sent in any state but PREPARED leaves ACQ (R15, R16). -/
theorem sendWord_acq (isB : Bool) (w : FrontWord) (h : t.acq.state ≠ .prepared) :
    (t.sendWord isB w x).acq = t.acq := by
  simp only [Station.sendWord, h, if_false]
  repeat' split
  all_goals rfl

/-- A control word sent is the last one of its channel, and starts settling where it differs from the one before (R15,
R16). -/
theorem sendWord_smg (isB : Bool) (w : FrontWord) :
    (t.sendWord isB w x).smg =
      { t.smg with
        wordA := if isB then t.smg.wordA else some w
        wordB := if isB then some w else t.smg.wordB
        settling :=
          if (if isB then t.smg.wordB else t.smg.wordA) = some w then t.smg.settling
          else some (x + Config.settlingTicks) } := by
  cases isB with
  | false => by_cases h : t.smg.wordA = some w <;> simp [Station.sendWord, h]
  | true => by_cases h : t.smg.wordB = some w <;> simp [Station.sendWord, h]

/-- The capture taken, of the LIVE window (R13). -/
theorem takeCapture_acq (h : t.acq.state ≠ .prepared) :
    (t.takeCapture x).acq =
      { t.acq with capture := some (captureOf t.live.common t.live.chA t.live.chB) } := by
  simp only [Station.takeCapture]
  rw [sendWord_acq, sendWord_acq] <;> simp [sendWord_acq, h]

/-- Both words sent with the capture, and settling where one differs from the one before (R15, R16). -/
theorem takeCapture_smg :
    let wA := t.live.chA.capture.word
    let wB := t.live.chB.capture.word
    (t.takeCapture x).smg =
      { t.smg with
        wordA := some wA
        wordB := some wB
        settling :=
          if t.smg.wordA = some wA ∧ t.smg.wordB = some wB then t.smg.settling
          else some (x + Config.settlingTicks) } := by
  intro wA wB
  simp only [Station.takeCapture, sendWord_smg, captureOf]
  by_cases hA : t.smg.wordA = some wA <;> by_cases hB : t.smg.wordB = some wB <;> simp [hA, hB, wA, wB]

/-- A station in PREPARING or PREPARED with no reservation reserves the lowest-numbered FREE slot (R33). -/
theorem reserve_acq (h : t.waiting = true) :
    t.reserve.acq = { t.acq with reserved := t.acq.reserved.or (lowestFree t.acq.slots) } := by
  cases hr : t.acq.reserved with
  | none => simp [Station.reserve, h, hr]
  | some i =>
    have hkept : t.reserve = t := if_neg (by simp [hr])
    rw [hkept, Option.some_or, ← hr]

/-- Settling in PREPARING: a slot reserved where one is needed and FREE, and PREPARED once the front-end has settled
(R33, R42). -/
theorem settleAcq_preparing (hstate : t.acq.state = .preparing) (hwants : t.wants = true)
    (hflip : t.flipPending = false) :
    let slot := t.acq.reserved.or (lowestFree t.acq.slots)
    t.settleAcq.acq =
      { t.acq with
        reserved := slot
        state := if t.smg.settling = none ∧ slot ≠ none then .prepared else .preparing } := by
  intro slot
  have hreserve : t.reserve.acq = { t.acq with reserved := slot } := reserve_acq t (by simp [Station.waiting, hstate])
  have hwants' : t.reserve.wants = true := by simpa [Station.wants, Station.enrolled] using hwants
  have hflip' : t.reserve.flipPending = false := (flipPending_congr (by simp)).trans hflip
  simp only [Station.settleAcq, hwants', hflip', reserve_frame, reserve_state, hstate]
  by_cases hsettled : t.smg.settling = none ∧ slot ≠ none
  · simp [hsettled, hreserve, Option.isSome_iff_ne_none]
  · rw [if_neg (by simpa [hreserve, Option.isSome_iff_ne_none, and_comm] using hsettled), if_neg hsettled, hreserve,
      ← hstate]

/-- The station in PREPARING. -/
def inPreparing (t : Station) : Station := { t with acq := { t.acq with state := .preparing } }

theorem enterPreparing_eq : t.enterPreparing x = (t.inPreparing.takeCapture x).settleAcq := rfl

/-- Entering PREPARING sends both words, and starts settling where one differs from the one before (R15, R16). -/
theorem enterPreparing_smg :
    let wA := t.live.chA.capture.word
    let wB := t.live.chB.capture.word
    (t.enterPreparing x).smg =
      { t.smg with
        wordA := some wA
        wordB := some wB
        settling :=
          if t.smg.wordA = some wA ∧ t.smg.wordB = some wB then t.smg.settling
          else some (x + Config.settlingTicks) } := by
  rw [enterPreparing_eq, settleAcq_smg]
  exact takeCapture_smg t.inPreparing x

/-- Entering PREPARING where an acquisition is wanted takes the capture, reserves a slot, and goes on to PREPARED once
the front-end has settled (R13, R33, R41, R42). -/
theorem enterPreparing_acq (hwants : t.wants = true) (hflip : t.flipPending = false) :
    let slot := t.acq.reserved.or (lowestFree t.acq.slots)
    (t.enterPreparing x).acq =
      { t.acq with
        capture := some (captureOf t.live.common t.live.chA t.live.chB)
        reserved := slot
        state := if (t.enterPreparing x).smg.settling = none ∧ slot ≠ none then .prepared else .preparing } := by
  have hacq := takeCapture_acq t.inPreparing x (by simp [inPreparing])
  have hwants' : (t.inPreparing.takeCapture x).wants = true := by
    simpa [Station.wants, Station.enrolled, inPreparing] using hwants
  have hflip' : (t.inPreparing.takeCapture x).flipPending = false :=
    (flipPending_of_windows (t := t) (by rw [takeCapture_smg]; rfl)).trans hflip
  have hsettled := settleAcq_preparing (t.inPreparing.takeCapture x) (by rw [hacq]; rfl) hwants' hflip'
  rw [enterPreparing_eq, hsettled, hacq, settleAcq_smg]
  rfl

/-- What entering PREPARING leaves where an acquisition is wanted (R13, R15, R16, R33, R41, R42). -/
theorem enterPreparing_preparedFrom (hwants : t.wants = true) (hflip : t.flipPending = false) :
    t.preparedFrom (t.enterPreparing x) x := by
  have hsmg := enterPreparing_smg t x
  have hacq := enterPreparing_acq t x hwants hflip
  have hwindows : (t.enterPreparing x).smg.windows = t.smg.windows := by rw [hsmg]
  have hlive := live_congr hwindows
  refine ⟨⟨?_, ?_, ?_⟩, hwindows, fun hA hB => ?_, fun hdiffers => ?_, ?_, fun hnone => ?_, ?_⟩
  · rw [hacq, hlive]
  · rw [hsmg, hlive]
    rfl
  · rw [hsmg, hlive]
    rfl
  · rw [hlive] at hA hB
    rw [hsmg]
    exact if_pos ⟨hA, hB⟩
  · rw [hlive] at hdiffers
    rw [hsmg]
    exact if_neg (not_and_or.mpr hdiffers)
  · rw [hacq]
  · rw [hacq, hnone]
    rfl
  · rw [hacq]

/-! A run state commanded (R57, R60, R62). -/

/-- The run state r is commanded: it is the station's own, in standby the saved one, and that of a pending flip. -/
def commanded (r : RunState) (t : Station) : Prop :=
  (if t.standby = true then t.tgu.savedRun = some r else t.tgu.run = r) ∧
  ∀ i, t.flipIndex = some i → (t.smg.windows.get i).runState = r

/-- RUN, SINGLE and STOP command their run state (R57, R60, R62). -/
theorem commandRun_commanded (r : RunState) : (t.commandRun r).commanded r := by
  obtain ⟨_, _, hstandby, _⟩ := commandRun_frame t r
  refine ⟨?_, fun i hi => ?_⟩
  · rw [hstandby, commandRun_tgu]
    split <;> rfl
  · cases hflip : t.flipIndex with
    | none => rw [(commandRun_noFlip t r hflip).2] at hi; cases hi
    | some j =>
      obtain ⟨_, hj, hrun⟩ := commandRun_flip t r j hflip
      rw [hj] at hi
      cases hi
      exact hrun

section

variable {t} {r : RunState}

/-- What is commanded is seen from the run states, the windows and standby. -/
theorem commanded_congr {u : Station} (h : t.commanded r) (hstandby : u.standby = t.standby)
    (hrun : u.tgu.run = t.tgu.run) (hsaved : u.tgu.savedRun = t.tgu.savedRun) (hsmg : u.smg = t.smg) :
    u.commanded r := by
  simpa only [commanded, hstandby, hrun, hsaved, flipIndex_congr hsmg, hsmg] using h

/-- A flip brings in the run state commanded, so that it leaves TGU (R125). -/
theorem commanded_flip_tgu (h : t.commanded r) : t.flip.tgu = t.tgu := by
  obtain ⟨hown, hwindow⟩ := h
  cases hflip : t.flipIndex with
  | none => simp [Station.flip, hflip]
  | some i =>
    rw [flip_tgu t i hflip, hwindow i hflip]
    by_cases hstandby : t.standby = true
    · rw [if_pos hstandby] at hown ⊢
      rw [← hown]
    · rw [if_neg hstandby] at hown ⊢
      rw [← hown]

theorem commanded_flipNow_tgu (h : t.commanded r) : (t.flipNow x).tgu = t.tgu := by
  simp only [Station.flipNow]
  split
  · simpa using commanded_flip_tgu h
  · rfl

/-- Leaving IDLE leaves TGU. -/
theorem commanded_tryStart_tgu (h : t.commanded r) : (t.tryStart x).tgu = t.tgu := by
  simp only [Station.tryStart]
  repeat' split
  all_goals simp [commanded_flipNow_tgu x h]

/-- With STOPPED commanded no acquisition is wanted, and none behind a flip (R41). -/
theorem commanded_stopped_wants (h : t.commanded .stopped) : t.wants = false ∧ t.flip.wants = false := by
  have hown := h.1
  by_cases hstandby : t.standby = true
  · simp [Station.wants, hstandby]
  · rw [if_neg hstandby] at hown
    simp [Station.wants, hown, commanded_flip_tgu h]

/-- A pending flip performed with STOPPED commanded leaves the station in IDLE, averaging to restart (R31, R60). -/
theorem commanded_stopped_flipNow_acq (h : t.commanded .stopped) :
    (t.flipNow x).acq =
      if t.flipPending then
        { t.acq with state := .idle, reserved := none, capture := none, restartPending := true }
      else t.acq := by
  simp only [Station.flipNow]
  split
  · next hflip =>
    obtain ⟨i, hi⟩ := Option.isSome_iff_exists.mp hflip
    rw [Station.followRun, (commanded_stopped_wants h).2, if_neg Bool.false_ne_true, Station.toIdle, flip_acq t i hi]
  · rfl

/-- What a pending flip performed with STOPPED commanded leaves of a station in IDLE. -/
theorem commanded_stopped_flipNow_idle (h : t.commanded .stopped) (hstate : t.acq.state = .idle) :
    (t.flipNow x).acq.state = .idle := by
  rw [commanded_stopped_flipNow_acq x h]
  split
  · rfl
  · exact hstate

end

/-! STOP at the acquisition (R58). -/

/-- The station at the boundary that STOP makes of its acquisition state: in IDLE, with no reservation and no record
FILLING, but in POSTTRIG and ALIGNING, where the record goes on (R58). -/
def broughtToIdle (t : Station) : Station :=
  match t.acq.state with
  | .preparing | .prepared => t.toIdle
  | .pretrig | .armed => t.dropRecord
  | .idle | .posttrig | .aligning => t

/-- STOP brings the station to IDLE and performs a pending flip there, but in POSTTRIG and ALIGNING (R58, R60). -/
theorem stopAcq_eq :
    t.stopAcq x =
      if t.acq.state = .posttrig ∨ t.acq.state = .aligning then t else t.broughtToIdle.flipNow x := by
  simp only [Station.stopAcq, broughtToIdle]
  cases t.acq.state <;> simp

/-- A record dropped leaves the run states (R58). -/
theorem dropRecord_run : t.dropRecord.tgu.run = t.tgu.run ∧ t.dropRecord.tgu.savedRun = t.tgu.savedRun := by
  simp only [Station.dropRecord]
  split <;> exact ⟨rfl, rfl⟩

/-- On the way to IDLE the setup, the run states and LIF stay. -/
theorem broughtToIdle_keeps :
    t.broughtToIdle.smg = t.smg ∧ t.broughtToIdle.lif = t.lif ∧ t.broughtToIdle.standby = t.standby ∧
    t.broughtToIdle.tgu.run = t.tgu.run ∧ t.broughtToIdle.tgu.savedRun = t.tgu.savedRun := by
  simp only [broughtToIdle]
  split <;> simp [dropRecord_run]

/-- A pending flip performed leaves the accumulator, the slots and the record FILLING. -/
theorem flipNow_keeps :
    (t.flipNow x).acq.accumulator = t.acq.accumulator ∧ (t.flipNow x).acq.slots = t.acq.slots ∧
    (t.flipNow x).acq.fill = t.acq.fill := by
  have hrest {β : Type} (p : Acq → β) : p (t.flipNow x).acq.atRest = p t.acq.atRest := by rw [flipNow_atRest]
  exact ⟨hrest Acq.accumulator, hrest Acq.slots, hrest Acq.fill⟩

/-- On the way to IDLE the accumulator stays (R58). -/
theorem broughtToIdle_accumulator : t.broughtToIdle.acq.accumulator = t.acq.accumulator := by
  simp only [broughtToIdle, Station.dropRecord]
  repeat' split
  all_goals rfl

/-- STOP leaves the accumulator (R58). -/
theorem stopAcq_accumulator : (t.stopAcq x).acq.accumulator = t.acq.accumulator := by
  rw [stopAcq_eq]
  split
  · rfl
  · rw [(flipNow_keeps _ x).1, broughtToIdle_accumulator]

/-- STOP leaves the receive list. -/
theorem stopAcq_rx : (t.stopAcq x).lif.rx = t.lif.rx := by
  rw [stopAcq_eq]
  split
  · rfl
  · rw [(startKeeps_flipNow _ x).rx, (broughtToIdle_keeps t).2.1]

/-- The flip that STOP performs leaves its window LIVE, but in POSTTRIG and ALIGNING (R58, R60). -/
theorem stopAcq_flips (i : Nat) (h : t.flipIndex = some i)
    (hstate : ¬ (t.acq.state = .posttrig ∨ t.acq.state = .aligning)) :
    ((t.stopAcq x).smg.windows.get i).role = .live := by
  have hflip : t.broughtToIdle.flipIndex = some i := (flipIndex_congr (broughtToIdle_keeps t).1).trans h
  rw [stopAcq_eq, if_neg hstate, flipNow_windows _ _ i hflip, Quad.get_set_same _ _ _ (flipIndex_some t i h).1]
  rfl

section

variable {t} (h : t.commanded .stopped)

include h

theorem broughtToIdle_commanded : t.broughtToIdle.commanded .stopped :=
  have ⟨hsmg, _, hstandby, hrun, hsaved⟩ := broughtToIdle_keeps t
  commanded_congr h hstandby hrun hsaved hsmg

/-- STOP leaves the run states as commanded. -/
theorem stopAcq_run :
    (t.stopAcq x).tgu.run = t.tgu.run ∧ (t.stopAcq x).tgu.savedRun = t.tgu.savedRun := by
  obtain ⟨_, _, _, hrun, hsaved⟩ := broughtToIdle_keeps t
  rw [stopAcq_eq]
  split
  · exact ⟨rfl, rfl⟩
  · rw [commanded_flipNow_tgu x (broughtToIdle_commanded h)]
    exact ⟨hrun, hsaved⟩

/-- STOP in IDLE stays there. -/
theorem stopAcq_idle (hstate : t.acq.state = .idle) : (t.stopAcq x).acq.state = .idle := by
  simp only [Station.stopAcq, hstate]
  exact commanded_stopped_flipNow_idle x h hstate

/-- STOP in PREPARING and PREPARED ends the reservation (R58). -/
theorem stopAcq_waiting (hstate : t.acq.state = .preparing ∨ t.acq.state = .prepared) :
    (t.stopAcq x).acq.state = .idle ∧ (t.stopAcq x).acq.reserved = none ∧
    (t.stopAcq x).acq.slots = t.acq.slots := by
  have hstop : t.stopAcq x = t.toIdle.flipNow x := by rcases hstate with hs | hs <;> simp only [Station.stopAcq, hs]
  have hidle : t.toIdle.commanded .stopped := commanded_congr h rfl rfl rfl rfl
  rw [hstop]
  refine ⟨commanded_stopped_flipNow_idle x hidle rfl, ?_, (flipNow_keeps _ x).2.1⟩
  rw [commanded_stopped_flipNow_acq x hidle]
  split <;> rfl

/-- STOP in PRETRIG and ARMED drops the record, whose slot is FREE, and ends the auto timer (R58). -/
theorem stopAcq_drops (f : Fill) (hf : t.acq.fill = some f) (hstate : t.acq.state = .pretrig ∨ t.acq.state = .armed) :
    (t.stopAcq x).acq.state = .idle ∧ (t.stopAcq x).acq.fill = none ∧
    (t.stopAcq x).acq.slots = t.acq.slots.set f.slot .free ∧ (t.stopAcq x).tgu.auto = none := by
  have hstop : t.stopAcq x = t.dropRecord.flipNow x := by rcases hstate with hs | hs <;> simp only [Station.stopAcq, hs]
  have hdropped : t.dropRecord.commanded .stopped :=
    commanded_congr h (by simp) (dropRecord_run t).1 (dropRecord_run t).2 (by simp)
  obtain ⟨_, hslots, hfill⟩ := flipNow_keeps t.dropRecord x
  rw [hstop, hslots, hfill, commanded_flipNow_tgu x hdropped]
  refine ⟨commanded_stopped_flipNow_idle x hdropped ?_, ?_, ?_, ?_⟩ <;> simp only [Station.dropRecord, hf]

end

end Station

/-! RUN and SINGLE at the acquisition (R57, R90). -/

namespace Station

variable (t : Station) (x : Nat) (r : RunState)

/-- A run state commanded by a frame that has been taken changes LIF's receive list by the frame alone, and leaves
these fields. -/
theorem pop_commandRun (rest : List RxEntry) :
    let u := (t.pop rest).commandRun r
    u.acq = t.acq ∧ u.lif.rx = rest ∧ u.enrolled = t.enrolled ∧ u.standby = t.standby ∧ u.straps = t.straps ∧
    u.ticks = t.ticks ∧ u.free = t.free ∧ u.sst = t.sst ∧ u.powered = t.powered := by
  intro u
  obtain ⟨hacq, hlif, hstandby, hstraps, hticks, hfree, hsst, hpowered, -⟩ := commandRun_frame (t.pop rest) r
  exact ⟨hacq, congrArg Lif.rx hlif, by simp only [Station.enrolled, u, hlif]; rfl, hstandby, hstraps, hticks, hfree,
    hsst, hpowered⟩

/-- A pending flip takes the run state that a taken frame commands into its run section (R60). -/
theorem pop_commandRun_flip (rest : List RxEntry) (i : Nat) (h : t.flipIndex = some i) :
    let u := (t.pop rest).commandRun r
    u.flipIndex = some i ∧ u.smg.windows.get i = { t.smg.windows.get i with runState := r } := by
  obtain ⟨hwindows, hflip, -⟩ := commandRun_flip (t.pop rest) r i h
  exact ⟨hflip, by rw [hwindows, Quad.get_set_same _ _ _ (flipIndex_some t i h).1]; rfl⟩

/-- A run state that changes rebuilds the common readout of a COMMON-role station (R57, R90). -/
theorem setRun_shows (hrun : t.tgu.run ≠ r) (hpanel : t.straps.panel = .common)
    (hgrid : Sparse.wf GridCell.blank t.rse.grid = true) (k : Nat) (cell : GridCell)
    (hcell : (commonReadout t.live.common r)[k]? = some cell) :
    Sparse.read GridCell.blank (t.setRun r).rse.grid k = cell := by
  obtain ⟨hk, rfl⟩ := List.getElem?_eq_some_iff.mp hcell
  have hset : (t.setRun r).rse.grid = Sparse.writeRun GridCell.blank t.rse.grid 0 (commonReadout t.live.common r) := by
    simp only [Station.setRun, if_neg hrun, Station.rebuildCommon, hpanel, if_true]
    rfl
  have hread := Sparse.read_writeRun_inside (a := 0) GridCell.blank _ hgrid hk
  rw [Nat.zero_add] at hread
  rw [hset, hread]

/-- Out of standby a run state commanded shows as one set (R57). -/
theorem commandRun_rse (h : t.standby = false) : (t.commandRun r).rse = (t.setRun r).rse := by
  simp only [Station.commandRun, h, Bool.false_eq_true, if_false]
  split <;> simp

/-- A station not in IDLE goes on (R57). -/
theorem tryStart_goesOn (h : t.acq.state ≠ .idle) : t.tryStart x = t := if_neg h

/-- With no flip pending a station in IDLE enters PREPARING where an acquisition is wanted (R41). -/
theorem tryStart_idle (h : t.acq.state = .idle) (hflip : t.flipPending = false) :
    t.tryStart x = if t.wants then t.enterPreparing x else t := by
  simp [Station.tryStart, h, hflip]

/-- With no flip pending leaving IDLE leaves RSE. -/
theorem tryStart_rse (hflip : t.flipPending = false) : (t.tryStart x).rse = t.rse := by
  by_cases h : t.acq.state = .idle
  · rw [tryStart_idle t x h hflip]
    split <;> simp
  · rw [tryStart_goesOn t x h]

/-- What entering PREPARING leaves is seen from SMG and ACQ alone. -/
theorem preparedFrom_congr {s s' u u' : Station} (h : s.preparedFrom u x) (hsmg : s'.smg = s.smg)
    (hacq : s'.acq = s.acq) (husmg : u'.smg = u.smg) (huacq : u'.acq = u.acq) : s'.preparedFrom u' x := by
  simpa only [Station.preparedFrom, Station.captured, Station.live, Station.liveIndex, hsmg, hacq, husmg, huacq] using h

end Station

/-- Settles O20: STOPPED is commanded, and STOP does to each acquisition state what the `stopAcq` lemmas say. -/
theorem stopActsOnTheAcquisition : Obligations.StopActsOnTheAcquisition := by
  unfold Obligations.StopActsOnTheAcquisition
  intro s e rest h
  have hcommanded := Station.commandRun_commanded (s.station.pop rest) .stopped
  have hflips := s.station.pop_commandRun_flip .stopped rest
  obtain ⟨hacq, hrx, -, hstandby, hstraps, hticks, hfree, hsst, hpowered⟩ := s.station.pop_commandRun .stopped rest
  refine ⟨_, State.on_runctl s e rest 1 Station.stopEffect h, ?_⟩
  rw [Station.stopEffect]
  generalize (s.station.pop rest).commandRun .stopped = u at *
  obtain ⟨hrun, hsaved⟩ := Station.stopAcq_run e.acceptedAt hcommanded
  have hown := hcommanded.1
  have haccumulator := Station.stopAcq_accumulator u e.acceptedAt
  simp only [Acq.accumulator, Prod.mk.injEq] at haccumulator
  obtain ⟨hsumsA, hsumsB, hcount, hnumber, harmed⟩ := haccumulator
  simp only [Station.refreshLeds_frame]
  rw [← hstandby, ← hacq]
  refine ⟨?_, fun hout => ?_, fun hin => ?_, Station.stopAcq_waiting _ hcommanded, Station.stopAcq_idle _ hcommanded,
    Station.stopAcq_drops _ hcommanded, fun hgoes => ?_,
    fun i hi => ⟨fun hrests => ⟨?_, fun hin => ?_⟩, fun hgoes => ?_⟩, hsumsA, hsumsB, hcount, hnumber, harmed, ?_⟩
  · rw [Station.stopAcq_rx, hrx]
  · rw [hrun]
    simpa [hout] using hown
  · rw [hsaved]
    simpa [hin] using hown
  · rw [Station.stopAcq_eq, if_pos hgoes]
  · refine Station.stopAcq_flips u e.acceptedAt i (hflips i hi).1 ?_
    rcases hrests with hs | hs | hs <;> simp [hs]
  · rw [hsaved]
    simpa [hin] using hown
  · rw [Station.stopAcq_eq, if_pos hgoes]
    exact (hflips i hi).2
  · obtain ⟨gpowered, gstraps, gstandby, gticks, gfree, gsst, -⟩ := u.stopAcq_frame e.acceptedAt
    exact Station.ext_blocks (gpowered.trans hpowered) (gstraps.trans hstraps) (gstandby.trans hstandby)
      (gticks.trans hticks) (gfree.trans hfree) rfl rfl (gsst.trans hsst) hacq rfl rfl rfl

/-- Settles O19: the run state is commanded, and from IDLE `tryStart` flips, or enters PREPARING as
`enterPreparing_preparedFrom` has it where an acquisition is wanted. -/
theorem runAndSingleSetTheRunState : Obligations.RunAndSingleSetTheRunState := by
  unfold Obligations.RunAndSingleSetTheRunState
  intro s e rest c a r hrow h
  have hexec : exec c s = .next (s.put ((s.station.pop rest).runEffect r e.acceptedAt)) ∧ r ≠ .stopped := by
    simp only [List.mem_cons, List.not_mem_nil, or_false, Prod.mk.injEq] at hrow
    obtain ⟨rfl, rfl, rfl⟩ | ⟨rfl, rfl, rfl⟩ := hrow
    · exact ⟨State.on_runctl s e rest 0 (Station.runEffect .running) h, by decide⟩
    · exact ⟨State.on_runctl s e rest 2 (Station.runEffect .single) h, by decide⟩
  obtain ⟨hexec, hruns⟩ := hexec
  obtain ⟨-, hmember⟩ := h
  have hgrid : s.station.standby = false →
      ((s.station.pop rest).commandRun r).rse = ((s.station.pop rest).setRun r).rse :=
    (s.station.pop rest).commandRun_rse r
  have hcommanded := Station.commandRun_commanded (s.station.pop rest) r
  have htgu := commandRun_tgu (s.station.pop rest) r
  have hflips := s.station.pop_commandRun_flip r rest
  have hsmg : s.station.flipPending = false → ((s.station.pop rest).commandRun r).smg = s.station.smg := fun hflip =>
    have hnone : s.station.flipIndex = none := by simpa [Station.flipPending] using hflip
    (commandRun_noFlip (s.station.pop rest) r hnone).1
  obtain ⟨hacq, hrx, henrolled, hstandby, hstraps, hticks, hfree, hsst, hpowered⟩ := s.station.pop_commandRun r rest
  refine ⟨_, hexec, ?_⟩
  rw [Station.runEffect]
  generalize (s.station.pop rest).commandRun r = u at *
  have hleft := Station.commanded_tryStart_tgu e.acceptedAt hcommanded
  have hnoFlip : s.station.flipPending = false → u.flipPending = false := fun hflip =>
    (Station.flipPending_congr (hsmg hflip)).trans hflip
  simp only [Station.refreshLeds_frame, hleft, htgu, Station.pop_frame]
  refine ⟨?_, fun hout => ?_, fun hin => ?_, fun i hi hstate => ?_, fun hstate => ?_, fun hstate hflip hout => ?_,
    fun hstate hflip hin => ?_, fun hflip hout hchanges hpanel hwf => ?_, ?_⟩
  · rw [(startKeeps_tryStart u e.acceptedAt).rx, hrx]
  · simp [hout]
  · simp [hin]
  · rw [Station.tryStart_goesOn u e.acceptedAt (hacq ▸ hstate), (hflips i hi).2]
  · rw [Station.tryStart_goesOn u e.acceptedAt (hacq ▸ hstate), hacq]
  · have hwants : u.wants = true := by
      simp [Station.wants, htgu, hout, hruns, henrolled, hmember, hstandby]
    have hprepares : u.tryStart e.acceptedAt = u.enterPreparing e.acceptedAt := by
      rw [Station.tryStart_idle u e.acceptedAt (hacq ▸ hstate) (hnoFlip hflip), if_pos hwants]
    rw [hprepares]
    exact Station.preparedFrom_congr _ (Station.enterPreparing_preparedFrom u _ hwants (hnoFlip hflip))
      (hsmg hflip).symm hacq.symm (by simp) (by simp)
  · have hwants : u.wants = false := by simp [Station.wants, hstandby, hin]
    rw [Station.tryStart_idle u e.acceptedAt (hacq ▸ hstate) (hnoFlip hflip), hwants, if_neg Bool.false_ne_true, hacq]
  · rw [Station.tryStart_rse u e.acceptedAt (hnoFlip hflip), hgrid hout]
    exact Station.setRun_shows (s.station.pop rest) r hchanges hpanel hwf
  · obtain ⟨gpowered, gstraps, gstandby, gticks, gfree, gsst, -⟩ := u.tryStart_frame e.acceptedAt
    exact Station.ext_blocks (gpowered.trans hpowered) (gstraps.trans hstraps) (gstandby.trans hstandby)
      (gticks.trans hticks) (gfree.trans hfree) rfl rfl (gsst.trans hsst) rfl rfl rfl rfl

end Sys2Proof.Machine

namespace Sys2Proof.Machine

namespace Station

variable (t : Station) (x : Nat)

/-! Where READY can rise (R181). -/

/-- READY can rise where this station released it as the tick before ended, and no edge came in this tick or the one
before (R181). -/
theorem edgePossible_iff :
    t.edgePossible x = true ↔ t.lif.readyOwn = true ∧ ∀ y, t.lif.edgeAt = some y → y + 1 < x := by
  simp [Station.edgePossible, Option.all_eq_true]

/-- The station with a READY edge of the present tick noted (R181). -/
def edgeNoted (t : Station) : Station := { t with lif := { t.lif with edgeAt := some t.ticks } }

/-- Where READY can rise the edge is noted, and is an event of the present tick (R177, R181). -/
theorem readyRises_rises (henrolled : t.enrolled = true) (hown : t.lif.readyOwn = true)
    (hedge : ∀ y, t.lif.edgeAt = some y → y + 1 < t.ticks) :
    t.readyRises = t.edgeNoted.occur .readyEdge Station.readyEdge :=
  if_pos (by rw [henrolled, (edgePossible_iff t t.ticks).mpr ⟨hown, hedge⟩]; rfl)

/-- Where READY cannot rise nothing happens (R181). -/
theorem readyRises_cannot
    (h : ¬ (t.enrolled = true ∧ t.lif.readyOwn = true ∧ ∀ y, t.lif.edgeAt = some y → y + 1 < t.ticks)) :
    t.readyRises = t :=
  if_neg (by rwa [Bool.and_eq_true, edgePossible_iff])

/-! The arm (R31, R43, R44). -/

/-- The station with its acquisition number advanced (R43). -/
def numbered (t : Station) : Station := { t with acq := { t.acq with number := t.acq.number + 1 } }

/-- An enrolled station advances its acquisition number, and arms in PREPARED (R43). -/
theorem readyEdge_eq (henrolled : t.enrolled = true) :
    t.readyEdge x = if t.acq.state = .prepared then t.numbered.arm x else t.numbered :=
  if_pos henrolled

/-- Averaging restarts when the capture differs from the last armed one, or a restart is pending (R31). -/
theorem armAveraging_restarts (c : Capture) (h : t.acq.lastArmed ≠ some c.armed ∨ t.acq.restartPending = true) :
    (t.armAveraging c).acq.sumsA = [] ∧ (t.armAveraging c).acq.sumsB = [] ∧ (t.armAveraging c).acq.avgCount = 0 := by
  simp [Station.armAveraging, h]

/-- Else averaging goes on (R31). -/
theorem armAveraging_goesOn (c : Capture) (h : ¬ (t.acq.lastArmed ≠ some c.armed ∨ t.acq.restartPending = true)) :
    (t.armAveraging c).acq.sumsA = t.acq.sumsA ∧ (t.armAveraging c).acq.sumsB = t.acq.sumsB ∧
    (t.armAveraging c).acq.avgCount = t.acq.avgCount := by
  simp [Station.armAveraging, h]

/-- Entering ARMED, the source starts its auto timer when RUNMODE is AUTO (R43, R50). -/
theorem enterArmed_eq (c : Capture) (hc : t.acq.capture = some c) :
    t.enterArmed x =
      { t with
        acq := { t.acq with state := .armed }
        tgu :=
          { t.tgu with
            auto := if t.tgu.role = some .source ∧ c.runmode = 0 then some (x + c.autoTicks) else none } } := by
  simp [Station.enterArmed, hc, Station.isSource]

/-- The station once its record is FILLING, with P points to come before it is ARMED (R43, R44). -/
def inPretrig (x : Nat) (c : Capture) (i : Nat) (t : Station) : Station :=
  let u := t.armAveraging c
  { u with
    acq :=
      { u.acq with
        state := .pretrig, slots := t.acq.slots.set i .filling, reserved := none, armedNumber := t.acq.number
        fill := some ⟨i, t.acq.number, 25 * (x + 1), 0, [], [], [], none⟩ }
    tgu :=
      { t.tgu with
        role := some (roleOf c t.straps.station), crossing := Crossing.clear, align := none, heldFrame := none } }

/-- A station in PREPARED arms: its record is FILLING, and with P = 0 it is ARMED at once (R43). -/
theorem arm_eq (c : Capture) (i : Nat) (hc : t.acq.capture = some c) (hi : t.acq.reserved = some i) :
    t.arm x = if c.p = 0 then (t.inPretrig x c i).enterArmed x else t.inPretrig x c i := by
  simp only [Station.arm, hc, hi]
  rfl

/-- What the arm leaves of ACQ (R31, R43). -/
theorem arm_acq (c : Capture) (i : Nat) (hc : t.acq.capture = some c) (hi : t.acq.reserved = some i) :
    (t.arm x).acq =
      { t.acq with
        state := if c.p = 0 then .armed else .pretrig
        slots := t.acq.slots.set i .filling
        reserved := none
        armedNumber := t.acq.number
        fill := some ⟨i, t.acq.number, 25 * (x + 1), 0, [], [], [], none⟩
        lastArmed := some c.armed
        restartPending := false
        sumsA := (t.armAveraging c).acq.sumsA
        sumsB := (t.armAveraging c).acq.sumsB
        avgCount := (t.armAveraging c).acq.avgCount } := by
  rw [arm_eq t x c i hc hi]
  split
  · rw [enterArmed_eq (t.inPretrig x c i) x c hc]
    rfl
  · rfl

/-- What the arm leaves of TGU: the role by TRIGSRC, and with P = 0 the auto timer of a source in AUTO (R43, R44,
R50). -/
theorem arm_tgu (c : Capture) (i : Nat) (hc : t.acq.capture = some c) (hi : t.acq.reserved = some i) :
    (t.arm x).tgu =
      { t.tgu with
        role := some (roleOf c t.straps.station)
        crossing := Crossing.clear
        align := none
        heldFrame := none
        auto :=
          if c.p ≠ 0 then t.tgu.auto
          else if roleOf c t.straps.station = .source ∧ c.runmode = 0 then some (x + c.autoTicks) else none } := by
  rw [arm_eq t x c i hc hi]
  by_cases hp : c.p = 0
  · rw [if_pos hp, enterArmed_eq (t.inPretrig x c i) x c hc]
    simp [hp, inPretrig]
  · simp [hp, inPretrig]

/-- The arm leaves the acquisition number, which the edge has advanced (R43). -/
theorem arm_number : (t.arm x).acq.number = t.acq.number := by
  cases hc : t.acq.capture with
  | none => simp [Station.arm, hc]
  | some c =>
    cases hi : t.acq.reserved with
    | none => simp [Station.arm, hc, hi]
    | some i => rw [arm_acq t x c i hc hi]

/-- The arm changes ACQ and TGU alone. -/
@[simp] theorem arm_frame :
    (t.arm x).powered = t.powered ∧ (t.arm x).straps = t.straps ∧ (t.arm x).standby = t.standby ∧
    (t.arm x).ticks = t.ticks ∧ (t.arm x).free = t.free ∧ (t.arm x).lif = t.lif ∧ (t.arm x).smg = t.smg ∧
    (t.arm x).sst = t.sst ∧ (t.arm x).rse = t.rse ∧ (t.arm x).pns = t.pns := by
  simp only [Station.arm]
  repeat' split
  all_goals simp [Station.armAveraging]

end Station

/-- Settles O45: the edge waits or is acted on by the guards of a line event, and the arm leaves ACQ and TGU as
`arm_acq` and `arm_tgu` have them. -/
theorem readyEdgeArmsPreparedStations : Obligations.ReadyEdgeArmsPreparedStations := by
  unfold Obligations.ReadyEdgeArmsPreparedStations
  refine ⟨fun s h henrolled hown hedge => ?_, fun s h => ?_⟩
  · rw [show exec .readyRisingEdge s = _ from State.on_powered s _ h.1,
      Station.readyRises_rises _ henrolled hown hedge, Station.occur_awaits s.station.edgeNoted _ _ h.2]
    rfl
  · intro x acq rises
    obtain ⟨hpowered, horder, hwaiting⟩ := h
    have hedge : rises → s.station.readyRises =
        if acq.state = .prepared then s.station.edgeNoted.numbered.arm x else s.station.edgeNoted.numbered := by
      rintro ⟨henrolled, hown, hedge⟩
      rw [Station.readyRises_rises _ henrolled hown hedge,
        Station.occur_now s.station.edgeNoted _ _ horder hwaiting]
      exact Station.readyEdge_eq s.station.edgeNoted x henrolled
    refine ⟨_, State.on_powered s _ hpowered, Station.readyRises_cannot _, fun hrises => ?_,
      fun hrises hstate => ?_, fun c i hrises hstate hc hi => ?_⟩
    · rw [hedge hrises]
      split
      · exact Station.arm_number _ _
      · rfl
    · rw [hedge hrises, if_neg hstate]
      rfl
    · intro restart role
      have hacq := Station.arm_acq s.station.edgeNoted.numbered x c i hc hi
      obtain ⟨hpower, hstraps, hstandby, hticks, hfree, hlif, hsmg, hsst, hrse, hpns⟩ :=
        Station.arm_frame s.station.edgeNoted.numbered x
      rw [hedge hrises, if_pos hstate]
      refine ⟨fun h => ?_, fun h => ?_, ?_, ?_, ?_, hlif, ?_⟩
      · rw [hacq]
        exact Station.armAveraging_restarts _ c h
      · rw [hacq]
        exact Station.armAveraging_goesOn _ c h
      · rw [hacq]
        rfl
      · exact Station.arm_tgu s.station.edgeNoted.numbered x c i hc hi
      · simp only [Station.readyReleased, hacq]
        by_cases hp : c.p = 0 <;> simp [hp]
      · exact Station.ext_blocks hpower hstraps hstandby hticks hfree rfl hsmg hsst rfl rfl hrse hpns

end Sys2Proof.Machine

namespace Sys2Proof.Machine

/-! Crossings and pulses (R45, R46). -/

section

variable (k : Crossing) (level v : Int) (index : Nat)

theorem Crossing.rises_iff : k.rises level v = true ↔ k.riseMark = true ∧ level ≤ v := by simp [Crossing.rises]

theorem Crossing.falls_iff : k.falls level v = true ↔ k.fallMark = true ∧ v ≤ level := by simp [Crossing.falls]

/-- How a sample moves the priming marks: two below the level, or two above, sets one, and its crossing clears it
(R45). -/
theorem Crossing.next_marks :
    ((k.next level v index).riseMark = true ↔ v ≤ level - 2 ∨ (k.riseMark = true ∧ ¬ k.rises level v = true)) ∧
    ((k.next level v index).fallMark = true ↔ level + 2 ≤ v ∨ (k.fallMark = true ∧ ¬ k.falls level v = true)) := by
  simp [Crossing.next]

/-- How a sample moves the last crossings: a crossing is the latest of its polarity, and ends the pulse that one of the
other polarity began (R46, log 44). -/
theorem Crossing.next_lasts :
    (k.rises level v = true → (k.next level v index).lastRise = some index) ∧
    (k.falls level v = true → (k.next level v index).lastFall = some index) ∧
    (¬ k.rises level v = true →
      (k.next level v index).lastRise = if k.falls level v = true then none else k.lastRise) ∧
    (¬ k.falls level v = true →
      (k.next level v index).lastFall = if k.rises level v = true then none else k.lastFall) := by
  refine ⟨fun h => ?_, fun h => ?_, fun h => ?_, fun h => ?_⟩ <;> simp [Crossing.next, h]

/-- A pulse from a start to an end sample meets PULSECOND and PULSEW when it has a start and its length is on the side
asked for (R46). -/
theorem pulseMeets_iff (pulsecond pulsew : Nat) (start : Option Nat) :
    pulseMeets pulsecond pulsew start index = true ↔
      ∃ i0, start = some i0 ∧
        (if pulsecond = 0 then 2 * (index - i0) < 5 * seq125 1 pulsew
          else 5 * seq125 1 pulsew < 2 * (index - i0)) := by
  cases start with
  | none => simp [pulseMeets]
  | some i0 =>
    simp only [pulseMeets, Option.some.injEq, exists_eq_left']
    split <;> exact decide_eq_true_iff

/-- Which samples are candidates: crossings by SLOPE, or the ends of pulses that meet the condition (R45, R46). -/
theorem candidate_iff (c : Capture) :
    candidate c k level v index = true ↔
      (c.trigtype = 0 ∧
        ((c.slope ≠ 1 ∧ k.rises level v = true) ∨ (c.slope ≠ 0 ∧ k.falls level v = true))) ∨
      (c.trigtype ≠ 0 ∧
        ((c.slope ≠ 1 ∧ k.falls level v = true ∧ pulseMeets c.pulsecond c.pulsew k.lastRise index = true) ∨
          (c.slope ≠ 0 ∧ k.rises level v = true ∧ pulseMeets c.pulsecond c.pulsew k.lastFall index = true))) := by
  by_cases hedge : c.trigtype = 0
  · simp [candidate, hedge]
  · simp [candidate, hedge, and_assoc]

end

/-! Holdoff (R48). -/

/-- The longest holdoff is far below half the period of sample indices. -/
theorem holdoffSamples_le (h : Nat) (hh : h ≤ 25) : holdoffSamples h ≤ 25000000000 := by
  interval_cases h <;> decide

/-- Two indices a short distance apart compare modulo their period as they are (R180). -/
theorem index_compare (a b p : Nat) (ha : a < p / 2) (hb : b < p / 2) :
    (a + 2 * p - b) % p < p / 2 ↔ b ≤ a := by
  rcases Nat.lt_or_ge a b with h | h
  · rw [show a + 2 * p - b = a + p - b + p by omega, Nat.add_mod_right, Nat.mod_eq_of_lt (by omega)]
    omega
  · rw [show a + 2 * p - b = a - b + p * 2 by omega, Nat.add_mul_mod_self_left, Nat.mod_eq_of_lt (by omega)]
    omega

/-- Until lane time wraps, a candidate is eligible when the holdoff has passed since the last trigger stamp (R48). -/
theorem eligible_iff (h : Nat) (tick last : LaneTick) (offset lastOffset : Nat) (hh : h ≤ 25) (hoffset : offset < 25)
    (hlast : lastOffset < 25) (htick : tick.toNat < 2 ^ 46) (hlastTick : last.toNat < 2 ^ 46) :
    eligible h (some (last, lastOffset)) tick offset = true ↔
      h = 0 ∨ stampIndex last lastOffset + holdoffSamples h ≤ stampIndex tick offset := by
  have hhold := holdoffSamples_le h hh
  simp only [eligible, Bool.or_eq_true, decide_eq_true_eq]
  rw [index_compare]
  · simp only [stampIndex, indexPeriod]
    omega
  · simp only [stampIndex, indexPeriod]
    omega

/-! QUAL (R47). -/

/-- A channel meets its QUALSTATE when it is disabled or asks for nothing, or by the side of the level its sample is on
(R47). -/
theorem qualMet_iff (c : ChannelCapture) (sample : Sample) :
    qualMet c sample = true ↔
      c.enable = 0 ∨ c.qualstate = 0 ∨ (c.qualstate = 1 ∧ c.triglevel ≤ workingValue c.invert sample) ∨
        (2 ≤ c.qualstate ∧ workingValue c.invert sample < c.triglevel) := by
  simp only [qualMet, Bool.or_eq_true, decide_eq_true_eq]
  by_cases hone : c.qualstate = 1
  · simp [hone]
  · rw [if_neg hone, decide_eq_true_eq]
    omega

namespace Station

variable (t : Station)

/-- The station with its crossing state moved by a sample. -/
def crossed (c : Capture) (v : Int) (index : Nat) (t : Station) : Station :=
  { t with tgu := { t.tgu with crossing := t.tgu.crossing.next (sourceChannel c).triglevel v index } }

/-- The source takes a sample in ARMED that is a candidate, with QUAL where it asks for it, and eligible under holdoff
(R45 to R49). -/
theorem takesCandidate_iff (c : Capture) (v : Int) (tick offset : Nat) :
    t.takesCandidate c v tick offset = true ↔
      t.acq.state = .armed ∧
      candidate c t.tgu.crossing (sourceChannel c).triglevel v (25 * tick + offset) = true ∧
      (c.qualmode = 0 ∨ t.tgu.qualHigh = true) ∧
      eligible c.holdoff t.tgu.lastStamp (t.laneTimeAt tick) offset = true := by
  simp [Station.takesCandidate, and_assoc]

section

variable (sample : Sample) (offset tick : Nat) (f : Fill) (c : Capture)

/-- A sample of the source in ARMED that it takes triggers, and moves the crossings (R49). -/
theorem sourceSample_triggers (hf : t.acq.fill = some f) (hc : t.acq.capture = some c)
    (hsource : t.tgu.role = some .source) (hoffset : offset < 25) (horigin : f.origin ≤ 25 * tick + offset)
    (htakes : t.takesCandidate c (workingValue (sourceChannel c).invert sample) tick offset = true)
    (hgroup : f.completed = groupOf c f (25 * tick + offset)) :
    t.sourceSample (some true) sample offset tick =
      (t.crossed c (workingValue (sourceChannel c).invert sample) (25 * tick + offset)).takeTrigger tick tick offset
        (if c.trigtype = 0 then .edge else .pulse) := by
  have harmed := ((takesCandidate_iff _ _ _ _ _).mp htakes).1
  simp [Station.sourceSample, hf, hc, Station.isSource, hsource, harmed, hoffset, horigin, htakes, ← hgroup, crossed]

/-- Every other sample of the source in PRETRIG and ARMED moves the crossings alone (R45). -/
theorem sourceSample_crosses (hf : t.acq.fill = some f) (hc : t.acq.capture = some c)
    (hsource : t.tgu.role = some .source) (hoffset : offset < 25) (horigin : f.origin ≤ 25 * tick + offset)
    (hstate : t.acq.state = .pretrig ∨ t.acq.state = .armed)
    (hpasses : ¬ t.takesCandidate c (workingValue (sourceChannel c).invert sample) tick offset = true) :
    t.sourceSample (some false) sample offset tick =
      t.crossed c (workingValue (sourceChannel c).invert sample) (25 * tick + offset) := by
  simp [Station.sourceSample, hf, hc, Station.isSource, hsource, hstate, hoffset, horigin, hpasses, crossed]

end

end Station

/-- A command whose line event is out of order lets it wait (R177, log 68). -/
theorem exec_mustWait (s : State) (c : Instr) (ev : LineEvent) (h : s.mustWait) (hraises : c.raises ev)
    (hedge : ev ≠ .readyEdge) : exec c s = .next (s.put (s.station.await ev)) := by
  cases ev with
  | readyEdge => exact absurd rfl hedge
  | trig =>
    obtain rfl : c = .trig := hraises
    exact State.on_mustWait s _ _ h
  | sample sample offset =>
    obtain rfl | rfl : c = .trigger sample offset ∨ c = .triggerCrossing sample offset := hraises
    · exact State.on_mustWait s _ _ h
    · exact State.on_mustWait s _ _ h
  | qual sampleA sampleB others =>
    obtain rfl : c = .qualDrive sampleA sampleB others := hraises
    exact State.on_mustWait s _ _ h

/-- Settles O47: a sample triggers or moves the crossings as the `sourceSample` lemmas have it, which of the two by
`takesCandidate_iff` and `candidate_iff`; holdoff is `eligible_iff`, QUAL `qualMet_iff`. -/
theorem sourceTakesTheFirstCandidate : Obligations.SourceTakesTheFirstCandidate := by
  unfold Obligations.SourceTakesTheFirstCandidate
  refine ⟨fun s c ev h hraises hedge => exec_mustWait s c ev h hraises hedge,
    fun s sample offset f c h hoffset hf hc hsource horigin => ?_,
    fun h tick last offset lastOffset hh hoffset hlast htick hlastTick => ⟨rfl, ?_⟩,
    fun s sampleA sampleB othersRelease h => ?_⟩
  · intro ch x index k rises falls pulse candidate taken moved
    have htaken : taken ↔ s.station.takesCandidate c x s.station.ticks offset = true := by
      rw [Station.takesCandidate_iff, candidate_iff]
      simp only [Crossing.rises_iff, Crossing.falls_iff, pulseMeets_iff]
      rfl
    have hmoved : ∀ t : Station, t.tgu.crossing = k.next ch.triglevel x index → moved t := fun t ht => by
      obtain ⟨hrise, hfall⟩ := Crossing.next_marks k ch.triglevel x index
      obtain ⟨hrises, hfalls, hnotRises, hnotFalls⟩ := Crossing.next_lasts k ch.triglevel x index
      simp only [Crossing.rises_iff, Crossing.falls_iff] at hrise hfall hrises hfalls hnotRises hnotFalls
      simp only [moved, ht]
      exact ⟨hrise, hfall, hrises, hfalls, hnotRises, hnotFalls⟩
    refine ⟨fun htakes hgroup => ?_, fun hpasses hstate => ?_⟩
    · refine ⟨_, State.on_occurs s (.sample sample offset) _ h, ?_⟩
      rw [Station.sourceSample_triggers s.station sample offset _ f c hf hc hsource hoffset horigin
        (htaken.mp htakes) hgroup, Station.takeTrigger_eq (s.station.crossed c _ _) _ _ _ _ f c hf hc]
      exact ⟨hmoved _ rfl, rfl⟩
    · refine ⟨_, State.on_occurs s (.sample sample offset) _ h, ?_⟩
      rw [Station.sourceSample_crosses s.station sample offset _ f c hf hc hsource hoffset horigin hstate
        (fun ht => hpasses (htaken.mpr ht))]
      exact ⟨hmoved _ rfl, rfl⟩
  · rw [eligible_iff h tick last offset lastOffset hh hoffset hlast htick hlastTick]
    by_cases hzero : h = 0 <;> simp [stampIndex, holdoffSamples, hzero]
  · refine ⟨_, State.on_occurs s (.qual sampleA sampleB othersRelease) _ h, ?_, ?_, rfl⟩
    · simp only [Station.qualDrive, Bool.and_eq_true, Bool.or_eq_true, decide_eq_true_eq, qualMet_iff]
      rfl
    · simp [Station.qualDrive]

end Sys2Proof.Machine

namespace Sys2Proof.Machine

namespace Station

variable (t : Station) (x : Nat)

/-! What a TRIG pulse does at a follower (R52). -/

/-- A TRIG pulse takes a follower in PRETRIG or ARMED to POSTTRIG, with the group in progress as tentative trigger point
(R52). -/
theorem trigPulse_takes (f : Fill) (c : Capture) (hf : t.acq.fill = some f) (hc : t.acq.capture = some c)
    (hfollows : t.tgu.role ≠ some .source) (hstate : t.acq.state = .pretrig ∨ t.acq.state = .armed)
    (horigin : f.origin ≤ 25 * x) (hgroup : f.completed = (25 * x - f.origin) / c.d) :
    t.trigPulse x =
      { t with
        acq :=
          { t.acq with
            state := .posttrig
            fill :=
              some
                { f with
                  trigger :=
                    some ⟨f.completed, t.laneTimeAt x, 0, if c.trigtype = 0 then .edge else .pulse, x⟩ } } } := by
  have hacts : (!t.isSource && (decide (t.acq.state = .pretrig) || decide (t.acq.state = .armed)) &&
      decide (f.origin ≤ 25 * x) && decide (f.completed = groupOf c f (25 * x))) = true := by
    simp [Station.isSource, hfollows, hstate, horigin, groupOf, hgroup.symm]
  simp only [Station.trigPulse, hf, hc, hacts, if_true]
  rw [show groupOf c f (25 * x) = f.completed from hgroup.symm]

/-- The source, and every state but PRETRIG and ARMED, ignore a TRIG pulse (R52). -/
theorem trigPulse_ignored
    (h : t.tgu.role = some .source ∨ (t.acq.state ≠ .pretrig ∧ t.acq.state ≠ .armed)) : t.trigPulse x = t := by
  have hignored : (!t.isSource && (decide (t.acq.state = .pretrig) || decide (t.acq.state = .armed))) = false := by
    rcases h with hsource | ⟨hpretrig, harmed⟩
    · simp [Station.isSource, hsource]
    · simp [hpretrig, harmed]
  simp only [Station.trigPulse, hignored, Bool.false_and, Bool.false_eq_true, if_false]
  split <;> rfl

/-- With no record FILLING a TRIG pulse is ignored (R52). -/
theorem trigPulse_noRecord (h : t.acq.fill = none) : t.trigPulse x = t := by simp only [Station.trigPulse, h]

/-! The receive list behind a completed record. -/

/-- A completion does not look at the receive list before it. -/
theorem completed_of_pop {u : Station} {f : Fill} {fin : Finished} (rest : List RxEntry)
    (h : (t.pop rest).completed u f fin x) : t.completed u f fin x := h

/-- On from a completed record the receive list stays. -/
theorem afterRecord_rx : (t.afterRecord x).lif.rx = t.lif.rx := by
  have hmoved : ∀ u : Station, (u.movedOn x).lif.rx = u.lif.rx := fun u => by
    simp only [movedOn]
    split
    · exact (startKeeps_flipNow u x).rx
    · exact (startKeeps_tryStart u x).rx
  simp [afterRecord_eq, hmoved]

/-- The completion of a record leaves the receive list. -/
theorem completeRecord_rx (coarse : Bool) : (t.completeRecord x coarse).lif.rx = t.lif.rx := by
  have hoffer : ∀ (u : Station) (m : Msg), (u.offerTriggered m).lif.rx = u.lif.rx := fun u m => by
    simp only [Station.offerTriggered]
    split <;> rfl
  simp only [Station.completeRecord]
  split
  · split
    · rfl
    · split <;> simp [hoffer, afterRecord_rx]
  · rfl

/-- Fine alignment leaves the receive list. -/
theorem alignFine_rx (h : HeldFrame) : (t.alignFine x h).lif.rx = t.lif.rx := by
  simp only [Station.alignFine, Station.alignRecord]
  repeat' split
  all_goals simp [completeRecord_rx]

/-! What a follower does with a TRIGGERED frame (R54, R55). -/

theorem ofCode_isSome (kind : Nat) : (TriggerKind.ofCode kind).isSome = true ↔ kind ≤ 3 := by
  match kind with
  | 0 | 1 | 2 | 3 => simp [TriggerKind.ofCode]
  | _ + 4 => simp [TriggerKind.ofCode]

/-- The stamp and kind of a TRIGGERED frame can be those of the record with this tentative trigger point (R54). -/
theorem usableFrame_some (tr : FillTrigger) (offset kind : Nat) (k : TriggerKind) (hoffset : offset < 25)
    (hkind : TriggerKind.ofCode kind = some k) :
    t.usableFrame tr (t.laneTimeAt (tr.trigTick - 1)) offset kind =
      some ⟨t.laneTimeAt (tr.trigTick - 1), offset, k⟩ := by
  simp [Station.usableFrame, hkind, hoffset]

/-- A frame with another stamp or kind cannot be used (R54). -/
theorem usableFrame_none (tr : FillTrigger) (tick : LaneTick) (offset kind : Nat)
    (h : ¬ (tick = t.laneTimeAt (tr.trigTick - 1) ∧ offset < 25 ∧ kind ≤ 3)) :
    t.usableFrame tr tick offset kind = none := by
  simp only [Station.usableFrame]
  split
  · next k hk =>
    have hkind : kind ≤ 3 := (ofCode_isSome kind).mp (by simp [hk])
    exact if_neg fun ⟨htick, hoffset⟩ => h ⟨htick, hoffset, hkind⟩
  · rfl

/-- A TRIGGERED frame does nothing where no record is FILLING, or it has no tentative trigger point (R54). -/
theorem triggeredEffect_noPoint (m : AcqNumber × LaneTick × Nat × Nat) (e : RxEntry)
    (h : ∀ f, t.acq.fill = some f → f.trigger = none) : t.triggeredEffect m e = t := by
  simp only [Station.triggeredEffect]
  split
  · rfl
  · next f hf => simp only [h f hf]

/-- A TRIGGERED frame that has been taken leaves the rest of the receive list. -/
theorem triggeredEffect_rx (m : AcqNumber × LaneTick × Nat × Nat) (e : RxEntry) :
    (t.triggeredEffect m e).lif.rx = t.lif.rx := by
  simp only [Station.triggeredEffect]
  repeat' split
  all_goals simp [alignFine_rx]

section

variable (e : RxEntry) (number : AcqNumber) (tick : LaneTick) (offset kind : Nat) (f : Fill) (tr : FillTrigger)

/-- The first usable TRIGGERED frame of the record is held in POSTTRIG and acted on in ALIGNING (R54). -/
theorem triggeredEffect_usable (k : TriggerKind) (hf : t.acq.fill = some f) (htr : f.trigger = some tr)
    (hfollows : t.tgu.role = some .follower) (hfirst : t.tgu.heldFrame = none) (hnumber : number = f.number)
    (htick : tick = t.laneTimeAt (tr.trigTick - 1)) (hoffset : offset < 25)
    (hkind : TriggerKind.ofCode kind = some k) :
    (t.acq.state = .posttrig →
      t.triggeredEffect (number, tick, offset, kind) e =
        { t with tgu := { t.tgu with heldFrame := some ⟨tick, offset, k⟩ } }) ∧
    (t.acq.state = .aligning →
      t.triggeredEffect (number, tick, offset, kind) e =
        (t.alignFine e.acceptedAt ⟨tick, offset, k⟩).refreshLeds e.acceptedAt) := by
  subst htick
  constructor <;> intro hstate <;>
    simp [Station.triggeredEffect, hf, htr, hfollows, hfirst, hnumber, hstate, usableFrame_some, hoffset, hkind]

/-- Every other TRIGGERED frame is ignored (R54). -/
theorem triggeredEffect_ignored (hf : t.acq.fill = some f) (htr : f.trigger = some tr)
    (h : ¬ (t.tgu.role = some .follower ∧ t.tgu.heldFrame = none ∧ number = f.number ∧
        tick = t.laneTimeAt (tr.trigTick - 1) ∧ offset < 25 ∧ kind ≤ 3) ∨
      (t.acq.state ≠ .posttrig ∧ t.acq.state ≠ .aligning)) :
    t.triggeredEffect (number, tick, offset, kind) e = t := by
  simp only [Station.triggeredEffect, hf, htr]
  split
  · next hacts =>
    simp only [Bool.and_eq_true, Bool.or_eq_true, decide_eq_true_eq, Option.isNone_iff_eq_none] at hacts
    obtain ⟨⟨⟨hfollows, hfirst⟩, hnumber⟩, hstate⟩ := hacts
    rw [usableFrame_none]
    rintro hstamp
    rcases h with h | ⟨hposttrig, haligning⟩
    · exact h ⟨hfollows, hfirst, hnumber, hstamp⟩
    · exact hstate.elim hposttrig haligning
  · rfl

end

/-! COARSE alignment (R55). -/

/-- With its final trigger point the record completes, at the source too, and the stamp is the last one (R55). -/
theorem completeRecord_alignedTo_eitherRole (f : Fill) (c : Capture) (tr : FillTrigger) (coarse : Bool)
    (hc : t.acq.capture = some c) (hslot : f.slot < 4) :
    let u := (t.alignedTo f tr).completeRecord x coarse
    t.completed u f (finishRecord c f tr coarse t.acq.sumsA t.acq.sumsB t.acq.avgCount) x ∧
    u.tgu.lastStamp = some (tr.tick, tr.offset) := by
  intro u
  cases hsource : t.isSource with
  | false => exact completeRecord_alignedTo t x f c tr coarse hc hslot hsource
  | true =>
    have hu : u = ((t.alignedTo f tr).storedAndMovedOn x { f with trigger := some tr }
        (finishRecord c f tr coarse t.acq.sumsA t.acq.sumsB t.acq.avgCount)).offerTriggered
          (.triggered f.number tr.tick tr.offset tr.kind.code) := by
      rw [show u = _ from completeRecord_eq (t.alignedTo f tr) x coarse { f with trigger := some tr } c tr rfl hc rfl]
      exact if_pos hsource
    have hstamp : ∀ (v : Station) (m : Msg), (v.offerTriggered m).tgu.lastStamp = v.tgu.lastStamp := fun v m => by
      simp only [Station.offerTriggered]
      split <;> simp
    rw [hu, hstamp]
    exact ⟨completed_offerTriggered _ _ _
      (completed_seenFrom _ _ (storedAndMovedOn_completed _ _ _ _ hslot) rfl rfl rfl rfl rfl),
      storedAndMovedOn_lastStamp _ _ _ _⟩

/-- The alignment timer's expiry completes the record at the tentative trigger point (R55). -/
theorem alignCoarse_eq (f : Fill) (tr : FillTrigger) (hf : t.acq.fill = some f) (htr : f.trigger = some tr) :
    t.alignCoarse x = (t.alignedTo f tr).completeRecord x true := by
  simp only [Station.alignCoarse, Station.alignRecord, alignedTo, hf, htr]

end Station

/-- A TRIGGERED frame at the head of the receive list of an enrolled station takes effect (R54, R175). -/
theorem execTriggered_takes (s : State) (e : RxEntry) (rest : List RxEntry) (number : AcqNumber) (tick : LaneTick)
    (offset kind : Nat) (h : s.takes (.triggered number tick offset kind) e rest) :
    execTriggered s = .next (s.put ((s.station.pop rest).triggeredEffect (number, tick, offset, kind) e)) := by
  obtain ⟨⟨hpowered, hrx, hmsg, horder, hedge⟩, henrolled⟩ := h
  rw [execTriggered, State.on_powered _ _ hpowered,
    Station.takeFrame_takes _ _ _ e rest (number, tick, offset, kind) hrx (by rw [hmsg]; rfl) horder hedge henrolled]

/-- Settles O48: by the `trigPulse` and `triggeredEffect` lemmas, and both alignments by what a completion with its
final trigger point leaves. -/
theorem followerAlignsItsRecord : Obligations.FollowerAlignsItsRecord := by
  unfold Obligations.FollowerAlignsItsRecord
  refine ⟨fun s h => State.on_mustWait s .trig Station.trigPulse h, fun s f c h hf hc => ?_, fun s h hf => ?_,
    fun s e rest number tick offset kind h hpoint => ?_,
    fun s e rest number tick offset kind f c tr h hf hc htr hslot => ?_,
    fun s d f c tr h hf hc htr hslot hstate => ?_⟩
  · exact ⟨_, State.on_occurs s .trig Station.trigPulse h, Station.trigPulse_takes _ _ f c hf hc,
      Station.trigPulse_ignored _ _⟩
  · rw [show exec .trig s = _ from State.on_occurs s .trig Station.trigPulse h, Station.trigPulse_noRecord _ _ hf,
      State.put_self]
  · rw [show exec .triggered s = _ from execTriggered_takes s e rest number tick offset kind h,
      Station.triggeredEffect_noPoint (s.station.pop rest) _ e hpoint]
  · refine ⟨_, execTriggered_takes s e rest number tick offset kind h, Station.triggeredEffect_rx _ _ _, ?_,
      Station.triggeredEffect_ignored (s.station.pop rest) e number tick offset kind f tr hf htr⟩
    rintro k ⟨hfollows, hfirst, hnumber, htick, hoffset, -⟩ hkind
    obtain ⟨hheld, haligns⟩ := Station.triggeredEffect_usable (s.station.pop rest) e number tick offset kind f tr k hf
      htr hfollows hfirst hnumber htick hoffset hkind
    refine ⟨hheld, fun hstate => ?_⟩
    obtain ⟨hdone, hstamp⟩ := Station.completeRecord_alignedTo (s.station.pop rest) e.acceptedAt f c
      { tr with
        group := (25 * (tr.trigTick - 1) + offset - f.origin) / c.d, tick := tick, offset := offset, kind := k }
      false hc hslot (by simp [Station.isSource, hfollows])
    rw [haligns hstate, Station.alignFine_eq (s.station.pop rest) _ f c tr _ hf hc htr]
    exact ⟨Station.completed_of_pop _ _ rest (Station.completed_refreshLeds _ _ hdone), by simpa using hstamp⟩
  · refine ⟨_, State.on_expires s (·.tgu.align) Station.alignExpiry d h, ?_⟩
    rw [Station.alignExpiry, if_pos hstate, Station.alignCoarse_eq _ _ f tr hf htr]
    obtain ⟨hdone, hstamp⟩ := Station.completeRecord_alignedTo_eitherRole s.station d f c tr true hc hslot
    exact ⟨Station.completed_refreshLeds _ _ hdone, by simpa using hstamp⟩

end Sys2Proof.Machine

namespace Sys2Proof.Machine

/-! The cells of a layer under increments, decay and clears (R65, R71, R76). -/

theorem toNat_decay (v : BitVec 8) : (decay v).toNat = 3 * v.toNat / 4 := by
  have := v.isLt
  simp only [decay, BitVec.toNat_ofNat]
  omega

theorem toNat_increment (amount : Nat) (v : BitVec 8) :
    (increment amount v).toNat = min 255 (v.toNat + amount) := by
  simp only [increment, BitVec.toNat_ofNat]
  omega

theorem Sparse.rising_of_wf {β : Type} [DecidableEq β] {d : β} {m : List (Nat × β)} (h : Sparse.wf d m = true) :
    Sparse.rising 0 m = true := by
  simp only [Sparse.wf, Bool.and_eq_true] at h
  exact h.1

/-- A function that keeps the default is applied to what every address reads as. -/
theorem Sparse.read_mapValues {β : Type} [DecidableEq β] (d : β) (f : Nat → β → β) (hf : ∀ a, f a d = d)
    (a : Nat) : ∀ {m : List (Nat × β)} {lo : Nat}, Sparse.rising lo m = true →
      Sparse.read d (Sparse.mapValues d f m) a = f a (Sparse.read d m a)
  | [], _, _ => (hf a).symm
  | e :: m, lo, hm => by
    simp only [Sparse.rising, Bool.and_eq_true] at hm
    have ih := Sparse.read_mapValues d f hf a hm.2
    by_cases hkept : f e.1 e.2 = d
    · have hmap : Sparse.mapValues d f (e :: m) = Sparse.mapValues d f m := by simp [Sparse.mapValues, hkept]
      rw [hmap, ih, Sparse.read]
      split
      · next ha => rw [ha, hkept, Sparse.read_below d hm.2 (by omega), hf]
      · rfl
    · have hmap : Sparse.mapValues d f (e :: m) = (e.1, f e.1 e.2) :: Sparse.mapValues d f m := by
        simp [Sparse.mapValues, hkept]
      rw [hmap, Sparse.read, Sparse.read, ih]
      split
      · next ha => rw [ha]
      · rfl

/-- A change written at each address of a list without repetition is made once at each of them. -/
theorem Sparse.read_foldl_write {β : Type} [DecidableEq β] (d : β) (g : Nat → β → β) (b : Nat) (xs : List Nat) :
    ∀ {m : List (Nat × β)}, Sparse.wf d m = true → xs.Nodup →
      Sparse.read d (xs.foldl (fun m a => Sparse.write d m a (g a (Sparse.read d m a))) m) b =
        if b ∈ xs then g b (Sparse.read d m b) else Sparse.read d m b := by
  induction xs with
  | nil => intro m _ _; rfl
  | cons x xs ih =>
    intro m hwf hnodup
    obtain ⟨hx, hxs⟩ := List.nodup_cons.mp hnodup
    rw [List.foldl_cons, ih (Sparse.wf_write d _ _ hwf) hxs, Sparse.read_write d (Sparse.rising_of_wf hwf)]
    by_cases hb : b = x
    · subst hb
      simp [hx]
    · simp [hb]

section

variable (amount : Nat) (pass : Bool) (drawn decays first : Nat → Bool) (L : Layer)

/-- What each cell holds once the draw has reached the cells picked of those still to do, and the pass the cells picked
of those it had not reached: one that both reach takes the two in the order given (R71, R76). -/
theorem advance_cell (hwf : Sparse.wf 0 L.cells = true) (hnodup : L.todo.Nodup) (a : Nat) :
    let v := L.cell a
    let decayed := pass = true ∧ a ∉ L.decayed ∧ decays a = true
    (L.advance amount pass drawn decays first).cell a =
      if a ∈ L.todo ∧ drawn a = true then
        if decayed then if first a = true then decay (increment amount v) else increment amount (decay v)
        else increment amount v
      else if decayed then decay v else v := by
  intro v decayed
  simp only [Layer.cell, Layer.advance]
  rw [Sparse.read_mapValues (lo := 0) _ _ (fun b => by split <;> rfl) _
      (Sparse.rising_of_wf (Sparse.wf_foldl (0 : BitVec 8) (fun b => b) _ _ hwf)),
    Sparse.read_foldl_write 0
      (fun b w =>
        if (pass && !L.decayed.contains b && decays b) = true then
          if first b = true then decay (increment amount w) else increment amount (decay w)
        else increment amount w) a _ hwf (hnodup.filter _)]
  have hdecayed : (pass && !L.decayed.contains a && decays a) = decide decayed := by
    simp [decayed, Bool.and_assoc]
  have hnow : (L.todo.filter drawn).contains a = decide (a ∈ L.todo ∧ drawn a = true) := by simp
  simp only [hdecayed, hnow, List.mem_filter, Bool.and_eq_true, Bool.not_eq_true', decide_eq_true_eq,
    decide_eq_false_iff_not]
  by_cases hn : a ∈ L.todo ∧ drawn a = true
  · simp only [hn, and_self, not_true_eq_false, and_false, if_true, if_false]
    rfl
  · simp only [hn, not_false_eq_true, and_true, if_false]
    rfl

end

/-! CLEARDISPLAY (R67). -/

namespace Station

variable (t : Station)

/-- A layer cleared at once: every cell 0, no snapshot, no clear pending (R65). -/
theorem clear_blank (L : Layer) : (∀ a, L.clear.cell a = 0) ∧ L.clear.snapshot = none ∧ L.clear.clearPending = false :=
  ⟨fun _ => rfl, rfl, rfl⟩

/-- A clear of both layers is performed at once at a station that is not drawing (R67). -/
theorem requestClear_idle (h : t.rse.draw = none) :
    t.requestClear true true =
      { t with rse := { t.rse with layerA := t.rse.layerA.clear, layerB := t.rse.layerB.clear } } := by
  simp [Station.requestClear, Station.performClears, Layer.clear, h]

/-- While a draw is in progress both clears stay pending (R67). -/
theorem requestClear_drawing (h : t.rse.draw ≠ none) :
    t.requestClear true true =
      { t with
        rse :=
          { t.rse with
            layerA := { t.rse.layerA with clearPending := true }
            layerB := { t.rse.layerB with clearPending := true } } } := by
  simp [Station.requestClear, h]

end Station

/-- Settles O22: the clear is performed at once, or stays pending, by the two `requestClear` lemmas. -/
theorem clearDisplayClearsBothLayers : Obligations.ClearDisplayClearsBothLayers := by
  unfold Obligations.ClearDisplayClearsBothLayers
  intro s e rest h
  refine ⟨_, State.on_runctl s e rest 4 (fun _ t => t.requestClear true true) h, ?_⟩
  by_cases hdraw : s.station.rse.draw = none
  · rw [Station.requestClear_idle (s.station.pop rest) hdraw]
    obtain ⟨hA, hsnapA, hpendA⟩ := Station.clear_blank s.station.rse.layerA
    obtain ⟨hB, hsnapB, hpendB⟩ := Station.clear_blank s.station.rse.layerB
    exact ⟨fun _ => ⟨fun a => ⟨hA a, hB a⟩, hsnapA, hsnapB, hpendA, hpendB⟩, fun hne => absurd hdraw hne, rfl, rfl⟩
  · rw [Station.requestClear_drawing (s.station.pop rest) hdraw]
    exact ⟨fun hnone => absurd hnone hdraw, fun _ => ⟨rfl, rfl⟩, rfl, rfl⟩

/-! The decay timer and the decay pass (R75, R76). -/

/-- The decay count and whether a pass starts, by PERSIST (R75). -/
theorem decayStep_cases (p count : Nat) :
    (p = 0 ∨ p = 8 → Station.decayStep p count = (0, false)) ∧
    (1 ≤ p → p ≤ 7 → count + 1 < 2 ^ (p - 1) → Station.decayStep p count = (count + 1, false)) ∧
    (1 ≤ p → p ≤ 7 → 2 ^ (p - 1) ≤ count + 1 → Station.decayStep p count = (0, true)) := by
  unfold Station.decayStep
  refine ⟨fun h => if_pos (by omega), fun hlo hhi hfew => ?_, fun hlo hhi hmany => ?_⟩
  · rw [if_neg (by omega), if_neg (by omega)]
  · rw [if_neg (by omega), if_pos hmany]

/-- What a pass leaves of a layer: every cell it had not reached is decayed, one that the draw reaches in the same time
with its increment before or behind (R76, log 9). -/
theorem decayLayer_cell (free layer amount : Nat) (reach : DrawReach) (L : Layer) (hwf : Sparse.wf 0 L.cells = true)
    (hnodup : L.todo.Nodup) (a : Nat) (ha : a ∉ L.decayed) :
    let L' := Station.decayLayer free layer amount reach L
    let v := (L.cell a).toNat
    (a ∉ L.todo → (L'.cell a).toNat = 3 * v / 4 ∧ a ∉ L'.todo) ∧
    (a ∈ L.todo →
      ((L'.cell a).toNat = 3 * v / 4 ∧ a ∈ L'.todo) ∨
      ((L'.cell a).toNat = 3 * min 255 (v + amount) / 4 ∧ a ∉ L'.todo) ∨
      ((L'.cell a).toNat = min 255 (3 * v / 4 + amount) ∧ a ∉ L'.todo)) := by
  intro L' v
  have hcell : L'.cell a = _ := advance_cell amount true _ (fun _ => true) _ L hwf hnodup a
  have htodo : a ∈ L'.todo ↔ a ∈ L.todo ∧ ¬ reach.draws (Config.drawFirst free layer a) = true := by
    simp [L', Station.decayLayer, Layer.advance]
  have hreached : true = true ∧ a ∉ L.decayed ∧ true = true := ⟨rfl, ha, rfl⟩
  refine ⟨fun hout => ?_, fun hin => ?_⟩
  · rw [htodo, hcell, if_neg (fun h => hout h.1), if_pos hreached]
    exact ⟨toNat_decay _, fun h => hout h.1⟩
  · by_cases hdrawn : reach.draws (Config.drawFirst free layer a) = true
    · rw [htodo, hcell, if_pos ⟨hin, hdrawn⟩, if_pos hreached]
      by_cases hfirst : Config.drawFirst free layer a = true
      · rw [if_pos hfirst, toNat_decay, toNat_increment]
        exact .inr (.inl ⟨rfl, fun h => h.2 hdrawn⟩)
      · rw [if_neg hfirst, toNat_increment, toNat_decay]
        exact .inr (.inr ⟨rfl, fun h => h.2 hdrawn⟩)
    · rw [htodo, hcell, if_neg (fun h => hdrawn h.2), if_pos hreached]
      exact .inl ⟨toNat_decay _, hin, hdrawn⟩

/-- The increment of the draw in progress (R71). -/
theorem drawAmount_eq (t : Station) : t.drawAmount = (t.rse.draw.map (fun p => 16 * p.intensity)).getD 0 := by
  unfold Station.drawAmount
  cases t.rse.draw <;> rfl

/-- No cell of layer B is drawn while one of layer A is still to draw (R64): a draw that has not finished layer A has
not begun layer B. -/
theorem decayLayer_todo_ordered (t : Station) (amountA amountB : Nat)
    (h : (Station.decayLayer t.free 0 amountA t.reachA t.rse.layerA).todo ≠ []) :
    (Station.decayLayer t.free 1 amountB t.reachB t.rse.layerB).todo = t.rse.layerB.todo := by
  have hunfinished : Config.layerFinished t.free ≠ true := by
    rintro hfinished
    exact h (by simp [Station.decayLayer, Layer.advance, Station.reachA, hfinished, DrawReach.draws])
  have htodo : t.rse.layerA.todo ≠ [] := by
    rintro hnil
    exact h (by simp [Station.decayLayer, Layer.advance, hnil])
  simp [Station.decayLayer, Layer.advance, Station.reachB, htodo, hunfinished, DrawReach.draws]

/-- Settles O50: the count by `decayStep_cases`, each cell by `decayLayer_cell`, the order of the layers by
`decayLayer_todo_ordered`. -/
theorem decayFollowsPersist : Obligations.DecayFollowsPersist := by
  unfold Obligations.DecayFollowsPersist
  refine ⟨fun s d h hpass => ?_, fun s hpowered hpass => ?_⟩
  · intro p count
    have hstep : (s.station.decayExpiry d).rse.decayCount = (Station.decayStep p count).1 ∧
        (s.station.decayExpiry d).rse.decayPass = (Station.decayStep p count).2 := by
      simp [Station.decayExpiry, hpass, p, count]
    obtain ⟨hnone, hcounts, hstarts⟩ := decayStep_cases p count
    refine ⟨s.station.decayExpiry d, ?_, rfl, fun hp => ?_, fun hlo hhi hfew => ?_, fun hlo hhi hmany => ?_, ?_⟩
    · rw [show exec .decayTimerExpiry s = _ from State.on_expires s (fun t => some t.rse.decayTimer) _ d h, hpass]
      rfl
    · rwa [hnone hp] at hstep
    · rwa [hcounts hlo hhi hfew] at hstep
    · rwa [hstarts hlo hhi hmany] at hstep
    · rw [← hpass]
      rfl
  · refine ⟨s.station.decayEnd, State.on_powered s _ hpowered, ?_⟩
    rw [Station.decayEnd, if_pos hpass]
    refine ⟨rfl, fun L L' hL => ?_, decayLayer_todo_ordered s.station _ _, by rw [← hpass]⟩
    simp only [List.mem_cons, Prod.mk.injEq, List.not_mem_nil, or_false] at hL
    rw [← drawAmount_eq]
    obtain ⟨rfl, rfl⟩ | ⟨rfl, rfl⟩ := hL
    · exact ⟨rfl, rfl, rfl, decayLayer_cell _ _ _ _ _⟩
    · exact ⟨rfl, rfl, rfl, decayLayer_cell _ _ _ _ _⟩

end Sys2Proof.Machine

namespace Sys2Proof.Machine

/-! The cells of a trace (R68 to R70): the points of a column, the span they gather to, and its join to the one before.
-/

/-- p is a point drawn in column x: one of the points from F on whose column that is (R68). -/
def inColumn (le first : Nat) (points : List Point) (x : Nat) (p : Point) : Prop :=
  ∃ i, first ≤ i ∧ points[i]? = some p ∧ i * 800 / le = x

/-- The rows that the points of a column cover: from the least high row to the greatest low row (R69, R70). -/
def coversRows (le first : Nat) (points : List Point) (x top bottom : Nat) : Prop :=
  (∀ p, inColumn le first points x p → top ≤ rowOf p.2 ∧ rowOf p.1 ≤ bottom) ∧
  (∃ p, inColumn le first points x p ∧ rowOf p.2 = top) ∧ (∃ p, inColumn le first points x p ∧ rowOf p.1 = bottom)

/-- The spans gathered from points, newest first: one for each column reached, with the rows its points cover. -/
structure Gathered (le first : Nat) (points : List Point) (spans : List Span) : Prop where
  sorted : spans.Pairwise (fun u v => v.column < u.column)
  columns : ∀ x, (∃ sp ∈ spans, sp.column = x) ↔ ∃ p, inColumn le first points x p
  rows : ∀ sp ∈ spans, coversRows le first points sp.column sp.top sp.bottom

/-- A greater value has no greater row (R69). -/
theorem rowOf_anti {v w : Int} (h : v ≤ w) : rowOf w ≤ rowOf v := by
  have := Int.tdiv_le_tdiv (c := 256) (by omega) h
  simp only [rowOf, clampTo]
  omega

section

variable {le first : Nat} {points : List Point}

/-- The columns reached are those of the points from F on (R68). -/
theorem exists_inColumn_iff (x : Nat) :
    (∃ p, inColumn le first points x p) ↔ ∃ i, first ≤ i ∧ i < points.length ∧ i * 800 / le = x := by
  constructor
  · rintro ⟨p, i, hi, hp, hx⟩
    exact ⟨i, hi, (List.getElem?_eq_some_iff.mp hp).1, hx⟩
  · rintro ⟨i, hi, hlt, hx⟩
    exact ⟨points[i], i, hi, List.getElem?_eq_getElem hlt, hx⟩

/-- The rows of a column, point by point. -/
theorem coversRows_byIndex {x top bottom : Nat} (h : coversRows le first points x top bottom) :
    (∀ i p, first ≤ i → points[i]? = some p → i * 800 / le = x → top ≤ rowOf p.2 ∧ rowOf p.1 ≤ bottom) ∧
    (∃ i p, first ≤ i ∧ points[i]? = some p ∧ i * 800 / le = x ∧ rowOf p.2 = top) ∧
    (∃ i p, first ≤ i ∧ points[i]? = some p ∧ i * 800 / le = x ∧ rowOf p.1 = bottom) := by
  obtain ⟨hall, ⟨u, ⟨i, hi, hu, hxu⟩, htop⟩, v, ⟨j, hj, hv, hxv⟩, hbottom⟩ := h
  exact ⟨fun k p hk hp hx => hall p ⟨k, hk, hp, hx⟩, ⟨i, u, hi, hu, hxu, htop⟩, ⟨j, v, hj, hv, hxv, hbottom⟩⟩

/-- A point more joins the points of its own column. -/
theorem inColumn_concat (hfirst : first ≤ points.length) (q : Point) (x : Nat) (p : Point) :
    inColumn le first (points ++ [q]) x p ↔
      inColumn le first points x p ∨ (p = q ∧ points.length * 800 / le = x) := by
  constructor
  · rintro ⟨i, hi, hp, hx⟩
    rcases Nat.lt_or_ge i points.length with hlt | hge
    · exact .inl ⟨i, hi, by rwa [List.getElem?_append_left hlt] at hp, hx⟩
    · have hlast : i = points.length := by
        have := (List.getElem?_eq_some_iff.mp hp).1
        simp only [List.length_append, List.length_singleton] at this
        omega
      subst hlast
      exact .inr ⟨by simpa using hp.symm, hx⟩
  · rintro (⟨i, hi, hp, hx⟩ | ⟨rfl, hx⟩)
    · have hlt := (List.getElem?_eq_some_iff.mp hp).1
      exact ⟨i, hi, by rwa [List.getElem?_append_left hlt], hx⟩
    · exact ⟨points.length, hfirst, by simp, hx⟩

/-- Columns do not fall from point to point (R68). -/
theorem inColumn_le {x : Nat} {p : Point} (h : inColumn le first points x p) : x ≤ points.length * 800 / le := by
  obtain ⟨i, -, hp, rfl⟩ := h
  have := (List.getElem?_eq_some_iff.mp hp).1
  exact Nat.div_le_div_right (by omega)

/-- The rows of the columns that a point more does not lie in stay. -/
theorem coversRows_concat_other (hfirst : first ≤ points.length) (q : Point) {x top bottom : Nat}
    (hx : points.length * 800 / le ≠ x) (h : coversRows le first points x top bottom) :
    coversRows le first (points ++ [q]) x top bottom := by
  simpa only [coversRows, inColumn_concat hfirst, hx, and_false, or_false] using h

/-- A point more widens the rows of its column (R70). -/
theorem coversRows_concat_same (hfirst : first ≤ points.length) (q : Point) {x top bottom : Nat}
    (hx : points.length * 800 / le = x) (h : coversRows le first points x top bottom) :
    coversRows le first (points ++ [q]) x (min top (rowOf q.2)) (max bottom (rowOf q.1)) := by
  obtain ⟨hall, ⟨u, hu, htop⟩, v, hv, hbottom⟩ := h
  simp only [coversRows, inColumn_concat hfirst, hx, and_true]
  refine ⟨?_, ?_, ?_⟩
  · rintro p (hp | rfl)
    · have := hall p hp
      omega
    · omega
  · rcases le_total top (rowOf q.2) with hle | hle
    · exact ⟨u, .inl hu, by omega⟩
    · exact ⟨q, .inr rfl, by omega⟩
  · rcases le_total bottom (rowOf q.1) with hle | hle
    · exact ⟨q, .inr rfl, by omega⟩
    · exact ⟨v, .inl hv, by omega⟩

/-- The first point of a column covers its own rows. -/
theorem coversRows_concat_new (hfirst : first ≤ points.length) (q : Point) {x : Nat}
    (hx : points.length * 800 / le = x) (h : ¬ ∃ p, inColumn le first points x p) :
    coversRows le first (points ++ [q]) x (rowOf q.2) (rowOf q.1) := by
  simp only [coversRows, inColumn_concat hfirst, hx, and_true]
  refine ⟨?_, ⟨q, .inr rfl, rfl⟩, q, .inr rfl, rfl⟩
  rintro p (hp | rfl)
  · exact absurd ⟨p, hp⟩ h
  · exact ⟨le_rfl, le_rfl⟩

/-- No span lies in a column beyond that of the next point. -/
theorem Gathered.column_le {spans : List Span} (h : Gathered le first points spans) {sp : Span} (hsp : sp ∈ spans) :
    sp.column ≤ points.length * 800 / le := by
  obtain ⟨p, hp⟩ := (h.columns sp.column).mp ⟨sp, hsp, rfl⟩
  exact inColumn_le hp

/-- A point in a column not reached before starts a span. -/
theorem Gathered.start {spans : List Span} (h : Gathered le first points spans) (hfirst : first ≤ points.length)
    (q : Point) (hnew : ∀ sp ∈ spans, sp.column ≠ points.length * 800 / le) :
    Gathered le first (points ++ [q]) (⟨points.length * 800 / le, rowOf q.2, rowOf q.1⟩ :: spans) := by
  have hunreached : ¬ ∃ p, inColumn le first points (points.length * 800 / le) p := fun hp => by
    obtain ⟨sp, hsp, hx⟩ := (h.columns _).mpr hp
    exact hnew sp hsp hx
  refine ⟨List.pairwise_cons.mpr ⟨fun sp hsp => ?_, h.sorted⟩, fun x => ?_, fun sp hsp => ?_⟩
  · exact lt_of_le_of_ne (h.column_le hsp) (hnew sp hsp)
  · simp only [inColumn_concat hfirst, exists_or, ← h.columns x, List.mem_cons, or_and_right, exists_eq_left]
    exact or_comm
  · rcases List.mem_cons.mp hsp with rfl | hsp
    · exact coversRows_concat_new hfirst q rfl hunreached
    · exact coversRows_concat_other hfirst q (hnew sp hsp).symm (h.rows sp hsp)

/-- A point in the newest column widens its span. -/
theorem Gathered.widen {prev : Span} {rest : List Span} (h : Gathered le first points (prev :: rest))
    (hfirst : first ≤ points.length) (q : Point) (hx : prev.column = points.length * 800 / le) :
    Gathered le first (points ++ [q])
      (⟨points.length * 800 / le, min prev.top (rowOf q.2), max prev.bottom (rowOf q.1)⟩ :: rest) := by
  obtain ⟨hbelow, hsorted⟩ := List.pairwise_cons.mp h.sorted
  refine ⟨List.pairwise_cons.mpr ⟨fun sp hsp => hx ▸ hbelow sp hsp, hsorted⟩, fun x => ?_, fun sp hsp => ?_⟩
  · have hold := h.columns x
    simp only [List.mem_cons, or_and_right, exists_or, exists_eq_left, hx] at hold
    simp only [inColumn_concat hfirst, exists_or, ← hold, List.mem_cons, or_and_right, exists_eq_left]
    exact ⟨.inl, fun h => h.elim id .inl⟩
  · rcases List.mem_cons.mp hsp with rfl | hsp
    · exact coversRows_concat_same hfirst q rfl (hx ▸ h.rows prev (List.mem_cons_self ..))
    · have := hbelow sp hsp
      exact coversRows_concat_other hfirst q (by omega) (h.rows sp (List.mem_cons_of_mem _ hsp))

/-- The spans with the next point added (R68, R70). -/
theorem gathered_addPoint {spans : List Span} (h : Gathered le first points spans) (hfirst : first ≤ points.length)
    (q : Point) : Gathered le first (points ++ [q]) (addPoint le points.length q spans) := by
  unfold addPoint
  cases spans with
  | nil => exact h.start hfirst q (by simp)
  | cons prev rest =>
    by_cases hx : prev.column = points.length * 800 / le
    · simpa only [hx, if_true] using h.widen hfirst q hx
    · simp only [hx, if_false]
      refine h.start hfirst q fun sp hsp => ?_
      have hprev := h.column_le (List.mem_cons_self ..)
      rcases List.mem_cons.mp hsp with rfl | hsp
      · exact hx
      · have := (List.pairwise_cons.mp h.sorted).1 sp hsp
        omega

/-- The spans of the points to come, added one by one. -/
theorem gathered_gatherSpans (qs : List Point) : ∀ {points : List Point} {spans : List Span},
    Gathered le first points spans → first ≤ points.length →
      Gathered le first (points ++ qs) (gatherSpans le points.length qs spans) := by
  induction qs with
  | nil => intro points spans h _; simpa [gatherSpans] using h
  | cons q qs ih =>
    intro points spans h hfirst
    have hnext := ih (gathered_addPoint h hfirst q) (by simp; omega)
    simpa [gatherSpans] using hnext

/-- Nothing is gathered before point F. -/
theorem gathered_nil (h : points.length ≤ first) : Gathered le first points [] := by
  have hnone : ∀ x, ¬ ∃ p, inColumn le first points x p := by
    rintro x ⟨p, i, hi, hp, -⟩
    have := (List.getElem?_eq_some_iff.mp hp).1
    omega
  exact ⟨List.Pairwise.nil, fun x => by simp [hnone x], by simp⟩

/-- The spans gathered from the points from F on. -/
theorem gathered_from (le first : Nat) (points : List Point) :
    Gathered le first points (gatherSpans le first (points.drop first) []) := by
  rcases Nat.le_total points.length first with h | h
  · rw [List.drop_eq_nil_of_le h]
    exact gathered_nil h
  · have hlength : (points.take first).length = first := by simp [h]
    have hgathered := gathered_gatherSpans (points.drop first)
      (gathered_nil (le := le) (first := first) (points := points.take first) (by omega)) (by omega)
    rwa [hlength, List.take_append_drop] at hgathered

/-- Minima below maxima, the rows of a column stand in order. -/
theorem coversRows_ordered (hpoints : ∀ p ∈ points, p.1 ≤ p.2) {x top bottom : Nat}
    (h : coversRows le first points x top bottom) : top ≤ bottom := by
  obtain ⟨hall, ⟨p, hp, rfl⟩, -⟩ := h
  have hrows := hall p hp
  obtain ⟨i, -, hi, -⟩ := hp
  have := rowOf_anti (hpoints p (List.mem_of_getElem? hi))
  omega

end

/-! The join to the span drawn before (R70). -/

theorem joinSpan_column (prev sp : Span) : (joinSpan prev sp).column = sp.column := by
  unfold joinSpan
  split_ifs <;> rfl

/-- A span that lies apart above or below is drawn on to the row next to the one before; any other as it is (R70). -/
theorem joinSpan_rows (prev sp : Span) (hprev : prev.top ≤ prev.bottom) (hsp : sp.top ≤ sp.bottom) :
    let out := joinSpan prev sp
    (sp.bottom + 1 < prev.top → out.top = sp.top ∧ out.bottom + 1 = prev.top) ∧
    (prev.bottom + 1 < sp.top → out.top = prev.bottom + 1 ∧ out.bottom = sp.bottom) ∧
    (prev.top ≤ sp.bottom + 1 → sp.top ≤ prev.bottom + 1 → out.top = sp.top ∧ out.bottom = sp.bottom) ∧
    out.top ≤ out.bottom := by
  unfold joinSpan
  split_ifs with habove hbelow
  · exact ⟨fun _ => ⟨rfl, by simp only; omega⟩, fun _ => by omega, fun _ _ => by omega, by simp only; omega⟩
  · exact ⟨fun _ => by omega, fun _ => ⟨rfl, rfl⟩, fun _ _ => by omega, by simp only; omega⟩
  · exact ⟨fun h => absurd h habove, fun h => absurd h hbelow, fun _ _ => ⟨rfl, rfl⟩, hsp⟩

theorem joinSpans_columns (spans : List Span) : ∀ prev : Span,
    (joinSpans prev spans).map Span.column = spans.map Span.column := by
  induction spans with
  | nil => exact fun _ => rfl
  | cons sp rest ih => exact fun prev => by simp only [joinSpans, List.map_cons, joinSpan_column, ih]

/-- Each span drawn behind another is a gathered one, joined to that as it was drawn. -/
theorem joinSpans_adjacent (spans : List Span) : ∀ (first : Span) (before : List Span) (prev sp : Span)
    (after : List Span), first.top ≤ first.bottom → (∀ u ∈ spans, u.top ≤ u.bottom) →
      first :: joinSpans first spans = before ++ prev :: sp :: after →
      prev.top ≤ prev.bottom ∧ ∃ own ∈ spans, sp = joinSpan prev own := by
  induction spans with
  | nil =>
    intro first before prev sp after _ _ h
    have := congrArg List.length h
    simp only [joinSpans, List.length_cons, List.length_nil, List.length_append] at this
    omega
  | cons own rest ih =>
    intro first before prev sp after hfirst hspans h
    obtain ⟨hown, hrest⟩ := List.forall_mem_cons.mp hspans
    cases before with
    | nil =>
      simp only [joinSpans, List.nil_append, List.cons.injEq] at h
      obtain ⟨rfl, rfl, -⟩ := h
      exact ⟨hfirst, own, List.mem_cons_self .., rfl⟩
    | cons b before =>
      simp only [joinSpans, List.cons_append, List.cons.injEq] at h
      obtain ⟨hprev, u, hu, rfl⟩ := ih _ before prev sp after (joinSpan_rows first own hfirst hown).2.2.2 hrest h.2
      exact ⟨hprev, u, List.mem_cons_of_mem _ hu, rfl⟩

/-- The cells of a span (R70). -/
theorem mem_spanCells (sp : Span) (a : Nat) :
    a ∈ sp.cells ↔ ∃ r, sp.top ≤ r ∧ r ≤ sp.bottom ∧ a = 800 * r + sp.column := by
  simp only [Span.cells, List.mem_map, List.mem_range, cellAddress]
  constructor
  · rintro ⟨k, hk, rfl⟩
    exact ⟨sp.top + k, by omega, by omega, by omega⟩
  · rintro ⟨r, htop, hbottom, rfl⟩
    exact ⟨r - sp.top, by omega, by rw [Nat.add_sub_cancel' htop]; omega⟩

/-- The spans that a trace draws, left to right: the first with the rows its column's points cover, each one behind it
joined to the one drawn before (R68, R70). -/
theorem traceSpans_spec (le first : Nat) (points : List Point) (hpoints : ∀ p ∈ points, p.1 ≤ p.2) :
    let spans := traceSpans le first points
    spans.Pairwise (fun u v => u.column < v.column) ∧
    (∀ x, (∃ sp ∈ spans, sp.column = x) ↔ ∃ p, inColumn le first points x p) ∧
    (∀ sp rest, spans = sp :: rest → coversRows le first points sp.column sp.top sp.bottom) ∧
    (∀ before prev sp after, spans = before ++ prev :: sp :: after →
      prev.top ≤ prev.bottom ∧
      ∃ own : Span, coversRows le first points own.column own.top own.bottom ∧ sp = joinSpan prev own) := by
  have hgathered := gathered_from le first points
  generalize hspans : (gatherSpans le first (points.drop first) []).reverse = spans
  have hmem : ∀ sp, sp ∈ spans ↔ sp ∈ gatherSpans le first (points.drop first) [] := by simp [← hspans]
  have hsorted : (spans.map Span.column).Pairwise (· < ·) := by
    rw [List.pairwise_map, ← hspans, List.pairwise_reverse]
    exact hgathered.sorted
  have hcolumns : ∀ x, x ∈ spans.map Span.column ↔ ∃ p, inColumn le first points x p := fun x => by
    simp only [List.mem_map, hmem, hgathered.columns]
  have hcovers : ∀ sp ∈ spans, coversRows le first points sp.column sp.top sp.bottom := fun sp hsp =>
    hgathered.rows sp ((hmem sp).mp hsp)
  have hordered : ∀ sp ∈ spans, sp.top ≤ sp.bottom := fun sp hsp => coversRows_ordered hpoints (hcovers sp hsp)
  have htrace : (traceSpans le first points).map Span.column = spans.map Span.column := by
    simp only [traceSpans, hspans]
    cases spans <;> simp [joinSpans_columns]
  refine ⟨?_, fun x => ?_, ?_⟩
  · rwa [← List.pairwise_map (f := Span.column) (R := (· < ·)), htrace]
  · rw [← hcolumns, ← htrace, List.mem_map]
  · simp only [traceSpans, hspans]
    cases spans with
    | nil => simp
    | cons u rest =>
      obtain ⟨hu, hrest⟩ := List.forall_mem_cons.mp hordered
      refine ⟨fun sp _ h => ?_, fun before prev sp after h => ?_⟩
      · obtain ⟨rfl, -⟩ := List.cons.inj h
        exact hcovers u (List.mem_cons_self ..)
      · obtain ⟨hprev, own, hown, rfl⟩ := joinSpans_adjacent rest u before prev sp after hu hrest h
        exact ⟨hprev, own, hcovers own (List.mem_cons_of_mem _ hown), rfl⟩

end Sys2Proof.Machine

namespace Sys2Proof.Machine

/-! What a draw leaves of its two layers (R65, R67, R71, R72). -/

/-- A layer with its pending clear performed (R65). -/
def Layer.afterClears (L : Layer) : Layer := if L.clearPending then L.clear else L

/-- Layer L with the draw of these increments complete and a clear set during it performed (R67, R71, R72). -/
structure LayerDrawn (amount : Nat) (pass : Bool) (L L' : Layer) : Prop where
  todo : L'.todo = []
  clearPending : L'.clearPending = false
  cleared : L.clearPending = true → L'.snapshot = none ∧ ∀ a, L'.cell a = 0
  kept : L.clearPending = false → L'.snapshot = L.snapshot ∧
    (Sparse.wf 0 L.cells = true → L.todo.Nodup → ∀ a, pass = false ∨ a ∉ L.todo →
      L'.cell a = if a ∈ L.todo then increment amount (L.cell a) else L.cell a)

/-- A cell still to draw takes its increment where no decay pass runs, and no other cell changes (R71, R76). -/
theorem finishLayer_cell (free layer amount : Nat) (pass : Bool) (L : Layer) (hwf : Sparse.wf 0 L.cells = true)
    (hnodup : L.todo.Nodup) (a : Nat) (ha : pass = false ∨ a ∉ L.todo) :
    (Station.finishLayer free layer amount pass L).cell a =
      if a ∈ L.todo then increment amount (L.cell a) else L.cell a := by
  rw [Station.finishLayer, advance_cell _ _ _ _ _ L hwf hnodup]
  rcases ha with rfl | ha
  · simp
  · simp [ha]

/-- The end of a draw in a layer, with the clears behind it (R67, R72). -/
theorem layerDrawn_finishLayer (free layer amount : Nat) (pass : Bool) (L : Layer) :
    LayerDrawn amount pass L (Station.finishLayer free layer amount pass L).afterClears := by
  have htodo : (Station.finishLayer free layer amount pass L).todo = [] := by simp [Station.finishLayer, Layer.advance]
  have hpending : (Station.finishLayer free layer amount pass L).clearPending = L.clearPending := rfl
  unfold Layer.afterClears
  rw [hpending]
  cases hclear : L.clearPending with
  | true => exact ⟨htodo, rfl, fun _ => ⟨rfl, fun _ => rfl⟩, fun h => absurd (hclear.symm.trans h) (by decide)⟩
  | false =>
    refine ⟨htodo, hpending.trans hclear, fun h => absurd (hclear.symm.trans h) (by decide), fun _ => ⟨rfl, ?_⟩⟩
    exact fun hwf hnodup a ha => finishLayer_cell free layer amount pass L hwf hnodup a ha

/-- A layer drawn has no clear left to perform. -/
theorem LayerDrawn.afterClears {amount : Nat} {pass : Bool} {L D : Layer} (h : LayerDrawn amount pass L D) :
    D.afterClears = D := if_neg (by simp [h.clearPending])

/-- What a take makes of a layer with no clear pending for an enabled channel: cleared where its drawn snapshot differs
or PERSIST is 0, and kept else (R64, R65). -/
theorem prepareLayer_enabled (persist : Nat) (drawn : DrawnSnapshot) (cells : List Nat) (L : Layer)
    (hpending : L.clearPending = false) :
    Station.prepareLayer persist drawn 1 cells L =
      if persist = 0 ∨ (L.snapshot ≠ none ∧ L.snapshot ≠ some drawn) then
        { L.clear with snapshot := some drawn, todo := cells }
      else { L with snapshot := some drawn, todo := cells } := by
  have hclears :
      (L.snapshot.isSome && decide (L.snapshot ≠ some drawn) || decide (persist = 0) || L.clearPending) = true ↔
        persist = 0 ∨ (L.snapshot ≠ none ∧ L.snapshot ≠ some drawn) := by
    simp [hpending, Option.isSome_iff_ne_none, or_comm]
  simp only [Station.prepareLayer, if_true, hclears]
  split <;> rfl

/-- A take clears the layer of a disabled channel and draws nothing in it (R66). -/
theorem prepareLayer_disabled (persist : Nat) (drawn : DrawnSnapshot) (enable : Nat) (cells : List Nat) (L : Layer)
    (h : enable ≠ 1) : Station.prepareLayer persist drawn enable cells L = { L.clear with todo := [] } := if_neg h

/-- What a take of a record makes of a layer whose draw has just completed (R64 to R66, R71). -/
theorem prepareLayer_drawn (amount persist : Nat) (pass : Bool) (drawn : DrawnSnapshot) (enable : Nat)
    (cells : List Nat) (L D : Layer) (hD : LayerDrawn amount pass L D) :
    let L' := Station.prepareLayer persist drawn enable cells D
    L'.clearPending = false ∧ (enable = 1 → L'.snapshot = some drawn ∧ L'.todo = cells) ∧
    (enable ≠ 1 → L'.snapshot = none ∧ L'.todo = []) ∧
    (enable ≠ 1 ∨ persist = 0 ∨ L.clearPending = true ∨ (L.snapshot ≠ none ∧ L.snapshot ≠ some drawn) →
      ∀ a, L'.cell a = 0) ∧
    (enable = 1 → persist ≠ 0 → L.clearPending = false → L.snapshot = none ∨ L.snapshot = some drawn →
      Sparse.wf 0 L.cells = true → L.todo.Nodup → pass = false → ∀ a,
        L'.cell a = if a ∈ L.todo then increment amount (L.cell a) else L.cell a) := by
  by_cases henable : enable = 1
  · subst henable
    rw [prepareLayer_enabled persist drawn cells D hD.clearPending]
    cases hclear : L.clearPending with
    | true =>
      obtain ⟨hnone, hzero⟩ := hD.cleared hclear
      split
      · exact ⟨rfl, fun _ => ⟨rfl, rfl⟩, fun h => absurd rfl h, fun _ _ => rfl, by simp⟩
      · exact ⟨hD.clearPending, fun _ => ⟨rfl, rfl⟩, fun h => absurd rfl h, fun _ => hzero, by simp⟩
    | false =>
      obtain ⟨hsnapshot, hcells⟩ := hD.kept hclear
      rw [hsnapshot]
      split
      · next hclears =>
        refine ⟨rfl, fun _ => ⟨rfl, rfl⟩, fun h => absurd rfl h, fun _ _ => rfl, fun _ hpersist _ hsnap => ?_⟩
        rcases hclears with h | ⟨hsome, hdiffers⟩
        · exact absurd h hpersist
        · exact absurd hsnap (by simp [hsome, hdiffers])
      · next hkeeps =>
        refine ⟨hD.clearPending, fun _ => ⟨rfl, rfl⟩, fun h => absurd rfl h, fun h => ?_,
          fun _ _ _ _ hwf hnodup hpass a => hcells hwf hnodup a (.inl hpass)⟩
        exact absurd (by simpa using h) hkeeps
  · simp only [prepareLayer_disabled persist drawn enable cells D henable]
    exact ⟨rfl, fun h => absurd h henable, fun _ => ⟨rfl, trivial⟩, fun _ _ => rfl, fun h => absurd h henable⟩

/-! What drawing leaves of RSE and ACQ beside its own fields. -/

/-- RSE with the fields that drawing changes at their reset values (R78). -/
def Rse.besideDraw (r : Rse) : Rse :=
  { r with
    layerA := Layer.reset, layerB := Layer.reset, draw := none, clipA := false, clipB := false, satA := false,
    satB := false, grid := [] }

/-- ACQ with the fields that drawing and a reservation change at their reset values (R33, R37). -/
def Acq.besideSlots (a : Acq) : Acq := { a with slots := Quad.fill .free, state := .idle, reserved := none }

theorem Rse.besideDraw_iff (r r' : Rse) :
    r'.besideDraw = r.besideDraw ↔
      { r' with
        layerA := r.layerA, layerB := r.layerB, draw := r.draw, clipA := r.clipA, clipB := r.clipB, satA := r.satA,
        satB := r.satB, grid := r.grid } = r := by
  cases r
  cases r'
  simp [Rse.besideDraw]

theorem Acq.besideSlots_iff (a a' : Acq) :
    a'.besideSlots = a.besideSlots ↔ { a' with slots := a.slots, state := a.state, reserved := a.reserved } = a := by
  cases a
  cases a'
  simp [Acq.besideSlots]

/-- The last drawn flags that a record gives: those of its enabled channels (R73); true names channel B. -/
def Record.drawnFlags (r : Record) (isB : Bool) : Bool × Bool :=
  if isB then (decide (r.snapshot.b.enable = 1) && r.clippedB, decide (r.snapshot.b.enable = 1) && r.saturatedB)
  else (decide (r.snapshot.a.enable = 1) && r.clippedA, decide (r.snapshot.a.enable = 1) && r.saturatedA)

namespace Station

variable (t : Station)

@[simp] theorem reserve_besideSlots : t.reserve.acq.besideSlots = t.acq.besideSlots := by
  unfold Station.reserve
  split <;> rfl

@[simp] theorem settleAcq_besideSlots : t.settleAcq.acq.besideSlots = t.acq.besideSlots := by
  simp only [Station.settleAcq]
  split <;> exact reserve_besideSlots t

/-! The last drawn flags and the readouts that follow them (R73, R90). -/

/-- The station with a record's flags, the readouts not yet rebuilt (R73). -/
def takeFlags (r : Record) (t : Station) : Station :=
  { t with
    rse :=
      { t.rse with
        clipA := (r.drawnFlags false).1, satA := (r.drawnFlags false).2, clipB := (r.drawnFlags true).1,
        satB := (r.drawnFlags true).2 } }

/-- The flags are taken, and a channel whose flags change has its readout rebuilt (R73). -/
theorem setDrawnFlags_eq (r : Record) :
    t.setDrawnFlags r =
      let u := t.takeFlags r
      let v := if r.drawnFlags false = t.drawnFlags false then u else u.rebuildChannel false
      if r.drawnFlags true = t.drawnFlags true then v else v.rebuildChannel true := by
  have hA : r.drawnFlags false = t.drawnFlags false ↔
      (r.drawnFlags false).1 = t.rse.clipA ∧ (r.drawnFlags false).2 = t.rse.satA := by simp [Prod.ext_iff, drawnFlags]
  have hB : r.drawnFlags true = t.drawnFlags true ↔
      (r.drawnFlags true).1 = t.rse.clipB ∧ (r.drawnFlags true).2 = t.rse.satB := by simp [Prod.ext_iff, drawnFlags]
  simp only [hA, hB]
  rfl

/-- The flags become the record's; the layers and what drawing leaves of RSE stay. -/
theorem setDrawnFlags_rse (r : Record) :
    let u := t.setDrawnFlags r
    u.rse.layerA = t.rse.layerA ∧ u.rse.layerB = t.rse.layerB ∧ u.rse.besideDraw = t.rse.besideDraw ∧
    ∀ isB, u.drawnFlags isB = r.drawnFlags isB := by
  rw [setDrawnFlags_eq]
  dsimp only
  split <;> split <;> exact ⟨rfl, rfl, rfl, fun isB => by cases isB <;> rfl⟩

/-- A channel whose flags keep their values keeps its readout (R73). -/
theorem setDrawnFlags_readout (r : Record) (isB : Bool) (hwf : Sparse.wf GridCell.blank t.rse.grid = true)
    (hsame : r.drawnFlags isB = t.drawnFlags isB) (j : Nat) (hj : j < 12) :
    (t.setDrawnFlags r).cellAt (t.readoutAt isB + j) = t.cellAt (t.readoutAt isB + j) := by
  rw [setDrawnFlags_eq]
  obtain ⟨hvstraps, -, hvwf, -, -, hv⟩ :=
    rebuildUnless_cell (r.drawnFlags false = t.drawnFlags false) (t.takeFlags r) false hwf
  obtain ⟨-, -, -, -, -, hw⟩ := rebuildUnless_cell (r.drawnFlags true = t.drawnFlags true) _ true hvwf
  simp only [readoutAt, hvstraps] at hv hw
  cases isB with
  | false =>
    refine (hw _ (.inr (.inl ?_))).trans (hv _ (.inl hsame))
    show 2400 + 25 * t.straps.station + 0 + j < 2400 + 25 * t.straps.station + 12
    omega
  | true =>
    refine (hw _ (.inl hsame)).trans (hv _ (.inr (.inr ?_)))
    show 2400 + 25 * t.straps.station + 0 + 12 ≤ 2400 + 25 * t.straps.station + 12 + j
    omega

/-! The end of a draw (R72). -/

/-- The pending clears are performed in both layers, and nothing else is done. -/
theorem performClears_eq :
    t.performClears =
      { t with
        rse := { t.rse with layerA := t.rse.layerA.afterClears, layerB := t.rse.layerB.afterClears } } := rfl

/-- The station with every cell drawn that the draw in progress still had to draw (R72). -/
def cellsDrawn (amount : Nat) (t : Station) : Station :=
  { t with
    free := t.free + 1
    rse :=
      { t.rse with
        layerA := finishLayer t.free 0 amount t.rse.decayPass t.rse.layerA
        layerB := finishLayer t.free 1 amount t.rse.decayPass t.rse.layerB } }

/-- The end of the draw of a record: every cell drawn, the record's flags set, the pending clears performed (R67, R72,
R73). -/
theorem endDraw_rse_eq (p : DrawParams) (r : Record) (hdraw : t.rse.draw = some p)
    (hslot : t.acq.slots.get p.slot = .drawing r) :
    let flagged := ((t.cellsDrawn (16 * p.intensity)).setDrawnFlags r).rse
    t.endDraw.rse =
      { flagged with
        layerA := flagged.layerA.afterClears, layerB := flagged.layerB.afterClears, draw := none } := by
  unfold Station.endDraw
  rw [hdraw]
  simp only [hslot, reserve_frame, performClears_eq]
  rfl

/-- What the end of the draw of a record leaves of RSE: the layers drawn, the record's flags, and of a channel whose
flags keep their values the readout (R67, R71 to R73). -/
theorem endDraw_rse (p : DrawParams) (r : Record) (hdraw : t.rse.draw = some p)
    (hslot : t.acq.slots.get p.slot = .drawing r) :
    let u := t.endDraw
    LayerDrawn (16 * p.intensity) t.rse.decayPass t.rse.layerA u.rse.layerA ∧
    LayerDrawn (16 * p.intensity) t.rse.decayPass t.rse.layerB u.rse.layerB ∧
    u.rse.besideDraw = t.rse.besideDraw ∧ (∀ isB, u.drawnFlags isB = r.drawnFlags isB) ∧
    (Sparse.wf GridCell.blank t.rse.grid = true → ∀ isB, r.drawnFlags isB = t.drawnFlags isB → ∀ j, j < 12 →
      u.cellAt (t.readoutAt isB + j) = t.cellAt (t.readoutAt isB + j)) := by
  obtain ⟨hA, hB, hbeside, hflags⟩ := setDrawnFlags_rse (t.cellsDrawn (16 * p.intensity)) r
  have hreadout := setDrawnFlags_readout (t.cellsDrawn (16 * p.intensity)) r
  have hrse := endDraw_rse_eq t p r hdraw hslot
  generalize (t.cellsDrawn (16 * p.intensity)).setDrawnFlags r = flagged at hA hB hbeside hflags hreadout hrse
  simp only [hA, hB] at hrse
  simp only [drawnFlags, cellAt, hrse]
  refine ⟨layerDrawn_finishLayer _ _ _ _ _, layerDrawn_finishLayer _ _ _ _ _, hbeside, hflags, fun hwf isB => ?_⟩
  exact hreadout isB hwf

/-- The end of a draw changes no more of ACQ than slots and reservation (R33, R72). -/
@[simp] theorem endDraw_besideSlots : t.endDraw.acq.besideSlots = t.acq.besideSlots := by
  cases h : t.rse.draw with
  | none => simp only [Station.endDraw, h]
  | some p =>
    simp only [Station.endDraw, h, reserve_besideSlots, performClears_frame]
    split <;> simp only [setDrawnFlags_frame] <;> rfl

end Station

end Sys2Proof.Machine

namespace Sys2Proof.Machine

/-! The draw queue and the slot that a draw frees (R33, R36, R77). -/

/-- Freeing a slot that is not DONE leaves the draw queue (R36). -/
theorem oldestDone_set_free (q : Quad Slot) (k : Nat) (hk : k < 4) (h : (q.get k).doneRecord = none) :
    oldestDone (q.set k .free) = oldestDone q := by
  have hrecords : doneRecords (q.set k .free) = doneRecords q := by
    have hfree : Slot.free.doneRecord = none := rfl
    match k, hk with
    | 0, _ | 1, _ | 2, _ | 3, _ =>
      simp only [Quad.get] at h
      simp only [doneRecords, Quad.set, List.filterMap_cons, h, hfree, Option.map_none]
  simp only [oldestDone, hrecords]

/-- The only FREE slot is the lowest-numbered one (R33). -/
theorem lowestFree_set_free (q : Quad Slot) (k : Nat) (hk : k < 4) (h : ∀ i, i < 4 → q.get i ≠ .free) :
    lowestFree (q.set k .free) = some k := by
  have h0 : q.a0 ≠ .free := h 0 (by omega)
  have h1 : q.a1 ≠ .free := h 1 (by omega)
  have h2 : q.a2 ≠ .free := h 2 (by omega)
  match k, hk with
  | 0, _ | 1, _ | 2, _ | 3, _ => simp [lowestFree, Quad.find, Quad.set, h0, h1, h2]

/-- Two slots are set in either order. -/
theorem slots_set_comm (q : Quad Slot) (i k : Nat) (v w : Slot) (hi : i < 4) (hk : k < 4) (h : i ≠ k) :
    (q.set i v).set k w = (q.set k w).set i v := by
  interval_cases i <;> interval_cases k <;> simp [Quad.set] at h ⊢

theorem slots_set_set (q : Quad Slot) (i : Nat) (v w : Slot) (hi : i < 4) : (q.set i v).set i w = q.set i w := by
  match i, hi with
  | 0, _ | 1, _ | 2, _ | 3, _ => rfl

namespace Station

variable (t : Station)

/-- The end of a draw frees its slot, and a reservation that waits takes one then (R33, R72, R77). -/
theorem endDraw_reserve (p : DrawParams) (hdraw : t.rse.draw = some p) :
    ∃ u : Station, t.endDraw = u.reserve ∧ u.acq = { t.acq with slots := t.acq.slots.set p.slot .free } := by
  unfold Station.endDraw
  rw [hdraw]
  refine ⟨_, rfl, ?_⟩
  simp only [performClears_frame]
  split <;> simp only [setDrawnFlags_frame]

/-- A station that waits for a reservation with no slot FREE reserves the slot that the draw frees (R33, R77). -/
theorem endDraw_reserves (p : DrawParams) (hdraw : t.rse.draw = some p) (hslot : p.slot < 4)
    (hwaiting : t.acq.state = .preparing ∨ t.acq.state = .prepared) (hreserved : t.acq.reserved = none)
    (hfull : ∀ i, i < 4 → t.acq.slots.get i ≠ .free) : t.endDraw.acq.reserved = some p.slot := by
  obtain ⟨u, hend, hacq⟩ := endDraw_reserve t p hdraw
  rw [hend, reserve_acq u (by simpa [Station.waiting, hacq] using hwaiting)]
  simp only [hacq, hreserved, lowestFree_set_free _ _ hslot hfull, Option.none_or]

/-- A reservation made is kept (R33). -/
theorem reserve_keeps (k : Nat) (h : t.acq.reserved = some k) : t.reserve = t := if_neg (by simp [h])

/-- The end of a draw keeps a reservation made (R33). -/
theorem endDraw_keepsReserved (k : Nat) (h : t.acq.reserved = some k) : t.endDraw.acq.reserved = some k := by
  cases hdraw : t.rse.draw with
  | none => simpa only [Station.endDraw, hdraw] using h
  | some p =>
    obtain ⟨u, hend, hacq⟩ := endDraw_reserve t p hdraw
    have hkept : u.acq.reserved = some k := by rw [hacq]; exact h
    rw [hend, reserve_keeps u k hkept, hkept]

/-- Settling keeps a reservation made (R33, R42). -/
theorem settleAcq_keepsReserved (k : Nat) (h : t.acq.reserved = some k) : t.settleAcq.acq.reserved = some k := by
  simp only [Station.settleAcq, reserve_keeps t k h]
  split <;> exact h

/-! RSE's takes (R36, R64). -/

/-- What holds before RSE's takes and is kept by each of them holds after: by the take of a record, and by the end of
the draw of one with both channels disabled (R36, R64, R66). -/
theorem drawNext_kept (P : Station → Prop)
    (htake : ∀ u i r, oldestDone u.acq.slots = some (i, r) → P u → P (u.startDraw i r))
    (hpass : ∀ u i r, oldestDone u.acq.slots = some (i, r) → r.snapshot.a.enable ≠ 1 → r.snapshot.b.enable ≠ 1 → P u →
      P (u.startDraw i r).endDraw) (n : Nat) : ∀ t : Station, P t → P (t.drawNext n) := by
  induction n with
  | zero => exact fun t h => h
  | succ n ih =>
    intro t h
    simp only [Station.drawNext]
    split
    · exact h
    · split
      · exact h
      · next i r hold =>
        split
        · next hoff => exact ih _ (hpass t i r hold hoff.1 hoff.2 h)
        · exact htake t i r hold h

/-- With no record DONE nothing is taken (R36). -/
theorem drawNext_none (n : Nat) (h : oldestDone t.acq.slots = none) : t.drawNext n = t := by
  cases n with
  | zero => rfl
  | succ n => simp only [Station.drawNext, h, ite_self]

/-- An idle RSE takes the oldest DONE record, which it draws where a channel is enabled (R36, R64). -/
theorem drawNext_takes (n i : Nat) (r : Record) (hidle : t.rse.draw = none)
    (hold : oldestDone t.acq.slots = some (i, r)) (hon : r.snapshot.a.enable = 1 ∨ r.snapshot.b.enable = 1) :
    t.drawNext (n + 1) = t.startDraw i r := by
  simp only [Station.drawNext, hidle, Option.isSome_none, Bool.false_eq_true, if_false, hold]
  exact if_neg (by tauto)

/-- A record with both channels disabled is complete at once, and RSE goes on (R66). -/
theorem drawNext_passes (n i : Nat) (r : Record) (hidle : t.rse.draw = none)
    (hold : oldestDone t.acq.slots = some (i, r)) (hoffA : r.snapshot.a.enable ≠ 1) (hoffB : r.snapshot.b.enable ≠ 1) :
    t.drawNext (n + 1) = (t.startDraw i r).endDraw.drawNext n := by
  simp only [Station.drawNext, hidle, Option.isSome_none, Bool.false_eq_true, if_false, hold]
  exact if_pos ⟨hoffA, hoffB⟩

/-- A FREE slot stays FREE while RSE takes records (R36). -/
theorem drawNext_keepsFree (k n : Nat) (hk : k < 4) (h : t.acq.slots.get k = .free) :
    (t.drawNext n).acq.slots.get k = .free := by
  have htaken : ∀ (u : Station) i r v, oldestDone u.acq.slots = some (i, r) → u.acq.slots.get k = .free →
      (u.acq.slots.set i v).get k = .free := fun u i r v hold hfree => by
    obtain ⟨hi, hdone⟩ := oldestDone_done _ _ _ hold
    have hik : i ≠ k := by
      rintro rfl
      rw [hfree] at hdone
      cases hdone
    rw [Quad.get_set_other _ _ _ _ hi hk hik, hfree]
  refine drawNext_kept (fun u => u.acq.slots.get k = .free) (fun u i r hold => htaken u i r _ hold)
    (fun u i r hold _ _ hfree => ?_) n t h
  have hi := (oldestDone_done _ _ _ hold).1
  rw [(endDraw_frees (u.startDraw i r) _ rfl).1]
  show ((u.acq.slots.set i _).set i _).get k = _
  rw [slots_set_set _ _ _ _ hi]
  exact htaken u i r _ hold hfree

/-- A reservation made is kept while RSE takes records (R33). -/
theorem drawNext_keepsReserved (k n : Nat) (h : t.acq.reserved = some k) : (t.drawNext n).acq.reserved = some k :=
  drawNext_kept (fun u => u.acq.reserved = some k) (fun _ _ _ _ h => h)
    (fun u i r _ _ _ h => endDraw_keepsReserved (u.startDraw i r) k h) n t h

/-- The slot of a record taken is being drawn (R64). -/
theorem startDraw_slot (i : Nat) (r : Record) (hi : i < 4) : (t.startDraw i r).acq.slots.get i = .drawing r :=
  Quad.get_set_same _ _ _ hi

/-- RSE's takes change no more of RSE than drawing does. -/
theorem drawNext_besideDraw (n : Nat) : (t.drawNext n).rse.besideDraw = t.rse.besideDraw := by
  refine drawNext_kept (fun u => u.rse.besideDraw = t.rse.besideDraw) (fun _ _ _ _ h => h)
    (fun u i r hold _ _ h => ?_) n t rfl
  have hslot := startDraw_slot u i r (oldestDone_done _ _ _ hold).1
  obtain ⟨-, -, hbeside, -⟩ := endDraw_rse (u.startDraw i r) _ r rfl hslot
  exact hbeside.trans h

/-- RSE's takes change no more of ACQ than slots and reservation. -/
theorem drawNext_besideSlots (n : Nat) : (t.drawNext n).acq.besideSlots = t.acq.besideSlots :=
  drawNext_kept (fun u => u.acq.besideSlots = t.acq.besideSlots) (fun _ _ _ _ h => h)
    (fun u i r _ _ _ h => (endDraw_besideSlots (u.startDraw i r)).trans h) n t rfl

/-- Last drawn flags of 0 stay 0 while RSE takes records (R73). -/
theorem drawNext_keepsNoFlags (n : Nat) (h : ∀ isB, t.drawnFlags isB = (false, false)) :
    ∀ isB, (t.drawNext n).drawnFlags isB = (false, false) := by
  refine drawNext_kept (fun u => ∀ isB, u.drawnFlags isB = (false, false)) (fun _ _ _ _ h => h)
    (fun u i r hold hoffA hoffB _ isB => ?_) n t h
  have hslot := startDraw_slot u i r (oldestDone_done _ _ _ hold).1
  obtain ⟨-, -, -, hflags, -⟩ := endDraw_rse (u.startDraw i r) _ r rfl hslot
  rw [hflags]
  cases isB <;> simp [Record.drawnFlags, hoffA, hoffB]

end Station

end Sys2Proof.Machine

namespace Sys2Proof.Machine

/-! The two layers behind a draw, by what the draw queue holds (R64 to R67, R71). -/

/-- With nothing more to draw the layer is idle, and holds what the draw has left. -/
theorem LayerDrawn.idle {amount : Nat} {pass : Bool} {L D : Layer} (h : LayerDrawn amount pass L D) :
    D.todo = [] ∧ D.clearPending = false ∧ (L.clearPending = true → D.snapshot = none ∧ ∀ a, D.cell a = 0) ∧
    (L.clearPending = false → D.snapshot = L.snapshot ∧
      (Sparse.wf 0 L.cells = true → L.todo.Nodup → pass = false → ∀ a,
        D.cell a = if a ∈ L.todo then increment amount (L.cell a) else L.cell a)) :=
  ⟨h.todo, h.clearPending, h.cleared, fun hkept =>
    ⟨(h.kept hkept).1, fun hwf hnodup hpass a => (h.kept hkept).2 hwf hnodup a (.inl hpass)⟩⟩

/-- The layer of a disabled channel, taken and drawn at once, is blank (R66). -/
theorem LayerDrawn.blank {amount persist enable : Nat} {pass : Bool} {drawn : DrawnSnapshot} {cells : List Nat}
    {L D : Layer} (henable : enable ≠ 1)
    (h : LayerDrawn amount pass (Station.prepareLayer persist drawn enable cells L) D) :
    D.todo = [] ∧ D.snapshot = none ∧ D.clearPending = false ∧ ∀ a, D.cell a = 0 := by
  rw [prepareLayer_disabled persist drawn enable cells L henable] at h
  obtain ⟨hsnapshot, hcells⟩ := h.kept rfl
  refine ⟨h.todo, hsnapshot, h.clearPending, fun a => ?_⟩
  rw [hcells rfl List.nodup_nil a (.inr List.not_mem_nil), if_neg List.not_mem_nil]
  rfl

namespace Station

variable (t : Station)

/-! The LEDs (R109, R110, R112). -/

/-- Each LED takes the base mode of its conditions, from the given instant on where that is another (R109). -/
theorem refreshLeds_led (x k : Nat) :
    (t.refreshLeds x).pns.leds[k]? =
      t.pns.leds[k]?.map (fun e =>
        ⟨e.led, t.ledMode e.led, if t.ledMode e.led = e.mode then e.since else x, e.overlay⟩) := by
  simp only [Station.refreshLeds, List.getElem?_map]
  congr 1
  funext e
  split
  · next h => rw [h]
  · rfl

/-- Beside the base modes of LEDs nothing of PNS changes with their conditions. -/
theorem refreshLeds_pns (x : Nat) :
    { (t.refreshLeds x).pns with leds := t.pns.leds } = t.pns ∧
    (t.refreshLeds x).pns.leds.map (fun y => (y.led, y.overlay)) = t.pns.leds.map (fun y => (y.led, y.overlay)) := by
  refine ⟨rfl, ?_⟩
  simp only [Station.refreshLeds, List.map_map]
  congr 1
  funext e
  dsimp only [Function.comp]
  split <;> rfl

/-- Every LED but CLIP A and CLIP B shows conditions that no draw changes (R110, R112). -/
theorem ledMode_congr {t u : Station} (led : Led) (hA : led ≠ .clipA) (hB : led ≠ .clipB) (hlif : u.lif = t.lif)
    (hsmg : u.smg = t.smg) (htgu : u.tgu = t.tgu) (hpns : u.pns = t.pns) (hstandby : u.standby = t.standby) :
    u.ledMode led = t.ledMode led := by
  cases t
  cases u
  subst hlif hsmg htgu hpns hstandby
  cases led with
  | clipA => exact absurd rfl hA
  | clipB => exact absurd rfl hB
  | _ => rfl

/-! The completion of a draw (R72). -/

section

variable (p : DrawParams) (r : Record) (hdraw : t.rse.draw = some p) (hslot : p.slot < 4)
  (hrecord : t.acq.slots.get p.slot = .drawing r)

include hdraw

/-- The draw ends, RSE takes what is DONE, the station settles and its LEDs follow. -/
theorem drawCompletion_eq : t.drawCompletion = ((t.endDraw.drawNext 4).settleAcq).refreshLeds t.ticks :=
  if_pos (by simp [hdraw])

/-- RSE and the slots are those that RSE's takes leave. -/
theorem drawCompletion_drawn :
    t.drawCompletion.rse = (t.endDraw.drawNext 4).rse ∧
    t.drawCompletion.acq.slots = (t.endDraw.drawNext 4).acq.slots := by
  simp [drawCompletion_eq t p hdraw]

/-- The completion of a draw changes ACQ, RSE, PNS and the model's counter alone. -/
theorem drawCompletion_frame :
    { t.drawCompletion with acq := t.acq, rse := t.rse, pns := t.pns, free := t.free } = t := by
  rw [drawCompletion_eq t p hdraw]
  apply Station.ext_blocks <;> simp

/-- Of ACQ it changes slots, state and reservation alone. -/
theorem drawCompletion_besideSlots : t.drawCompletion.acq.besideSlots = t.acq.besideSlots := by
  simp [drawCompletion_eq t p hdraw, drawNext_besideSlots]

/-- A CLIP LED is SLOW or OFF by its channel's CLIPPED flag, anew where that changes its base mode (R109, R112). -/
theorem drawCompletion_clipLed (k : Nat) (y : LedEntry) (clipped : Bool) (hy : t.pns.leds[k]? = some y)
    (hled : (y.led, clipped) ∈
      [(Led.clipA, t.drawCompletion.rse.clipA), (Led.clipB, t.drawCompletion.rse.clipB)]) :
    let mode : LedMode := if clipped = true then .slow else .off
    t.drawCompletion.pns.leds[k]? = some ⟨y.led, mode, if mode = y.mode then y.since else t.ticks, y.overlay⟩ := by
  rw [drawCompletion_eq t p hdraw] at hled ⊢
  have hmode : (t.endDraw.drawNext 4).settleAcq.ledMode y.led = if clipped = true then .slow else .off := by
    simp only [refreshLeds_frame, List.mem_cons, Prod.mk.injEq, List.not_mem_nil, or_false] at hled
    obtain ⟨hy, rfl⟩ | ⟨hy, rfl⟩ := hled <;> rw [hy] <;> rfl
  rw [refreshLeds_led]
  simp [hy, hmode]

/-- Any other LED that shows its base mode goes on showing it (R110). -/
theorem drawCompletion_otherLed (k : Nat) (y : LedEntry) (hy : t.pns.leds[k]? = some y) (hA : y.led ≠ .clipA)
    (hB : y.led ≠ .clipB) (hmode : y.mode = t.ledMode y.led) : t.drawCompletion.pns.leds[k]? = some y := by
  have hkept : (t.endDraw.drawNext 4).settleAcq.ledMode y.led = y.mode :=
    (ledMode_congr y.led hA hB (by simp) (by simp) (by simp) (by simp) (by simp)).trans hmode.symm
  rw [drawCompletion_eq t p hdraw, refreshLeds_led]
  simp [hy, hkept]

/-- Of PNS only base modes of LEDs change (R112). -/
theorem drawCompletion_pns :
    { t.drawCompletion.pns with leds := t.pns.leds } = t.pns ∧
    t.drawCompletion.pns.leds.map (fun y => (y.led, y.overlay)) = t.pns.leds.map (fun y => (y.led, y.overlay)) := by
  have h := refreshLeds_pns (t.endDraw.drawNext 4).settleAcq t.ticks
  simpa [drawCompletion_eq t p hdraw] using h

include hslot

/-- A station that waits for a reservation with no slot FREE has reserved the slot of the draw (R33, R77). -/
theorem drawCompletion_reserves (hwaiting : t.acq.state = .preparing ∨ t.acq.state = .prepared)
    (hreserved : t.acq.reserved = none) (hfull : ∀ i, i < 4 → t.acq.slots.get i ≠ .free) :
    t.drawCompletion.acq.reserved = some p.slot := by
  simp only [drawCompletion_eq t p hdraw, refreshLeds_frame]
  exact settleAcq_keepsReserved _ _
    (drawNext_keepsReserved _ _ _ (endDraw_reserves t p hdraw hslot hwaiting hreserved hfull))

/-- The slot of the draw is FREE (R72). -/
theorem drawCompletion_frees : t.drawCompletion.acq.slots.get p.slot = .free := by
  rw [(drawCompletion_drawn t p hdraw).2]
  refine drawNext_keepsFree _ _ _ hslot ?_
  rw [(endDraw_frees t p hdraw).1, Quad.get_set_same _ _ _ hslot]

include hrecord

/-- The draw queue behind the end of the draw is that before it (R36). -/
theorem endDraw_queue : oldestDone t.endDraw.acq.slots = oldestDone t.acq.slots := by
  rw [(endDraw_frees t p hdraw).1, oldestDone_set_free _ _ hslot (by rw [hrecord]; rfl)]

/-- With no record DONE nothing happens behind the end of the draw (R36). -/
theorem endDraw_drawNext_none (h : oldestDone t.acq.slots = none) : t.endDraw.drawNext 4 = t.endDraw :=
  drawNext_none _ _ ((endDraw_queue t p r hdraw hslot hrecord).trans h)

/-- The oldest DONE record is taken behind the end of the draw where a channel is enabled (R36, R64). -/
theorem endDraw_drawNext_takes (i : Nat) (r' : Record) (hold : oldestDone t.acq.slots = some (i, r'))
    (hon : r'.snapshot.a.enable = 1 ∨ r'.snapshot.b.enable = 1) :
    t.endDraw.drawNext 4 = t.endDraw.startDraw i r' :=
  drawNext_takes _ 3 _ _ (endDraw_frees t p hdraw).2 ((endDraw_queue t p r hdraw hslot hrecord).trans hold) hon

/-- It is complete at once where both are disabled (R66). -/
theorem endDraw_drawNext_passes (i : Nat) (r' : Record) (hold : oldestDone t.acq.slots = some (i, r'))
    (hoffA : r'.snapshot.a.enable ≠ 1) (hoffB : r'.snapshot.b.enable ≠ 1) :
    t.endDraw.drawNext 4 = (t.endDraw.startDraw i r').endDraw.drawNext 3 :=
  drawNext_passes _ 3 _ _ (endDraw_frees t p hdraw).2 ((endDraw_queue t p r hdraw hslot hrecord).trans hold) hoffA hoffB

/-- Where no record is complete at once, flags and readouts are those that the draw leaves (R73). -/
theorem drawCompletion_flags
    (hnext : oldestDone t.acq.slots = none ∨
      ∃ i r', oldestDone t.acq.slots = some (i, r') ∧ (r'.snapshot.a.enable = 1 ∨ r'.snapshot.b.enable = 1)) :
    t.drawCompletion.rse.grid = t.endDraw.rse.grid ∧ ∀ isB, t.drawCompletion.drawnFlags isB = r.drawnFlags isB := by
  obtain ⟨-, -, -, hflags, -⟩ := endDraw_rse t p r hdraw hrecord
  simp only [drawnFlags, (drawCompletion_drawn t p hdraw).1]
  obtain hnone | ⟨i, r', hold, hon⟩ := hnext
  · rw [endDraw_drawNext_none t p r hdraw hslot hrecord hnone]
    exact ⟨rfl, hflags⟩
  · rw [endDraw_drawNext_takes t p r hdraw hslot hrecord i r' hold hon]
    exact ⟨rfl, hflags⟩

omit hslot in
/-- Beside layers, draw, flags and grid nothing of RSE changes. -/
theorem drawCompletion_besideDraw : t.drawCompletion.rse.besideDraw = t.rse.besideDraw := by
  obtain ⟨-, -, hbeside, -⟩ := endDraw_rse t p r hdraw hrecord
  rw [(drawCompletion_drawn t p hdraw).1, drawNext_besideDraw, hbeside]

omit hslot hrecord in
/-- The grid follows the last drawn flags (R73, R90). -/
theorem drawCompletion_follows (hwf : Sparse.wf GridCell.blank t.rse.grid = true) : GridFollows t t.drawCompletion := by
  have hdrawn := (endDraw_follows t hwf).trans (drawNext_follows 4 t.endDraw (endDraw_follows t hwf).wf)
  refine hdrawn.trans (gridFollows_of ?_ ?_ hdrawn.wf ?_ fun isB => ?_) <;>
    simp [drawCompletion_eq t p hdraw, drawnFlags]

/-- A channel one of whose flags changes has its readout rebuilt, another may have; where no record is complete at once,
a channel whose flags keep their values has not (R73, R90). -/
theorem drawCompletion_readout (hwf : Sparse.wf GridCell.blank t.rse.grid = true) (isB : Bool) :
    let u := t.drawCompletion
    let shows := ∀ j c, (u.readoutOf isB)[j]? = some c → u.cellAt (t.readoutAt isB + j) = c
    let stays := ∀ j, j < 12 → u.cellAt (t.readoutAt isB + j) = t.cellAt (t.readoutAt isB + j)
    (u.drawnFlags isB ≠ t.drawnFlags isB → shows) ∧ (shows ∨ stays) ∧
    (u.drawnFlags isB = t.drawnFlags isB →
      oldestDone t.acq.slots = none ∨
        (∃ i r', oldestDone t.acq.slots = some (i, r') ∧ (r'.snapshot.a.enable = 1 ∨ r'.snapshot.b.enable = 1)) →
      stays) := by
  intro u shows stays
  have hfollows := drawCompletion_follows t p hdraw hwf
  have hat : u.readoutAt isB = t.readoutAt isB := by simp only [readoutAt, hfollows.straps, u]
  have hchannel := hfollows.channel isB
  rw [hat] at hchannel
  refine ⟨fun hne => hchannel.resolve_right fun h => hne h.1, hchannel.imp_right And.right, fun hsame hnext j hj => ?_⟩
  obtain ⟨hgrid, hflags⟩ := drawCompletion_flags t p r hdraw hslot hrecord hnext
  obtain ⟨-, -, -, -, hstays⟩ := endDraw_rse t p r hdraw hrecord
  rw [← hstays hwf isB ((hflags isB).symm.trans hsame) j hj]
  simp only [cellAt, hgrid, u]

omit hslot hrecord in
/-- The readout that the completion's flags give of a channel, by the LIVE window (R88). -/
theorem drawCompletion_readoutOf (isB : Bool) :
    t.drawCompletion.readoutOf isB =
      channelReadout (if isB then 2 * t.straps.station + 2 else 2 * t.straps.station + 1)
        (if isB then t.live.chB else t.live.chA) (t.drawCompletion.drawnFlags isB).1
        (t.drawCompletion.drawnFlags isB).2 := by
  have hstraps : t.drawCompletion.straps = t.straps := by simp [drawCompletion_eq t p hdraw]
  have hlive : t.drawCompletion.live = t.live := live_congr (by simp [drawCompletion_eq t p hdraw])
  simp only [readoutOf, hstraps, hlive]

/-- What the completion leaves where the oldest DONE record has both channels disabled (R66). -/
theorem drawCompletion_passes (i : Nat) (r' : Record) (hold : oldestDone t.acq.slots = some (i, r'))
    (hoffA : r'.snapshot.a.enable ≠ 1) (hoffB : r'.snapshot.b.enable ≠ 1) :
    let u := t.drawCompletion
    u.acq.slots.get i = .free ∧ (∀ isB, u.drawnFlags isB = (false, false)) ∧
    (oldestDone (t.acq.slots.set i .free) = none →
      u.rse.draw = none ∧
      ∀ L', L' ∈ [u.rse.layerA, u.rse.layerB] →
        L'.todo = [] ∧ L'.snapshot = none ∧ L'.clearPending = false ∧ ∀ a, L'.cell a = 0) := by
  obtain ⟨hi, hdone⟩ := oldestDone_done _ _ _ hold
  have hother : p.slot ≠ i := by
    rintro rfl
    rw [hrecord] at hdone
    cases hdone
  obtain ⟨hA, hB, -, hflags, -⟩ := endDraw_rse (t.endDraw.startDraw i r') _ r' rfl (startDraw_slot _ i r' hi)
  obtain ⟨hfreed, hidle⟩ := endDraw_frees (t.endDraw.startDraw i r') _ rfl
  have hslots : (t.endDraw.startDraw i r').endDraw.acq.slots = (t.acq.slots.set i .free).set p.slot .free :=
    calc (t.endDraw.startDraw i r').endDraw.acq.slots
        = (t.endDraw.acq.slots.set i (.drawing r')).set i .free := hfreed
      _ = (t.acq.slots.set p.slot .free).set i .free := by
          rw [slots_set_set _ _ _ _ hi, (endDraw_frees t p hdraw).1]
      _ = (t.acq.slots.set i .free).set p.slot .free := slots_set_comm _ _ _ _ _ hslot hi hother
  have hnone : oldestDone (t.acq.slots.set i .free) = none →
      oldestDone (t.endDraw.startDraw i r').endDraw.acq.slots = none := fun h => by
    rw [hslots, oldestDone_set_free _ _ hslot, h]
    rw [Quad.get_set_other _ _ _ _ hi hslot hother.symm, hrecord]
    rfl
  simp only [drawnFlags, (drawCompletion_drawn t p hdraw).1, (drawCompletion_drawn t p hdraw).2,
    endDraw_drawNext_passes t p r hdraw hslot hrecord i r' hold hoffA hoffB]
  refine ⟨drawNext_keepsFree _ _ _ hi ?_, drawNext_keepsNoFlags _ _ fun isB => ?_, fun h => ?_⟩
  · rw [hfreed, Quad.get_set_same _ _ _ hi]
  · rw [hflags]
    cases isB <;> simp [Record.drawnFlags, hoffA, hoffB]
  · rw [drawNext_none _ _ (hnone h)]
    refine ⟨hidle, fun L' hL => ?_⟩
    simp only [List.mem_cons, List.not_mem_nil, or_false] at hL
    obtain rfl | rfl := hL
    · exact hA.blank hoffA
    · exact hB.blank hoffB

/-- What the completion leaves with no other record DONE: RSE is idle (R36, R72). -/
theorem drawCompletion_idle (hnone : oldestDone t.acq.slots = none) :
    let u := t.drawCompletion
    u.acq.slots = t.acq.slots.set p.slot .free ∧ u.rse.draw = none ∧
    LayerDrawn (16 * p.intensity) t.rse.decayPass t.rse.layerA u.rse.layerA ∧
    LayerDrawn (16 * p.intensity) t.rse.decayPass t.rse.layerB u.rse.layerB := by
  obtain ⟨hA, hB, -⟩ := endDraw_rse t p r hdraw hrecord
  obtain ⟨hfreed, hidle⟩ := endDraw_frees t p hdraw
  simp only [(drawCompletion_drawn t p hdraw).1, (drawCompletion_drawn t p hdraw).2,
    endDraw_drawNext_none t p r hdraw hslot hrecord hnone]
  exact ⟨hfreed, hidle, hA, hB⟩

/-- What the completion leaves where the oldest DONE record has a channel enabled: RSE draws it, in layers prepared for
it (R64 to R66). -/
theorem drawCompletion_takes (i : Nat) (r' : Record) (hold : oldestDone t.acq.slots = some (i, r'))
    (hon : r'.snapshot.a.enable = 1 ∨ r'.snapshot.b.enable = 1) :
    let u := t.drawCompletion
    let common := t.live.common
    u.acq.slots.get i = .drawing r' ∧ u.rse.draw = some ⟨i, common.intensity, common.persist⟩ ∧
    ∃ A B,
      LayerDrawn (16 * p.intensity) t.rse.decayPass t.rse.layerA A ∧
      LayerDrawn (16 * p.intensity) t.rse.decayPass t.rse.layerB B ∧
      u.rse.layerA =
        prepareLayer common.persist (r'.snapshot.drawn r'.snapshot.a) r'.snapshot.a.enable
          (traceCells r'.le r'.first r'.pointsA) A ∧
      u.rse.layerB =
        prepareLayer common.persist (r'.snapshot.drawn r'.snapshot.b) r'.snapshot.b.enable
          (traceCells r'.le r'.first r'.pointsB) B := by
  obtain ⟨hA, hB, -⟩ := endDraw_rse t p r hdraw hrecord
  have hlive : t.endDraw.live = t.live := live_congr (by simp)
  simp only [(drawCompletion_drawn t p hdraw).1, (drawCompletion_drawn t p hdraw).2,
    endDraw_drawNext_takes t p r hdraw hslot hrecord i r' hold hon, ← hlive]
  refine ⟨startDraw_slot _ i r' (oldestDone_done _ _ _ hold).1, rfl, _, _, hA, hB, ?_, ?_⟩
  · rw [← hA.afterClears]
    rfl
  · rw [← hB.afterClears]
    rfl

end

end Station

/-- Settles O49: what the `drawCompletion` lemmas say of RSE, ACQ and PNS, by what the draw queue holds, each layer by
`LayerDrawn` and `prepareLayer_drawn`; the cells of a trace by `traceSpans_spec`. -/
theorem drawCompletionDrawsAndGoesOn : Obligations.DrawCompletionDrawsAndGoesOn := by
  unfold Obligations.DrawCompletionDrawsAndGoesOn
  refine ⟨fun s p r hpowered hdraw hslot hrecord => ?_, fun le first points hle hpoints => ?_⟩
  · intro rse live
    have hfreed := Station.drawCompletion_frees s.station p hdraw hslot
    have hbeside := Station.drawCompletion_besideDraw s.station p r hdraw hrecord
    obtain ⟨hpns, hoverlays⟩ := Station.drawCompletion_pns s.station p hdraw
    refine ⟨s.station.drawCompletion, State.on_powered s _ hpowered, hfreed, (Rse.besideDraw_iff _ _).mp hbeside,
      fun hwf => ?_, ?_, Station.drawCompletion_otherLed s.station p hdraw, hoverlays, hpns, fun hnext => ?_,
      fun hnone => ?_, fun i r' hold hon => ?_, fun i r' hold hoffA hoffB => ?_,
      Station.drawCompletion_reserves s.station p hdraw hslot, Station.drawCompletion_frame s.station p hdraw,
      (Acq.besideSlots_iff _ _).mp (Station.drawCompletion_besideSlots s.station p hdraw)⟩
    · have hfollows := Station.drawCompletion_follows s.station p hdraw hwf
      refine ⟨hfollows.outside, fun start readout changed hmem => ?_⟩
      simp only [List.mem_cons, Prod.mk.injEq, List.not_mem_nil, or_false] at hmem
      obtain ⟨isB, rfl, rfl, hchanged⟩ : ∃ isB, start = s.station.readoutAt isB ∧
          readout = s.station.drawCompletion.readoutOf isB ∧
          (changed = true ↔ s.station.drawCompletion.drawnFlags isB ≠ s.station.drawnFlags isB) := by
        simp only [Station.drawCompletion_readoutOf s.station p hdraw]
        obtain ⟨rfl, rfl, rfl⟩ | ⟨rfl, rfl, rfl⟩ := hmem
        · exact ⟨false, rfl, rfl, by simp [Station.drawnFlags, imp_iff_not_or, rse]⟩
        · exact ⟨true, rfl, rfl, by simp [Station.drawnFlags, imp_iff_not_or, rse]⟩
      obtain ⟨hshows, hfollowed, hstays⟩ :=
        Station.drawCompletion_readout s.station p r hdraw hslot hrecord hwf isB
      exact ⟨fun h => hshows (hchanged.mp h), hfollowed, fun h => hstays (by simpa [h] using hchanged)⟩
    · rintro k y led clipped hy rfl hled
      exact Station.drawCompletion_clipLed s.station p hdraw k y clipped hy hled
    · obtain ⟨-, hflags⟩ := Station.drawCompletion_flags s.station p r hdraw hslot hrecord hnext
      obtain ⟨hclipA, hsatA⟩ := Prod.mk.inj (hflags false)
      obtain ⟨hclipB, hsatB⟩ := Prod.mk.inj (hflags true)
      exact ⟨hclipA, hsatA, hclipB, hsatB⟩
    · obtain ⟨hslots, hidle, hA, hB⟩ := Station.drawCompletion_idle s.station p r hdraw hslot hrecord hnone
      refine ⟨hslots, hidle, fun L L' hL => ?_⟩
      simp only [List.mem_cons, Prod.mk.injEq, List.not_mem_nil, or_false] at hL
      obtain ⟨rfl, rfl⟩ | ⟨rfl, rfl⟩ := hL
      · exact hA.idle
      · exact hB.idle
    · obtain ⟨htaken, hdraws, A, B, hA, hB, hlayerA, hlayerB⟩ :=
        Station.drawCompletion_takes s.station p r hdraw hslot hrecord i r' hold hon
      refine ⟨htaken, hdraws, fun L L' ch points hL => ?_⟩
      simp only [List.mem_cons, Prod.mk.injEq, List.not_mem_nil, or_false] at hL
      obtain ⟨rfl, rfl, rfl, rfl⟩ | ⟨rfl, rfl, rfl, rfl⟩ := hL
      · rw [hlayerA]
        exact prepareLayer_drawn _ _ _ _ _ _ _ _ hA
      · rw [hlayerB]
        exact prepareLayer_drawn _ _ _ _ _ _ _ _ hB
    · obtain ⟨hfree, hflags, hlayers⟩ :=
        Station.drawCompletion_passes s.station p r hdraw hslot hrecord i r' hold hoffA hoffB
      obtain ⟨hclipA, hsatA⟩ := Prod.mk.inj (hflags false)
      obtain ⟨hclipB, hsatB⟩ := Prod.mk.inj (hflags true)
      exact ⟨hfree, hclipA, hsatA, hclipB, hsatB, hlayers⟩
  · intro row own
    obtain ⟨hsorted, hcolumns, hfirst, hjoined⟩ := traceSpans_spec le first points hpoints
    refine ⟨traceSpans le first points, fun a => ?_, hsorted, fun x => ?_,
      fun sp rest h => coversRows_byIndex (hfirst sp rest h), fun before prev sp after h => ?_⟩
    · simp only [traceCells, List.mem_flatMap, mem_spanCells]
    · rw [hcolumns, exists_inColumn_iff]
    · obtain ⟨hprev, u, hu, rfl⟩ := hjoined before prev sp after h
      obtain ⟨habove, hbelow, hmeets, -⟩ := joinSpan_rows prev u hprev (coversRows_ordered hpoints hu)
      rw [joinSpan_column]
      exact ⟨u.top, u.bottom, coversRows_byIndex hu, habove, hbelow, hmeets⟩

end Sys2Proof.Machine

namespace Sys2Proof.Machine

/-! The lines of the graticule (R83). -/

section

variable (r x : Nat)

theorem onFrame_iff : onFrame r x = true ↔ x = 0 ∨ x = 799 ∨ r = 0 ∨ r = 399 := by
  simp [onFrame, or_assoc]

theorem onGrid_iff :
    onGrid r x = true ↔
      onFrame r x = true ∨ (1 ≤ x ∧ 80 ∣ x ∧ 4 ∣ r) ∨ (1 ≤ r ∧ 50 ∣ r ∧ 4 ∣ x) := by
  simp [onGrid, Nat.dvd_iff_mod_eq_zero, Nat.one_le_iff_ne_zero, Nat.pos_iff_ne_zero, or_assoc, and_assoc]

theorem onFull_iff :
    onFull r x = true ↔
      onGrid r x = true ∨ x = 400 ∨ r = 200 ∨ (198 ≤ r ∧ r ≤ 202 ∧ 16 ∣ x) ∨ (398 ≤ x ∧ x ≤ 402 ∧ 10 ∣ r) := by
  simp [onFull, Nat.dvd_iff_mod_eq_zero, or_assoc, and_assoc]

/-- GRATICULE chooses the lines: FULL, GRID or FRAME, each line pixel (0, 48). -/
theorem graticulePixel_eq (graticule : Nat) (h : graticule ≤ 2) :
    graticulePixel graticule r x =
      if (graticule = 0 ∧ onFull r x = true) ∨ (graticule = 1 ∧ onGrid r x = true) ∨
          (graticule = 2 ∧ onFrame r x = true) then
        ⟨0, 48⟩
      else ⟨0, 0⟩ := by
  match graticule, h with
  | 0, _ | 1, _ | 2, _ => simp [graticulePixel, blackPixel]

end

/-! The frame starts (R80 to R82). -/

/-- The output frames behind a frame start at an instant: one more, which starts one row period later, in front of
some of those before; till then the output frame in progress is the one it would have been. -/
def OutsFollow (old new : List OutFrame) (x : Nat) : Prop :=
  ∃ kept, new = ⟨x + 4000, none⟩ :: kept ∧ (∀ o ∈ kept, o ∈ old) ∧
    (old.Pairwise (fun a b => b.start ≤ a.start) → ∀ now, x ≤ now → now < x + 4000 →
      new.find? (fun o => decide (o.start ≤ now)) = old.find? (fun o => decide (o.start ≤ now)))

namespace Station

/-- The output frames that still matter are some of those there were. -/
theorem mem_of_mem_currentOuts (x : Nat) (outs : List OutFrame) (o : OutFrame) (h : o ∈ currentOuts x outs) :
    o ∈ outs := by
  rcases List.mem_append.mp h with h | h
  · exact (List.mem_filter.mp h).1
  · exact (List.mem_filter.mp (List.mem_of_mem_take h)).1

/-- Of output frames newest first, the newest that has started by a later instant still matters. -/
theorem find_currentOuts (x now : Nat) (hnow : x ≤ now) : ∀ outs : List OutFrame,
    outs.Pairwise (fun a b => b.start ≤ a.start) →
      (currentOuts x outs).find? (fun o => decide (o.start ≤ now)) = outs.find? (fun o => decide (o.start ≤ now))
  | [], _ => rfl
  | o :: outs, hsorted => by
    obtain ⟨holder, hrest⟩ := List.pairwise_cons.mp hsorted
    by_cases ho : x < o.start
    · have hkept : currentOuts x (o :: outs) = o :: currentOuts x outs := by
        simp [currentOuts, ho, Nat.not_le.mpr ho]
      rw [hkept, List.find?_cons, List.find?_cons, find_currentOuts x now hnow outs hrest]
    · have hstarted : outs.filter (fun o => decide (x < o.start)) = [] := by
        refine List.filter_eq_nil_iff.mpr fun b hb => ?_
        have := holder b hb
        simp only [decide_eq_true_eq]
        omega
      simp [currentOuts, ho, hstarted, Nat.not_lt.mp ho, (Nat.not_lt.mp ho).trans hnow]

/-- A frame start leaves the output frames as `OutsFollow` says. -/
theorem outsFollow_currentOuts (x : Nat) (outs : List OutFrame) :
    OutsFollow outs (⟨x + 4000, none⟩ :: currentOuts x outs) x := by
  refine ⟨_, rfl, mem_of_mem_currentOuts x outs, fun hsorted now hfrom hto => ?_⟩
  rw [List.find?_cons_of_neg (by simpa using hto)]
  exact find_currentOuts x now hfrom outs hsorted

variable (t : Station)

theorem generates_iff : t.generates = true ↔ t.straps.chain = .head ∨ t.straps.chain = .sole := by
  simp [generates]

/-- The graticule held for a frame that starts now: GRATICULE at a station that generates its stream (R80, R83). -/
def frameGraticule : Option Nat := if t.generates then some t.live.common.graticule else none

theorem frameGraticule_generated (h : t.generates = true) : t.frameGraticule = some t.live.common.graticule :=
  if_pos h

theorem frameGraticule_received (h : ¬ t.generates = true) : t.frameGraticule = none := if_neg h

variable (x : Nat)

theorem startFrame_eq :
    t.startFrame x =
      { t with
        rse :=
          { t.rse with
            frame := some ⟨t.frameGraticule, 0, x + 4000⟩
            outs := ⟨x + 4000, none⟩ :: currentOuts x t.rse.outs } } := rfl

theorem frameExpiry_eq :
    t.frameExpiry x =
      { t with
        rse :=
          { t.rse with
            frameTimer := some (x + 1666667), frame := some ⟨t.frameGraticule, 0, x + 4000⟩
            outs := ⟨x + 4000, none⟩ :: currentOuts x t.rse.outs } } := rfl

theorem frameExpiry_received (h : ¬ t.generates = true) :
    t.frameExpiry x =
      { t with
        rse :=
          { t.rse with
            frameTimer := some (x + 1666667), frame := some ⟨none, 0, x + 4000⟩
            outs := ⟨x + 4000, none⟩ :: currentOuts x t.rse.outs } } := by
  rw [frameExpiry_eq, frameGraticule_received t h]

/-- A HEAD or SOLE disregards a frame start marker (R80). -/
theorem markerReceived_generated (h : t.generates = true) : t.markerReceived x = t := if_pos h

/-- A LINK or TAIL follows the marker's frame, with its loss timer restarted (R82). -/
theorem markerReceived_follows (h : ¬ t.generates = true) :
    t.markerReceived x =
      { t with
        rse :=
          { t.rse with
            freeRunning := false, frameTimer := none, lossTimer := some (x + 50 * Config.ms)
            frame := some ⟨none, 0, x + 4000⟩, outs := ⟨x + 4000, none⟩ :: currentOuts x t.rse.outs } } := by
  rw [markerReceived, if_neg h, startFrame_eq, frameGraticule_received t h]

/-- A LINK or TAIL runs free from the loss timer's expiry on (R82). -/
theorem lossExpiry_runsFree (h : ¬ t.generates = true) :
    t.lossExpiry x =
      { t with
        rse :=
          { t.rse with
            freeRunning := true, lossTimer := none, frameTimer := some (x + 1666667)
            frame := some ⟨none, 0, x + 4000⟩, outs := ⟨x + 4000, none⟩ :: currentOuts x t.rse.outs } } :=
  frameExpiry_received { t with rse := { t.rse with freeRunning := true, lossTimer := none } } x h

end Station

/-- The frame timer's expiry is acted on in no order against other events (log 62). -/
theorem execFrameTimerExpiry_due (s : State) (d : Nat) (hpowered : s.station.powered = true)
    (htimer : s.station.rse.frameTimer = some d) (hdue : d ≤ s.station.ticks) :
    exec .frameTimerExpiry s = .next (s.put (s.station.frameExpiry d)) := by
  change execFrameTimerExpiry s = _
  rw [execFrameTimerExpiry, State.on_powered s _ hpowered]
  simp only [htimer, hdue, if_true]

/-- A marker is acted on once an earlier expiry of the loss timer has been, and in no other order (log 62). -/
theorem execFrameStartMarker_acts (s : State) (hpowered : s.station.powered = true)
    (hloss : ∀ d, s.station.rse.lossTimer = some d → s.station.ticks ≤ d) :
    exec .frameStartMarker s = .next (s.put (s.station.markerReceived s.station.ticks)) := by
  change execFrameStartMarker s = _
  rw [execFrameStartMarker, State.on_powered s _ hpowered]
  cases htimer : s.station.rse.lossTimer with
  | none => rfl
  | some d => simp only [hloss d htimer, if_true]

/-- Settles O51: each start by what its act leaves of RSE, the output frames by `outsFollow_currentOuts`, the lines by
`graticulePixel_eq`. -/
theorem framesStartByTimerMarkerOrLoss : Obligations.FramesStartByTimerMarkerOrLoss := by
  unfold Obligations.FramesStartByTimerMarkerOrLoss
  intro heads follows
  refine ⟨fun s d hpowered htimer hdue => ?_, fun s hpowered hloss => ⟨fun hheads => ?_, fun hheads => ?_⟩,
    fun s d h hheads => ?_, fun graticule r x _ _ => ?_⟩
  · refine ⟨s.station.frameGraticule, _, Station.outsFollow_currentOuts _ _,
      execFrameTimerExpiry_due s d hpowered htimer hdue, fun hheads => ?_, fun hheads => ?_⟩
    · exact Station.frameGraticule_generated _ ((Station.generates_iff _).mpr hheads)
    · exact Station.frameGraticule_received _ fun h => hheads ((Station.generates_iff _).mp h)
  · rw [execFrameStartMarker_acts s hpowered hloss,
      Station.markerReceived_generated _ _ ((Station.generates_iff _).mpr hheads)]
  · refine ⟨_, Station.outsFollow_currentOuts _ _, ?_⟩
    rw [execFrameStartMarker_acts s hpowered hloss,
      Station.markerReceived_follows _ _ fun h => hheads ((Station.generates_iff _).mp h)]
  · refine ⟨_, Station.outsFollow_currentOuts _ _, ?_⟩
    rw [show exec .lossTimerExpiry s = _ from State.on_expires s (·.rse.lossTimer) Station.lossExpiry d h,
      Station.lossExpiry_runsFree _ _ fun h => hheads ((Station.generates_iff _).mp h)]
  · intro onFrame onGrid onFull line hgraticule
    rw [graticulePixel_eq r x graticule hgraticule]
    simp only [onFull_iff, onGrid_iff, onFrame_iff]
    exact ⟨fun h => if_pos h, fun h => if_neg h⟩

end Sys2Proof.Machine

namespace Sys2Proof.Machine

/-! The pixels of a merged row (R84 to R86). -/

section

variable (own : Nat) (enableA enableB : Bool) (a b : BitVec 8)

/-- Layer A is the candidate when it takes part and layer B is not brighter (R84). -/
theorem candidatePixel_layerA (hA : enableA = true) (hB : enableB = true → b.toNat ≤ a.toNat) :
    candidatePixel own enableA enableB a b = some ⟨BitVec.ofNat 4 (2 * own + 1), a⟩ := by
  refine if_pos ?_
  cases enableB with
  | false => simp [hA]
  | true => simp [hA, hB rfl]

/-- Layer B is the candidate when it takes part and outshines layer A (R84). -/
theorem candidatePixel_layerB (hB : enableB = true) (hA : enableA = true → a.toNat < b.toNat) :
    candidatePixel own enableA enableB a b = some ⟨BitVec.ofNat 4 (2 * own + 2), b⟩ := by
  subst hB
  cases enableA with
  | false => rfl
  | true => simp [candidatePixel, hA rfl]

/-- The candidate's intensity is that of a layer that takes part (R84). -/
theorem candidatePixel_intensity (p : Pixel) (h : candidatePixel own enableA enableB a b = some p) :
    (enableA = true ∧ p.intensity = a) ∨ (enableB = true ∧ p.intensity = b) := by
  unfold candidatePixel at h
  split at h
  · next hA =>
    obtain ⟨henabled, -⟩ := Bool.and_eq_true_iff.mp hA
    cases h
    exact .inl ⟨henabled, rfl⟩
  · split at h
    · next hB => cases h; exact .inr ⟨hB, rfl⟩
    · cases h

end

/-- A strictly brighter candidate replaces the upstream pixel (R85). -/
theorem overUpstream_brighter (p up : Pixel) (h : up.intensity.toNat < p.intensity.toNat) :
    overUpstream (some p) up = p := if_pos h

/-- The upstream pixel passes where no candidate is brighter (R85). -/
theorem overUpstream_passes (c : Option Pixel) (up : Pixel)
    (h : ∀ p, c = some p → p.intensity.toNat ≤ up.intensity.toNat) : overUpstream c up = up := by
  cases c with
  | none => rfl
  | some p => exact if_neg (Nat.not_lt.mpr (h p rfl))

/-- What the local candidate gives over an upstream pixel, by what takes part and which is brighter (R84, R85). -/
theorem overUpstream_candidatePixel (own : Nat) (onA onB : Prop) [Decidable onA] [Decidable onB] (a b : BitVec 8)
    (up : Pixel) :
    let shown := overUpstream (candidatePixel own (decide onA) (decide onB) a b) up
    (onA → (onB → b.toNat ≤ a.toNat) → up.intensity.toNat < a.toNat →
      shown = ⟨BitVec.ofNat 4 (2 * own + 1), a⟩) ∧
    (onB → (onA → a.toNat < b.toNat) → up.intensity.toNat < b.toNat →
      shown = ⟨BitVec.ofNat 4 (2 * own + 2), b⟩) ∧
    ((onA → a.toNat ≤ up.intensity.toNat) → (onB → b.toNat ≤ up.intensity.toNat) → shown = up) := by
  intro shown
  refine ⟨fun hA hB hbright => ?_, fun hB hA hbright => ?_, fun hA hB => ?_⟩
  · simp only [shown]
    rw [candidatePixel_layerA _ _ _ _ _ (by simpa using hA) (by simpa using hB)]
    exact overUpstream_brighter _ _ hbright
  · simp only [shown]
    rw [candidatePixel_layerB _ _ _ _ _ (by simpa using hB) (by simpa using hA)]
    exact overUpstream_brighter _ _ hbright
  · refine overUpstream_passes _ _ fun p hp => ?_
    obtain ⟨henabled, hp⟩ | ⟨henabled, hp⟩ := candidatePixel_intensity _ _ _ _ _ _ hp
    · exact hp ▸ hA (of_decide_eq_true henabled)
    · exact hp ▸ hB (of_decide_eq_true henabled)

namespace GridCell

variable (g : GridCell) (row column : Nat) (merged : Pixel)

/-- A cell of code 0 is transparent (R86). -/
theorem over_transparent (h : g.code = 0) : g.over row column merged = merged := if_pos h

/-- A cell that is not inverse lights its glyph (R86). -/
theorem over_glyph (hcode : g.code ≠ 0) (hinverse : g.inverse = false) :
    g.over row column merged =
      if glyphSet g.code row column then ⟨g.colour, if g.dim then 128 else 255⟩ else merged := by
  simp [GridCell.over, hcode, hinverse]

/-- An inverse cell lights what lies outside its glyph, which is black (R86). -/
theorem over_inverse (hcode : g.code ≠ 0) (hinverse : g.inverse = true) :
    g.over row column merged =
      if glyphSet g.code row column then ⟨0, 0⟩ else ⟨g.colour, if g.dim then 128 else 255⟩ := by
  simp [GridCell.over, hcode, hinverse]

end GridCell

namespace Station

/-! The layers behind a merge (R64, R84). -/

/-- With no draw and no decay pass in progress no cell of the layer changes. -/
theorem rowLayer_cell_still (free layer r amount : Nat) (pass : Bool) (reach : DrawReach) (L : Layer)
    (hwf : Sparse.wf 0 L.cells = true) (htodo : L.todo = []) (hpass : pass = false) (a : Nat) :
    (rowLayer free layer r amount pass reach L).cell a = L.cell a := by
  rw [rowLayer, advance_cell _ _ _ _ _ _ hwf (by simp [htodo])]
  simp [htodo, hpass]

/-- While a cell of layer A is still to draw the draw has not begun layer B (R64). -/
theorem reachB_notBegun (t : Station) (picked : Bool) (a : Nat) (ha : a ∈ t.rse.layerA.todo)
    (hstill : t.reachA.draws picked = false) : t.reachB = .notBegun := by
  have hunfinished : Config.layerFinished t.free ≠ true := by
    intro hfinished
    simp [reachA, hfinished, DrawReach.draws] at hstill
  exact if_neg (by simp [List.ne_nil_of_mem ha, hunfinished])

/-- No cell of layer B is drawn while one of layer A is still to draw (R64). -/
theorem rowLayer_todo_ordered (t : Station) (r amountA amountB : Nat) (passA passB : Bool)
    (h : (rowLayer t.free 0 r amountA passA t.reachA t.rse.layerA).todo ≠ []) :
    (rowLayer t.free 1 r amountB passB t.reachB t.rse.layerB).todo = t.rse.layerB.todo := by
  obtain ⟨a, ha⟩ := List.exists_mem_of_ne_nil _ h
  obtain ⟨hin, hstill⟩ := List.mem_filter.mp ha
  rw [reachB_notBegun t _ a hin (by simpa using hstill)]
  simp [rowLayer, Layer.advance, DrawReach.draws]

/-! What a merge leaves (R80, R84). -/

/-- The station whose layers the merge of a row reads: a draw and a decay pass in progress have come on (R84). -/
def rowReached (r : Nat) (t : Station) : Station :=
  { t with
    free := t.free + 1
    rse :=
      { t.rse with
        layerA := rowLayer t.free 0 r t.drawAmount t.rse.decayPass t.reachA t.rse.layerA
        layerB := rowLayer t.free 1 r t.drawAmount t.rse.decayPass t.reachB t.rse.layerB } }

variable (t : Station) (f : Frame) (received : List Pixel)

/-- A merge puts its row, of 800 merged pixels, in front of those whose row period has not ended (R80, R82). -/
theorem mergeRow_composes :
    ∃ pixels, (t.mergeRow f received).rse.rows =
        ⟨f.next, pixels, t.rowSendAt f, f.outStart⟩ ::
          t.rse.rows.filter (fun n => decide (t.ticks < n.sendAt + 4000)) ∧
      pixels.length = 800 ∧
      ∀ x (hx : x < pixels.length),
        pixels[x] = (t.rowReached f.next).mergedPixel f.graticule received f.next x := by
  refine ⟨_, rfl, by simp, fun x hx => ?_⟩
  rw [List.getElem_map, List.getElem_range]
  rfl

/-- The next row of the frame in progress is merged when it has come. -/
theorem rowMerge_merges (hframe : t.rse.frame = some f) (hnext : f.next < 400)
    (hcome : t.originates = true → f.outStart + 4000 * f.next ≤ t.ticks + 4000) (hlength : received.length = 800) :
    t.rowMerge received = t.mergeRow f received := by
  simp only [rowMerge, hframe]
  refine if_pos ?_
  cases horiginates : t.originates with
  | false => simp [hnext, hlength]
  | true => simp [hnext, hcome horiginates]

/-- A merge changes nothing of what is being sent while its own row period has not begun (R80). -/
theorem output_mergeRow (h : t.ticks < t.rowSendAt f) :
    (t.mergeRow f received).outputRow = t.outputRow ∧ (t.mergeRow f received).outputPixel = t.outputPixel ∧
      (t.mergeRow f received).sendsRowStart = t.sendsRowStart := by
  simp only [outputRow, outputPixel, sendsRowStart, sentRow_mergeRow t f received h]
  exact ⟨rfl, rfl, rfl⟩

/-! What is being sent (R79 to R81, R92). -/

section

variable {t}

/-- The output frame in progress is the newest that has started. -/
theorem outFrame_eq {before behind : List OutFrame} {o : OutFrame} (houts : t.rse.outs = before ++ o :: behind)
    (hbefore : ∀ y ∈ before, t.ticks < y.start) (ho : o.start ≤ t.ticks) : t.outFrame = some o :=
  List.find?_eq_some_iff_append.mpr
    ⟨by simpa using ho, before, behind, houts, fun y hy => by simpa using hbefore y hy⟩

theorem rowSent_iff (o : OutFrame) (m : MergedRow) :
    t.rowSent o m = true ↔ m.out = o.start ∧ m.sendAt ≤ t.ticks ∧ t.ticks < m.sendAt + 4000 := by
  simp [rowSent, and_assoc]

/-- The row being sent is the newest of the output frame in progress whose row period runs. -/
theorem sentRow_eq {newer older : List MergedRow} {m : MergedRow} {o : OutFrame} (ho : t.outFrame = some o)
    (hrows : t.rse.rows = newer ++ m :: older)
    (hnewer : ∀ n ∈ newer, n.out ≠ o.start ∨ t.ticks < n.sendAt ∨ n.sendAt + 4000 ≤ t.ticks)
    (hm : t.rowSent o m = true) : t.sentRow = some m := by
  rw [sentRow, ho, Option.bind_some]
  refine List.find?_eq_some_iff_append.mpr ⟨hm, newer, older, hrows, fun n hn => ?_⟩
  rw [Bool.not_eq_true', Bool.eq_false_iff, ne_eq, rowSent_iff]
  rintro ⟨hout, hbegun, hruns⟩
  obtain hother | hwaits | hended := hnewer n hn
  · exact hother hout
  · omega
  · omega

/-- The output frame in progress is blank by the request noted at its start, or by that which stands. -/
theorem frameBlank_eq {o : OutFrame} (ho : t.outFrame = some o) : t.frameBlank = o.blank.getD t.rse.blank := by
  simp [frameBlank, ho]

variable {m : MergedRow} (hm : t.sentRow = some m)
include hm

theorem outputRow_eq : t.outputRow = some (m.row, t.sentPixels m) := by simp [outputRow, hm]

theorem sendsRowStart_iff : t.sendsRowStart = true ↔ t.ticks = m.sendAt := by
  simp [sendsRowStart, hm, eq_comm]

theorem outputPixel_eq : t.outputPixel = (t.sentPixels m)[(t.ticks - m.sendAt) / 2]? := by simp [outputPixel, hm]

/-- Each pixel is sent for two ticks (R81). -/
theorem outputPixel_twoTicks (k : Nat) (h : t.ticks = m.sendAt + 2 * k ∨ t.ticks = m.sendAt + 2 * k + 1) :
    t.outputPixel = (t.sentPixels m)[k]? := by
  rw [outputPixel_eq hm, show (t.ticks - m.sendAt) / 2 = k by omega]

/-- Behind its 800 pixels the row period carries none (R81). -/
theorem outputPixel_none (hlength : m.pixels.length = 800) (h : m.sendAt + 1600 ≤ t.ticks) : t.outputPixel = none := by
  have hsent : (t.sentPixels m).length = 800 := by
    unfold sentPixels
    split
    · exact List.length_replicate
    · exact hlength
  rw [outputPixel_eq hm, List.getElem?_eq_none_iff, hsent]
  omega

end

theorem sendsFrameStart_iff : t.sendsFrameStart = true ↔ ∃ y ∈ t.rse.outs, y.start = t.ticks := by
  simp [sendsFrameStart]

/-- TAIL and SOLE send to the LCD, whose blank signal is that of the output frame in progress (R80, R92). -/
theorem outputPort_lcd (h : t.straps.chain = .tail ∨ t.straps.chain = .sole) :
    t.outputPort = .lcd ∧ t.lcdBlank = some t.frameBlank := by
  have hport : t.outputPort = .lcd := by rcases h with h | h <;> simp [outputPort, h]
  exact ⟨hport, by simp [lcdBlank, hport]⟩

/-- HEAD and LINK send on the raster link, which has no blank signal (R80, R92). -/
theorem outputPort_rasterLink (h : t.straps.chain = .head ∨ t.straps.chain = .link) :
    t.outputPort = .rasterLink ∧ t.lcdBlank = none := by
  have hport : t.outputPort = .rasterLink := by rcases h with h | h <;> simp [outputPort, h]
  exact ⟨hport, by simp [lcdBlank, hport]⟩

end Station

/-- Settles O52: the merged row as `mergeRow_composes` has it, each pixel by `overUpstream_candidatePixel` and the
`GridCell.over` lemmas; what is sent by the output frame in progress and its row, `outFrame_eq` and `sentRow_eq`. -/
theorem rowMergeComposesEveryPixel : Obligations.RowMergeComposesEveryPixel := by
  unfold Obligations.RowMergeComposesEveryPixel
  refine ⟨fun s upstream f hpowered hwf hframe hnext hcome => ?_,
    fun t newer older m before behind o houts hbefore ho => ?_⟩
  · intro rse own
    have hlength : upstream.length = 800 := by rwa [Laws.Admissible.wf_rowMerge, decide_eq_true_eq] at hwf
    have hexec : exec (.rowMerge upstream) s = .next (s.put (s.station.mergeRow f upstream)) := by
      rw [← Station.rowMerge_merges s.station f upstream hframe hnext hcome hlength]
      exact State.on_powered s _ hpowered
    obtain ⟨pixels, hrows, hpixels, hmerged⟩ := Station.mergeRow_composes s.station f upstream
    refine ⟨s.station.mergeRow f upstream, ⟨f.next, pixels, s.station.rowSendAt f, f.outStart⟩, hexec, rfl, hrows, rfl,
      hpixels, rfl, rfl, Station.output_mergeRow _ _ _, fun x hx => ?_, fun L L' hL hcells htodo hpass => ?_,
      Station.rowLayer_todo_ordered _ _ _ _ _ _, rfl⟩
    · intro up onA onB a b cell lit glyph
      have hup : (s.station.rowReached f.next).upstreamPixel f.graticule upstream f.next x = up := by
        simp only [up, Station.upstreamPixel]
        cases f.graticule <;> rfl
      have hpixel : pixels[x] =
          cell.over (f.next % 16) (x % 8) (overUpstream (candidatePixel own (decide onA) (decide onB) a b) up) := by
        rw [hmerged, Station.mergedPixel, hup, cellAddress, gridAddress, Nat.mul_comm f.next,
          Nat.mul_comm (f.next / 16)]
        rfl
      obtain ⟨hshowsA, hshowsB, hpasses⟩ := overUpstream_candidatePixel own onA onB a b up
      refine ⟨_, hshowsA, hshowsB, hpasses, fun hcode => ?_, fun hcode hinverse => ?_, fun hcode hinverse => ?_⟩
      · exact hpixel.trans (GridCell.over_transparent _ _ _ _ hcode)
      · exact hpixel.trans (GridCell.over_glyph _ _ _ _ hcode hinverse)
      · exact hpixel.trans (GridCell.over_inverse _ _ _ _ hcode hinverse)
    · simp only [List.mem_cons, Prod.mk.injEq, List.not_mem_nil, or_false] at hL
      obtain ⟨rfl, rfl⟩ | ⟨rfl, rfl⟩ := hL
      · exact Station.rowLayer_cell_still _ _ _ _ _ _ _ hcells htodo hpass
      · exact Station.rowLayer_cell_still _ _ _ _ _ _ _ hcells htodo hpass
  · intro blank
    have hout := Station.outFrame_eq houts hbefore ho
    have hblank : t.frameBlank = blank := Station.frameBlank_eq hout
    refine ⟨fun hrows hnewer hframe hbegun hruns => ?_, Station.sendsFrameStart_iff t,
      hblank ▸ Station.outputPort_lcd t, Station.outputPort_rasterLink t⟩
    have hsent := Station.sentRow_eq hout hrows hnewer ((Station.rowSent_iff o m).mpr ⟨hframe, hbegun, hruns⟩)
    rw [← hblank]
    exact ⟨Station.outputRow_eq hsent, Station.sendsRowStart_iff hsent,
      fun k px hticks hpx => (Station.outputPixel_twoTicks hsent k hticks).trans hpx, Station.outputPixel_none hsent⟩

end Sys2Proof.Machine

namespace Sys2Proof.Machine

/-! The text of an ANNOT frame in the annotation grid (R87, R91, R198). -/

theorem reservedCell_iff (count row column : Nat) :
    reservedCell count row column = true ↔ (row = 24 ∧ column < 25 * count) ∨ (row = 0 ∧ column < 50) := by
  simp [reservedCell]

theorem annotRefused_iff (count row column attr : Nat) (text : List Nat) :
    annotRefused count row column attr text = true ↔
      24 < row ∨ 99 < column ∨ 100 < column + text.length ∨
        (∃ k, k < text.length ∧ ((row = 24 ∧ column + k < 25 * count) ∨ (row = 0 ∧ column + k < 50))) ∨
        (∃ code ∈ text, 127 < code) ∨ 64 ≤ attr := by
  simp [annotRefused, reservedCell_iff, or_assoc]

namespace Station

section

variable (t : Station) (e : RxEntry) (target row column attr : Nat) (text : List Nat)

/-- A text for another station, or a refused one, changes nothing. -/
theorem annotEffect_refused
    (h : target ≠ t.straps.station ∨ annotRefused t.straps.count row column attr text = true) :
    annotEffect (target, row, column, attr, text) e t = t := by
  refine if_neg fun htaken => ?_
  simp only [Bool.and_eq_true, decide_eq_true_eq, Bool.not_eq_true'] at htaken
  obtain ⟨htarget, hfits⟩ := htaken
  rcases h with h | h
  · exact h htarget
  · exact absurd (h.symm.trans hfits) (by decide)

/-- A text for this station that is not refused is written into the grid in one run of cells. -/
theorem annotEffect_writes (htarget : target = t.straps.station)
    (hfits : ¬ annotRefused t.straps.count row column attr text = true) :
    (annotEffect (target, row, column, attr, text) e t).rse.grid =
      Sparse.writeRun GridCell.blank t.rse.grid (gridAddress row column) (text.map (annotCell attr)) := by
  simp [annotEffect, htarget, Bool.eq_false_iff.mpr hfits]

/-- An ANNOT frame changes nothing but the grid. -/
theorem annotEffect_frame :
    let u := annotEffect (target, row, column, attr, text) e t
    { u with rse := { u.rse with grid := t.rse.grid } } = t := by
  intro u
  simp only [u, annotEffect]
  split <;> rfl

end

end Station

/-- Settles O53: the frame is refused as `annotRefused_iff` has it, and else its text is one run of writes. -/
theorem annotWritesTheGrid : Obligations.AnnotWritesTheGrid := by
  unfold Obligations.AnnotWritesTheGrid
  rintro s e rest target row column attr text ⟨⟨hpowered, hrx, hmsg, horder, hedge⟩, henrolled⟩ count refused
  have hrefused : annotRefused count row column attr text = true ↔ refused := annotRefused_iff _ _ _ _ _
  refine ⟨Station.annotEffect (target, row, column, attr, text) e (s.station.pop rest), ?_, fun h => ?_,
    fun htarget hfits hwf => ?_, Station.annotEffect_frame _ _ _ _ _ _ _⟩
  · rw [← Station.takeFrame_takes s.station Msg.annotFields Station.annotEffect e rest _ hrx (by rw [hmsg]; rfl) horder
      hedge henrolled]
    exact State.on_powered s _ hpowered
  · exact Station.annotEffect_refused _ _ _ _ _ _ _ (h.imp_right hrefused.mpr)
  · have hgrid : _ = Sparse.writeRun GridCell.blank s.station.rse.grid (100 * row + column) _ :=
      (Station.annotEffect_writes (s.station.pop rest) e target row column attr text htarget
        (fun h => hfits (hrefused.mp h))).trans (by rw [gridAddress, Nat.mul_comm]; rfl)
    rw [hgrid]
    refine ⟨fun k hk => ?_, fun a ha => ?_⟩
    · rw [Sparse.read_writeRun_inside _ (text.map (annotCell attr)) hwf (by simpa using hk), List.getElem_map]
      rfl
    · exact Sparse.read_writeRun_outside _ _ hwf (by simpa using ha)

end Sys2Proof.Machine

namespace Sys2Proof.Machine

/-- At a powered station a command answers what its effect leaves. -/
theorem State.on_answers {s : State} {f : Station → Station} {t : Station} (hpowered : s.station.powered = true)
    (h : f s.station = t) : s.on f = .next (s.put t) := by
  rw [State.on_powered s f hpowered, h]

/-! What the base modes and the patterns of an LED show (R109). -/

/-- A repeating mode is lit in the first half of each of its cycles. -/
theorem half_lit {half k x : Nat} (hx : x < 2 * half) : (2 * half * k + x) / half % 2 = 0 ↔ x < half := by
  have hpos : 0 < half := by omega
  have hdiv : (2 * half * k + x) / half = 2 * k + x / half := by
    rw [Nat.mul_comm 2 half, Nat.mul_assoc, Nat.mul_add_div hpos]
  have hlt : x / half < 2 := Nat.div_lt_of_lt_mul (by omega)
  have hzero : x / half = 0 ↔ x < half := by simp [Nat.div_eq_zero_iff, hpos.ne']
  rw [hdiv]
  generalize x / half = r at hlt hzero
  omega

theorem LedMode.lit_slow {k x : Nat} (hx : x < 1000 * Config.ms) :
    LedMode.slow.lit (1000 * Config.ms * k + x) = true ↔ x < 500 * Config.ms :=
  decide_eq_true_iff.trans (half_lit (half := 500 * Config.ms) hx)

theorem LedMode.lit_fast {k x : Nat} (hx : x < 250 * Config.ms) :
    LedMode.fast.lit (250 * Config.ms * k + x) = true ↔ x < 125 * Config.ms :=
  decide_eq_true_iff.trans (half_lit (half := 125 * Config.ms) hx)

theorem Pattern.lit_code_zero {k x : Nat} (hx : x < 1800 * Config.ms) :
    (Pattern.code 0).lit (1800 * Config.ms * k + x) = true ↔ x < 1000 * Config.ms := by
  simp only [Pattern.lit, if_true, decide_eq_true_eq, Nat.mul_add_mod, Nat.mod_eq_of_lt hx]

/-- A code's cycle of n short blinks and the dark time behind them. -/
theorem Pattern.lit_code_cycle {n k y : Nat} (hn : 1 ≤ n) (hy : y < (400 * n + 800) * Config.ms) :
    (Pattern.code n).lit ((400 * n + 800) * Config.ms * k + y) = true ↔
      y < 400 * n * Config.ms ∧ y % (400 * Config.ms) < 200 * Config.ms := by
  simp only [Pattern.lit, if_neg (show n ≠ 0 by omega), Nat.mul_add_mod, Nat.mod_eq_of_lt hy, Bool.and_eq_true,
    decide_eq_true_eq]

theorem Pattern.lit_code_blink {n k j x : Nat} (hj : j < n) (hx : x < 400 * Config.ms) :
    (Pattern.code n).lit ((400 * n + 800) * Config.ms * k + 400 * Config.ms * j + x) = true ↔
      x < 200 * Config.ms := by
  have hin : 400 * Config.ms * j + x < 400 * n * Config.ms := by simp only [Config.ms] at *; omega
  have hcycle := hin.trans_le (Nat.mul_le_mul_right Config.ms (Nat.le_add_right (400 * n) 800))
  rw [Nat.add_assoc, lit_code_cycle (by omega) hcycle, Nat.mul_add_mod, Nat.mod_eq_of_lt hx]
  exact and_iff_right hin

theorem Pattern.lit_code_pause {n k x : Nat} (hn : 1 ≤ n) (hx : x < 800 * Config.ms) :
    (Pattern.code n).lit ((400 * n + 800) * Config.ms * k + 400 * Config.ms * n + x) = false := by
  rw [← Bool.not_eq_true, Nat.add_assoc, lit_code_cycle hn (by simp only [Config.ms] at *; omega)]
  rintro ⟨hin, _⟩
  simp only [Config.ms] at hin
  omega

namespace Station

variable (t : Station)

/-- In standby an LED other than STANDBY is dark (R113). -/
theorem ledLit_dark (e : LedEntry) (hstandby : t.standby = true) (hled : e.led ≠ .standby) : t.ledLit e = false := by
  simp [ledLit, hstandby, hled]

/-- An LED that standby does not keep dark shows its overlay, else its base mode (R109). -/
theorem ledLit_shown (e : LedEntry) (h : t.standby = false ∨ e.led = .standby) :
    t.ledLit e =
      match e.overlay with
      | some o => o.1.lit (t.ticks - o.2)
      | none => e.mode.lit (t.ticks - e.since) := by
  refine if_neg ?_
  rcases h with h | h <;> simp [h]

/-! The LED table behind a change of the base modes, and the end of a slot sequence (R104, R109, R110). -/

/-- Each LED takes the base mode of its conditions, from the given instant on where that is another (R109). -/
theorem refreshLeds_leds (x : Nat) :
    (t.refreshLeds x).pns.leds =
      t.pns.leds.map (fun e =>
        ⟨e.led, t.ledMode e.led, if t.ledMode e.led = e.mode then e.since else x, e.overlay⟩) := by
  refine List.ext_getElem? fun k => ?_
  rw [refreshLeds_led, List.getElem?_map]

/-- With no slot sequence open SAVE and RECALL show the open operation (R110). -/
theorem ledMode_operation (led : Led) (hsequence : t.pns.sequence = none) (hled : led = .save ∨ led = .recall) :
    t.ledMode led =
      if t.opKind = some .save ∧ led = .save ∨ t.opKind = some .recall ∧ led = .recall then .on else .off := by
  rcases hled with rfl | rfl <;> simp [ledMode, sequenceKind, hsequence, onWhile]

/-- The deadline of an open sequence closes it, and the base modes follow (R104). -/
theorem endDeadline_open (x : Nat) (q : Sequence) (h : t.pns.sequence = some q) :
    endDeadline x t = refreshLeds x { t with pns := { t.pns with sequence := none } } := by
  simp [endDeadline, h, endSequence]

/-- The first entry of an LED is the one found in the table. -/
theorem ledEntry_eq (led : Led) (before behind : List LedEntry) (x : LedEntry)
    (hleds : t.pns.leds = before ++ x :: behind) (hx : x.led = led) (hbefore : ∀ y ∈ before, y.led ≠ led) :
    t.ledEntry led = some x := by
  rw [ledEntry, hleds, List.find?_append, List.find?_eq_none.mpr (by simpa using hbefore)]
  simp [hx]

/-- The end of an overlay changes the entries of its LED alone. -/
theorem endOverlay_leds (led : Led) (before behind : List LedEntry) (x : LedEntry) (d : Nat)
    (hleds : t.pns.leds = before ++ x :: behind) (hx : x.led = led) (hothers : ∀ y ∈ before ++ behind, y.led ≠ led) :
    endOverlay led d t =
      { t with pns := { t.pns with leds := before ++ { x with overlay := none } :: behind } } := by
  have hkeep : ∀ l : List LedEntry, (∀ y ∈ l, y.led ≠ led) →
      l.map (fun e => if e.led = led then { e with overlay := none } else e) = l := fun l hl =>
    (List.map_congr_left fun y hy => if_neg (hl y hy)).trans (List.map_id' l)
  rw [endOverlay, hleds, List.map_append, List.map_cons, if_pos hx,
    hkeep before fun y hy => hothers y (List.mem_append_left _ hy),
    hkeep behind fun y hy => hothers y (List.mem_append_right _ hy)]

end Station

/-- Settles O56: the deadline by `endDeadline_open` and the LED table behind it, an overlay by `endOverlay_leds`, and
what is shown by the `lit` lemmas. -/
theorem sequenceAndOverlayTimesEnd : Obligations.SequenceAndOverlayTimesEnd := by
  unfold Obligations.SequenceAndOverlayTimesEnd
  refine ⟨?deadline, ?overlay, ?durations, ?shown, fun t x => ⟨t.ledLit_dark x, fun hshown => ⟨fun p start ho => ?_,
    fun ho => ?_⟩⟩⟩
  case deadline =>
    rintro s q d hq ⟨hpowered, hd, hticks, horder, hedge⟩
    have hdeadline : s.station.pns.sequence.map (·.deadline) = some d := by rw [hq]; exact hd
    have hact := (Station.expire_due s.station _ Station.endDeadline d hdeadline hticks horder hedge).trans
      (Station.endDeadline_open _ _ q hq)
    refine ⟨_, State.on_answers hpowered hact, rfl, (Station.refreshLeds_pns _ d).2, fun x hx hled => ?_,
      by rw [← hq]; rfl⟩
    rw [Station.refreshLeds_leds, List.mem_map] at hx
    obtain ⟨y, _, rfl⟩ := hx
    exact Station.ledMode_operation _ y.led rfl hled
  case overlay =>
    rintro s led before behind x p start hleds hx hothers hoverlay ⟨hpowered, _, hticks, horder, hedge⟩
    have hend : (s.station.ledEntry led).bind LedEntry.overlayEnd = some (start + p.ticks) := by
      rw [Station.ledEntry_eq _ led before behind x hleds hx fun y hy => hothers y (List.mem_append_left _ hy)]
      simp [LedEntry.overlayEnd, hoverlay]
    have hact := (Station.expire_due s.station _ (Station.endOverlay led) _ hend hticks horder hedge).trans
      (Station.endOverlay_leds _ led before behind x _ hleds hx hothers)
    exact State.on_answers hpowered hact
  case durations =>
    exact ⟨rfl, fun n hn => if_neg (by omega), rfl, rfl, rfl⟩
  case shown =>
    exact fun k n j x => ⟨rfl, rfl, LedMode.lit_slow, fun hx => ⟨LedMode.lit_fast hx, LedMode.lit_fast hx⟩, rfl, rfl,
      Pattern.lit_code_zero, fun hn => ⟨Pattern.lit_code_blink, Pattern.lit_code_pause hn⟩⟩
  · rw [Station.ledLit_shown _ _ hshown, ho]
  · rw [Station.ledLit_shown _ _ hshown, ho]

end Sys2Proof.Machine

namespace Sys2Proof.Machine

/-! The control maps as a table of frames (R99, R100, R108, R113). -/

/-- The events of both control maps that need a frame outside a slot sequence, with that frame (R103). -/
def panelMap (station trigsrc : Nat) (run : RunState) (standby : Bool) (detents : Int) :
    List (PanelRole × EventKind × Nat × Msg) :=
  let chA := 2 * station + 1
  let chB := 2 * station + 2
  [(.common, .down, 0, .runctl (if run = .stopped then 0 else 1)), (.common, .down, 1, .runctl 2),
    (.common, .down, 2, .runctl 3), (.common, .down, 3, .runctl 4), (.common, .down, 4, .setting 0 4 1 1),
    (.common, .down, 5, .setting 0 7 1 1), (.common, .down, 6, .setting 0 8 1 1),
    (.common, .down, 7, .setting 0 12 1 1), (.common, .down, 8, .setting 0 6 1 1), (.common, .down, 11, .recall 31),
    (.common, .down, 23, .runctl (if standby = true then 6 else 5)), (.common, .hold, 9, .store 15 6 0),
    (.common, .hold, 23, .restart), (.common, .turn, 0, .setting 0 1 1 detents),
    (.common, .turn, 1, .setting 0 2 1 detents), (.common, .turn, 2, .setting 0 11 1 detents),
    (.common, .turn, 3, .setting 0 15 1 detents), (.common, .turn, 4, .setting 0 14 1 detents),
    (.common, .turn, 5, .setting trigsrc 7 1 detents), (.channel, .down, 0, .setting chA 1 1 1),
    (.channel, .down, 1, .setting chA 4 1 1), (.channel, .down, 2, .setting chA 5 1 1),
    (.channel, .down, 3, .setting chA 6 1 1), (.channel, .down, 4, .setting chB 1 1 1),
    (.channel, .down, 5, .setting chB 4 1 1), (.channel, .down, 6, .setting chB 5 1 1),
    (.channel, .down, 7, .setting chB 6 1 1), (.channel, .turn, 0, .setting chA 2 1 detents),
    (.channel, .turn, 1, .setting chA 3 1 detents), (.channel, .turn, 2, .setting chB 2 1 detents),
    (.channel, .turn, 3, .setting chB 3 1 detents)]

/-- The table agrees with the control maps' actions: a HELD event is that of SAVE or POWER, and any other event's frame
is its action's. -/
theorem action_of_mem_panelMap {role : PanelRole} {e : PanelEvent} {m : Msg} {station trigsrc : Nat} {run : RunState}
    {standby : Bool} (h : (role, e.kind, e.control, m) ∈ panelMap station trigsrc run standby e.detents) :
    ∃ a, e.action role = some a ∧
      (e.kind = .hold → a = .save ∧ m = .store 15 6 0 ∨ a = .power ∧ m = .restart) ∧
      (e.kind ≠ .hold → a.frame station trigsrc run standby (if e.kind = .turn then e.detents else 1) = some m) := by
  obtain ⟨kind, control, detents, level, stamp⟩ := e
  simp only [panelMap, List.mem_cons, Prod.mk.injEq, List.not_mem_nil, or_false] at h
  casesm* _ ∨ _
  all_goals
    obtain ⟨rfl, rfl, rfl, rfl⟩ := h
    exact ⟨_, rfl, by simp, by simp [Action.frame]⟩

/-- The events that an open slot sequence does not keep from being carried out (R107). -/
def PanelEvent.interrupts (e : PanelEvent) : Prop :=
  (e.kind, e.control) ∈ [(EventKind.down, 0), (.down, 1), (.down, 2), (.down, 23), (.hold, 9), (.hold, 23)]

/-- They are the HELD events and the keys of level 3 (R97, R107). -/
theorem PanelEvent.interrupts_level {e : PanelEvent} (h : e.interrupts) {a : Action} (ha : e.action .common = some a) :
    e.kind = .hold ∨ e.kind = .down ∧ a.level = 3 := by
  obtain ⟨kind, control, detents, level, stamp⟩ := e
  simp only [interrupts, List.mem_cons, Prod.mk.injEq, List.not_mem_nil, or_false] at h
  casesm* _ ∨ _
  all_goals
    obtain ⟨rfl, rfl⟩ := h
    cases ha
    simp [Action.level]

theorem keyAction_digit {k : Nat} (hlow : 12 ≤ k) (hhigh : k ≤ 21) :
    keyAction .common k = some (.digit (k - 12)) := if_pos ⟨hlow, hhigh⟩

/-- The keys and encoders of a COMMON panel that break off a slot sequence (R107). -/
theorem PanelEvent.action_breaks {e : PanelEvent}
    (h : e.kind = .down ∧ 3 ≤ e.control ∧ e.control ≤ 11 ∨ e.kind = .turn ∧ e.control ≤ 5) :
    ∃ a, e.action .common = some a ∧ a.level ≠ 3 ∧ a ≠ .enter ∧ ∀ d, a ≠ .digit d := by
  obtain ⟨kind, control, detents, level, stamp⟩ := e
  rcases h with ⟨rfl, hlow, hhigh⟩ | ⟨rfl, hhigh⟩
  · dsimp only at hlow hhigh
    interval_cases control <;> exact ⟨_, rfl, by decide, by decide, by nofun⟩
  · dsimp only at hhigh
    interval_cases control <;> exact ⟨_, rfl, by decide, by decide, by nofun⟩

namespace Station

variable (t : Station)

/-! What a dispatch leaves of the panel (R102). -/

/-- The station with another slot sequence. -/
def withSequence (q : Option Sequence) : Station := { t with pns := { t.pns with sequence := q } }

/-- The station with another queue of panel events. -/
def withQueue (queue : List PanelEvent) : Station := { t with pns := { t.pns with queue := queue } }

/-- The station with these events queued, these frames placed, this slot sequence and these overlays. -/
def panelLeft (queue : List PanelEvent) (sent : List Msg) (q : Option Sequence)
    (overlay : LedEntry → Option (Pattern × Nat)) : Station :=
  { t with
    lif := { t.lif with tx := t.lif.tx ++ sent.map (fun m => ⟨m, .panel, t.ticks, false⟩) }
    pns :=
      { t.pns with
        queue := queue, sequence := q, leds := t.pns.leds.map (fun e => { e with overlay := overlay e }) } }

/-- With no frame and no blink the queue and the slot sequence alone change. -/
theorem panelLeft_quiet (queue : List PanelEvent) (q : Option Sequence) :
    t.panelLeft queue [] q LedEntry.overlay = { t with pns := { t.pns with queue := queue, sequence := q } } := by
  simp [panelLeft]

/-- With no blink the frame is placed, and the queue and the slot sequence alone change beside it. -/
theorem panelLeft_sent (queue : List PanelEvent) (m : Msg) (q : Option Sequence) :
    t.panelLeft queue [m] q LedEntry.overlay =
      place m .panel { t with pns := { t.pns with queue := queue, sequence := q } } := by
  simp [panelLeft, place]

/-- The overlays with a blink of a slot sequence's LED, started out of standby only (R109, R113). -/
def blinked (q : Sequence) (p : Pattern) (x : Nat) (e : LedEntry) : Option (Pattern × Nat) :=
  if e.led = kindLed q.kind ∧ t.standby = false then some (p, x) else e.overlay

/-- A slot sequence cancelled with a blink. -/
theorem endSequence_blink (q : Sequence) (p : Pattern) (x : Nat) :
    t.endSequence q (some p) x = t.panelLeft t.pns.queue [] none (t.blinked q p x) := by
  cases hstandby : t.standby with
  | true => simp [endSequence, startOverlay, panelLeft, blinked, hstandby]
  | false =>
    have hentry (e : LedEntry) : { e with overlay := t.blinked q p x e } =
        if e.led = kindLed q.kind then { e with overlay := some (p, x) } else e := by
      by_cases h : e.led = kindLed q.kind <;> simp [blinked, hstandby, h]
    simp [endSequence, startOverlay, panelLeft, hstandby, hentry]

/-- A slot sequence cancelled silently. -/
theorem endSequence_silent (q : Sequence) (x : Nat) : t.endSequence q none x = t.withSequence none := rfl

/-- The base modes behind a dispatch are those with the slot sequence it leaves (R110). -/
theorem refreshLeds_panelLeft (queue : List PanelEvent) (sent : List Msg) (q : Option Sequence)
    (overlay : LedEntry → Option (Pattern × Nat)) (x : Nat) :
    ((t.panelLeft queue sent q overlay).refreshLeds x).pns.leds =
      t.pns.leds.map (fun e =>
        ⟨e.led, (t.withSequence q).ledMode e.led,
          if (t.withSequence q).ledMode e.led = e.mode then e.since else x, overlay e⟩) := by
  rw [refreshLeds_leds]
  exact List.map_map

/-! The events that need a frame of the control maps (R99, R100, R103, R107). -/

/-- An event needs a frame of the control maps, by the values as they stand (R103). -/
def needs (e : PanelEvent) (m : Msg) : Prop :=
  (t.straps.panel, e.kind, e.control, m) ∈
    panelMap t.straps.station t.live.common.trigsrc t.tgu.run t.standby e.detents

/-- The slot sequence does not keep an event from being carried out: none is open, or the event interrupts it (R107). -/
def carriesOut (e : PanelEvent) : Prop := t.pns.sequence = none ∨ t.straps.panel = .common ∧ e.interrupts

variable {t}

/-- An event that is carried out needs the frame of the control map. -/
theorem eventFrame_of_needs {e : PanelEvent} {m : Msg} (hneeds : t.needs e m) (hcarries : t.carriesOut e) :
    t.eventFrame e = some m := by
  obtain ⟨a, ha, hhold, hframe⟩ := action_of_mem_panelMap hneeds
  by_cases hkind : e.kind = .hold
  · rcases hhold hkind with ⟨rfl, rfl⟩ | ⟨rfl, rfl⟩ <;> simp [eventFrame, ha, hkind]
  · have hlevel (q : Sequence) (hq : t.pns.sequence = some q) : a.level = 3 := by
      rcases hcarries with hnone | ⟨hrole, hint⟩
      · simp [hnone] at hq
      · exact ((PanelEvent.interrupts_level hint (hrole ▸ ha)).resolve_left hkind).2
    unfold eventFrame
    rw [ha, ← hframe hkind]
    cases hk : e.kind with
    | hold => exact absurd hk hkind
    | down | turn =>
      cases hq : t.pns.sequence with
      | none => rfl
      | some q => simp [hlevel q hq]

/-- An event that is carried out leaves no slot sequence open, with no blink (R107). -/
theorem eventSequence_of_needs {e : PanelEvent} {m : Msg} (hneeds : t.needs e m) (hcarries : t.carriesOut e) (x : Nat) :
    t.eventSequence x e = t.withSequence none := by
  obtain ⟨a, ha, _, hframe⟩ := action_of_mem_panelMap hneeds
  unfold eventSequence
  rw [ha]
  cases hq : t.pns.sequence with
  | none =>
    have hkeep : t.withSequence none = t := by rw [← hq]; rfl
    by_cases hkind : e.kind = .down
    · have := hframe (by simp [hkind])
      cases a <;> simp_all [Action.frame]
    · simp [hkind, hkeep]
  | some q =>
    have hint : e.kind = .hold ∨ e.kind = .down ∧ a.level = 3 := by
      rcases hcarries with hnone | ⟨hrole, hint⟩
      · simp [hnone] at hq
      · exact PanelEvent.interrupts_level hint (hrole ▸ ha)
    rcases hint with hkind | ⟨hkind, hlevel⟩
    · simp [hkind, endSequence_silent]
    · simp [hkind, hlevel, endSequence_silent]

/-- An event is dispatched with its frame where there is room (R102). -/
theorem tryEvent_framed {e : PanelEvent} {m : Msg} (x : Nat) (h : t.eventFrame e = some m) :
    t.tryEvent x e =
      if t.room m = true then some ((eventSequence x e (t.withQueue (t.pns.queue.erase e))).place m .panel)
      else none := by
  simp [tryEvent, h, withQueue]

/-- An event that is carried out is dispatched with the frame of the control map where there is room (R102). -/
theorem tryEvent_of_needs {e : PanelEvent} {m : Msg} (hneeds : t.needs e m) (hcarries : t.carriesOut e) (x : Nat) :
    t.tryEvent x e =
      if t.room m = true then some (t.panelLeft (t.pns.queue.erase e) [m] none LedEntry.overlay) else none := by
  rw [tryEvent_framed x (eventFrame_of_needs hneeds hcarries),
    eventSequence_of_needs (t := t.withQueue (t.pns.queue.erase e)) hneeds hcarries, panelLeft_sent]
  rfl

/-! The events of the slot sequence (R105 to R108). -/

variable {e : PanelEvent} {q : Sequence}

/-- An event that needs no frame is dispatched at once (R102). -/
theorem tryEvent_frameless (x : Nat) (h : t.eventFrame e = none) :
    t.tryEvent x e = some (eventSequence x e (t.withQueue (t.pns.queue.erase e))) := by
  simp [tryEvent, h, withQueue]

/-- SAVE and RECALL open a slot sequence (R105). -/
theorem tryEvent_opens (x : Nat) (hsequence : t.pns.sequence = none) (hrole : t.straps.panel = .common)
    (hkind : e.kind = .down) (kind : OpKind) (hkey : e.control = match kind with | .save => 9 | .recall => 10) :
    t.tryEvent x e =
      some (t.panelLeft (t.pns.queue.erase e) [] (some ⟨kind, [], e.stamp + Config.sequenceTicks⟩)
        LedEntry.overlay) := by
  have haction : e.action .common = some (match kind with | .save => .save | .recall => .recall) := by
    simp only [PanelEvent.action, hkind, hkey]
    cases kind <;> rfl
  have hframe : t.eventFrame e = none := by
    cases kind <;> simp [eventFrame, hrole, haction, hkind, hsequence, Action.frame]
  rw [panelLeft_quiet, tryEvent_frameless x hframe]
  cases kind <;> simp [eventSequence, withQueue, hrole, haction, hkind, hsequence, openSequence]

/-- Digits and ENTER outside a slot sequence are ignored (R108). -/
theorem tryEvent_ignored (x : Nat) (hsequence : t.pns.sequence = none) (hrole : t.straps.panel = .common)
    (hkind : e.kind = .down) (hlow : 12 ≤ e.control) (hhigh : e.control ≤ 22) :
    t.tryEvent x e = some (t.panelLeft (t.pns.queue.erase e) [] none LedEntry.overlay) := by
  obtain ⟨a, ha, hentry⟩ : ∃ a, e.action .common = some a ∧ (a = .enter ∨ ∃ d, a = .digit d) := by
    simp only [PanelEvent.action, hkind]
    rcases Nat.lt_or_ge e.control 22 with h | h
    · exact ⟨_, keyAction_digit hlow (by omega), .inr ⟨_, rfl⟩⟩
    · exact ⟨_, by rw [le_antisymm hhigh h]; rfl, .inl rfl⟩
  have hframe : t.eventFrame e = none := by
    rcases hentry with rfl | ⟨d, rfl⟩ <;> simp [eventFrame, hrole, ha, hkind, hsequence, Action.frame]
  rw [panelLeft_quiet, tryEvent_frameless x hframe]
  rcases hentry with rfl | ⟨d, rfl⟩ <;> simp [eventSequence, withQueue, hrole, ha, hkind, hsequence]

/-- A digit is appended to less than two, and a third cancels the slot sequence (R106). -/
theorem tryEvent_digit (x : Nat) (hsequence : t.pns.sequence = some q) (hrole : t.straps.panel = .common)
    (hkind : e.kind = .down) (hlow : 12 ≤ e.control) (hhigh : e.control ≤ 21) :
    t.tryEvent x e =
      some (if q.digits.length < 2 then
        t.panelLeft (t.pns.queue.erase e) []
          (some ⟨q.kind, q.digits ++ [e.control - 12], e.stamp + Config.sequenceTicks⟩) LedEntry.overlay
      else t.panelLeft (t.pns.queue.erase e) [] none (t.blinked q .range x)) := by
  have haction : e.action .common = some (.digit (e.control - 12)) := by
    simp only [PanelEvent.action, hkind, keyAction_digit hlow hhigh]
  have hframe : t.eventFrame e = none := by simp [eventFrame, hrole, haction, hkind, hsequence, Action.level]
  rw [tryEvent_frameless x hframe, panelLeft_quiet]
  simp only [eventSequence, withQueue, hrole, haction, hsequence, hkind, Action.level, endSequence_blink]
  rfl

/-- What ENTER does to a slot sequence, by its plan (R106). -/
theorem eventSequence_enter (x : Nat) (hsequence : t.pns.sequence = some q)
    (haction : e.action t.straps.panel = some .enter) (hkind : e.kind = .down) :
    t.eventSequence x e =
      match t.enterPlan q with
      | .range => t.endSequence q (some .range) x
      | .epoch => t.endSequence q (some (.code 9)) x
      | .frame _ => t.withSequence none := by
  unfold eventSequence
  simp only [haction, hsequence, hkind, Action.level]
  rfl

/-- What ENTER does in a slot sequence, by its plan (R106). -/
theorem tryEvent_enter (x : Nat) (hsequence : t.pns.sequence = some q) (hrole : t.straps.panel = .common)
    (hkind : e.kind = .down) (hkey : e.control = 22) :
    t.tryEvent x e =
      match t.enterPlan q with
      | .range => some (t.panelLeft (t.pns.queue.erase e) [] none (t.blinked q .range x))
      | .epoch => some (t.panelLeft (t.pns.queue.erase e) [] none (t.blinked q (.code 9) x))
      | .frame m =>
        if t.room m = true then some (t.panelLeft (t.pns.queue.erase e) [m] none LedEntry.overlay) else none := by
  have haction : e.action t.straps.panel = some .enter := by
    simp only [PanelEvent.action, hkind, hkey, hrole]
    rfl
  have hplan (queue : List PanelEvent) : (t.withQueue queue).enterPlan q = t.enterPlan q := rfl
  have hafter := eventSequence_enter (t := t.withQueue (t.pns.queue.erase e)) x hsequence haction hkind
  rw [hplan] at hafter
  cases h : t.enterPlan q with
  | range | epoch =>
    have hframe : t.eventFrame e = none := by simp [eventFrame, haction, hkind, hsequence, Action.level, h]
    rw [tryEvent_frameless x hframe, hafter, h]
    exact congrArg some (endSequence_blink _ q _ x)
  | frame m =>
    have hframe : t.eventFrame e = some m := by simp [eventFrame, haction, hkind, hsequence, Action.level, h]
    rw [tryEvent_framed x hframe, hafter, h]
    dsimp only
    rw [panelLeft_sent]
    rfl

theorem enterPlan_range (h : q.digits = [] ∨ 30 < slotNumber q.digits ∨ q.kind = .save ∧ slotNumber q.digits = 0) :
    t.enterPlan q = .range := by
  by_cases hrange : q.digits = [] ∨ 30 < slotNumber q.digits
  · simp [enterPlan, hrange]
  · obtain ⟨hkind, hzero⟩ : q.kind = .save ∧ slotNumber q.digits = 0 := by tauto
    simp [enterPlan, hkind, hzero]

theorem enterPlan_recall (hkind : q.kind = .recall) (hdigits : q.digits ≠ []) (hslot : slotNumber q.digits ≤ 30) :
    t.enterPlan q = .frame (.recall (slotNumber q.digits)) := by
  have hvalid : ¬ (q.digits = [] ∨ 30 < slotNumber q.digits) := not_or.mpr ⟨hdigits, Nat.not_lt.mpr hslot⟩
  simp only [enterPlan, if_neg hvalid, hkind]

theorem enterPlan_save (hkind : q.kind = .save) (hdigits : q.digits ≠ []) (hlow : 1 ≤ slotNumber q.digits)
    (hslot : slotNumber q.digits ≤ 30) :
    t.enterPlan q =
      if t.smg.highest = Config.maxEpoch then .epoch
      else .frame (.save (slotNumber q.digits) (t.smg.highest + 1)) := by
  have hvalid : ¬ (q.digits = [] ∨ 30 < slotNumber q.digits) := not_or.mpr ⟨hdigits, Nat.not_lt.mpr hslot⟩
  simp only [enterPlan, if_neg hvalid, hkind, if_neg (Nat.one_le_iff_ne_zero.mp hlow)]

/-- What another key of level 1 or 2, or a turn, does to a slot sequence (R107). -/
theorem eventSequence_breaks (x : Nat) (hsequence : t.pns.sequence = some q) {a : Action}
    (haction : e.action t.straps.panel = some a) (hlevel : a.level ≠ 3) (henter : a ≠ .enter)
    (hdigit : ∀ d, a ≠ .digit d) (hkind : e.kind ≠ .hold) :
    t.eventSequence x e = t.endSequence q (some .sequence) x := by
  simp only [eventSequence, haction, hsequence]
  cases hk : e.kind with
  | hold => exact absurd hk hkind
  | turn => rfl
  | down =>
    dsimp only
    rw [if_neg hlevel]

/-- Another key of level 1 or 2, or a turn, cancels the slot sequence and is not carried out (R107). -/
theorem tryEvent_breaks (x : Nat) (hsequence : t.pns.sequence = some q) (hrole : t.straps.panel = .common)
    (h : e.kind = .down ∧ 3 ≤ e.control ∧ e.control ≤ 11 ∨ e.kind = .turn ∧ e.control ≤ 5) :
    t.tryEvent x e = some (t.panelLeft (t.pns.queue.erase e) [] none (t.blinked q .sequence x)) := by
  obtain ⟨a, ha, hlevel, henter, hdigit⟩ := PanelEvent.action_breaks h
  rw [← hrole] at ha
  have hkind : e.kind ≠ .hold := by rcases h with ⟨hk, _⟩ | ⟨hk, _⟩ <;> simp [hk]
  have hframe : t.eventFrame e = none := by
    cases hk : e.kind with
    | hold => exact absurd hk hkind
    | down | turn => simp [eventFrame, ha, hk, hsequence, hlevel, henter]
  rw [tryEvent_frameless x hframe,
    eventSequence_breaks (t := t.withQueue (t.pns.queue.erase e)) x hsequence ha hlevel henter hdigit hkind]
  exact congrArg some (endSequence_blink _ q _ x)

/-! The oldest eligible event (R102). -/

section

variable {before behind : List PanelEvent}

theorem find?_split {p : PanelEvent → Bool} (hbefore : ∀ y ∈ before, p y = false) (he : p e = true) :
    (before ++ e :: behind).find? p = some e := by
  rw [List.find?_append, List.find?_eq_none.mpr (by simpa using hbefore), List.find?_cons_of_pos he]
  rfl

theorem behindFirst_split {p : PanelEvent → Bool} (hbefore : ∀ y ∈ before, p y = false) (he : p e = true) :
    behindFirst p (before ++ e :: behind) = behind := by
  induction before with
  | nil => simp [behindFirst, he]
  | cons y ys ih =>
    rw [List.forall_mem_cons] at hbefore
    simp [behindFirst, hbefore.1, ih hbefore.2]

theorem erase_split (h : e ∉ before) : (before ++ e :: behind).erase e = before ++ behind := by
  rw [List.erase_append_right _ h, List.erase_cons_head]

/-- With no eligible event none is dispatched. -/
theorem dispatchNext_none (x : Nat) (h : ∀ y ∈ t.pns.queue, y.level ≤ t.panelLevel) : t.dispatchNext x = t := by
  have hnone : t.pns.queue.find? (fun y => decide (t.panelLevel < y.level)) = none :=
    List.find?_eq_none.mpr fun y hy => by simpa using h y hy
  simp only [dispatchNext, hnone]

variable (hqueue : t.pns.queue = before ++ e :: behind) (hbefore : ∀ y ∈ before, y.level ≤ t.panelLevel)
  (he : t.panelLevel < e.level)

include hqueue hbefore he

/-- The dispatch of the oldest eligible event, and of the oldest of level 3 behind it while that waits. -/
theorem dispatchNext_oldest (x : Nat) :
    t.dispatchNext x =
      (t.tryEvent x e).getD
        (((behind.find? (fun y => decide (t.panelLevel < y.level) && decide (y.level = 3))).bind
          (t.tryEvent x)).getD t) := by
  have hnot : ∀ y ∈ before, decide (t.panelLevel < y.level) = false := fun y hy => by simpa using hbefore y hy
  have hin : decide (t.panelLevel < e.level) = true := decide_eq_true he
  simp only [dispatchNext, hqueue, find?_split hnot hin, behindFirst_split hnot hin]
  cases t.tryEvent x e with
  | some u => rfl
  | none => cases behind.find? (fun y => decide (t.panelLevel < y.level) && decide (y.level = 3)) <;> rfl

/-- The oldest eligible event is dispatched where it needs no frame or finds room. -/
theorem dispatchNext_takes (x : Nat) {u : Station} (h : t.tryEvent x e = some u) : t.dispatchNext x = u := by
  rw [dispatchNext_oldest hqueue hbefore he, h]
  rfl

/-- It waits with all events behind it where none of them is eligible and of level 3. -/
theorem dispatchNext_waits (x : Nat) (h : t.tryEvent x e = none)
    (hbehind : ∀ y ∈ behind, y.level ≤ t.panelLevel ∨ y.level ≠ 3) : t.dispatchNext x = t := by
  have hnone : behind.find? (fun y => decide (t.panelLevel < y.level) && decide (y.level = 3)) = none :=
    List.find?_eq_none.mpr fun y hy => by
      rcases hbehind y hy with hlevel | hlevel <;> simp [hlevel]
  rw [dispatchNext_oldest hqueue hbefore he, h, hnone]
  rfl

/-- While it waits, the oldest of level 3 behind it that is carried out overtakes it where that finds room. -/
theorem dispatchNext_overtakes (x : Nat) (h : t.tryEvent x e = none) {between last : List PanelEvent}
    {third : PanelEvent} (hbehind : behind = between ++ third :: last) (hbetween : ∀ y ∈ between, y.level ≠ 3)
    (hthird : third.level = 3) (hlevel : t.panelLevel < 3) {m : Msg} (hneeds : t.needs third m)
    (hcarries : t.carriesOut third) :
    t.dispatchNext x =
      if t.room m = true then t.panelLeft (before ++ e :: between ++ last) [m] none LedEntry.overlay else t := by
  have hfind : behind.find? (fun y => decide (t.panelLevel < y.level) && decide (y.level = 3)) = some third := by
    rw [hbehind]
    exact find?_split (fun y hy => by simp [hbetween y hy]) (by simp [hthird, hlevel])
  have htry := tryEvent_of_needs hneeds hcarries x
  rw [dispatchNext_oldest hqueue hbefore he, h, hfind, Option.getD_none, Option.bind_some, htry]
  by_cases hroom : t.room m = true
  · have hne : third ≠ e := by
      rintro rfl
      rw [htry, if_pos hroom] at h
      cases h
    have hfirst : third ∉ before ++ e :: between := by
      rw [List.mem_append, List.mem_cons]
      rintro (hmem | heq | hmem)
      · have := hbefore third hmem
        omega
      · exact hne heq
      · exact hbetween third hmem hthird
    have hsplit : t.pns.queue = (before ++ e :: between) ++ third :: last := by rw [hqueue, hbehind]; simp
    rw [if_pos hroom, if_pos hroom, hsplit, erase_split hfirst]
    rfl
  · rw [if_neg hroom, if_neg hroom]
    rfl

end

/-- ON while two conditions hold, written with either conjunction. -/
theorem onWhile_and (a : Bool) (p : Prop) [Decidable p] :
    (if a = true ∧ p then .on else .off : LedMode) = onWhile (a && decide p) := by
  simp [onWhile]

/-! The slot sequence as a dispatch finds it (R104). -/

/-- The slot sequence, unless its deadline has come (R104). -/
def openNow (t : Station) : Option Sequence := t.pns.sequence.filter (fun q => decide (t.ticks < q.deadline))

/-- The LED table, with the base modes of the deadline where that has come (R104). -/
def ledsNow (t : Station) : List LedEntry :=
  match t.pns.sequence with
  | none => t.pns.leds
  | some q =>
    if t.ticks < q.deadline then t.pns.leds
    else t.pns.leds.map (fun e =>
      ⟨e.led, (t.withSequence none).ledMode e.led,
        if (t.withSequence none).ledMode e.led = e.mode then e.since else q.deadline, e.overlay⟩)

/-- The station as a dispatch considers its events: a slot sequence whose deadline has come is cancelled (R104). -/
def considered (t : Station) : Station := { t with pns := { t.pns with sequence := t.openNow, leds := t.ledsNow } }

theorem cancelExpired_eq (t : Station) : t.cancelExpired = t.considered := by
  cases hsequence : t.pns.sequence with
  | none =>
    have hopen : t.openNow = t.pns.sequence := by simp [openNow, hsequence]
    have hleds : t.ledsNow = t.pns.leds := by simp [ledsNow, hsequence]
    simp only [cancelExpired, hsequence]
    rw [considered, hopen, hleds]
  | some q =>
    by_cases hdue : q.deadline ≤ t.ticks
    · have hopen : t.openNow = none := by simp [openNow, hsequence, hdue]
      have hleds : t.ledsNow = ((t.withSequence none).refreshLeds q.deadline).pns.leds := by
        simp only [refreshLeds_leds, ledsNow, hsequence, if_neg (Nat.not_lt.mpr hdue)]
        rfl
      simp only [cancelExpired, hsequence, if_pos hdue]
      rw [considered, hopen, hleds]
      rfl
    · have hopen : t.openNow = t.pns.sequence := by simp [openNow, hsequence, Nat.not_le.mp hdue]
      have hleds : t.ledsNow = t.pns.leds := by simp [ledsNow, hsequence, Nat.not_le.mp hdue]
      simp only [cancelExpired, hsequence, if_neg hdue]
      rw [considered, hopen, hleds]

/-- A dispatch leaves the panel as the dispatch of the events does, with the base modes behind it (R102, R110). -/
theorem dispatch_leaves (t : Station) {queue : List PanelEvent} {sent : List Msg} {q : Option Sequence}
    {overlay : LedEntry → Option (Pattern × Nat)}
    (h : t.considered.dispatchNext t.ticks = t.considered.panelLeft queue sent q overlay) :
    t.dispatch.pns.queue = queue ∧
      t.dispatch.lif.tx = t.lif.tx ++ sent.map (fun m => ⟨m, .panel, t.ticks, false⟩) ∧
      t.dispatch.pns.sequence = q ∧
      t.dispatch.pns.leds = t.ledsNow.map (fun e =>
        ⟨e.led, (t.withSequence q).ledMode e.led,
          if (t.withSequence q).ledMode e.led = e.mode then e.since else t.ticks, overlay e⟩) := by
  rw [dispatch, cancelExpired_eq, h]
  exact ⟨rfl, rfl, rfl, refreshLeds_panelLeft t.considered queue sent q overlay t.ticks⟩

/-! What a dispatch leaves unchanged. -/

/-- Station u is station t but for the transmit list, the event queue, the slot sequence and the LED table. -/
def sameBesidePanel (t u : Station) : Prop :=
  { u with
    lif := { u.lif with tx := t.lif.tx }
    pns := { u.pns with queue := t.pns.queue, sequence := t.pns.sequence, leds := t.pns.leds } } = t

theorem sameBesidePanel_trans {t u w : Station} (htu : t.sameBesidePanel u) (huw : u.sameBesidePanel w) :
    t.sameBesidePanel w := by
  unfold sameBesidePanel at *
  rw [← huw] at htu
  exact htu

theorem sameBesidePanel_endSequence (t : Station) (q : Sequence) (blink : Option Pattern) (x : Nat) :
    t.sameBesidePanel (t.endSequence q blink x) := by
  cases blink with
  | none => rfl
  | some p =>
    rw [endSequence_blink]
    rfl

theorem sameBesidePanel_eventSequence (t : Station) (x : Nat) (e : PanelEvent) :
    t.sameBesidePanel (t.eventSequence x e) := by
  unfold eventSequence
  repeat' split
  all_goals first
    | exact sameBesidePanel_endSequence t _ _ x
    | rfl

theorem sameBesidePanel_tryEvent {t u : Station} {x : Nat} {e : PanelEvent} (h : t.tryEvent x e = some u) :
    t.sameBesidePanel u := by
  have hafter := sameBesidePanel_eventSequence (t.withQueue (t.pns.queue.erase e)) x e
  cases hframe : t.eventFrame e with
  | none =>
    rw [tryEvent_frameless x hframe] at h
    cases h
    exact sameBesidePanel_trans (u := t.withQueue (t.pns.queue.erase e)) rfl hafter
  | some m =>
    rw [tryEvent_framed x hframe] at h
    split at h
    · cases h
      exact sameBesidePanel_trans (u := t.withQueue (t.pns.queue.erase e)) rfl hafter
    · cases h

theorem sameBesidePanel_dispatchNext (t : Station) (x : Nat) : t.sameBesidePanel (t.dispatchNext x) := by
  unfold dispatchNext
  dsimp only
  split
  · rfl
  · split
    · next htry => exact sameBesidePanel_tryEvent htry
    · split
      · rfl
      · next third _ =>
        cases htry : t.tryEvent x third with
        | none => rfl
        | some u => exact sameBesidePanel_tryEvent htry

theorem sameBesidePanel_dispatch (t : Station) : t.sameBesidePanel t.dispatch := by
  rw [dispatch, cancelExpired_eq]
  have hnext := sameBesidePanel_dispatchNext t.considered t.ticks
  exact sameBesidePanel_trans (u := t.considered) rfl hnext

end Station

/-- Settles O55: what the dispatch of an event leaves of the panel is by `Station.dispatch_leaves` what
`Station.dispatchNext` leaves; which event that takes is by the `dispatchNext` lemmas, and what the event does by the
`tryEvent` lemmas. -/
theorem panelDispatchCarriesOutTheOldestEvent : Obligations.PanelDispatchCarriesOutTheOldestEvent := by
  unfold Obligations.PanelDispatchCarriesOutTheOldestEvent
  intro s hpowered v role chA chB maps needs on mode seq leds silent blink leaves carriedOut
  have hmode : ∀ q led, mode q led = (v.withSequence q).ledMode led := by
    intro q led
    cases led with
    | run | stop | single | enableA | enableB => exact Station.onWhile_and _ _
    | standby | clipA | clipB | triggered => rfl
    | _ =>
      simp [mode, on, Station.ledMode, Station.onWhile, Station.withSequence, Station.sequenceKind, Station.opKind]
  have hleds : leds = v.ledsNow := by
    simp only [leds, hmode]
    rfl
  have hleaves : ∀ {queue sent q overlay},
      v.considered.dispatchNext v.ticks = v.considered.panelLeft queue sent q overlay →
        leaves v.dispatch queue sent q overlay := by
    intro queue sent q overlay h
    simp only [leaves, hmode, hleds]
    exact v.dispatch_leaves h
  have hquiet : v.considered.dispatchNext v.ticks = v.considered → leaves v.dispatch v.pns.queue [] seq silent :=
    fun h => hleaves (h.trans (v.considered.panelLeft_quiet v.pns.queue v.openNow).symm)
  refine ⟨v.dispatch, State.on_powered s _ hpowered, fun h => hquiet (Station.dispatchNext_none _ h), ?_,
    v.sameBesidePanel_dispatch⟩
  have hblink : ∀ q p, v.considered.blinked q p v.ticks = blink q p := by
    intro q p
    funext x
    simp only [Station.blinked, blink]
    cases q.kind <;> rfl
  intro before e behind hqueue hbefore he rest waits sends
  have hfirst : e ∉ before := fun hmem => absurd (hbefore e hmem) (Nat.not_le.mpr he)
  have herase : v.pns.queue.erase e = rest := by rw [hqueue, Station.erase_split hfirst]
  have htakes : ∀ {sent q overlay},
      v.considered.tryEvent v.ticks e = some (v.considered.panelLeft (v.pns.queue.erase e) sent q overlay) →
        leaves v.dispatch rest sent q overlay := by
    intro sent q overlay h
    rw [herase] at h
    exact hleaves (Station.dispatchNext_takes (t := v.considered) hqueue hbefore he _ h)
  have hsends : ∀ m, v.considered.tryEvent v.ticks e =
      (if v.room m = true then some (v.considered.panelLeft (v.pns.queue.erase e) [m] none silent) else none) →
        seq = none ∨ role = .common → sends m := by
    intro m htry hfree
    refine ⟨fun hroom => htakes (by rw [htry, if_pos hroom]), fun hfull => ?_⟩
    have hnone : v.considered.tryEvent v.ticks e = none := by rw [htry, hfull]; rfl
    refine ⟨fun hbehind =>
      hquiet (Station.dispatchNext_waits (t := v.considered) hqueue hbefore he _ hnone hbehind), ?_⟩
    intro between third last m' hbehind hbetween hthird hlevel hcarries hneeds
    have hover := Station.dispatchNext_overtakes (t := v.considered) hqueue hbefore he v.ticks hnone hbehind hbetween
      hthird hlevel hneeds (hcarries.elim .inl fun hcarried => hfree.imp id fun hrole => ⟨hrole, hcarried⟩)
    exact ⟨fun hroom => hleaves (hover.trans (if_pos hroom)),
      fun hroom => hquiet (hover.trans (if_neg (Bool.eq_false_iff.mp hroom)))⟩
  refine ⟨fun hclosed => ⟨?mapped, fun hrole hkind => ⟨?opensSave, ?opensRecall, ?ignored⟩⟩,
    fun q hopen hrole => ⟨fun hkind hlow hhigh => ?digit, fun hkind hkey => ?enter, ?breaks, ?interrupts⟩⟩
  case mapped =>
    exact fun m hneeds => hsends m (Station.tryEvent_of_needs (t := v.considered) hneeds (.inl hclosed) _) (.inl hclosed)
  case opensSave =>
    exact fun hkey => htakes (Station.tryEvent_opens (t := v.considered) _ hclosed hrole hkind .save hkey)
  case opensRecall =>
    exact fun hkey => htakes (Station.tryEvent_opens (t := v.considered) _ hclosed hrole hkind .recall hkey)
  case ignored =>
    exact fun hlow hhigh => htakes (Station.tryEvent_ignored (t := v.considered) _ hclosed hrole hkind hlow hhigh)
  case digit =>
    have htry := Station.tryEvent_digit (t := v.considered) v.ticks hopen hrole hkind hlow hhigh
    refine ⟨fun hshort => htakes (by rw [htry, if_pos hshort]; rfl), fun hlong => htakes ?_⟩
    rw [htry, if_neg (Nat.not_lt.mpr hlong), hblink]
    rfl
  case enter =>
    have htry := Station.tryEvent_enter (t := v.considered) v.ticks hopen hrole hkind hkey
    simp only [hblink] at htry
    intro n
    refine ⟨fun hrange => htakes ?_, fun hdigits hslot hrecall => hsends _ ?_ (.inr hrole),
      fun hdigits hlow hslot hsave => ⟨fun hepoch => htakes ?_, fun hepoch => hsends _ ?_ (.inr hrole)⟩⟩
    · rw [htry, Station.enterPlan_range hrange]
      rfl
    · rw [htry, Station.enterPlan_recall hrecall hdigits hslot]
      rfl
    · have hepoch' : v.considered.smg.highest = Config.maxEpoch := hepoch
      rw [htry, Station.enterPlan_save hsave hdigits hlow hslot, if_pos hepoch']
      rfl
    · have hepoch' : v.considered.smg.highest ≠ Config.maxEpoch := hepoch
      rw [htry, Station.enterPlan_save hsave hdigits hlow hslot, if_neg hepoch']
      rfl
  case breaks =>
    intro hbreaks
    refine htakes ((Station.tryEvent_breaks (t := v.considered) v.ticks hopen hrole hbreaks).trans ?_)
    rw [hblink]
    rfl
  case interrupts =>
    exact fun m hcarried hneeds =>
      hsends m (Station.tryEvent_of_needs (t := v.considered) hneeds (.inr ⟨hrole, hcarried⟩) _) (.inr hrole)

end Sys2Proof.Machine

namespace Sys2Proof.Machine

/-! The events of the key positions (R94, R95, R97, R113). -/

/-- Positions that give nothing may be left out of a run. -/
theorem filterMap_range_of_none {α : Type} {f : Nat → Option α} {m n : Nat} (hmn : m ≤ n)
    (hnone : ∀ k, m ≤ k → f k = none) : (List.range n).filterMap f = (List.range m).filterMap f := by
  induction n, hmn using Nat.le_induction with
  | base => rfl
  | succ n hn ih => simp [List.range_succ, ih, hnone n hn]

namespace Station

theorem keyEvent_unmapped {role : PanelRole} {k : Nat} (x : Nat) (was now : BitVec 64) (hold : Option Nat)
    (hk : mappedKeys role ≤ k) : keyEvent role x was now hold k = none := if_pos hk

theorem keyEvent_mapped {role : PanelRole} {k : Nat} (x : Nat) (was now : BitVec 64) (hold : Option Nat)
    (hk : k < mappedKeys role) :
    keyEvent role x was now hold k =
      if now.getLsbD k = true ∧ was.getLsbD k = false then some ⟨.down, k, 0, keyLevel role k, x⟩
      else if now.getLsbD k = true ∧ heldFor x hold = true then some ⟨.hold, k, 0, keyLevel role k, x⟩
      else none := if_neg (Nat.not_le.mpr hk)

/-- The positions of the control map alone raise events. -/
theorem keyEvents_mapped (role : PanelRole) (x : Nat) (was now : BitVec 64) (hold : Nat → Option Nat) :
    (List.range 64).filterMap (fun k => keyEvent role x was now (hold k) k) =
      (List.range (mappedKeys role)).filterMap (fun k =>
        if now.getLsbD k = true ∧ was.getLsbD k = false then some ⟨.down, k, 0, keyLevel role k, x⟩
        else if now.getLsbD k = true ∧ heldFor x (hold k) = true then some ⟨.hold, k, 0, keyLevel role k, x⟩
        else none) := by
  have hmapped : mappedKeys role ≤ 64 := by
    unfold mappedKeys
    split <;> decide
  rw [filterMap_range_of_none hmapped fun k hk => keyEvent_unmapped x was now (hold k) hk]
  exact List.filterMap_congr fun k hk => keyEvent_mapped x was now (hold k) (List.mem_range.mp hk)

/-- An event that a position raises names the position. -/
theorem keyEvent_control {role : PanelRole} {x k : Nat} {was now : BitVec 64} {hold : Option Nat} {e : PanelEvent}
    (h : keyEvent role x was now hold k = some e) : e.control = k := by
  unfold keyEvent at h
  split_ifs at h <;> cases h <;> rfl

/-- In standby only a COMMON panel's key 23 has an event queued, and only its DOWN (R113). -/
theorem keyEvent_standby (role : PanelRole) (x : Nat) (was now : BitVec 64) (hold : Option Nat) (k : Nat) :
    (keyEvent role x was now hold k).filter (queues true role) =
      if k = 23 ∧ role = .common ∧ was.getLsbD 23 = false ∧ now.getLsbD 23 = true then some ⟨.down, 23, 0, 3, x⟩
      else none := by
  by_cases hpower : k = 23 ∧ role = .common
  · obtain ⟨rfl, rfl⟩ := hpower
    rw [keyEvent_mapped x was now hold (by decide)]
    cases now.getLsbD 23 <;> cases was.getLsbD 23 <;> cases heldFor x hold <;> rfl
  · rw [if_neg fun h => hpower ⟨h.1, h.2.1⟩]
    cases hevent : keyEvent role x was now hold k with
    | none => rfl
    | some e =>
      refine Option.filter_eq_none_iff.mpr fun y hy => ?_
      cases hy
      simp only [queues, keyEvent_control hevent, Bool.not_true, Bool.false_or, decide_eq_true_eq]
      exact fun ⟨hrole, _, hk⟩ => hpower ⟨hk, hrole⟩

/-- Of the events of all positions, in standby a POWER DOWN alone is queued (R113). -/
theorem keyEvents_standby (role : PanelRole) (x : Nat) (was now : BitVec 64) (hold : Nat → Option Nat) :
    ((List.range 64).filterMap (fun k => keyEvent role x was now (hold k) k)).filter (queues true role) =
      if role = .common ∧ was.getLsbD 23 = false ∧ now.getLsbD 23 = true then [⟨.down, 23, 0, 3, x⟩] else [] := by
  simp only [List.filter_filterMap, keyEvent_standby]
  rw [filterMap_range_of_none (m := 24) (by decide) fun k hk => if_neg (by omega), List.range_succ,
    List.filterMap_append, List.filterMap_eq_nil_iff.mpr fun k hk => if_neg ?_]
  · by_cases h : role = .common ∧ was.getLsbD 23 = false ∧ now.getLsbD 23 = true
    · simp only [h, and_self, and_true, List.filterMap_cons, if_true, List.filterMap_nil, List.nil_append]
    · simp only [h, and_false, List.filterMap_cons, if_false, List.filterMap_nil, List.nil_append]
  · have := List.mem_range.mp hk
    omega

/-- The hold of a timed key behind a scan (R95). -/
theorem nextHold_cases {role : PanelRole} {x : Nat} {was now : Bool} {hold hold' : Option Nat}
    (h : hold' = if role = .common then nextHold x was now hold else hold) :
    (role ≠ .common → hold' = hold) ∧
    (role = .common →
      (now = false → hold' = none) ∧ (was = false → now = true → hold' = some x) ∧
      (was = true → now = true → hold = none → hold' = none) ∧
      (was = true → now = true → ∀ noted, hold = some noted →
        hold' = if noted + Config.holdTicks ≤ x then none else some noted)) := by
  subst h
  refine ⟨fun hrole => if_neg hrole, fun hrole => ?_⟩
  rw [if_pos hrole]
  refine ⟨?_, ?_, ?_, ?_⟩
  · rintro rfl
    rfl
  · rintro rfl rfl
    rfl
  · rintro rfl rfl rfl
    simp [nextHold]
  · rintro rfl rfl noted rfl
    exact nextHold_some x noted

/-! A scan in two parts: the key positions, and then the encoders (R94, R96, R98). -/

section

variable (t : Station) (keys : BitVec 64) (detents : List Int)

/-- The station as a scan has read it, with this scan timer and these accepted key states. -/
def readAt (timer : Nat) (accepted : BitVec 64) : Station :=
  { t with
    pns :=
      { t.pns with
        scanTimer := timer, accepted := accepted, raw := keys, firstScan := false,
        counts := (List.range 8).map (fun i => clampTo (-127) 127 (t.countOf i + detents.getD i 0)) } }

theorem readAt_countOf (timer : Nat) (accepted : BitVec 64) {i : Nat} (hi : i < 8) :
    (t.readAt keys detents timer accepted).countOf i = clampTo (-127) 127 (t.countOf i + detents.getD i 0) := by
  unfold countOf readAt
  rw [List.getD_eq_getElem _ _ (by simpa using hi), List.getElem_map, List.getElem_range]
  rfl

variable (x : Nat)

/-- The first scan after a reset accepts the raw states and no more (R94). -/
theorem scan_first (h : t.pns.firstScan = true) :
    scan keys detents x t = t.readAt keys detents (x + Config.scanTicks) keys := by
  simp only [scan, h, if_true]
  rfl

/-- The accepted key states of a later scan (R94). -/
def acceptedNow : BitVec 64 := debounce keys t.pns.raw t.pns.accepted

/-- The station behind a run of key positions of a later scan, with these accepted states. -/
def keysScanned (now : BitVec 64) (l : List Nat) : Station :=
  l.foldl (scanKey x t.pns.accepted now) (t.readAt keys detents (x + Config.scanTicks) now)

/-- A later scan hands the counts over behind the key positions (R98). -/
theorem scan_later (h : t.pns.firstScan = false) :
    scan keys detents x t =
      handTurns x (t.keysScanned keys detents x (t.acceptedNow keys) (List.range 64)) 8 := by
  simp only [scan, h, Bool.false_eq_true, if_false, keysScanned, readAt, acceptedNow]
  rw [← h]
  rfl

/-- A full queue takes no key event (R98). -/
theorem keysScanned_full (now : BitVec 64) (l : List Nat) (hfull : 16 ≤ t.pns.queue.length) :
    (t.keysScanned keys detents x now l).pns.queue = t.pns.queue :=
  scanKeys_full x _ _ l (t.readAt keys detents (x + Config.scanTicks) now) hfull

section

variable (now : BitVec 64) {l : List Nat} (hl : l.Nodup)

include hl

/-- The key positions change the queue and the holds of SAVE and POWER alone (R95). -/
theorem keysScanned_eq (hsaveKey : 9 ∈ l) (hpowerKey : 23 ∈ l) :
    t.keysScanned keys detents x now l =
      (t.readAt keys detents (x + Config.scanTicks) now).withKeys (t.keysScanned keys detents x now l).pns.queue
        (if t.straps.panel = .common then
          nextHold x (t.pns.accepted.getLsbD 9) (now.getLsbD 9) t.pns.holdSave else t.pns.holdSave)
        (if t.straps.panel = .common then
          nextHold x (t.pns.accepted.getLsbD 23) (now.getLsbD 23) t.pns.holdPower else t.pns.holdPower) := by
  have h := scanKeys_eq x t.pns.accepted now l hl (t.readAt keys detents (x + Config.scanTicks) now)
  simp only [hsaveKey, hpowerKey, and_true] at h
  exact h

/-- They change neither straps nor standby, and no count. -/
theorem keysScanned_keeps (hsaveKey : 9 ∈ l) (hpowerKey : 23 ∈ l) :
    (t.keysScanned keys detents x now l).straps = t.straps ∧
    (t.keysScanned keys detents x now l).standby = t.standby ∧
    ∀ i, i < 8 →
      (t.keysScanned keys detents x now l).countOf i = clampTo (-127) 127 (t.countOf i + detents.getD i 0) := by
  rw [keysScanned_eq t keys detents x now hl hsaveKey hpowerKey]
  exact ⟨rfl, rfl, fun i hi => readAt_countOf t keys detents (x + Config.scanTicks) now hi⟩

/-- The events of the positions join the tail up to sixteen, in standby a POWER DOWN alone (R94, R98, R113). -/
theorem keysScanned_queue (hlength : t.pns.queue.length ≤ 16) :
    (t.keysScanned keys detents x now l).pns.queue =
      (t.pns.queue ++
        (l.filterMap (fun k => keyEvent t.straps.panel x t.pns.accepted now (t.holdAt k) k)).filter
          (queues t.standby t.straps.panel)).take 16 :=
  scanKeys_queue x t.pns.accepted now l hl (t.readAt keys detents (x + Config.scanTicks) now) hlength

/-- Out of standby all of them do. -/
theorem keysScanned_queue_awake (hstandby : t.standby = false) (hlength : t.pns.queue.length ≤ 16) :
    (t.keysScanned keys detents x now l).pns.queue =
      (t.pns.queue ++
        l.filterMap (fun k => keyEvent t.straps.panel x t.pns.accepted now (t.holdAt k) k)).take 16 := by
  have hqueues : queues false t.straps.panel = fun _ => true := rfl
  rw [keysScanned_queue t keys detents x now hl hlength, hstandby, hqueues, List.filter_true]

end

/-- In standby the scan of all positions queues a POWER DOWN alone (R113). -/
theorem keysScanned_queue_standby (now : BitVec 64) (hstandby : t.standby = true) :
    (t.keysScanned keys detents x now (List.range 64)).pns.queue =
      if t.straps.panel = .common ∧ t.pns.accepted.getLsbD 23 = false ∧ now.getLsbD 23 = true ∧
          t.pns.queue.length < 16 then
        t.pns.queue ++ [⟨.down, 23, 0, 3, x⟩]
      else t.pns.queue := by
  rcases Nat.lt_or_ge t.pns.queue.length 16 with hroom | hfull
  · rw [keysScanned_queue t keys detents x now List.nodup_range hroom.le, hstandby,
      keyEvents_standby _ x _ now fun k => t.holdAt k]
    by_cases hdown : t.straps.panel = .common ∧ t.pns.accepted.getLsbD 23 = false ∧ now.getLsbD 23 = true
    · obtain ⟨hrole, hup, hnow⟩ := hdown
      rw [if_pos ⟨hrole, hup, hnow⟩, if_pos ⟨hrole, hup, hnow, hroom⟩, List.take_of_length_le (by simpa using hroom)]
    · rw [if_neg hdown, if_neg fun h => hdown ⟨h.1, h.2.1, h.2.2.1⟩, List.append_nil, List.take_of_length_le hroom.le]
  · rw [if_neg fun h => absurd h.2.2.2 (Nat.not_lt.mpr hfull)]
    exact keysScanned_full t keys detents x now _ hfull

/-- Behind a scan the scan timer runs on for 4 ms (R94). -/
theorem scan_scanTimer : (scan keys detents x t).pns.scanTimer = x + Config.scanTicks := by
  have hread (timer : Nat) (accepted : BitVec 64) :
      (t.readAt keys detents timer accepted).pns.scanTimer = timer := rfl
  cases h : t.pns.firstScan with
  | true => rw [scan_first t keys detents x h, hread]
  | false =>
    rw [scan_later t keys detents x h, (handTurns_frame _ x 8).1,
      keysScanned_eq t keys detents x (t.acceptedNow keys) List.nodup_range (by decide) (by decide)]
    exact hread _ (t.acceptedNow keys)

/-- A later scan as a whole, but for the scan timer, the queue and the counts. -/
theorem scan_later_eq (h : t.pns.firstScan = false) :
    let now := t.acceptedNow keys
    scan keys detents x t =
      { t with
        pns :=
          { scanTimer := (scan keys detents x t).pns.scanTimer, accepted := now, raw := keys, firstScan := false
            holdSave :=
              if t.straps.panel = .common then
                nextHold x (t.pns.accepted.getLsbD 9) (now.getLsbD 9) t.pns.holdSave else t.pns.holdSave
            holdPower :=
              if t.straps.panel = .common then
                nextHold x (t.pns.accepted.getLsbD 23) (now.getLsbD 23) t.pns.holdPower else t.pns.holdPower
            counts := (scan keys detents x t).pns.counts
            queue := (scan keys detents x t).pns.queue
            sequence := t.pns.sequence
            leds := t.pns.leds } } := by
  intro now
  rw [scan_later t keys detents x h]
  generalize hall : List.range 64 = l
  have hturns := (handTurns_frame (t.keysScanned keys detents x now l) x 8).1
  have hscanned := keysScanned_eq t keys detents x now (hall ▸ List.nodup_range) (hall ▸ by simp) (hall ▸ by simp)
  generalize handTurns x (t.keysScanned keys detents x now l) 8 = u at hturns ⊢
  rw [hturns, hscanned]
  rfl

end

/-! The encoders (R96, R98, R113). -/

section

variable {t : Station} {x i : Nat}

/-- An encoder whose count is handed over shows 0. -/
theorem countOf_setCount_zero : (t.setCount i 0).countOf i = 0 := by
  simp only [countOf, setCount, List.getD_eq_getElem?_getD, List.getElem?_set, if_true]
  split <;> rfl

variable (hi : i < mappedEncoders t.straps.panel) (hv : t.countOf i ≠ 0)

include hi hv

/-- A TURN goes into the queued TURN of its control (R98). -/
theorem handTurn_merges (hstandby : t.standby = false) {before behind : List PanelEvent} {e : PanelEvent}
    (hqueue : t.pns.queue = before ++ e :: behind) (he : e.kind = .turn ∧ e.control = i)
    (hbefore : ∀ y ∈ before, ¬ (y.kind = .turn ∧ y.control = i)) :
    (handTurn x t i).pns.queue =
      before ++
        (if clampTo (-127) 127 (e.detents + t.countOf i) = 0 then []
         else [{ e with detents := clampTo (-127) 127 (e.detents + t.countOf i) }]) ++ behind ∧
    (handTurn x t i).countOf i = 0 := by
  have hqueued : t.pns.queue.any (fun y => decide (y.kind = .turn) && decide (y.control = i)) = true := by
    simp [hqueue, he]
  rw [handTurn_some t x i hi hv, if_neg (by simp [hstandby]), if_pos hqueued,
    ← addTurn_eq i _ before behind e he hbefore, ← hqueue]
  exact ⟨rfl, countOf_setCount_zero⟩

/-- Without one it joins the tail where there is room, and else stays in the count (R96, R98). -/
theorem handTurn_joins (hstandby : t.standby = false) (hnone : ∀ y ∈ t.pns.queue, ¬ (y.kind = .turn ∧ y.control = i)) :
    (t.pns.queue.length < 16 →
      (handTurn x t i).pns.queue = t.pns.queue ++ [⟨.turn, i, t.countOf i, 1, x⟩] ∧ (handTurn x t i).countOf i = 0) ∧
    (16 ≤ t.pns.queue.length → handTurn x t i = t) := by
  have hqueued : ¬ t.pns.queue.any (fun y => decide (y.kind = .turn) && decide (y.control = i)) = true := by
    simpa using hnone
  rw [handTurn_some t x i hi hv, if_neg (by simp [hstandby]), if_neg hqueued]
  refine ⟨fun hroom => ?_, fun hfull => if_neg (Nat.not_lt.mpr hfull)⟩
  rw [if_pos hroom]
  exact ⟨rfl, countOf_setCount_zero⟩

end

section

variable (t : Station) (x : Nat)

/-- In standby no TURN is queued, and a mapped encoder's count is cleared (R113). -/
theorem handTurn_standby (i : Nat) (hstandby : t.standby = true) :
    (handTurn x t i).pns.queue = t.pns.queue ∧
    (handTurn x t i).countOf i = if i < mappedEncoders t.straps.panel then 0 else t.countOf i := by
  by_cases hnone : mappedEncoders t.straps.panel ≤ i ∨ t.countOf i = 0
  · rw [handTurn_none t x i hnone]
    refine ⟨rfl, ?_⟩
    split
    · exact hnone.resolve_left (by omega)
    · rfl
  · obtain ⟨hi, hv⟩ := not_or.mp hnone
    rw [handTurn_some t x i (Nat.not_le.mp hi) hv, if_pos hstandby, if_pos (Nat.not_le.mp hi)]
    exact ⟨rfl, countOf_setCount_zero⟩

/-- What the run over the encoders leaves of straps and standby. -/
theorem handTurns_straps (n : Nat) :
    (handTurns x t n).straps = t.straps ∧ (handTurns x t n).standby = t.standby := by
  rw [(handTurns_frame t x n).1]
  exact ⟨rfl, rfl⟩

/-- In standby the run over the encoders leaves the queue (R113). -/
theorem handTurns_queue_standby (hstandby : t.standby = true) (n : Nat) :
    (handTurns x t n).pns.queue = t.pns.queue := by
  induction n with
  | zero => rfl
  | succ n ih =>
    rw [handTurns_succ, (handTurn_standby _ x n ((handTurns_straps t x n).2.trans hstandby)).1, ih]

/-- An encoder finds the count that was read, and leaves the one that the scan leaves. -/
theorem handTurns_countOf_turn {i : Nat} (hi : i < 8) :
    (handTurns x t i).countOf i = t.countOf i ∧
    (handTurns x t 8).countOf i = (handTurn x (handTurns x t i) i).countOf i := by
  refine ⟨(handTurns_frame t x i).2.2 i le_rfl, ?_⟩
  rw [← handTurns_succ, ← handTurns_countOf t x i (7 - i)]
  congr 2
  omega

end

end Station

/-- Settles O54: the first scan by `Station.scan_first`; a later one by `Station.scan_later_eq`, its key events by
`Station.keysScanned_queue`, and its TURNs encoder by encoder by the `Station.handTurn` lemmas. -/
theorem scanRaisesEvents : Obligations.ScanRaisesEvents := by
  unfold Obligations.ScanRaisesEvents
  rintro s keys detents d ⟨hpowered, hdeadline, hticks, horder, hedge⟩ _ _
  intro pns role was mappedKeys mappedEncoders level hold limit count
  have hexpired := Station.expire_due s.station _ (Station.scan keys detents) d hdeadline hticks horder hedge
  have hact : exec (.scanTimerExpiry keys detents) s = .next (s.put (Station.scan keys detents d s.station)) :=
    State.on_answers (f := fun t => t.expire (some t.pns.scanTimer) (Station.scan keys detents)) hpowered hexpired
  have htimer := Station.scan_scanTimer s.station keys detents d
  have hcount : ∀ timer accepted i, i < 8 → (s.station.readAt keys detents timer accepted).countOf i = count i :=
    fun timer accepted i hi => Station.readAt_countOf s.station keys detents timer accepted hi
  refine ⟨_, hact, htimer, ?_⟩
  cases hfirst : pns.firstScan with
  | true =>
    rw [Station.scan_first s.station keys detents d hfirst]
    exact ⟨rfl, rfl, fun _ => ⟨rfl, rfl, hcount _ keys⟩, nofun, rfl, rfl, rfl⟩
  | false =>
    have hscan := Station.scan_later_eq s.station keys detents d hfirst
    have hturns := Station.scan_later s.station keys detents d hfirst
    generalize Station.scan keys detents d s.station = u at hscan hturns
    have hkeeps := Station.keysScanned_keeps s.station keys detents d (s.station.acceptedNow keys)
      (List.nodup_range (n := 64)) (by decide) (by decide)
    have hnow : u.pns.accepted = s.station.acceptedNow keys := congrArg (fun w => w.pns.accepted) hscan
    refine ⟨congrArg (fun w => w.pns.raw) hscan, congrArg (fun w => w.pns.firstScan) hscan, nofun, fun _ => ?_,
      by rw [hscan], congrArg (fun w => w.pns.leds) hscan, congrArg (fun w => w.pns.sequence) hscan⟩
    intro now raised
    refine ⟨fun k hk => ?accepted, fun k h h' hmem => ?holds, fun hstandby hlength => ?awake, fun hstandby => ?asleep⟩
    case accepted =>
      exact (congrArg (fun b => b.getLsbD k) hnow).trans (Station.debounce_bit keys pns.raw was k hk)
    case holds =>
      simp only [List.mem_cons, Prod.mk.injEq, List.not_mem_nil, or_false] at hmem
      rcases hmem with ⟨rfl, rfl, rfl⟩ | ⟨rfl, rfl, rfl⟩
      · exact Station.nextHold_cases ((congrArg (fun w => w.pns.holdSave) hscan).trans (by rw [← hnow]))
      · exact Station.nextHold_cases ((congrArg (fun w => w.pns.holdPower) hscan).trans (by rw [← hnow]))
    case awake =>
      have hraised : (List.range 64).filterMap (fun k =>
          Station.keyEvent role d was (s.station.acceptedNow keys) (s.station.holdAt k) k) = raised := by
        rw [← hnow]
        exact Station.keyEvents_mapped role d was now hold
      have hqueue := Station.keysScanned_queue_awake s.station keys detents d (s.station.acceptedNow keys)
        (List.nodup_range (n := 64)) hstandby hlength
      generalize s.station.keysScanned keys detents d (s.station.acceptedNow keys) (List.range 64) = w
        at hkeeps hturns hqueue
      obtain ⟨hstraps, hkept, hcounts⟩ := hkeeps
      refine ⟨fun i => (Station.handTurns d w i).pns.queue, hqueue.trans ?_,
        (congrArg (fun w => w.pns.queue) hturns).symm, fun i hi => ?_⟩
      · exact congrArg (fun events => (pns.queue ++ events).take 16) hraised
      intro v turns
      obtain ⟨hin, hout⟩ := Station.handTurns_countOf_turn w d hi
      obtain ⟨hpanel, hawake⟩ := Station.handTurns_straps w d i
      have hcounted : u.countOf i = (Station.handTurn d (Station.handTurns d w i) i).countOf i := by rw [hturns, hout]
      have hqueued : (Station.handTurns d w (i + 1)).pns.queue =
          (Station.handTurn d (Station.handTurns d w i) i).pns.queue := by rw [Station.handTurns_succ]
      have hv : (Station.handTurns d w i).countOf i = v := hin.trans (hcounts i hi)
      rw [hstraps] at hpanel
      simp only [hcounted, hqueued]
      generalize Station.handTurns d w i = y at hv hpanel hawake ⊢
      have hgo : y.standby = false := hawake.trans (hkept.trans hstandby)
      have hrole : mappedEncoders = Machine.mappedEncoders y.straps.panel := by rw [hpanel]
      refine ⟨fun hnone => ?_, fun hmapped hne => ⟨fun before e behind hbehind he hfirst => ?_, fun hnone => ?_⟩⟩
      · rw [Station.handTurn_none y d i (by rwa [← hrole, hv])]
        exact ⟨rfl, hv⟩
      · rw [hrole] at hmapped
        rw [← hv] at hne ⊢
        exact Station.handTurn_merges hmapped hne hgo hbehind he hfirst
      · rw [hrole] at hmapped
        rw [← hv] at hne ⊢
        obtain ⟨hjoins, hfull⟩ := Station.handTurn_joins hmapped hne hgo hnone
        exact ⟨hjoins, fun h => by rw [hfull h]; exact ⟨rfl, rfl⟩⟩
    case asleep =>
      have hqueue := Station.keysScanned_queue_standby s.station keys detents d (s.station.acceptedNow keys) hstandby
      generalize s.station.keysScanned keys detents d (s.station.acceptedNow keys) (List.range 64) = w
        at hkeeps hturns hqueue
      obtain ⟨hstraps, hkept, hcounts⟩ := hkeeps
      have hasleep := hkept.trans hstandby
      refine ⟨?_, fun i hi => ?_⟩
      · rw [hturns, Station.handTurns_queue_standby w d hasleep, hqueue, ← hnow]
      · obtain ⟨hin, hout⟩ := Station.handTurns_countOf_turn w d hi
        obtain ⟨hpanel, hawake⟩ := Station.handTurns_straps w d i
        rw [hturns, hout, (Station.handTurn_standby _ d i (hawake.trans hasleep)).2, hpanel, hstraps, hin, hcounts i hi]
        rfl

end Sys2Proof.Machine

namespace Sys2Proof.Machine

/-! Bytes, byte order and two's complement. -/

theorem byteOf_toNat {n : Nat} (h : n < 256) : (byteOf n).toNat = n := by
  simpa [byteOf] using h

@[simp] theorem leBytes_length (n v : Nat) : (leBytes n v).length = n := by
  induction n generalizing v with
  | zero => rfl
  | succ n ih => simp [leBytes, ih]

/-- The bytes of a value give it back, modulo the values that so many bytes hold. -/
theorem leNat_leBytes (n v : Nat) : leNat (leBytes n v) = v % 256 ^ n := by
  induction n generalizing v with
  | zero => simp [leBytes, leNat, Nat.mod_one]
  | succ n ih => rw [leBytes, leNat, ih, Nat.pow_succ', Nat.mod_mul, BitVec.toNat_ofNat]

theorem leNat_lt (bs : List Byte) : leNat bs < 256 ^ bs.length := by
  induction bs with
  | nil => exact Nat.one_pos
  | cons b bs ih =>
    have hb := b.isLt
    rw [leNat, List.length_cons, Nat.pow_succ']
    omega

theorem unsignedOf_lt (bits : Nat) (v : Int) : unsignedOf bits v < 2 ^ bits := by
  have hpos : (0 : Int) < 2 ^ bits := by positivity
  have hlt := Int.emod_lt_of_pos v hpos
  have hcast : ((2 ^ bits : Nat) : Int) = 2 ^ bits := by push_cast; rfl
  rw [unsignedOf]
  omega

/-- Two's complement in so many bits gives back every value from -2^k to 2^k - 1. -/
theorem signedOf_unsignedOf {k : Nat} {v : Int} (hlo : -(2 ^ k : Int) ≤ v) (hhi : v < 2 ^ k) :
    signedOf (k + 1) (unsignedOf (k + 1) v) = v := by
  have hcast : ((2 ^ k : Nat) : Int) = 2 ^ k := by push_cast; rfl
  simp only [signedOf, unsignedOf, Nat.add_sub_cancel, pow_succ]
  generalize (2 ^ k : Int) = p at *
  rcases Int.lt_or_le v 0 with hneg | hpos
  · have hmod : v % (p * 2) = v + p * 2 := by
      rw [← Int.add_emod_right, Int.emod_eq_of_lt (by omega) (by omega)]
    rw [hmod, if_neg (by omega)]
    omega
  · rw [Int.emod_eq_of_lt hpos (by omega), if_pos (by omega)]
    omega

/-! Slices of a byte sequence. -/

@[simp] theorem slice_length (bs : List Byte) (o n : Nat) : (slice bs o n).length = n := by simp [slice]

theorem slice_getD {bs : List Byte} {o n i : Nat} (h : i < n) : (slice bs o n).getD i 0 = bs.getD (o + i) 0 := by
  simp [slice, h]

theorem byteAt_slice {bs : List Byte} {o n i : Nat} (h : i < n) : byteAt (slice bs o n) i = byteAt bs (o + i) := by
  rw [byteAt, byteAt, slice_getD h]

theorem slice_slice {bs : List Byte} {o n k m : Nat} (h : k + m ≤ n) :
    slice (slice bs o n) k m = slice bs (o + k) m := by
  refine List.map_congr_left fun i hi => ?_
  rw [slice_getD (by have := List.mem_range.mp hi; omega), Nat.add_assoc]

theorem slice_append_left {a b : List Byte} {o n : Nat} (h : o + n ≤ a.length) : slice (a ++ b) o n = slice a o n :=
  List.map_congr_left fun i hi => List.getD_append _ _ _ _ (by have := List.mem_range.mp hi; omega)

theorem slice_append_right {a b : List Byte} {o n : Nat} (h : a.length ≤ o) :
    slice (a ++ b) o n = slice b (o - a.length) n := by
  refine List.map_congr_left fun i _ => ?_
  rw [List.getD_append_right _ _ _ _ (by omega), Nat.sub_add_comm h]

theorem slice_whole {bs : List Byte} {n : Nat} (h : bs.length = n) : slice bs 0 n = bs := by
  refine List.ext_getElem (by simp [h]) fun i hi hi' => ?_
  rw [← List.getD_eq_getElem _ 0 hi, slice_getD (by omega), Nat.zero_add, List.getD_eq_getElem _ _ hi']

theorem allZero_iff (bs : List Byte) (o n : Nat) : allZero bs o n = true ↔ ∀ i, i < n → byteAt bs (o + i) = 0 := by
  simp [allZero, slice, byteAt, BitVec.toNat_eq]

/-- `allZero_iff` by positions of the whole sequence. -/
theorem allZero_iff_between (bs : List Byte) (o n : Nat) :
    allZero bs o n = true ↔ ∀ i, o ≤ i → i < o + n → byteAt bs i = 0 := by
  rw [allZero_iff]
  refine ⟨fun h i hlo hhi => ?_, fun h i hi => h (o + i) (by omega) (by omega)⟩
  rw [← Nat.add_sub_cancel' hlo]
  exact h (i - o) (by omega)

theorem allZero_slice {bs : List Byte} {o n k m : Nat} (h : k + m ≤ n) :
    allZero (slice bs o n) k m = allZero bs (o + k) m := by
  rw [allZero, slice_slice h, allZero]

/-! The catalogue's ranges (R1, R2, R122). -/

theorem commonSpec_number {count n : Nat} {sp : SettingSpec} (h : commonSpec count n = some sp) : n < 17 := by
  by_contra hn
  obtain ⟨m, rfl⟩ := Nat.exists_eq_add_of_le' (Nat.le_of_not_lt hn)
  cases h

theorem channelSpec_number {n : Nat} {sp : SettingSpec} (h : channelSpec n = some sp) : n < 9 := by
  by_contra hn
  obtain ⟨m, rfl⟩ := Nat.exists_eq_add_of_le' (Nat.le_of_not_lt hn)
  cases h

theorem SettingSpec.holds_iff (sp : SettingSpec) (v : Int) : sp.holds v = true ↔ sp.lo ≤ v ∧ v ≤ sp.hi := by
  simp [SettingSpec.holds]

theorem Common.inRange_iff (count : Nat) (c : Common) :
    c.inRange count = true ↔ ∀ n sp, commonSpec count n = some sp → sp.lo ≤ c.value n ∧ c.value n ≤ sp.hi := by
  simp only [Common.inRange, List.all_eq_true, List.mem_range]
  refine ⟨fun h n sp hsp => by simpa [hsp, sp.holds_iff] using h n (commonSpec_number hsp), fun h n _ => ?_⟩
  split
  next sp hsp => exact (sp.holds_iff _).mpr (h n sp hsp)
  next => rfl

theorem Channel.inRange_iff (c : Channel) :
    c.inRange = true ↔
      (∀ n sp, channelSpec n = some sp → sp.lo ≤ c.value n ∧ c.value n ≤ sp.hi) ∧
      c.label.length ≤ 8 ∧ ∀ code ∈ c.label, code ≤ 63 := by
  simp only [Channel.inRange, Bool.and_eq_true, List.all_eq_true, List.mem_range, decide_eq_true_eq, and_assoc]
  refine and_congr_left'
    ⟨fun h n sp hsp => by simpa [hsp, sp.holds_iff] using h n (channelSpec_number hsp), fun h n _ => ?_⟩
  split
  next sp hsp => exact (sp.holds_iff _).mpr (h n sp hsp)
  next => rfl

/-! A setting out of range takes its built-in default (R124). -/

theorem Common.value_put_ne (c : Common) {m n : Nat} (v : Int) (h : n ≠ m) : (c.put m v).value n = c.value n := by
  unfold Common.put
  split
  case h_17 => rfl
  all_goals
    unfold Common.value
    split <;> trivial

theorem Common.value_put_same (c : Common) {count n : Nat} {sp : SettingSpec} {v : Int}
    (hn : commonSpec count n = some sp) (hv : 0 ≤ v) : (c.put n v).value n = v := by
  unfold commonSpec at hn
  split at hn
  case h_17 => cases hn
  all_goals exact Int.toNat_of_nonneg hv

theorem Common.default_value_nonneg (n : Nat) : 0 ≤ Common.default.value n := by
  unfold Common.value
  split <;> decide

/-- One step of `Common.orDefaults`: the setting of one number. -/
def Common.settle (count : Nat) (c : Common) (number : Nat) : Common :=
  match commonSpec count number with
  | some sp => if sp.holds (c.value number) then c else c.put number (Common.default.value number)
  | none => c

theorem Common.orDefaults_eq_foldl (count : Nat) (c : Common) :
    c.orDefaults count = (List.range 17).foldl (Common.settle count) c := rfl

theorem Common.settle_value_ne (count : Nat) (c : Common) {m n : Nat} (h : n ≠ m) :
    (c.settle count m).value n = c.value n := by
  unfold Common.settle
  split
  · split
    · rfl
    · exact c.value_put_ne _ h
  · rfl

theorem Common.settle_value_same {count n : Nat} {sp : SettingSpec} (c : Common) (hn : commonSpec count n = some sp) :
    (c.settle count n).value n =
      if sp.lo ≤ c.value n ∧ c.value n ≤ sp.hi then c.value n else Common.default.value n := by
  simp only [Common.settle, hn, ← sp.holds_iff]
  split
  · rfl
  · exact c.value_put_same hn (Common.default_value_nonneg n)

/-- Settling other numbers leaves a setting as it was. -/
theorem Common.foldl_settle_value_of_notMem (count : Nat) {n : Nat} (numbers : List Nat) (c : Common)
    (h : n ∉ numbers) : (numbers.foldl (Common.settle count) c).value n = c.value n := by
  induction numbers generalizing c with
  | nil => rfl
  | cons m numbers ih =>
    rw [List.mem_cons, not_or] at h
    exact (ih _ h.2).trans (c.settle_value_ne count h.1)

/-- Each setting is settled once, and the other steps leave it. -/
theorem Common.orDefaults_value {count n : Nat} {sp : SettingSpec} (c : Common) (hn : commonSpec count n = some sp) :
    (c.orDefaults count).value n =
      if sp.lo ≤ c.value n ∧ c.value n ≤ sp.hi then c.value n else Common.default.value n := by
  obtain ⟨before, behind, hsplit⟩ := List.append_of_mem (List.mem_range.mpr (commonSpec_number hn))
  obtain ⟨_, hbehind, hbefore⟩ := List.nodup_append.mp (hsplit ▸ List.nodup_range (n := 17))
  rw [Common.orDefaults_eq_foldl, hsplit, List.foldl_append, List.foldl_cons,
    Common.foldl_settle_value_of_notMem _ _ _ (List.nodup_cons.mp hbehind).1, Common.settle_value_same _ hn,
    Common.foldl_settle_value_of_notMem _ _ _ fun hmem => hbefore n hmem n List.mem_cons_self rfl]

/-! The sections of a packed image (R119) and what they decode to. -/

@[simp] theorem Common.bytes_length (c : Common) : c.bytes.length = 48 := by simp [Common.bytes, zeros]

@[simp] theorem Channel.bytes_length (c : Channel) : c.bytes.length = 64 := by simp [Channel.bytes, zeros]

@[simp] theorem runBytes_length (runMode : Nat) (r : RunState) : (runBytes runMode r).length = 16 := by
  simp [runBytes, zeros]

/-- Bytes 0 to 15 of a packed image (R119, step 1). -/
def packHeader (station slot : Nat) (epoch : Epoch) : List Byte :=
  leBytes 2 Config.validMarker ++ [1, byteOf station, byteOf slot, 0] ++ leBytes 4 epoch.toNat ++ zeros 6

@[simp] theorem packHeader_length (station slot : Nat) (epoch : Epoch) :
    (packHeader station slot epoch).length = 16 := by simp [packHeader, zeros]

theorem packBody_eq (station slot : Nat) (w : Contents) :
    packBody station slot w =
      packHeader station slot w.epoch ++ w.common.bytes ++ w.chA.bytes ++ w.chB.bytes ++
      runBytes w.runMode w.runState ++ zeros 44 := rfl

@[simp] theorem packBody_length (station slot : Nat) (w : Contents) : (packBody station slot w).length = 252 := by
  simp [packBody_eq, zeros]

theorem packImage_length (station slot : Nat) (w : Contents) : (packImage station slot w).length = 256 := by
  simp [packImage]

section
variable (station slot : Nat) (w : Contents)

theorem slice_packImage_body {o n : Nat} (h : o + n ≤ 252) :
    slice (packImage station slot w) o n = slice (packBody station slot w) o n :=
  slice_append_left (by simpa using h)

theorem packImage_take : (packImage station slot w).take 252 = packBody station slot w :=
  List.take_left' (packBody_length station slot w)

theorem packImage_crc :
    slice (packImage station slot w) 252 4 = leBytes 4 (crc32 (packBody station slot w)).toNat := by
  rw [packImage, slice_append_right (by simp), packBody_length]
  exact slice_whole (by simp)

/-- The sections of a packed image, each at its offset (R119, steps 2 to 5). -/
theorem packImage_sections :
    slice (packImage station slot w) 16 48 = w.common.bytes ∧ slice (packImage station slot w) 64 64 = w.chA.bytes ∧
    slice (packImage station slot w) 128 64 = w.chB.bytes ∧
    slice (packImage station slot w) 192 16 = runBytes w.runMode w.runState ∧
    slice (packImage station slot w) 208 44 = zeros 44 := by
  simp [slice_packImage_body, packBody_eq, slice_append_left, slice_append_right, slice_whole, zeros]

end

/-- Every common setting but HPOS fits one byte. -/
theorem commonSpec_hi_lt {count n : Nat} {sp : SettingSpec} (hcount : count ≤ 4) (h : commonSpec count n = some sp)
    (hn : n ≠ 2) : sp.hi < 256 := by
  unfold commonSpec at h
  split at h
  case h_17 => cases h
  all_goals
    cases h
    dsimp only
    omega

/-- Every channel setting but VOFFSET lies below 256. -/
theorem channelSpec_hi_lt {n : Nat} {sp : SettingSpec} (h : channelSpec n = some sp) (hn : n ≠ 3) : sp.hi < 256 := by
  unfold channelSpec at h
  split at h
  case h_9 => cases h
  case h_3 => contradiction
  all_goals
    cases h
    decide

/-- The common settings within their ranges come back from their bytes. -/
theorem commonOfBytes_bytes {count : Nat} {c : Common} (hcount : count ≤ 4) (h : c.inRange count = true) :
    commonOfBytes c.bytes = c := by
  have range := (Common.inRange_iff count c).mp h
  have byte (n : Nat) {x : Nat} {sp : SettingSpec} (hn : commonSpec count n = some sp) (hx : c.value n = x)
      (hne : n ≠ 2 := by decide) : (byteOf x).toNat = x := by
    have hhi := commonSpec_hi_lt hcount hn hne
    have hle := (range n sp hn).2
    exact byteOf_toNat (by omega)
  have hhpos : leNat (leBytes 2 c.hpos) = c.hpos := by
    have hle : (c.hpos : Int) ≤ 1000 := (range 2 _ rfl).2
    rw [leNat_leBytes]
    exact Nat.mod_eq_of_lt (by omega)
  obtain ⟨timebase, hpos, reclen, acqmode, avgcount, trigsrc, trigtype, slope, pulsecond, pulsew, holdoff, runmode,
    qualmode, persist, intensity, graticule⟩ := c
  rw [commonOfBytes, Common.mk.injEq]
  exact ⟨byte 1 rfl rfl, hhpos, byte 3 rfl rfl, byte 4 rfl rfl, byte 5 rfl rfl, byte 6 rfl rfl, byte 7 rfl rfl,
    byte 8 rfl rfl, byte 9 rfl rfl, byte 10 rfl rfl, byte 11 rfl rfl, byte 12 rfl rfl, byte 13 rfl rfl,
    byte 14 rfl rfl, byte 15 rfl rfl, byte 16 rfl rfl⟩

section
variable {c : Channel}

theorem Channel.bytes_labelLength (h : c.label.length ≤ 8) : byteAt c.bytes 10 = c.label.length :=
  byteOf_toNat (by omega)

/-- A label position holds its code, and 0 from the label length on (R119). -/
theorem Channel.bytes_labelCode {i : Nat} (h : i < 8) :
    byteAt c.bytes (11 + i) = (byteOf (c.label.getD i 0)).toNat := by
  interval_cases i <;> rfl

/-- Label and signed settings included, the channel settings within their ranges come back from their bytes. -/
theorem channelOfBytes_bytes (h : c.inRange = true) : channelOfBytes c.bytes = c := by
  obtain ⟨range, hlength, hcodes⟩ := c.inRange_iff.mp h
  have byte (n : Nat) {x : Nat} {sp : SettingSpec} (hn : channelSpec n = some sp) (hx : c.value n = x)
      (hne : n ≠ 3 := by decide) : (byteOf x).toNat = x := by
    have hhi := channelSpec_hi_lt hn hne
    have hle := (range n sp hn).2
    exact byteOf_toNat (by omega)
  have hvoffset : signedOf 16 (leNat (leBytes 2 (unsignedOf 16 c.voffset))) = c.voffset := by
    obtain ⟨hlo, hhi⟩ : -500 ≤ c.voffset ∧ c.voffset ≤ 500 := range 3 _ rfl
    rw [leNat_leBytes, Nat.mod_eq_of_lt (show _ < 256 ^ 2 from unsignedOf_lt 16 _)]
    exact signedOf_unsignedOf (by omega) (by omega)
  have htriglevel : signedOf 8 (byteOf (unsignedOf 8 c.triglevel)).toNat = c.triglevel := by
    obtain ⟨hlo, hhi⟩ : -127 ≤ c.triglevel ∧ c.triglevel ≤ 127 := range 7 _ rfl
    rw [byteOf_toNat (unsignedOf_lt 8 _)]
    exact signedOf_unsignedOf (by omega) (by omega)
  have hlabel : (List.range (byteAt c.bytes 10)).map (fun i => byteAt c.bytes (11 + i)) = c.label := by
    rw [Channel.bytes_labelLength hlength]
    refine List.ext_getElem (by simp) fun i _ hi => ?_
    have hcode := hcodes _ (List.getElem_mem hi)
    rw [List.getElem_map, List.getElem_range, Channel.bytes_labelCode (by omega), List.getD_eq_getElem _ _ hi]
    exact byteOf_toNat (by omega)
  obtain ⟨enable, vscale, voffset, coupling, bwlimit, invert, triglevel, qualstate, label⟩ := c
  rw [channelOfBytes, Channel.mk.injEq]
  exact ⟨byte 1 rfl rfl, byte 2 rfl rfl, hvoffset, byte 4 rfl rfl, byte 5 rfl rfl, byte 6 rfl rfl, htriglevel,
    byte 8 rfl rfl, hlabel⟩

/-- Packing writes 0 into every reserved byte of a channel section, the unused label positions included (R119). -/
theorem Channel.bytes_reservedZero (h : c.label.length ≤ 8) : channelReservedZero c.bytes = true := by
  have htag : byteAt c.bytes 0 = 1 := rfl
  have hbehind : allZero c.bytes 19 45 = true := rfl
  have hpositions : allZero c.bytes (11 + c.label.length) (8 - c.label.length) = true := by
    refine (allZero_iff _ _ _).mpr fun i hi => ?_
    rw [Nat.add_assoc, Channel.bytes_labelCode (by omega), List.getD_eq_default _ _ (by omega)]
    rfl
  simp [channelReservedZero, htag, hbehind, Channel.bytes_labelLength h, h, hpositions]

theorem Channel.bytes_sectionInRange (h : c.inRange = true) : channelSectionInRange c.bytes = true := by
  obtain ⟨_, hlength, _⟩ := c.inRange_iff.mp h
  have htag : byteAt c.bytes 0 = 1 := rfl
  simp [channelSectionInRange, htag, Channel.bytes_labelLength hlength, hlength, channelOfBytes_bytes h, h]

theorem unpackChannel_bytes (h : c.inRange = true) : unpackChannel c.bytes = c := by
  rw [unpackChannel, if_pos (show byteAt c.bytes 0 = 1 from rfl), channelOfBytes_bytes h]

end

section
variable (station slot : Nat) (w : Contents)

theorem packImage_valid : imageValid (packImage station slot w) = true := by
  have hmarker : slice (packImage station slot w) 0 2 = leBytes 2 Config.validMarker := rfl
  have hcrc : leNat (slice (packImage station slot w) 252 4) = (crc32 (packBody station slot w)).toNat := by
    rw [packImage_crc, leNat_leBytes]
    exact Nat.mod_eq_of_lt (BitVec.isLt _)
  rw [imageValid, packImage_length, packImage_take, hmarker, leNat_leBytes, hcrc]
  simp [Config.validMarker]

theorem packImage_epoch : imageEpoch (packImage station slot w) = w.epoch := by
  have hbytes : slice (packImage station slot w) 6 4 = leBytes 4 w.epoch.toNat := rfl
  rw [imageEpoch, hbytes, leNat_leBytes, Nat.mod_eq_of_lt (show _ < 256 ^ 4 from w.epoch.isLt),
    BitVec.ofNat_toNat, BitVec.setWidth_eq]

theorem packImage_reservedZero (hA : w.chA.label.length ≤ 8) (hB : w.chB.label.length ≤ 8) :
    reservedZero (packImage station slot w) = true := by
  have hflags : allZero (packImage station slot w) 5 1 = true := rfl
  have hheader : allZero (packImage station slot w) 10 6 = true := rfl
  obtain ⟨hcommonBytes, hchA, hchB, hrunBytes, htrailingBytes⟩ := packImage_sections station slot w
  have hcommon : allZero (packImage station slot w) (16 + 17) 31 = true := by
    rw [← allZero_slice (n := 48) (by omega), hcommonBytes]
    rfl
  have hrun : allZero (packImage station slot w) (192 + 2) 14 = true := by
    rw [← allZero_slice (n := 16) (by omega), hrunBytes]
    rfl
  have htrailing : allZero (packImage station slot w) 208 44 = true := by
    rw [allZero, htrailingBytes]
    rfl
  simp [reservedZero, hflags, hheader, hcommon, hrun, htrailing, hchA, hchB,
    Channel.bytes_reservedZero hA, Channel.bytes_reservedZero hB]

theorem packImage_runMode (h : w.runMode < 256) : byteAt (packImage station slot w) 192 = w.runMode := by
  obtain ⟨_, _, _, hrun, _⟩ := packImage_sections station slot w
  rw [← byteAt_slice (o := 192) (n := 16) (i := 0) (by omega), hrun]
  exact byteOf_toNat h

theorem packImage_runState : RunState.ofCode (byteAt (packImage station slot w) 193) = some w.runState := by
  obtain ⟨_, _, _, hrun, _⟩ := packImage_sections station slot w
  rw [← byteAt_slice (o := 192) (n := 16) (i := 1) (by omega), hrun]
  cases w.runState <;> rfl

end

/-- An image that a station has packed passes that station's own checks (R120). -/
theorem unpackImage_packImage {station count slot : Nat} {w : Contents} (hstation : station < 4) (hslot : slot < 256)
    (hcount : count ≤ 4) (hcommon : w.common.inRange count = true) (hA : w.chA.inRange = true)
    (hB : w.chB.inRange = true) (hmode : w.runMode = w.common.runmode) :
    unpackImage station count slot (packImage station slot w) = .ok w := by
  obtain ⟨_, hlengthA, _⟩ := w.chA.inRange_iff.mp hA
  obtain ⟨_, hlengthB, _⟩ := w.chB.inRange_iff.mp hB
  obtain ⟨hcommonBytes, hchA, hchB, _, _⟩ := packImage_sections station slot w
  have hle : w.runMode ≤ 1 := by
    have hrange : (w.common.runmode : Int) ≤ 1 := ((Common.inRange_iff _ _).mp hcommon 12 _ rfl).2
    omega
  have hversion : byteAt (packImage station slot w) 2 = 1 := rfl
  have hstation : byteAt (packImage station slot w) 3 = station := byteOf_toNat (by omega)
  have hslot : byteAt (packImage station slot w) 4 = slot := byteOf_toNat hslot
  have hrunMode := packImage_runMode station slot w (by omega)
  have hsettings : settingsInRange count (packImage station slot w) = true := by
    simp [settingsInRange, hcommonBytes, hchA, hchB, commonOfBytes_bytes hcount hcommon, hcommon,
      Channel.bytes_sectionInRange hA, Channel.bytes_sectionInRange hB, hrunMode, hle, ← hmode, packImage_runState]
  have hreserved := packImage_reservedZero station slot w hlengthA hlengthB
  simp [unpackImage, packImage_valid, hversion, hstation, hslot, hreserved, hsettings, hcommonBytes, hchA, hchB,
    commonOfBytes_bytes hcount hcommon, unpackChannel_bytes hA, unpackChannel_bytes hB, hrunMode, packImage_runState,
    packImage_epoch]

/-! The checks of unpacking (R121), each as a condition on the image's bytes. -/

/-- Check 1 of R121, but for the length: the valid marker holds its value and the CRC-32 matches. -/
def ImageIntact (image : List Byte) : Prop :=
  leNat (slice image 0 2) = 0xD2B4 ∧ leNat (slice image 252 4) = (crc32 (image.take 252)).toNat

/-- A channel section's reserved bytes are 0, by its tag (R122). -/
def ChannelReserved (image : List Byte) (o : Nat) : Prop :=
  (byteAt image o = 1 →
    (∀ i, 19 ≤ i → i < 64 → byteAt image (o + i) = 0) ∧
    (byteAt image (o + 10) ≤ 8 → ∀ j, byteAt image (o + 10) ≤ j → j < 8 → byteAt image (o + 11 + j) = 0)) ∧
  (byteAt image o = 2 → ∀ i, 1 ≤ i → i < 64 → byteAt image (o + i) = 0)

/-- Check 5 of R121: every reserved byte is 0 (R122). -/
def ImageReserved (image : List Byte) : Prop :=
  (∀ i, i < 252 →
    i = 5 ∨ (10 ≤ i ∧ i < 16) ∨ (33 ≤ i ∧ i < 64) ∨ (194 ≤ i ∧ i < 208) ∨ 208 ≤ i → byteAt image i = 0) ∧
  ∀ o, o = 64 ∨ o = 128 → ChannelReserved image o

/-- A channel section is EMPTY, or PRESENT with every setting within its range (R122). -/
def ChannelFits (image : List Byte) (o : Nat) : Prop :=
  byteAt image o = 2 ∨
  (byteAt image o = 1 ∧ byteAt image (o + 10) ≤ 8 ∧
    (∀ j, j < byteAt image (o + 10) → byteAt image (o + 11 + j) ≤ 63) ∧
    ∀ n sp, channelSpec n = some sp →
      sp.lo ≤ (channelOfBytes (slice image o 64)).value n ∧ (channelOfBytes (slice image o 64)).value n ≤ sp.hi)

/-- Check 6 of R121: every field lies within its range (R122). -/
def ImageFits (count : Nat) (image : List Byte) : Prop :=
  (∀ n sp, commonSpec count n = some sp →
    sp.lo ≤ (commonOfBytes (slice image 16 48)).value n ∧ (commonOfBytes (slice image 16 48)).value n ≤ sp.hi) ∧
  (∀ o, o = 64 ∨ o = 128 → ChannelFits image o) ∧
  byteAt image 192 ≤ 1 ∧ byteAt image 192 = byteAt image 28 ∧ byteAt image 193 ≤ 2

theorem imageValid_iff {image : List Byte} (h : image.length = 256) :
    imageValid image = true ↔ ImageIntact image := by
  simp [imageValid, ImageIntact, h, Config.validMarker]

theorem channelReservedZero_iff (image : List Byte) (o : Nat) :
    channelReservedZero (slice image o 64) = true ↔ ChannelReserved image o := by
  have htag : byteAt (slice image o 64) 0 = byteAt image o := byteAt_slice (by omega)
  have hlength : byteAt (slice image o 64) 10 = byteAt image (o + 10) := byteAt_slice (by omega)
  have htail {k m : Nat} (h : k + m = 64) :
      allZero (slice image o 64) k m = true ↔ ∀ i, k ≤ i → i < 64 → byteAt image (o + i) = 0 := by
    rw [allZero_iff_between, h]
    exact forall₃_congr fun i _ hi => by rw [byteAt_slice hi]
  have hlabel (len : Nat) : allZero (slice image o 64) (11 + len) (8 - len) = true ↔
      ∀ j, len ≤ j → j < 8 → byteAt image (o + 11 + j) = 0 := by
    rw [allZero_iff_between]
    refine ⟨fun h j hlo hhi => ?_, fun h i hlo hhi => ?_⟩
    · rw [Nat.add_assoc, ← byteAt_slice (n := 64) (by omega)]
      exact h (11 + j) (by omega) (by omega)
    · rw [byteAt_slice (by omega), show o + i = o + 11 + (i - 11) by omega]
      exact h (i - 11) (by omega) (by omega)
  unfold channelReservedZero ChannelReserved
  rw [htag, hlength]
  split
  next h1 =>
    rw [Bool.and_eq_true, htail (by omega)]
    split
    next hle => simp [h1, hle, hlabel]
    next hle => simp [h1, hle]
  next h1 =>
    split
    next h2 => simp [h2, htail]
    next h2 => simp [h1, h2]

theorem forall_channel_offset (p : Nat → Prop) : (∀ o, o = 64 ∨ o = 128 → p o) ↔ p 64 ∧ p 128 := by
  simp [or_imp, forall_and]

theorem reservedZero_iff (image : List Byte) : reservedZero image = true ↔ ImageReserved image := by
  simp only [reservedZero, ImageReserved, Bool.and_eq_true, channelReservedZero_iff, allZero_iff_between,
    forall_channel_offset]
  constructor
  · rintro ⟨⟨⟨⟨⟨⟨hflags, hheader⟩, hcommon⟩, hA⟩, hB⟩, hrun⟩, htrailing⟩
    refine ⟨fun i hi hcases => ?_, hA, hB⟩
    rcases hcases with h | h | h | h | h
    · exact hflags i (by omega) (by omega)
    · exact hheader i (by omega) (by omega)
    · exact hcommon i (by omega) (by omega)
    · exact hrun i (by omega) (by omega)
    · exact htrailing i (by omega) (by omega)
  · rintro ⟨hbytes, hA, hB⟩
    refine ⟨⟨⟨⟨⟨⟨?_, ?_⟩, ?_⟩, hA⟩, hB⟩, ?_⟩, ?_⟩ <;> exact fun i _ _ => hbytes i (by omega) (by omega)

theorem channelOfBytes_label (bs : List Byte) :
    (channelOfBytes bs).label = (List.range (byteAt bs 10)).map (fun i => byteAt bs (11 + i)) := rfl

theorem channelSectionInRange_iff (image : List Byte) (o : Nat) :
    channelSectionInRange (slice image o 64) = true ↔ ChannelFits image o := by
  have htag : byteAt (slice image o 64) 0 = byteAt image o := byteAt_slice (by omega)
  have hlength : byteAt (slice image o 64) 10 = byteAt image (o + 10) := byteAt_slice (by omega)
  unfold channelSectionInRange ChannelFits
  rw [htag, hlength]
  split
  next h1 =>
    have hcodes (hle : byteAt image (o + 10) ≤ 8) :
        (∀ code ∈ (channelOfBytes (slice image o 64)).label, code ≤ 63) ↔
          ∀ j, j < byteAt image (o + 10) → byteAt image (o + 11 + j) ≤ 63 := by
      simp only [channelOfBytes_label, hlength, List.forall_mem_map, List.mem_range]
      exact forall₂_congr fun j hj => by rw [byteAt_slice (by omega), Nat.add_assoc]
    have hlabel : (channelOfBytes (slice image o 64)).label.length = byteAt image (o + 10) := by
      simp [channelOfBytes_label, hlength]
    rw [Bool.and_eq_true, decide_eq_true_eq, Channel.inRange_iff, hlabel]
    constructor
    · rintro ⟨hle, hrange, _, hall⟩
      exact .inr ⟨h1, hle, (hcodes hle).mp hall, hrange⟩
    · rintro (h2 | ⟨_, hle, hall, hrange⟩)
      · omega
      · exact ⟨hle, hrange, hle, (hcodes hle).mpr hall⟩
  next h1 => simp [h1]

theorem RunState.ofCode_isSome_iff (n : Nat) : (RunState.ofCode n).isSome = true ↔ n ≤ 2 := by
  match n with
  | 0 | 1 | 2 => decide
  | n + 3 => simp [RunState.ofCode]

theorem settingsInRange_iff (count : Nat) (image : List Byte) :
    settingsInRange count image = true ↔ ImageFits count image := by
  have hmode : (commonOfBytes (slice image 16 48)).runmode = byteAt image 28 := byteAt_slice (by omega)
  simp only [settingsInRange, ImageFits, Bool.and_eq_true, decide_eq_true_eq, Common.inRange_iff, hmode,
    channelSectionInRange_iff, RunState.ofCode_isSome_iff, forall_channel_offset, and_assoc]

/-! Unpacking (R121): the first check that fails decides. -/

section
variable {station count slot : Nat} {image : List Byte} (hlength : image.length = 256)
include hlength

/-- A wrong marker or CRC makes an image DAMAGED whatever else it holds (check 1). -/
theorem unpackImage_notIntact (h : ¬ ImageIntact image) : unpackImage station count slot image = .error .damaged := by
  rw [← imageValid_iff hlength] at h
  simp [unpackImage, h]

variable (hintact : ImageIntact image)
include hintact

/-- An image of another format version is INCOMPATIBLE whatever stands behind it (check 2). -/
theorem unpackImage_version (h : byteAt image 2 ≠ 1) :
    unpackImage station count slot image = .error .incompatible := by
  simp [unpackImage, (imageValid_iff hlength).mpr hintact, h]

variable (hversion : byteAt image 2 = 1)
include hversion

/-- An image of another station or slot, or with a reserved byte set, is DAMAGED (checks 3 to 5). -/
theorem unpackImage_elsewhere (h : byteAt image 3 ≠ station ∨ byteAt image 4 ≠ slot ∨ ¬ ImageReserved image) :
    unpackImage station count slot image = .error .damaged := by
  rw [← reservedZero_iff] at h
  simp only [unpackImage, (imageValid_iff hlength).mpr hintact, hversion]
  rcases h with h | h | h <;> simp [h]

variable (hstation : byteAt image 3 = station) (hslot : byteAt image 4 = slot) (hreserved : ImageReserved image)
include hstation hslot hreserved

/-- A field out of range makes an image INCOMPATIBLE (check 6). -/
theorem unpackImage_notFits (h : ¬ ImageFits count image) :
    unpackImage station count slot image = .error .incompatible := by
  rw [← settingsInRange_iff] at h
  simp [unpackImage, (imageValid_iff hlength).mpr hintact, hversion, hstation, hslot,
    (reservedZero_iff image).mpr hreserved, h]

/-- What passes every check is unpacked. -/
theorem unpackImage_fits (h : ImageFits count image) :
    unpackImage station count slot image =
      .ok
        { common := commonOfBytes (slice image 16 48)
          chA := unpackChannel (slice image 64 64)
          chB := unpackChannel (slice image 128 64)
          runMode := byteAt image 192
          runState := (RunState.ofCode (byteAt image 193)).getD .running
          epoch := imageEpoch image } := by
  simp [unpackImage, (imageValid_iff hlength).mpr hintact, hversion, hstation, hslot,
    (reservedZero_iff image).mpr hreserved, (settingsInRange_iff count image).mpr h]

end

theorem unpackChannel_present {image : List Byte} {o : Nat} (h : byteAt image o = 1) :
    unpackChannel (slice image o 64) = channelOfBytes (slice image o 64) :=
  if_pos ((byteAt_slice (by omega)).trans h)

/-- An EMPTY section unpacks to the built-in defaults with ENABLE 0 (R123). -/
theorem unpackChannel_empty {image : List Byte} {o : Nat} (h : byteAt image o = 2) :
    unpackChannel (slice image o 64) = ⟨0, 9, 0, 0, 0, 0, 0, 0, []⟩ :=
  if_neg (by rw [byteAt_slice (by omega), Nat.add_zero, h]; decide)

theorem imageEpoch_toNat (image : List Byte) : (imageEpoch image).toNat = leNat (slice image 6 4) := by
  have hlt := leNat_lt (slice image 6 4)
  rw [slice_length] at hlt
  rw [imageEpoch, BitVec.toNat_ofNat]
  exact Nat.mod_eq_of_lt hlt

theorem RunState.ofCode_getD_code {n : Nat} (h : n ≤ 2) : ((RunState.ofCode n).getD .running).code = n := by
  match n, h with
  | 0, _ | 1, _ | 2, _ => rfl

theorem commonOfBytes_value_byte (bs : List Byte) {n : Nat} (hlo : 3 ≤ n) (hhi : n ≤ 16) :
    (commonOfBytes bs).value n = byteAt bs n := by
  interval_cases n <;> rfl

/-- Settles O44: packing by `unpackImage_packImage`, the checks by one lemma each, the decoding field by field. -/
theorem packedImageUnpacksToItsContents : Obligations.PackedImageUnpacksToItsContents := by
  unfold Obligations.PackedImageUnpacksToItsContents
  refine ⟨fun station count slot w hstation hslot _ hcount hcommon hA hB hmode => ?packed,
    fun station count slot image hlength => ?checks, fun bytes => ?decoded, fun t sect n sp _ hn => ?absent⟩
  case packed =>
    exact ⟨packImage_length station slot w, packImage_valid station slot w, packImage_epoch station slot w,
      unpackImage_packImage hstation hslot hcount hcommon hA hB hmode⟩
  case checks =>
    refine ⟨unpackImage_notIntact hlength, unpackImage_version hlength, unpackImage_elsewhere hlength,
      fun hintact hversion hstation hslot hreserved =>
        ⟨unpackImage_notFits hlength hintact hversion hstation hslot hreserved, fun hfits =>
          ⟨_, unpackImage_fits hlength hintact hversion hstation hslot hreserved hfits, rfl, rfl, ?_,
            imageEpoch_toNat image, ?_⟩⟩⟩
    · obtain ⟨_, _, _, _, hrun⟩ := hfits
      exact RunState.ofCode_getD_code hrun
    · intro o ch hmem
      simp only [List.mem_cons, Prod.mk.injEq, List.not_mem_nil, or_false] at hmem
      rcases hmem with ⟨rfl, rfl⟩ | ⟨rfl, rfl⟩
      · exact ⟨unpackChannel_present, unpackChannel_empty⟩
      · exact ⟨unpackChannel_present, unpackChannel_empty⟩
  case decoded =>
    exact ⟨rfl, rfl, fun n => commonOfBytes_value_byte bytes, rfl, rfl, rfl, rfl, rfl, rfl, rfl, rfl, rfl⟩
  case absent => exact Common.orDefaults_value _ hn

end Sys2Proof.Machine

namespace Sys2Proof.Machine

/-- A frame at the head of the receive list that an enrolled station takes has its effect (R175, R177). -/
theorem State.on_takeFrame {α : Type} (s : State) {m : Msg} {e : RxEntry} {rest : List RxEntry} (h : s.takes m e rest)
    (pick : Msg → Option α) (f : α → RxEntry → Station → Station) {a : α} (hpick : pick m = some a) :
    s.on (Station.takeFrame pick f) = .next (s.put (f a e (s.station.pop rest))) := by
  obtain ⟨⟨hpowered, hrx, hmsg, horder, hedge⟩, henrolled⟩ := h
  rw [State.on_powered s _ hpowered,
    Station.takeFrame_takes s.station pick f e rest a hrx (hmsg ▸ hpick) horder hedge henrolled]

/-! The stations' results (R148, R150). -/

/-- A list of options gives its values only where none is absent. -/
theorem mapM_id_eq_none {α : Type} {l : List (Option α)} (h : none ∈ l) : l.mapM id = none := by
  induction l with
  | nil => cases h
  | cons x xs ih =>
    cases x with
    | none => rfl
    | some v => simp [ih (by simpa using h)]

/-- Mapping the values in passing is mapping them afterwards. -/
theorem mapM_map_eq {α β : Type} (f : α → β) (l : List (Option α)) :
    l.mapM (fun x => x.map f) = (l.mapM id).map (List.map f) := by
  induction l with
  | nil => rfl
  | cons x xs ih =>
    cases x with
    | none => rfl
    | some v => cases h : xs.mapM id <;> simp [h, ih]

/-- While a station's result is empty the results are not all in. -/
theorem allResults_eq_none {count i : Nat} {results : Quad (Option OpResult)} (hcount : count ≤ 4) (hi : i < count)
    (h : results.get i = none) : allResults count results = none := by
  refine mapM_id_eq_none (List.mem_iff_getElem.mpr ⟨i, by simp [Quad.toList]; omega, ?_⟩)
  have hi4 : i < 4 := by omega
  rw [List.getElem_take, ← h]
  interval_cases i <;> rfl

namespace Station

theorem count_le_of_wf {t : Station} (h : t.straps.wf = true) : t.straps.count ≤ 4 := by
  simp only [Straps.wf, Bool.and_eq_true, decide_eq_true_eq] at h
  exact h.2

/-- A result is awaited from every station of the instrument whose result is still empty (R150). -/
theorem awaits_iff {t : Station} (hwf : t.straps.wf = true) (o : Op) (sender : Nat) :
    t.awaits o sender = true ↔ sender < t.straps.count ∧ o.results.get sender = none := by
  have hcount := count_le_of_wf hwf
  simp only [Station.awaits, Bool.and_eq_true, decide_eq_true_eq, Option.isNone_iff_eq_none]
  exact ⟨fun ⟨⟨h, _⟩, hnone⟩ => ⟨h, hnone⟩, fun ⟨h, hnone⟩ => ⟨⟨h, by omega⟩, hnone⟩⟩

theorem awaits_eq_false_iff {t : Station} (hwf : t.straps.wf = true) (o : Op) (sender : Nat) :
    t.awaits o sender = false ↔ t.straps.count ≤ sender ∨ o.results.get sender ≠ none := by
  rw [← Bool.not_eq_true, awaits_iff hwf, not_and_or, Nat.not_lt]

/-! The record of the operation and of the last outcome behind a flip (R148). -/

/-- The setup-operation record and the last-outcome record. -/
def records (t : Station) : Option Op × Option LastOutcome := (t.smg.op, t.smg.lastOutcome)

section

variable (t : Station) (x : Nat)

theorem records_congr {t u : Station} (h : u.smg = t.smg) : u.records = t.records := by rw [records, h, records]

theorem records_followRun : (t.followRun x).records = t.records := by
  simp only [Station.followRun]
  split
  · simp only [records, enterPreparing_smg]
  · exact records_congr (by simp)

theorem records_flipNow : (t.flipNow x).records = t.records := by
  simp only [Station.flipNow]
  split
  · rw [records_followRun]
    simp only [Station.flip]
    split
    · rfl
    · next i hi =>
      have hsmg : ∀ u : Station, (u.rebuildAll.requestClear true true).records = u.records :=
        fun u => records_congr (by simp)
      exact (hsmg _).trans rfl
  · rfl

theorem records_meetBoundary : (t.meetBoundary x).records = t.records := by
  have hdrop : t.dropRecord.records = t.records := records_congr (by simp)
  simp only [Station.meetBoundary]
  repeat' split
  · exact records_flipNow t x
  · exact records_flipNow t x
  · exact records_flipNow t x
  · rw [records_flipNow, hdrop]
  · rfl
  · rw [records_flipNow, hdrop]
  all_goals rfl

theorem records_takeStaged (w : Window) : (t.takeStaged w).records = t.records := by
  simp only [Station.takeStaged]
  split <;> rfl

theorem records_defaultsFlip : (t.defaultsFlip x).records = t.records := by
  simp only [Station.defaultsFlip]
  split
  · rfl
  · exact (records_meetBoundary _ x).trans (records_takeStaged t _)

theorem records_dueSave : t.dueSave.records = t.records := by
  simp only [Station.dueSave]
  split <;> rfl

theorem records_chainAtClose (kind : OpKind) (c : OutcomeCode) : (t.chainAtClose kind c).records = t.records := by
  obtain ⟨hsmg, -⟩ := chainAtClose_leaves t kind c
  exact congrArg₂ Prod.mk (congrArg Smg.op hsmg :) (congrArg Smg.lastOutcome hsmg :)

end

/-! The close of an operation (R151). -/

/-- What every close leaves but the agreement of a RECALL, of station s at station t: the outcome in the last-outcome
record and on the LED, the move of the boot recall chain, and the steps of R151. -/
def closes (s t : Station) (o : Op) (c : OutcomeCode) (x : Nat) : Prop :=
  t.closedWith o c x ∧ s.chainCloses t o.kind c ∧ s.closeLeaves t o c x

/-- A close frees, before its later steps, every STAGED window that is not flip pending, and shows the outcome. -/
def closeShown (o : Op) (c : OutcomeCode) (x : Nat) (t : Station) : Station :=
  let closed : Station := { t with smg := { t.smg with op := none, lastOutcome := some ⟨o.kind, o.slot, c⟩ } }
  (closed.freeWindows (fun w => decide (w.role = .staged) && !w.flipPending)).releaseRequests.startOverlay
    (kindLed o.kind) (.code c.code) x

/-- A RECALL of slot 31 closed without OK is followed by the flip to the built-in defaults (R158). -/
def closeFlipped (o : Op) (c : OutcomeCode) (x : Nat) (t : Station) : Station :=
  if o.kind = .recall ∧ o.slot = 31 ∧ c ≠ .ok then t.defaultsFlip x else t

section

variable (t : Station) (o : Op) (c : OutcomeCode) (x : Nat)

theorem startOverlay_smg (led : Led) (p : Pattern) : (t.startOverlay led p x).smg = t.smg := by simp

theorem closeOp_eq (ho : t.smg.op = some o) :
    t.closeOp c x =
      ((t.closeShown o c x).dueSave.closeFlipped o c x).withdrawAnswers.chainAtClose o.kind c := by
  simp only [Station.closeOp, ho]
  rfl

theorem records_closeShown : (t.closeShown o c x).records = (none, some ⟨o.kind, o.slot, c⟩) :=
  (records_congr (startOverlay_smg _ x _ _)).trans rfl

theorem records_closeFlipped : (t.closeFlipped o c x).records = t.records := by
  simp only [closeFlipped]
  split
  · exact records_defaultsFlip t x
  · rfl

/-- The panel shows the outcome of a close (R111), and no later step of the close changes the panel. -/
theorem closeOp_pns (ho : t.smg.op = some o) : (t.closeOp c x).pns = (t.closeShown o c x).pns := by
  simp only [closeOp_eq t o c x ho, chainAtClose_frame, withdrawAnswers_frame, closeFlipped]
  split <;> simp

theorem closeOp_closedWith (ho : t.smg.op = some o) : (t.closeOp c x).closedWith o c x := by
  have hrecords : (t.closeOp c x).records = (none, some ⟨o.kind, o.slot, c⟩) := by
    rw [closeOp_eq t o c x ho, records_chainAtClose]
    exact (records_closeFlipped _ o c x).trans ((records_dueSave _).trans (records_closeShown t o c x))
  refine ⟨congrArg Prod.fst hrecords, congrArg Prod.snd hrecords, fun hstandby => ?_⟩
  rw [closeOp_pns t o c x ho]
  intro y hy hled
  exact startOverlay_shows _ x (kindLed o.kind) _ (by simpa [Station.freeWindows] using hstandby) y hy
    (hled.trans (by cases o.kind <;> rfl))

/-- The close of an operation, with the base modes of the LEDs behind it (R110, R151). -/
theorem closeOp_closes (ho : t.smg.op = some o) : t.closes ((t.closeOp c x).refreshLeds x) o c x := by
  obtain ⟨hop, hlast, hled⟩ := closeOp_closedWith t o c x ho
  have hchain := closeOp_chain t o c x ho
  have hleaves := closeOp_leaves t o c x ho
  refine ⟨⟨?_, ?_, fun hstandby => refreshLeds_overlay _ x _ _ (hled (by simpa using hstandby))⟩, ?_, ?_⟩
  · simpa using hop
  · simpa using hlast
  · simpa only [Station.chainCloses, Station.chainOffers, refreshLeds_frame] using hchain
  · simpa only [Station.closeLeaves, Station.flipsToDefaults, Station.flippedIn, Station.showsReadouts,
      Station.closeSaves, Station.requested, refreshLeds_frame] using hleaves

end

/-- The lists of the lane and the operation's record are nothing that a close starts from. -/
theorem closes_seenFrom {s t : Station} {l : Lif} {p : Option Op} {o : Op} {c : OutcomeCode} {x : Nat}
    (h : closes { s with lif := l, smg := { s.smg with op := p } } t o c x) : s.closes t o c x := h

end Station

end Sys2Proof.Machine

namespace Sys2Proof.Machine

namespace Station

/-! A protocol frame queued (R150). -/

section

variable (t : Station) (m : Msg)

/-- Queueing a protocol frame changes SMG only where the frame is kept. -/
theorem queueProto_smg : { (t.queueProto m).smg with keptProto := t.smg.keptProto } = t.smg := by
  simp only [Station.queueProto, Station.place]
  split <;> rfl

@[simp] theorem queueProto_op : (t.queueProto m).smg.op = t.smg.op :=
  (congrArg Smg.op (queueProto_smg t m) :)

@[simp] theorem queueProto_highest : (t.queueProto m).smg.highest = t.smg.highest :=
  (congrArg Smg.highest (queueProto_smg t m) :)

@[simp] theorem queueProto_kept : (t.queueProto m).smg.kept = t.smg.kept :=
  (congrArg Smg.kept (queueProto_smg t m) :)

@[simp] theorem queueProto_chain : (t.queueProto m).smg.chain = t.smg.chain :=
  (congrArg Smg.chain (queueProto_smg t m) :)

@[simp] theorem queueProto_chainWait : (t.queueProto m).smg.chainWait = t.smg.chainWait :=
  (congrArg Smg.chainWait (queueProto_smg t m) :)

@[simp] theorem queueProto_keptChain : (t.queueProto m).smg.keptChain = t.smg.keptChain :=
  (congrArg Smg.keptChain (queueProto_smg t m) :)

@[simp] theorem queueProto_enrol : (t.queueProto m).lif.enrol = t.lif.enrol := by
  simp only [Station.queueProto]
  split <;> rfl

end

/-- What answers and requests leave of a station's part in an operation: the record, the boot recall chain with what it
waits for, and the enrolment state. -/
def opening (t : Station) : Option Op × Chain × ChainWait × Bool × EnrolState :=
  (t.smg.op, t.smg.chain, t.smg.chainWait, t.smg.keptChain, t.lif.enrol.state)

section

variable (t : Station) (x : Nat) (m : Msg)

theorem opening_queueProto : (t.queueProto m).opening = t.opening := by
  simp [opening]

theorem opening_offerRequest (r : Request) : (t.offerRequest r).opening = t.opening := by
  simp [opening, Station.offerRequest, Station.drainKept]

theorem opening_refreshLeds : (t.refreshLeds x).opening = t.opening := by
  simp [opening]

theorem answers_refreshLeds : (t.refreshLeds x).answers m ↔ t.answers m := by
  simp only [Station.answers, refreshLeds_frame]

end

/-- An enrolled station at which an operation has been opened holds its record, with the deadline of its kind, and its
panel is at level 2 (R101, R149). -/
theorem opened_of_opening {t : Station} {o : Op} {chain : Chain} {wait : ChainWait} {kept : Bool}
    (h : t.opening = (some o, chain, wait, kept, .enrolled)) :
    t.smg.op = some o ∧ (t.smg.op.map Op.deadline) = some o.deadline ∧ t.panelLevel = 2 ∧ t.smg.chain = chain ∧
    t.smg.chainWait = wait ∧ t.smg.keptChain = kept := by
  simp only [opening, Prod.mk.injEq] at h
  obtain ⟨hop, hchain, hwait, hkept, hstate⟩ := h
  exact ⟨hop, by rw [hop]; rfl, by simp [Station.panelLevel, Station.enrolled, hstate, hop], hchain, hwait, hkept⟩

/-! RECALL and SAVE (R149, R152). -/

section

variable (t : Station) (slot : Nat) (epoch : Epoch) (e : RxEntry)

/-- The station that a RECALL opens an operation at, before its list is sent: the chain that sent it waits (R193). -/
def recallOpened : Station :=
  { t with
    smg :=
      { t.smg with
        op := some ⟨.recall, slot, none, e.acceptedAt, .listing, none, Quad.fill none⟩
        chainWait := if e.fromChain then .own else t.smg.chainWait } }

theorem opening_recallOpened (hstate : t.lif.enrol.state = .enrolled) :
    (t.recallOpened slot e).opening =
      (some ⟨.recall, slot, none, e.acceptedAt, .listing, none, Quad.fill none⟩, t.smg.chain,
        if e.fromChain then .own else t.smg.chainWait, t.smg.keptChain, .enrolled) := by
  rw [← hstate]
  rfl

theorem opening_openOp (kind : OpKind) (x : Nat) (saved : Option Epoch) (hstate : t.lif.enrol.state = .enrolled) :
    (t.openOp kind slot saved x).opening =
      (some ⟨kind, slot, saved, x, .listing, none, Quad.fill none⟩, t.smg.chain, t.smg.chainWait, t.smg.keptChain,
        .enrolled) := by
  rw [← hstate]
  rfl

theorem recallEffect_opens (hslot : slot ≤ 31) (hop : t.smg.op = none) :
    recallEffect slot e t = ((t.recallOpened slot e).sendListed slot).refreshLeds e.acceptedAt := by
  rw [recallEffect, if_neg (by omega), if_neg (by simp [hop])]
  cases hchain : e.fromChain <;> simp [recallOpened, hchain, openOp]

theorem recallEffect_ignored (h : 31 < slot ∨ (t.smg.op ≠ none ∧ e.fromChain = false)) : recallEffect slot e t = t := by
  rcases h with h | ⟨hop, hchain⟩
  · rw [recallEffect, if_pos h]
  · rw [recallEffect, if_pos (Option.isSome_iff_ne_none.mpr hop), hchain]
    exact ite_self t

theorem recallEffect_waits (hslot : slot ≤ 31) (hop : t.smg.op ≠ none) (hchain : e.fromChain = true) :
    recallEffect slot e t = { t with smg := { t.smg with chainWait := .other } } := by
  rw [recallEffect, if_neg (by omega), if_pos (Option.isSome_iff_ne_none.mpr hop), if_pos hchain]

theorem recallEffect_frame :
    { recallEffect slot e t with lif := t.lif, smg := t.smg, pns := t.pns } = t := by
  simp only [recallEffect]
  split_ifs
  all_goals first
    | rfl
    | exact Station.ext_blocks (by simp) (by simp) (by simp) (by simp) (by simp) rfl rfl (by simp) (by simp) (by simp)
        (by simp) rfl

theorem saveEffect_opens (hslot : slot ≤ 31) (hop : t.smg.op = none) :
    saveEffect (slot, epoch) e t =
      ((t.openOp .save slot (some epoch) e.acceptedAt).beginSave slot epoch).refreshLeds e.acceptedAt := by
  rw [saveEffect, if_neg (by simp [hop, hslot])]

theorem saveEffect_ignored (h : 31 < slot ∨ t.smg.op ≠ none) : saveEffect (slot, epoch) e t = t := by
  rw [saveEffect, if_pos (by simpa [Option.isSome_iff_ne_none] using h)]

theorem opening_saveIntoHeld (i : Nat) (image : List Byte) :
    (t.saveIntoHeld i slot epoch image).opening = t.opening := by
  simp only [saveIntoHeld]
  split
  · exact opening_queueProto _ _
  · exact opening_queueProto _ _

theorem opening_beginSave : (t.beginSave slot epoch).opening = t.opening := by
  simp only [beginSave]
  repeat' split
  · exact opening_queueProto _ _
  · exact opening_saveIntoHeld _ _ _ _ _
  · exact opening_offerRequest _ _

end

end Station

/-- Settles O27: a RECALL and a SAVE each open an operation, or are ignored. -/
theorem recallAndSaveOpenAnOperation : Obligations.RecallAndSaveOpenAnOperation := by
  unfold Obligations.RecallAndSaveOpenAnOperation
  refine ⟨?recalls, ?saves⟩
  case recalls =>
    intro s e rest slot htakes held newest
    have hstate : (s.station.pop rest).lif.enrol.state = .enrolled := by simpa [Station.enrolled] using htakes.2
    refine ⟨_, State.on_takeFrame s htakes Msg.recallFields Station.recallEffect rfl, fun hslot hop => ?_,
      Station.recallEffect_ignored (s.station.pop rest) slot e,
      Station.recallEffect_waits (s.station.pop rest) slot e, ?_⟩
    · rw [Station.recallEffect_opens (s.station.pop rest) slot e hslot hop]
      obtain ⟨hopen, hdeadline, hlevel, hchain, hwait, hkept⟩ := Station.opened_of_opening
        ((Station.opening_refreshLeds _ _).trans ((Station.opening_queueProto _ _).trans
          (Station.opening_recallOpened _ slot e hstate)))
      refine ⟨hopen, hdeadline, hlevel, fun h => ?_, fun h => ?_, hchain, hkept, ?_⟩
      · exact hwait.trans (if_pos h)
      · exact hwait.trans (if_neg (by simp [h]))
      · exact (Station.answers_refreshLeds _ _ _).mpr (queueProto_answers _ _)
    · have hframe := Station.recallEffect_frame (s.station.pop rest) slot e
      exact congrArg
        (fun u : Station => { u with lif := s.station.lif, smg := s.station.smg, pns := s.station.pns }) hframe
  case saves =>
    intro s e rest slot epoch htakes
    have hstate : (s.station.pop rest).lif.enrol.state = .enrolled := by simpa [Station.enrolled] using htakes.2
    refine ⟨_, State.on_takeFrame s htakes Msg.saveFields Station.saveEffect rfl, fun hslot hop => ?_,
      Station.saveEffect_ignored (s.station.pop rest) slot epoch e⟩
    rw [Station.saveEffect_opens (s.station.pop rest) slot epoch e hslot hop]
    obtain ⟨hopen, hdeadline, hlevel, hchain, hwait, hkept⟩ := Station.opened_of_opening
      ((Station.opening_refreshLeds _ _).trans ((Station.opening_beginSave _ slot epoch).trans
        (Station.opening_openOp (s.station.pop rest) slot .save e.acceptedAt (some epoch) hstate)))
    exact ⟨hopen, hdeadline, hlevel, hchain, hwait, hkept⟩

end Sys2Proof.Machine

namespace Sys2Proof.Machine

namespace Station

/-- Two stations are alike in all that a setup operation leaves before it closes: all but LIF, SMG, SST and PNS. -/
def alikeBeside (t u : Station) : Prop :=
  u.powered = t.powered ∧ u.straps = t.straps ∧ u.standby = t.standby ∧ u.ticks = t.ticks ∧ u.free = t.free ∧
  u.acq = t.acq ∧ u.tgu = t.tgu ∧ u.rse = t.rse

theorem eq_of_alikeBeside {t u : Station} (h : t.alikeBeside u) :
    { u with lif := t.lif, smg := t.smg, sst := t.sst, pns := t.pns } = t := by
  obtain ⟨hpowered, hstraps, hstandby, hticks, hfree, hacq, htgu, hrse⟩ := h
  exact Station.ext_blocks hpowered hstraps hstandby hticks hfree rfl rfl rfl hacq htgu hrse rfl

/-- An offered request changes SST's queue alone. -/
theorem offerRequest_sst (t : Station) (r : Request) :
    { (t.offerRequest r).sst with queue := t.sst.queue } = t.sst := rfl

/-! The first step of a SAVE (R161 to R163). -/

section

variable (t : Station) (slot : Nat) (epoch : Epoch)

theorem beginSave_old (h : epoch.toNat ≤ t.smg.highest.toNat) :
    t.beginSave slot epoch = t.queueProto (.saved slot epoch OutcomeCode.epoch.code) := if_pos h

/-- The station behind the first check of a SAVE, at which its epoch is the highest (R161). -/
def atEpoch (t : Station) : Station := { t with smg := { t.smg with highest := epoch } }

theorem beginSave_stored (h : t.smg.highest.toNat < epoch.toNat) (hheld : t.heldIndex slot = none) :
    t.beginSave slot epoch =
      (t.atEpoch epoch).offerRequest (appendRequest slot epoch (t.packLive slot epoch) .save) := by
  have hheld' : heldIndex slot { t with smg := { t.smg with highest := epoch } } = none := hheld
  simp only [beginSave, if_neg (Nat.not_le.mpr h), hheld']
  rfl

theorem beginSave_held (h : t.smg.highest.toNat < epoch.toNat) {i : Nat} (hheld : t.heldIndex slot = some i) :
    t.beginSave slot epoch = (t.atEpoch epoch).saveIntoHeld i slot epoch (t.packLive slot epoch) := by
  have hheld' : heldIndex slot { t with smg := { t.smg with highest := epoch } } = some i := hheld
  simp only [beginSave, if_neg (Nat.not_le.mpr h), hheld']
  rfl

theorem saveIntoHeld_fills (i : Nat) {image : List Byte} {c : Contents} (h : t.unpack slot image = .ok c) :
    t.saveIntoHeld i slot epoch image =
      ((t.stopFill i).setWindow i (filledWindow .held (some slot) true c)).queueProto
        (.saved slot epoch OutcomeCode.ok.code) := by
  simp only [saveIntoHeld, h]

/-- A SAVE of a held slot changes LIF, SMG, SST and PNS alone, programs nothing, and leaves the highest epoch. -/
theorem saveIntoHeld_leaves (i : Nat) (image : List Byte) :
    t.alikeBeside (t.saveIntoHeld i slot epoch image) ∧
    (t.saveIntoHeld i slot epoch image).sst.array = t.sst.array ∧
    (t.saveIntoHeld i slot epoch image).smg.highest = t.smg.highest := by
  simp only [saveIntoHeld]
  split
  · exact ⟨by simp [alikeBeside, stopFill], by rw [queueProto_sst]; rfl, by rw [queueProto_highest]; rfl⟩
  · exact ⟨by simp [alikeBeside], by rw [queueProto_sst], queueProto_highest _ _⟩

/-- The first step of a SAVE changes LIF, SMG, SST and PNS alone, programs nothing, and makes a greater epoch the
highest. -/
theorem beginSave_leaves :
    t.alikeBeside (t.beginSave slot epoch) ∧
    (t.beginSave slot epoch).sst.array = t.sst.array ∧
    (t.smg.highest.toNat < epoch.toNat → (t.beginSave slot epoch).smg.highest = epoch) := by
  rcases Nat.lt_or_ge t.smg.highest.toNat epoch.toNat with h | h
  · cases hheld : t.heldIndex slot with
    | none =>
      rw [beginSave_stored t slot epoch h hheld]
      exact ⟨by simp [alikeBeside, atEpoch], (congrArg Sst.array (offerRequest_sst (t.atEpoch epoch) _) :),
        fun _ => offerRequest_highest _ _⟩
    | some i =>
      rw [beginSave_held t slot epoch h hheld]
      obtain ⟨hframe, harray, hhighest⟩ := saveIntoHeld_leaves (t.atEpoch epoch) slot epoch i (t.packLive slot epoch)
      exact ⟨hframe, harray,
        fun _ => hhighest⟩
  · rw [beginSave_old t slot epoch h]
    exact ⟨by simp [alikeBeside], by rw [queueProto_sst], fun hnew => absurd hnew (Nat.not_lt.mpr h)⟩

end

end Station

/-- Settles O28: the first step of a SAVE by the epoch, and then by the HELD window of its slot. -/
theorem savePacksTheLiveWindow : Obligations.SavePacksTheLiveWindow := by
  unfold Obligations.SavePacksTheLiveWindow
  intro s e rest slot epoch htakes hslot hop image
  obtain ⟨t, ht⟩ : ∃ t, t = (s.station.pop rest).openOp .save slot (some epoch) e.acceptedAt := ⟨_, rfl⟩
  have hexec : exec .save s = .next (s.put ((t.beginSave slot epoch).refreshLeds e.acceptedAt)) := by
    rw [ht, ← Station.saveEffect_opens (s.station.pop rest) slot epoch e hslot hop]
    exact State.on_takeFrame s htakes Msg.saveFields Station.saveEffect rfl
  have hsmg : t.smg.highest = s.station.smg.highest ∧ t.smg.kept = s.station.smg.kept ∧
      t.smg.windows = s.station.smg.windows := by subst ht; exact ⟨rfl, rfl, rfl⟩
  obtain ⟨hhighest, hkept, hwindows⟩ := hsmg
  have hsst : t.sst = s.station.sst := by subst ht; rfl
  have hheldIndex : t.heldIndex slot = s.station.heldIndex slot := by subst ht; rfl
  have himage : t.packLive slot epoch = image := by subst ht; rfl
  have hunpack : (t.atEpoch epoch).unpack slot image = s.station.unpack slot image := by subst ht; rfl
  simp only [← hhighest, ← hkept, ← hwindows, ← hsst, ← hheldIndex, ← himage]
  obtain ⟨hframe, harray, hnewest⟩ := Station.beginSave_leaves t slot epoch
  refine ⟨_, hexec, fun hold => ?old, fun hnew => ?new, ?frame, ?array⟩
  case old =>
    rw [Station.beginSave_old t slot epoch hold]
    refine ⟨(Station.answers_refreshLeds _ _ _).mpr (queueProto_answers _ _), ?_, ?_, ?_⟩
    · simp
    · simp
    · simp [queueProto_windows]
  case new =>
    refine ⟨?_, fun hheld => ?_, fun i c hheld hc => ?_⟩
    · simpa using hnewest hnew
    · rw [Station.beginSave_stored t slot epoch hnew hheld]
      refine ⟨?_, ?_, ?_⟩
      · exact offerRequest_requested (t.atEpoch epoch) _
      · rfl
      · exact Station.offerRequest_sst (t.atEpoch epoch) _
    · obtain ⟨hi, -⟩ := Quad.find_some _ _ _ hheld
      rw [himage] at hc
      rw [Station.beginSave_held t slot epoch hnew hheld, himage,
        Station.saveIntoHeld_fills (t.atEpoch epoch) slot epoch i (hunpack.trans hc)]
      simp only [Station.refreshLeds_frame, Station.answers_refreshLeds, queueProto_windows, queueProto_sst,
        Station.queueProto_kept]
      refine ⟨?_, queueProto_answers _ _, fun j hj hji => ?_, rfl, rfl⟩
      · exact Quad.get_set_same _ _ _ hi
      · exact Quad.get_set_other _ _ _ _ hi hj (Ne.symm hji)
  case frame =>
    rw [hsst]
    refine Station.eq_of_alikeBeside (t := s.station) (u := (t.beginSave slot epoch).refreshLeds e.acceptedAt) ?_
    simpa [Station.alikeBeside, ht, Station.openOp] using hframe
  case array => simpa using harray

end Sys2Proof.Machine

namespace Sys2Proof.Machine

/-! The outcome of a SAVE (R163). -/

theorem saveOutcome_ok {rs : List OpResult} (h : ∀ x ∈ rs, x.outcome = .ok) : saveOutcome rs = .ok := by
  have hnone : rs.find? (fun r => decide (r.outcome ≠ .ok)) = none :=
    List.find?_eq_none.mpr fun x hx => by simp [h x hx]
  simp only [saveOutcome, hnone]

theorem saveOutcome_first {before behind : List OpResult} {r : OpResult} (hr : r.outcome ≠ .ok)
    (hbefore : ∀ x ∈ before, x.outcome = .ok) : saveOutcome (before ++ r :: behind) = r.outcome := by
  have hsome : (before ++ r :: behind).find? (fun r => decide (r.outcome ≠ .ok)) = some r :=
    List.find?_eq_some_iff_append.mpr
      ⟨by simpa using hr, before, behind, rfl, fun x hx => by simp [hbefore x hx]⟩
  simp only [saveOutcome, hsome]

/-- No outcome has a number above 10 (R168, R198). -/
theorem OutcomeCode.ofCode_eq_none {code : Nat} (h : 10 < code) : OutcomeCode.ofCode code = none := by
  match code, h with
  | n + 11, _ => rfl

namespace Station

/-! A SAVED frame (R150, R163). -/

section

variable (t : Station) (o : Op) (outcome : OutcomeCode) (e : RxEntry) (slot code : Nat) (epoch : Epoch)

theorem savedEffect_takes (hop : t.smg.op = some o) (hcode : OutcomeCode.ofCode code = some outcome)
    (hkind : o.kind = .save) (hslot : o.slot = slot) (hepoch : o.epoch = some epoch)
    (hawaits : t.awaits o e.sender = true) :
    savedEffect (slot, epoch, code) e t =
      (t.takeSavedResult o e.sender outcome e.acceptedAt).refreshLeds e.acceptedAt := by
  simp [savedEffect, hop, hcode, hkind, hslot, hepoch, hawaits]

theorem savedEffect_ignored
    (h : 10 < code ∨ ∀ o, t.smg.op = some o →
      o.kind ≠ .save ∨ o.slot ≠ slot ∨ o.epoch ≠ some epoch ∨ t.awaits o e.sender = false) :
    savedEffect (slot, epoch, code) e t = t := by
  rw [savedEffect]
  split
  · next o _ hop hcode =>
    rcases h with h | h
    · exact absurd hcode (by simp [OutcomeCode.ofCode_eq_none h])
    · refine if_neg fun hall => ?_
      simp only [Bool.and_eq_true, decide_eq_true_eq] at hall
      obtain ⟨⟨⟨hkind, hslot⟩, hepoch⟩, hawaits⟩ := hall
      simpa [hkind, hslot, hepoch, hawaits] using h o hop
  · rfl

variable (sender x : Nat)

theorem takeSavedResult_waits (h : allResults t.straps.count (o.results.set sender (some (.saved outcome))) = none) :
    t.takeSavedResult o sender outcome x = t.enterResult o sender (.saved outcome) := by
  simp only [takeSavedResult, h]

theorem takeSavedResult_closes {rs : List OpResult}
    (h : allResults t.straps.count (o.results.set sender (some (.saved outcome))) = some rs) :
    t.takeSavedResult o sender outcome x = (t.enterResult o sender (.saved outcome)).closeOp (saveOutcome rs) x := by
  simp only [takeSavedResult, h]

end

/-- With a sender's result entered, a close leaves what it leaves at the station that takes the frame. -/
theorem closes_afterResult (s : Station) (rest : List RxEntry) (o : Op) (sender : Nat) (r : OpResult) (c : OutcomeCode)
    (x : Nat) : s.closes ((((s.pop rest).enterResult o sender r).closeOp c x).refreshLeds x) o c x :=
  closes_seenFrom (closeOp_closes ((s.pop rest).enterResult o sender r)
    { o with results := o.results.set sender (some r) } c x rfl)

end Station

/-- Settles O31: a SAVED frame awaited enters the results, and the last of them closes the SAVE. -/
theorem lastSavedResultCloses : Obligations.LastSavedResultCloses := by
  unfold Obligations.LastSavedResultCloses
  refine ⟨fun rs => ⟨saveOutcome_ok, fun before r behind hrs hr hbefore => hrs ▸ saveOutcome_first hr hbefore⟩, ?_⟩
  intro s e rest slot code epoch htakes hwf
  have hcount := Station.count_le_of_wf hwf
  refine ⟨_, State.on_takeFrame s htakes Msg.savedFields Station.savedEffect rfl, ?taken, fun h => ?ignored⟩
  case taken =>
    intro o outcome hop hcode hkind hslot hepoch hsender hawaited results
    rw [Station.savedEffect_takes (s.station.pop rest) o outcome e slot code epoch hop hcode hkind hslot hepoch
      ((Station.awaits_iff hwf o e.sender).mpr ⟨hsender, hawaited⟩)]
    refine ⟨fun ⟨i, hi, hnone⟩ => ?_, fun rs hrs => ?_⟩
    · rw [Station.takeSavedResult_waits (s.station.pop rest) _ _ _ _ (allResults_eq_none hcount hi hnone)]
      rfl
    · rw [Station.takeSavedResult_closes (s.station.pop rest) _ _ _ _ hrs, ← hkind]
      exact Station.closes_afterResult s.station rest o e.sender (.saved outcome) (saveOutcome rs) e.acceptedAt
  case ignored =>
    refine Station.savedEffect_ignored (s.station.pop rest) e slot code epoch (h.imp_right fun h o hop => ?_)
    rw [Station.awaits_eq_false_iff (t := s.station.pop rest) hwf]
    exact h o hop

end Sys2Proof.Machine

namespace Sys2Proof.Machine

/-- The window of a RECALL is 500 ms, that of a SAVE 2000 ms (R149). -/
theorem Op.deadline_eq (o : Op) :
    o.deadline = o.openedAt + (match o.kind with | .recall => 500 * Config.ms | .save => 2000 * Config.ms) := by
  cases h : o.kind <;> simp [Op.deadline, h]

namespace Station

/-! The expiry of the operation's window (R149, R151). -/

section

variable {s t : Station} {o : Op} {c : OutcomeCode} {x : Nat}

theorem endWindow_closes (hclosed : t.closedTick x = true) (hnone : t.noneWaits x = true) :
    t.endWindow x = (t.closeOp .timeout x).refreshLeds x := by
  simp [endWindow, hclosed, hnone]

/-- Where a window is FREE and no flip is pending, a RECALL of slot 31 that closes without OK in IDLE leaves a window
LIVE with the built-in defaults (R158). -/
theorem flipsToDefaults_live (h : s.flipsToDefaults t x) (hstate : s.acq.state = .idle) (hflip : s.flipPending = false)
    (hfree : ∃ i, i < 4 ∧ (s.smg.windows.get i).role = .free) :
    ∃ i, i < 4 ∧ (t.smg.windows.get i).role = .live ∧ (t.smg.windows.get i).common = Common.default ∧
      (t.smg.windows.get i).chA = Channel.default (if s.straps.station = 0 then 1 else 0) ∧
      (t.smg.windows.get i).chB = Channel.default 0 := by
  obtain ⟨-, -, -, -, htakes⟩ := h
  have hleft : ∃ i, i < 4 ∧ ((s.smg.windows.get i).afterClose).role = .free := by
    obtain ⟨i, hi, hrole⟩ := hfree
    exact ⟨i, hi, by simp [Window.afterClose, hrole]⟩
  obtain ⟨hi, hrole⟩ := Nat.find_spec hleft
  have hlowest : ∀ j, j < Nat.find hleft → ((s.smg.windows.get j).afterClose).role ≠ .free :=
    fun j hj hfree => Nat.find_min hleft hj ⟨by omega, hfree⟩
  have hnone : s.flipIndex = none := by simpa [Station.flipPending] using hflip
  obtain ⟨-, hruns⟩ := htakes _ hnone hi hrole hlowest
  obtain ⟨hwindows, -⟩ := hruns (by simp [hstate])
  refine ⟨_, hi, ?_⟩
  rw [hwindows _ hi, if_pos rfl]
  exact ⟨rfl, rfl, rfl, rfl⟩

/-- The close of an operation leaves the store's array. -/
theorem closeOp_array : (t.closeOp c x).sst.array = t.sst.array := by
  have hsave : ∀ u : Station, u.dueSave.sst.array = u.sst.array := by
    intro u
    simp only [Station.dueSave]
    split <;> rfl
  cases ho : t.smg.op with
  | none => simp only [Station.closeOp, ho]
  | some o =>
    simp only [closeOp_eq t o c x ho, chainAtClose_frame, withdrawAnswers_frame, closeFlipped]
    split
    · simp [hsave, closeShown, Station.releaseRequests, Station.mapStored]
    · simp [hsave, closeShown, Station.releaseRequests, Station.mapStored]

end

end Station

/-- Settles O32: the expiry closes the operation, and a RECALL of slot 31 leaves the built-in defaults LIVE in IDLE. -/
theorem windowExpiryClosesTimeout : Obligations.WindowExpiryClosesTimeout := by
  unfold Obligations.WindowExpiryClosesTimeout
  intro s o hpowered hop d hclosed horder hedge hnone
  have hdeadline : s.station.smg.op.map Op.deadline = some d :=
    (congrArg (Option.map Op.deadline) hop).trans (congrArg some o.deadline_eq)
  have hdue : d ≤ s.station.ticks := by
    simp only [Station.closedTick, Bool.and_eq_true, decide_eq_true_eq] at hclosed
    omega
  have hexec := State.on_expires s (fun t => t.smg.op.map Op.deadline) Station.endWindow d
    ⟨hpowered, hdeadline, hdue, horder, hedge⟩
  rw [Station.endWindow_closes hclosed hnone] at hexec
  obtain ⟨hwith, hchain, hleaves⟩ := Station.closeOp_closes s.station o .timeout d hop
  refine ⟨_, hexec, hwith, hchain, hleaves, fun hkind hslot hstate hflip hfree => ?_, ?_, by simp, by simp, by simp⟩
  · obtain ⟨-, hdefaults, -⟩ := hleaves
    exact Station.flipsToDefaults_live (hdefaults hkind hslot (by decide)) hstate hflip hfree
  · simpa using Station.closeOp_array

end Sys2Proof.Machine

namespace Sys2Proof.Machine

/-- The greater of two requests by epoch, the earlier of two alike (log 28). -/
def newerRequest (a b : Request) : Request := if a.epoch.toNat < b.epoch.toNat then b else a

theorem foldl_newerRequest_mem (rest : List Request) (r : Request) : rest.foldl newerRequest r ∈ r :: rest := by
  induction rest generalizing r with
  | nil => exact List.mem_singleton_self r
  | cons q rest ih =>
    rw [List.foldl_cons]
    rcases List.mem_cons.mp (ih (newerRequest r q)) with h | h
    · rw [h, newerRequest]
      split <;> simp
    · exact List.mem_cons_of_mem r (List.mem_cons_of_mem q h)

theorem foldl_newerRequest_max (rest : List Request) (r : Request) :
    ∀ q ∈ r :: rest, q.epoch.toNat ≤ (rest.foldl newerRequest r).epoch.toNat := by
  induction rest generalizing r with
  | nil => simp
  | cons p rest ih =>
    have hfirst := ih (newerRequest r p) _ (List.mem_cons_self ..)
    have hboth : r.epoch.toNat ≤ (newerRequest r p).epoch.toNat ∧ p.epoch.toNat ≤ (newerRequest r p).epoch.toNat := by
      rw [newerRequest]
      split <;> omega
    intro q hq
    rw [List.foldl_cons]
    rcases List.mem_cons.mp hq with rfl | hq
    · exact hboth.1.trans hfirst
    · rcases List.mem_cons.mp hq with rfl | hq
      · exact hboth.2.trans hfirst
      · exact ih (newerRequest r p) q (List.mem_cons_of_mem _ hq)

theorem Stage.isRescan_iff (stage : Stage) : stage.isRescan = true ↔ stage = .rescanning := by
  cases stage <;> simp [Stage.isRescan]

namespace Station

section

variable (t : Station) (slot i : Nat)

/-! The newest APPEND of a slot that has not ended (R166). -/

theorem mem_unendedAppends (r : Request) :
    r ∈ t.unendedAppends slot ↔
      ((∃ c, t.sst.current = some c ∧ c.stage ≠ .rescanning ∧ r = c.request) ∨ r ∈ t.sst.queue ∨ r ∈ t.smg.kept) ∧
      r.kind = .append ∧ r.block = slot := by
  simp only [unendedAppends, List.mem_filter, List.mem_append, Bool.and_eq_true, decide_eq_true_eq, or_assoc]
  refine and_congr_left fun _ => or_congr_left ?_
  cases t.sst.current with
  | none => simp
  | some c =>
    by_cases hstage : c.stage = .rescanning
    · simp [hstage, (Stage.isRescan_iff _).mpr]
    · simp [hstage, Stage.isRescan_iff]

theorem newestAppend_none_iff : t.newestAppend slot = none ↔ ∀ r, r ∉ t.unendedAppends slot := by
  rw [newestAppend]
  split
  · next h => simp [h]
  · next r rest h =>
    rw [h]
    exact ⟨nofun, fun hnone => absurd (List.mem_cons_self ..) (hnone r)⟩

theorem newestAppend_some {r : Request} (h : t.newestAppend slot = some r) :
    r ∈ t.unendedAppends slot ∧ ∀ q ∈ t.unendedAppends slot, q.epoch.toNat ≤ r.epoch.toNat := by
  rw [newestAppend] at h
  split at h
  · cases h
  · next first rest hlist =>
    cases h
    rw [hlist]
    exact ⟨foldl_newerRequest_mem rest first, foldl_newerRequest_max rest first⟩

/-! MAP HOLD (R165, R166). -/

theorem eq_of_alikeBeside_pns {t u : Station} (h : t.alikeBeside u ∧ u.pns = t.pns) :
    { u with lif := t.lif, smg := t.smg, sst := t.sst } = t := by
  obtain ⟨halike, hpns⟩ := h
  exact hpns ▸ eq_of_alikeBeside halike

/-- MAP HOLD takes a window. -/
def mapFits (t : Station) : Prop :=
  t.smg.op = none ∧ 1 ≤ slot ∧ slot ≤ 30 ∧ t.smg.windows.count (fun w => decide (w.role = .held)) < 2 ∧
  t.heldIndex slot = none

theorem mapHoldEffect_takes (e : RxEntry) (hfits : t.mapFits slot) (hfree : t.freeIndex = some i) :
    mapHoldEffect slot e t = t.fillHeld i slot := by
  obtain ⟨hop, hlow, hhigh, hcount, hheld⟩ := hfits
  simp [mapHoldEffect, hop, hlow, hhigh, hcount, hheld, hfree]

theorem mapHoldEffect_ignored (e : RxEntry) (h : ¬ t.mapFits slot) : mapHoldEffect slot e t = t := by
  refine if_neg fun hall => h ?_
  simpa only [mapFits, Bool.and_eq_true, decide_eq_true_eq, Option.isNone_iff_eq_none, and_assoc] using hall

theorem fillHeld_append {r : Request} {c : Contents} (hr : t.newestAppend slot = some r)
    (hc : t.unpack slot r.image = .ok c) :
    t.fillHeld i slot = t.setWindow i (filledWindow .held (some slot) true c) := by
  simp only [fillHeld, hr, hc]

theorem fillHeld_generation {g : Epoch} (hr : t.newestAppend slot = none) (hg : (t.entry slot).newest = some g) :
    t.fillHeld i slot =
      (t.setWindow i { emptyHeld slot with epoch := some g, loading := true }).offerRequest
        (readRequest slot g (.fill i)) := by
  simp only [fillHeld, hr, hg]

theorem fillHeld_empty (hr : t.newestAppend slot = none) (hg : (t.entry slot).newest = none) :
    t.fillHeld i slot = t.setWindow i (emptyHeld slot) := by
  simp only [fillHeld, hr, hg]

/-- Whatever it is filled from, a newly HELD window is one window of the slot. -/
theorem fillHeld_window :
    ∃ w, (t.fillHeld i slot).smg.windows = t.smg.windows.set i w ∧ w.role = .held ∧ w.mapped = some slot := by
  simp only [fillHeld]
  repeat' split
  all_goals exact ⟨_, rfl, rfl, rfl⟩

theorem mapHoldEffect_frame (e : RxEntry) :
    t.alikeBeside (mapHoldEffect slot e t) ∧ (mapHoldEffect slot e t).pns = t.pns := by
  simp only [mapHoldEffect, fillHeld]
  repeat' split
  all_goals simp [alikeBeside]

/-! MAP RELEASE (R167). -/

/-- The station at which a dirty HELD window's image has been handed to SST. -/
def writtenBack (t : Station) : Station :=
  let w := t.smg.windows.get i
  if w.dirty then t.offerRequest (appendRequest slot (w.epoch.getD 0) (t.packHeld w) .none) else t

theorem writtenBack_windows : (t.writtenBack slot i).smg.windows = t.smg.windows := by
  simp only [writtenBack]
  split <;> rfl

theorem writtenBack_requested (h : (t.smg.windows.get i).dirty = true) :
    (t.writtenBack slot i).requested
      (appendRequest slot ((t.smg.windows.get i).epoch.getD 0) (t.packHeld (t.smg.windows.get i)) .none) := by
  simp only [writtenBack, h, if_true]
  exact offerRequest_requested _ _

theorem mapReleaseEffect_frees (e : RxEntry) (hop : t.smg.op = none) (hheld : t.heldIndex slot = some i) :
    mapReleaseEffect slot e t = ((t.writtenBack slot i).stopFill i).setWindow i Window.blank := by
  simp only [mapReleaseEffect, hop, Option.isNone_none, if_true, hheld]
  rfl

theorem mapReleaseEffect_ignored (e : RxEntry) (h : t.smg.op ≠ none ∨ t.heldIndex slot = none) :
    mapReleaseEffect slot e t = t := by
  rcases h with h | h
  · rw [mapReleaseEffect, if_neg (by simpa using h)]
  · simp only [mapReleaseEffect, h, ite_self]

/-- A request that does not fill the window stays where it is when the fill is given up. -/
theorem requested_stopFill {r : Request} (h : t.requested r) (hpurpose : r.purpose ≠ .fill i) :
    (t.stopFill i).requested r := by
  rcases h with h | h
  · exact .inl (List.mem_map.mpr ⟨r, h, if_neg hpurpose⟩)
  · exact .inr (List.mem_filter.mpr ⟨h, by simpa using hpurpose⟩)

/-- No request queued or kept fills a window whose fill has been given up. -/
theorem stopFill_none : ∀ r ∈ (t.stopFill i).sst.queue ++ (t.stopFill i).smg.kept, r.purpose ≠ .fill i := by
  intro r hr
  rcases List.mem_append.mp hr with h | h
  · obtain ⟨q, -, rfl⟩ := List.mem_map.mp h
    split
    · simp
    · assumption
  · simpa using (List.mem_filter.mp h).2

theorem mapReleaseEffect_frame (e : RxEntry) :
    t.alikeBeside (mapReleaseEffect slot e t) ∧ (mapReleaseEffect slot e t).pns = t.pns := by
  simp only [mapReleaseEffect, stopFill]
  repeat' split
  all_goals simp [alikeBeside]

end

end Station

/-- Settles O33: MAP HOLD takes and fills a window, MAP RELEASE frees it, and the newest APPEND is one of the greatest
epoch. -/
theorem mapHoldsAndReleasesASlot : Obligations.MapHoldsAndReleasesASlot := by
  unfold Obligations.MapHoldsAndReleasesASlot
  refine ⟨?holds, ?releases, ?newest⟩
  case holds =>
    intro s e rest slot htakes fits
    refine ⟨_, State.on_takeFrame s htakes (Msg.mapFields 0) Station.mapHoldEffect rfl, fun i hfits hfree => ?_,
      Station.mapHoldEffect_ignored (s.station.pop rest) slot e, ?_⟩
    · obtain ⟨hi, -⟩ := Quad.find_some _ _ _ hfree
      obtain ⟨w, hw, hrole, hmapped⟩ := Station.fillHeld_window (s.station.pop rest) slot i
      have hget : ∀ {u : Station} {v : Window}, u.smg.windows = s.station.smg.windows.set i v →
          u.smg.windows.get i = v :=
        fun h => (congrArg (Quad.get · i) h).trans (Quad.get_set_same _ _ _ hi)
      rw [Station.mapHoldEffect_takes (s.station.pop rest) slot i e hfits hfree]
      refine ⟨hget hw ▸ hrole, hget hw ▸ hmapped, fun j hj hji => ?_, fun r c hr hc => ?_, fun g hr hg => ?_,
        fun hr hg => ?_⟩
      · exact (congrArg (Quad.get · j) hw).trans (Quad.get_set_other _ _ _ _ hi hj (Ne.symm hji))
      · rw [Station.fillHeld_append (s.station.pop rest) slot i hr hc, hget rfl]
        exact ⟨rfl, rfl, rfl, rfl, rfl, rfl, rfl, rfl⟩
      · rw [Station.fillHeld_generation (s.station.pop rest) slot i hr hg, hget rfl]
        exact ⟨rfl, rfl, offerRequest_requested _ _⟩
      · rw [Station.fillHeld_empty (s.station.pop rest) slot i hr hg, hget rfl]
        exact ⟨rfl, rfl, rfl⟩
    · exact Station.eq_of_alikeBeside_pns (t := s.station) (Station.mapHoldEffect_frame (s.station.pop rest) slot e)
  case releases =>
    intro s e rest slot htakes
    refine ⟨_, State.on_takeFrame s htakes (Msg.mapFields 1) Station.mapReleaseEffect rfl, fun i hop hheld => ?_,
      Station.mapReleaseEffect_ignored (s.station.pop rest) slot e, ?_⟩
    · rw [Station.mapReleaseEffect_frees (s.station.pop rest) slot i e hop hheld]
      refine ⟨?_, fun hdirty => ?_, Station.stopFill_none ((s.station.pop rest).writtenBack slot i) i⟩
      · exact congrArg (fun q : Quad Window => q.set i Window.blank)
          (Station.writtenBack_windows (s.station.pop rest) slot i)
      · exact Station.requested_stopFill ((s.station.pop rest).writtenBack slot i) i
          (Station.writtenBack_requested (s.station.pop rest) slot i hdirty) (by simp)
    · exact Station.eq_of_alikeBeside_pns (t := s.station) (Station.mapReleaseEffect_frame (s.station.pop rest) slot e)
  case newest =>
    intro t slot unended
    refine ⟨?_, fun r hr => ?_⟩
    · simp only [Station.newestAppend_none_iff, Station.mem_unendedAppends]
      rfl
    · obtain ⟨hmem, hmax⟩ := Station.newestAppend_some t slot hr
      exact ⟨(t.mem_unendedAppends slot r).mp hmem, fun q hq => hmax q ((t.mem_unendedAppends slot q).mpr hq)⟩

end Sys2Proof.Machine

namespace Sys2Proof.Machine

/-! The choice of an epoch (R153). -/

/-- An epoch lies in every list that is not empty. -/
def inEveryList (lists : List (List Epoch)) (e : Epoch) : Prop := ∀ x ∈ lists, x ≠ [] → e ∈ x

section

variable {lists : List (List Epoch)} {first : List Epoch} {rest : List (List Epoch)} {e : Epoch}

theorem chooseEpoch_empty (h : ∀ l ∈ lists, l = []) : chooseEpoch lists = .empty := by
  have hfilter : lists.filter (fun l => decide (l ≠ [])) = [] :=
    List.filter_eq_nil_iff.mpr fun l hl => by simp [h l hl]
  simp only [chooseEpoch, hfilter]

/-- An epoch of the first list that is not empty lies in the others just when it lies in every list. -/
theorem mem_others_iff (hfilter : lists.filter (fun l => decide (l ≠ [])) = first :: rest) (he : e ∈ first) :
    rest.all (fun l => l.contains e) = true ↔ inEveryList lists e := by
  have hmem : ∀ x, (x ∈ lists ∧ x ≠ []) ↔ x = first ∨ x ∈ rest := by
    intro x
    rw [← List.mem_cons, ← hfilter, List.mem_filter, decide_eq_true_iff]
  simp only [List.all_eq_true, List.contains_iff_mem]
  refine ⟨fun h x hx hne => ?_, fun h x hx => ?_⟩
  · rcases (hmem x).mp ⟨hx, hne⟩ with rfl | hrest
    · exact he
    · exact h x hrest
  · obtain ⟨hlists, hne⟩ := (hmem x).mpr (.inr hx)
    exact h x hlists hne

theorem chooseEpoch_chosen {before behind : List (List Epoch)} {a b : List Epoch}
    (hlists : lists = before ++ first :: behind) (hbefore : ∀ x ∈ before, x = []) (hfirst : first = a ++ e :: b)
    (he : inEveryList lists e) (ha : ∀ y ∈ a, ¬ inEveryList lists y) : chooseEpoch lists = .chosen e := by
  have hfilter : lists.filter (fun l => decide (l ≠ [])) = first :: behind.filter (fun l => decide (l ≠ [])) := by
    have hnone : before.filter (fun l => decide (l ≠ [])) = [] :=
      List.filter_eq_nil_iff.mpr fun l hl => by simp [hbefore l hl]
    rw [hlists, List.filter_append, hnone, List.nil_append, List.filter_cons_of_pos (by simp [hfirst])]
  have hfind :
      first.find? (fun e => (behind.filter (fun l => decide (l ≠ []))).all (fun l => l.contains e)) = some e := by
    refine List.find?_eq_some_iff_append.mpr
      ⟨(mem_others_iff hfilter (by simp [hfirst])).mpr he, a, b, hfirst, fun y hy => ?_⟩
    have hnot := (mem_others_iff hfilter (e := y) (by simp [hfirst, hy])).not.mpr (ha y hy)
    simpa using hnot
  simp only [chooseEpoch, hfilter, hfind]

theorem chooseEpoch_inconsistent (hsome : ∃ l ∈ lists, l ≠ []) (h : ∀ e, ¬ inEveryList lists e) :
    chooseEpoch lists = .inconsistent := by
  cases hfilter : lists.filter (fun l => decide (l ≠ [])) with
  | nil =>
    obtain ⟨l, hl, hne⟩ := hsome
    exact absurd (decide_eq_true hne) (List.filter_eq_nil_iff.mp hfilter l hl)
  | cons first rest =>
    have hfind : first.find? (fun e => rest.all (fun l => l.contains e)) = none :=
      List.find?_eq_none.mpr fun y hy => (mem_others_iff hfilter hy).not.mpr (h y)
    simp only [chooseEpoch, hfilter, hfind]

end

namespace Station

/-! The staging round at a station (R154, R155). -/

section

variable (t : Station) (o : Op) (E : Epoch) (slot i : Nat) (image : List Byte)

theorem opening_stageImage : (t.stageImage E slot image).opening = t.opening := by
  simp only [stageImage]
  repeat' split
  · exact opening_queueProto _ _
  · exact opening_queueProto _ _
  · exact opening_queueProto _ _

theorem opening_obtainImage : (t.obtainImage E slot).opening = t.opening := by
  simp only [obtainImage]
  repeat' split
  · rfl
  · exact opening_stageImage _ _ _ _
  · exact opening_offerRequest _ _
  · exact opening_offerRequest _ _

/-- What the staging of an image gives (R154). -/
theorem stageImage_stages : t.stages (t.stageImage E slot image) E slot image := by
  refine ⟨fun c j hc hj => ?_, fun outcome houtcome => ?_⟩
  · simp only [stageImage, hc, hj]
    refine ⟨queueProto_windows _ _, ?_⟩
    rw [unpack_runState t slot image c hc]
    exact queueProto_answers _ _
  · simp only [stageImage, houtcome]
    exact ⟨queueProto_windows _ _, queueProto_answers _ _⟩

theorem obtainImage_stages (hheld : t.heldIndex slot = some i) (hepoch : (t.smg.windows.get i).epoch = some E)
    (hloading : (t.smg.windows.get i).loading = false) :
    t.obtainImage E slot = t.stageImage E slot (t.packHeld (t.smg.windows.get i)) := by
  simp [obtainImage, hheld, hepoch, hloading]

theorem obtainImage_waits (hheld : t.heldIndex slot = some i) (hepoch : (t.smg.windows.get i).epoch = some E)
    (hloading : (t.smg.windows.get i).loading = true) :
    t.obtainImage E slot = { t with smg := { t.smg with stageWait := true } } := by
  simp [obtainImage, hheld, hepoch, hloading]

theorem obtainImage_reads (h : ∀ i, t.heldIndex slot = some i → (t.smg.windows.get i).epoch ≠ some E) :
    t.obtainImage E slot = t.offerRequest (readRequest slot E .staging) := by
  rw [obtainImage]
  split
  · next i hi => exact if_neg (h i hi)
  · rfl

/-- The operation's record at the opening of the staging round with the chosen epoch. -/
def inRound : Station :=
  { t with smg := { t.smg with op := some { o with round := .staging, chosen := some E, results := Quad.fill none } } }

theorem beginStaging_noWindow (h : t.stagedIndex ≠ none) :
    t.beginStaging o E = (t.inRound o E).queueProto (.staged OutcomeCode.noWindow.code 0 [] 0) :=
  if_pos (Option.isSome_iff_ne_none.mpr h)

theorem beginStaging_absent (h : t.stagedIndex = none) (hlist : o.results.get t.straps.station = some (.listed [])) :
    t.beginStaging o E = (t.inRound o E).queueProto (.staged OutcomeCode.absent.code 0 [] 0) := by
  have habsent : t.absent o.results = true := by simp [absent, hlist, OpResult.epochs]
  rw [beginStaging, if_neg (by simp [h]), if_pos habsent]
  rfl

theorem beginStaging_obtains {x : Epoch} {xs : List Epoch} (h : t.stagedIndex = none)
    (hlist : o.results.get t.straps.station = some (.listed (x :: xs))) :
    t.beginStaging o E = (t.inRound o E).obtainImage E o.slot := by
  have hpresent : ¬ t.absent o.results = true := by simp [absent, hlist, OpResult.epochs]
  rw [beginStaging, if_neg (by simp [h]), if_neg hpresent]
  rfl

theorem beginStaging_op :
    (t.beginStaging o E).smg.op = some { o with round := .staging, chosen := some E, results := Quad.fill none } := by
  have hopening : (t.beginStaging o E).opening = (t.inRound o E).opening := by
    simp only [beginStaging]
    repeat' split
    · exact opening_queueProto _ _
    · exact opening_queueProto _ _
    · exact opening_obtainImage _ _ _
  exact congrArg Prod.fst hopening

/-! A LISTED frame (R150, R153). -/

variable (e : RxEntry) (sender x : Nat) (epochs : List Epoch)

theorem listedEffect_takes (hop : t.smg.op = some o) (hkind : o.kind = .recall) (hround : o.round = .listing)
    (hslot : o.slot = slot) (hawaits : t.awaits o e.sender = true) :
    listedEffect (slot, epochs) e t =
      (t.takeListed o e.sender epochs e.acceptedAt).refreshLeds e.acceptedAt := by
  simp [listedEffect, hop, hkind, hround, hslot, hawaits]

theorem listedEffect_ignored
    (h : ∀ o, t.smg.op = some o →
      o.kind ≠ .recall ∨ o.round ≠ .listing ∨ o.slot ≠ slot ∨ t.awaits o e.sender = false) :
    listedEffect (slot, epochs) e t = t := by
  rw [listedEffect]
  split
  · rfl
  · next o hop =>
    refine if_neg fun hall => ?_
    simp only [Bool.and_eq_true, decide_eq_true_eq] at hall
    obtain ⟨⟨⟨hkind, hround⟩, hslot⟩, hawaits⟩ := hall
    simpa [hkind, hround, hslot, hawaits] using h o hop

theorem takeListed_waits (h : allResults t.straps.count (o.results.set sender (some (.listed epochs))) = none) :
    t.takeListed o sender epochs x = t.enterResult o sender (.listed epochs) := by
  simp only [takeListed, h]

section

variable {rs : List OpResult}
  (h : allResults t.straps.count (o.results.set sender (some (.listed epochs))) = some rs)

include h

theorem takeListed_empty (hchoice : chooseEpoch (rs.map OpResult.epochs) = .empty) :
    t.takeListed o sender epochs x = (t.enterResult o sender (.listed epochs)).closeOp .empty x := by
  simp only [takeListed, h, hchoice]

theorem takeListed_inconsistent (hchoice : chooseEpoch (rs.map OpResult.epochs) = .inconsistent) :
    t.takeListed o sender epochs x = (t.enterResult o sender (.listed epochs)).closeOp .inconsistent x := by
  simp only [takeListed, h, hchoice]

theorem takeListed_chosen (hchoice : chooseEpoch (rs.map OpResult.epochs) = .chosen E) :
    t.takeListed o sender epochs x =
      (t.enterResult o sender (.listed epochs)).beginStaging
        { o with results := o.results.set sender (some (.listed epochs)) } E := by
  simp only [takeListed, h, hchoice]

end

end

/-- Staging does not look at the lists of the lane nor at the operation's record. -/
theorem stages_seenFrom {s t : Station} {l : Lif} {p : Option Op} {E : Epoch} {slot : Nat} {image : List Byte}
    (h : stages { s with lif := l, smg := { s.smg with op := p } } t E slot image) : s.stages t E slot image := h

theorem stages_refreshLeds {s t : Station} {E : Epoch} {slot x : Nat} {image : List Byte}
    (h : s.stages t E slot image) : s.stages (t.refreshLeds x) E slot image := by
  simpa only [stages, Station.answers, refreshLeds_frame] using h

end Station

namespace Station

/-- What the station does at the opening of the staging round (R154, R155). -/
theorem beginStaging_proceeds (t : Station) (o : Op) (E : Epoch) (slot x : Nat) (hslot : o.slot = slot) :
    let own := o.results.get t.straps.station
    let u := (t.beginStaging o E).refreshLeds x
    u.smg.op = some { o with round := .staging, chosen := some E, results := Quad.fill none } ∧
    (t.stagedIndex ≠ none → u.answers (.staged 6 0 [] 0)) ∧
    (t.stagedIndex = none → own = some (.listed []) → u.answers (.staged 10 0 [] 0)) ∧
    (∀ y ys, t.stagedIndex = none → own = some (.listed (y :: ys)) →
      (∀ i, t.heldIndex slot = some i → (t.smg.windows.get i).epoch = some E →
        ((t.smg.windows.get i).loading = false → t.stages u E slot (t.packHeld (t.smg.windows.get i))) ∧
        ((t.smg.windows.get i).loading = true → u.smg.stageWait = true)) ∧
      ((∀ i, t.heldIndex slot = some i → (t.smg.windows.get i).epoch ≠ some E) →
        u.requested ⟨.read, slot, E, [], .staging, false⟩)) := by
  subst hslot
  intro own u
  refine ⟨?_, fun hstaged => ?_, fun hstaged hown => ?_, fun y ys hstaged hown => ?_⟩
  · simp [u, beginStaging_op]
  · simp only [u, beginStaging_noWindow t o E hstaged, answers_refreshLeds]
    exact queueProto_answers _ _
  · simp only [u, beginStaging_absent t o E hstaged hown, answers_refreshLeds]
    exact queueProto_answers _ _
  · simp only [u, beginStaging_obtains t o E hstaged hown]
    refine ⟨fun i hheld hepoch => ⟨fun hloading => ?_, fun hloading => ?_⟩, fun hother => ?_⟩
    · rw [obtainImage_stages (t.inRound o E) E o.slot i hheld hepoch hloading]
      exact stages_refreshLeds (stages_seenFrom (stageImage_stages (t.inRound o E) E o.slot _))
    · rw [obtainImage_waits (t.inRound o E) E o.slot i hheld hepoch hloading]
      rfl
    · rw [obtainImage_reads (t.inRound o E) E o.slot hother]
      exact offerRequest_requested _ _

end Station

/-- Settles O29: the choice, and what the last LISTED frame makes of it: a close, or the staging round. -/
theorem lastListedResultMakesTheChoice : Obligations.LastListedResultMakesTheChoice := by
  unfold Obligations.LastListedResultMakesTheChoice
  refine ⟨fun lists => ⟨chooseEpoch_empty, ?chosen, ?inconsistent⟩, ?frame⟩
  case chosen =>
    intro before l behind a e b hlists hbefore hl he ha
    exact chooseEpoch_chosen hlists hbefore hl he fun y hy hall =>
      let ⟨x, hx, hne, hnot⟩ := ha y hy
      hnot (hall x hx hne)
  case inconsistent =>
    intro hsome h
    exact chooseEpoch_inconsistent hsome fun e hall =>
      let ⟨x, hx, hne, hnot⟩ := h e
      hnot (hall x hx hne)
  case frame =>
    intro s e rest slot epochs htakes hwf
    have hcount := Station.count_le_of_wf hwf
    refine ⟨_, State.on_takeFrame s htakes Msg.listedFields Station.listedEffect rfl, ?taken, fun h => ?ignored⟩
    case taken =>
      intro o hop hkind hround hslot hsender hawaited results
      rw [Station.listedEffect_takes (s.station.pop rest) o slot e epochs hop hkind hround hslot
        ((Station.awaits_iff hwf o e.sender).mpr ⟨hsender, hawaited⟩)]
      refine ⟨fun ⟨i, hi, hnone⟩ => ?_, fun lists hlists => ?_⟩
      · rw [Station.takeListed_waits (s.station.pop rest) _ _ _ _ (allResults_eq_none hcount hi hnone)]
        rfl
      · rw [mapM_map_eq] at hlists
        obtain ⟨rs, hrs, rfl⟩ := Option.map_eq_some_iff.mp hlists
        have hclose := Station.closes_afterResult s.station rest o e.sender (.listed epochs)
        refine ⟨fun hempty => ?_, fun hinconsistent => ?_, fun E hE => ?_⟩
        · rw [Station.takeListed_empty (s.station.pop rest) o e.sender e.acceptedAt epochs hrs hempty, ← hkind]
          exact hclose .empty e.acceptedAt
        · rw [Station.takeListed_inconsistent (s.station.pop rest) o e.sender e.acceptedAt epochs hrs hinconsistent,
            ← hkind]
          exact hclose .inconsistent e.acceptedAt
        · rw [Station.takeListed_chosen (s.station.pop rest) o E e.sender e.acceptedAt epochs hrs hE]
          exact Station.beginStaging_proceeds ((s.station.pop rest).enterResult o e.sender (.listed epochs))
            { o with results := results } E slot e.acceptedAt hslot
    case ignored =>
      refine Station.listedEffect_ignored (s.station.pop rest) slot e epochs fun o hop => ?_
      rw [Station.awaits_eq_false_iff (t := s.station.pop rest) hwf]
      exact h o hop

end Sys2Proof.Machine

namespace Sys2Proof

namespace Quad

section

variable {α : Type} {q : Quad α} {P : α → Bool} {i : Nat} {v : α}

/-- A replaced entry that alone passes a test is the one found. -/
theorem find_set_only (hi : i < 4) (hv : P v = true) (h : ∀ j, j < 4 → j ≠ i → P (q.get j) = false) :
    (q.set i v).find P = some i := by
  have h0 := h 0; have h1 := h 1; have h2 := h 2; have h3 := h 3
  simp only [get] at h0 h1 h2 h3
  interval_cases i <;> simp_all [find, set]

/-- Replacing an entry by one that a test tells alike leaves what is found. -/
theorem find_set_alike (hi : i < 4) (hv : P v = P (q.get i)) : (q.set i v).find P = q.find P := by
  interval_cases i <;> simp_all [find, set, get]

/-- Replacing an entry by one that a test tells alike leaves how many pass it. -/
theorem count_set_alike (hi : i < 4) (hv : P v = P (q.get i)) : (q.set i v).count P = q.count P := by
  interval_cases i <;> simp_all [count, set, get]

/-- Where at most one entry passes a test, the one found is the only one. -/
theorem not_other_of_find (hcount : q.count P ≤ 1) (h : q.find P = some i) :
    ∀ j, j < 4 → j ≠ i → P (q.get j) = false := by
  obtain ⟨hi, hP⟩ := find_some P q i h
  intro j hj hji
  by_contra hPj
  rw [Bool.not_eq_false] at hPj
  simp only [count] at hcount
  interval_cases i <;> interval_cases j <;> simp_all [get] <;> omega

theorem not_of_find_none (h : q.find P = none) (j : Nat) : P (q.get j) = false := by
  simp only [find] at h
  repeat' split at h
  all_goals first
    | contradiction
    | match j with
      | 0 | 1 | 2 | _ + 3 => simp_all [get]

/-- Mapping by a function that leaves every entry changes nothing. -/
theorem map_eq_self {f : α → α} (h : ∀ j, j < 4 → f (q.get j) = q.get j) : q.map f = q := by
  obtain ⟨a0, a1, a2, a3⟩ := q
  exact congr (congr (congr (congrArg Quad.mk (h 0 (by decide))) (h 1 (by decide))) (h 2 (by decide))) (h 3 (by decide))

theorem set_set_same (hi : i < 4) (w : α) : (q.set i w).set i v = q.set i v := by
  interval_cases i <;> rfl

end

end Quad

end Sys2Proof

namespace Sys2Proof.Machine

/-! The decision of the staging round (R156). -/

/-- A result that R156 does not close on. -/
def OpResult.fits (r : OpResult) : Prop := r.outcome = .ok ∨ r.outcome = .absent

theorem find?_notFits {rs : List OpResult} (h : ∀ x ∈ rs, x.fits) :
    rs.find? (fun r => decide (r.outcome ≠ .ok) && decide (r.outcome ≠ .absent)) = none :=
  List.find?_eq_none.mpr fun x hx => by
    rcases h x hx with h | h <;> simp [h]

theorem decideStaging_first {before behind : List OpResult} {r : OpResult} (hok : r.outcome ≠ .ok)
    (habsent : r.outcome ≠ .absent) (hbefore : ∀ x ∈ before, x.fits) :
    decideStaging (before ++ r :: behind) = .closes r.outcome := by
  have hsome : (before ++ r :: behind).find?
      (fun r => decide (r.outcome ≠ .ok) && decide (r.outcome ≠ .absent)) = some r := by
    rw [List.find?_append, find?_notFits hbefore]
    simp [hok, habsent]
  simp only [decideStaging, hsome]

section

variable {rs : List OpResult} {d run : Nat} {sect : List Byte} {others : List (Nat × List Byte × Nat)}

theorem decideStaging_agreed (hfits : ∀ x ∈ rs, x.fits) (hok : okResults rs = (d, sect, run) :: others)
    (h : ∀ x ∈ others, x.1 = d) : decideStaging rs = .agreed sect run := by
  have hall : others.all (fun x => decide (x.1 = d)) = true := by simpa using h
  simp only [decideStaging, find?_notFits hfits, hok, hall, if_true]

theorem decideStaging_differs (hfits : ∀ x ∈ rs, x.fits) (hok : okResults rs = (d, sect, run) :: others)
    (h : ∃ x ∈ others, x.1 ≠ d) : decideStaging rs = .closes .inconsistent := by
  have hall : ¬ others.all (fun x => decide (x.1 = d)) = true := by
    obtain ⟨x, hx, hne⟩ := h
    exact fun hall => hne (by simpa using List.all_eq_true.mp hall x hx)
  simp only [decideStaging, find?_notFits hfits, hok, if_neg hall]

end

/-- Window p is flip pending with the sections of w and the run state r (R157). -/
def Window.pendingWith (p w : Window) (r : RunState) : Prop :=
  p.role = .staged ∧ p.flipPending = true ∧ p.runState = r ∧ p.common = w.common ∧ p.chA = w.chA ∧ p.chB = w.chB ∧
  p.runMode = w.runMode

/-- The freeing of a close leaves a window that is not STAGED, or is flip pending (R151). -/
theorem Window.afterClose_kept {w : Window} (h : w.role ≠ .staged ∨ w.flipPending = true) : w.afterClose = w := by
  refine if_neg fun hall => ?_
  rcases h with h | h
  · exact h hall.1
  · simp [h] at hall

namespace Station

/-! A STAGED frame (R150, R156). -/

section

variable (t : Station) (o : Op) (outcome : OutcomeCode) (e : RxEntry) (code digest run sender x : Nat)
  (sect : List Byte)

theorem stagedEffect_takes (hop : t.smg.op = some o) (hcode : OutcomeCode.ofCode code = some outcome)
    (hkind : o.kind = .recall) (hround : o.round = .staging) (hawaits : t.awaits o e.sender = true) :
    stagedEffect (code, digest, sect, run) e t =
      (t.takeStagedResult o e.sender (.staged outcome digest sect run) e.acceptedAt).refreshLeds e.acceptedAt := by
  simp [stagedEffect, hop, hcode, hkind, hround, hawaits]

theorem stagedEffect_ignored
    (h : 10 < code ∨ ∀ o, t.smg.op = some o →
      o.kind ≠ .recall ∨ o.round ≠ .staging ∨ t.awaits o e.sender = false) :
    stagedEffect (code, digest, sect, run) e t = t := by
  rw [stagedEffect]
  split
  · next o _ hop hcode =>
    rcases h with h | h
    · exact absurd hcode (by simp [OutcomeCode.ofCode_eq_none h])
    · refine if_neg fun hall => ?_
      simp only [Bool.and_eq_true, decide_eq_true_eq] at hall
      obtain ⟨⟨hkind, hround⟩, hawaits⟩ := hall
      simpa [hkind, hround, hawaits] using h o hop
  · rfl

variable (r : OpResult)

theorem takeStagedResult_waits (h : allResults t.straps.count (o.results.set sender (some r)) = none) :
    t.takeStagedResult o sender r x = t.enterResult o sender r := by
  simp only [takeStagedResult, h]

section

variable {rs : List OpResult} (h : allResults t.straps.count (o.results.set sender (some r)) = some rs)

include h

/-- An agreement looks at the chosen epoch of the record, and not at its results. -/
theorem takeStagedResult_agreed (hdecision : decideStaging rs = .agreed sect run) :
    t.takeStagedResult o sender r x =
      (t.enterResult o sender r).agree { o with results := o.results.set sender (some r) } sect run x := by
  simp only [takeStagedResult, h, hdecision]
  rfl

theorem takeStagedResult_closes {c : OutcomeCode} (hdecision : decideStaging rs = .closes c) :
    t.takeStagedResult o sender r x = (t.enterResult o sender r).closeOp c x := by
  simp only [takeStagedResult, h, hdecision]

end

end

/-! The agreement of a RECALL (R157). -/

section

variable (t : Station) (o : Op) (sect : List Byte) (run x : Nat)

/-- At the agreement an absent station stages the shared common section with disabled channels (R124). -/
def absentStaged : Window :=
  { Window.blank with
    epoch := o.chosen, common := t.decodedCommon sect, runMode := (t.decodedCommon sect).runmode,
    runState := (RunState.ofCode run).getD .running }

/-- At the agreement the STAGED window is flip pending with the shared run state (R157). -/
def agreedPending : Station :=
  (if t.stagedIndex.isSome then t else t.takeStaged (t.absentStaged o sect run)).markPending
    ((RunState.ofCode run).getD .running)

/-- The agreed operation is closed, the settle timer restarted behind its due save (log 17). -/
def agreedClosed : Station := ((t.agreedPending o sect run).closeOp .ok x).restartSettle x

theorem agree_eq : t.agree o sect run x = (t.agreedClosed o sect run x).meetBoundary x := rfl

theorem agreedPending_savesAlike : SavesAlike t (t.agreedPending o sect run) := by
  simp only [agreedPending]
  split
  · exact savesAlike_markPending _ _
  · exact (savesAlike_takeStaged _ _).trans (savesAlike_markPending _ _)

theorem agreedPending_frame :
    (t.agreedPending o sect run).lif = t.lif ∧ (t.agreedPending o sect run).sst = t.sst ∧
    (t.agreedPending o sect run).acq = t.acq ∧ (t.agreedPending o sect run).tgu = t.tgu ∧
    (t.agreedPending o sect run).rse = t.rse ∧ (t.agreedPending o sect run).pns = t.pns ∧
    (t.agreedPending o sect run).straps = t.straps ∧ (t.agreedPending o sect run).standby = t.standby := by
  simp only [agreedPending]
  split <;> simp

theorem agreedClosed_frame :
    (t.agreedClosed o sect run x).straps = t.straps ∧ (t.agreedClosed o sect run x).standby = t.standby := by
  obtain ⟨-, -, -, -, -, -, hstraps, hstandby⟩ := agreedPending_frame t o sect run
  simp [agreedClosed, hstraps, hstandby]

theorem agreedPending_chain : chainOf (t.agreedPending o sect run) = chainOf t := by
  have hset : ∀ (u : Station) i w, chainOf (u.setWindow i w) = chainOf u := fun _ _ _ => rfl
  simp only [agreedPending, markPending, takeStaged]
  repeat' split
  all_goals simp only [hset]

/-- Window i is the one that the agreement makes flip pending, w its sections: the STAGED window, or with none the
lowest-numbered FREE window, which takes the shared common section and disabled channels (R124, R157). -/
def agreedWindow (i : Nat) (w : Window) (t : Station) : Prop :=
  (t.stagedIndex = some i ∧ w = t.smg.windows.get i) ∨
  (t.stagedIndex = none ∧ t.freeIndex = some i ∧ w.common = t.decodedCommon sect ∧ w.chA = Channel.default 0 ∧
    w.chB = Channel.default 0 ∧ w.runMode = w.common.runmode)

variable {i : Nat} {w : Window}

/-- Beside the window of the agreement no window is STAGED, and that window is not the LIVE one (R5). -/
theorem agreedWindow_alone (hroles : rolesOk t.smg.windows = true) (h : agreedWindow sect i w t) :
    i < 4 ∧ (t.smg.windows.get i).role ≠ .live ∧ ∀ j, j < 4 → j ≠ i → (t.smg.windows.get j).role ≠ .staged := by
  simp only [rolesOk, Bool.and_eq_true, decide_eq_true_eq] at hroles
  obtain ⟨⟨-, hcount⟩, -⟩ := hroles
  rcases h with ⟨hstaged, -⟩ | ⟨hnone, hfree, -⟩
  · obtain ⟨hi, hrole⟩ := Quad.find_some _ _ _ hstaged
    have hrole : (t.smg.windows.get i).role = .staged := by simpa using hrole
    exact ⟨hi, by simp [hrole], fun j hj hji => by simpa using Quad.not_other_of_find hcount hstaged j hj hji⟩
  · obtain ⟨hi, hrole⟩ := Quad.find_some _ _ _ hfree
    have hrole : (t.smg.windows.get i).role = .free := by simpa using hrole
    exact ⟨hi, by simp [hrole], fun j _ _ => by simpa using Quad.not_of_find_none hnone j⟩

theorem agreedPending_windows (hroles : rolesOk t.smg.windows = true) (h : agreedWindow sect i w t) :
    ∃ p, (t.agreedPending o sect run).smg.windows = t.smg.windows.set i p ∧
      p.pendingWith w ((RunState.ofCode run).getD .running) := by
  obtain ⟨hi, -, hothers⟩ := agreedWindow_alone t sect hroles h
  rcases h with ⟨hstaged, rfl⟩ | ⟨hnone, hfree, hcommon, hA, hB, hmode⟩
  · have hrole : (t.smg.windows.get i).role = .staged := by simpa using (Quad.find_some _ _ _ hstaged).2
    simp only [agreedPending, hstaged, Option.isSome_some, if_true, markPending]
    exact ⟨_, rfl, hrole, rfl, rfl, rfl, rfl, rfl, rfl⟩
  · obtain ⟨p, hp⟩ : ∃ p : Window, p = { t.absentStaged o sect run with role := .staged, flipPending := true } :=
      ⟨_, rfl⟩
    have htaken : t.takeStaged (t.absentStaged o sect run) = t.setWindow i p := by
      simp only [takeStaged, hfree, hp]
    have hindex : (t.setWindow i p).stagedIndex = some i :=
      Quad.find_set_only hi (by simp [hp]) fun j hj hji => by simpa using hothers j hj hji
    simp only [agreedPending, hnone, Option.isSome_none, Bool.false_eq_true, if_false, htaken, markPending, hindex,
      setWindow_windows, Quad.set_set_same hi, Quad.get_set_same _ _ _ hi]
    refine ⟨_, rfl, by simp [hp], rfl, rfl, ?_, ?_, ?_, ?_⟩
    · simp [hp, absentStaged, hcommon]
    · simp [hp, absentStaged, hA, Window.blank]
    · simp [hp, absentStaged, hB, Window.blank]
    · simp [hp, absentStaged, hmode, hcommon]

/-- The close of an agreement frees the STAGED windows that are not flip pending, and leaves the acquisition, the run
state and RSE (R151). -/
theorem closeOp_ok_leaves (ho : t.smg.op = some o) :
    (t.closeOp .ok x).smg.windows = t.smg.windows.map Window.afterClose ∧ (t.closeOp .ok x).acq = t.acq ∧
    (t.closeOp .ok x).tgu = t.tgu ∧ (t.closeOp .ok x).rse = t.rse := by
  have hwindows : ∀ u : Station, u.dueSave.smg.windows = u.smg.windows := by
    intro u
    simp only [dueSave]
    split <;> rfl
  have hflip : ∀ u : Station, u.closeFlipped o .ok x = u := fun u => if_neg (by simp)
  rw [closeOp_eq t o .ok x ho, hflip]
  obtain ⟨hsmg, -⟩ := chainAtClose_leaves (t.closeShown o .ok x).dueSave.withdrawAnswers o.kind .ok
  refine ⟨(congrArg Smg.windows hsmg :).trans ((hwindows _).trans ?_), ?_, ?_, ?_⟩
  · rw [closeShown, startOverlay_smg]
    exact windows_afterClose t
  all_goals simp [closeShown]

/-- At the closed station the window of the agreement alone is STAGED, and it is flip pending. -/
theorem agreedClosed_leaves (ho : t.smg.op = some o) (hroles : rolesOk t.smg.windows = true)
    (h : agreedWindow sect i w t) :
    (∃ p, (t.agreedClosed o sect run x).smg.windows = t.smg.windows.set i p ∧
      p.pendingWith w ((RunState.ofCode run).getD .running)) ∧
    (t.agreedClosed o sect run x).acq = t.acq ∧ (t.agreedClosed o sect run x).tgu = t.tgu ∧
    (t.agreedClosed o sect run x).rse = t.rse := by
  obtain ⟨hi, -, hothers⟩ := agreedWindow_alone t sect hroles h
  obtain ⟨p, hwindows, hpending⟩ := agreedPending_windows t o sect run hroles h
  obtain ⟨-, -, hacq, htgu, hrse, -⟩ := agreedPending_frame t o sect run
  obtain ⟨kwindows, kacq, ktgu, krse⟩ := closeOp_ok_leaves (t.agreedPending o sect run) o x
    ((agreedPending_savesAlike t o sect run).op.trans ho)
  refine ⟨⟨p, kwindows.trans ?_, hpending⟩, kacq.trans hacq, ktgu.trans htgu, krse.trans hrse⟩
  rw [hwindows]
  refine Quad.map_eq_self fun j hj => Window.afterClose_kept ?_
  by_cases hji : j = i
  · subst hji
    rw [Quad.get_set_same _ _ _ hi]
    exact .inr hpending.2.1
  · rw [Quad.get_set_other _ _ _ _ hi hj (Ne.symm hji)]
    exact .inl (hothers j hj hji)

/-- A window that alone is STAGED and is flip pending is the one to flip. -/
theorem flipIndex_set {u : Station} {p : Window} {r : RunState} (hi : i < 4)
    (hothers : ∀ j, j < 4 → j ≠ i → (t.smg.windows.get j).role ≠ .staged) (hp : p.pendingWith w r)
    (hu : u.smg.windows = t.smg.windows.set i p) : u.flipIndex = some i := by
  obtain ⟨hrole, hpending, -⟩ := hp
  rw [flipIndex, hu]
  exact Quad.find_set_only hi (by simp [hrole, hpending]) fun j hj hji => by simp [hothers j hj hji]

/-- In POSTTRIG and ALIGNING the agreed setup waits for the boundary (R157). -/
theorem agree_waits (ho : t.smg.op = some o) (hroles : rolesOk t.smg.windows = true) (h : agreedWindow sect i w t)
    (hbusy : t.acq.state = .posttrig ∨ t.acq.state = .aligning) :
    (((t.agree o sect run x).refreshLeds x).smg.windows.get i).pendingWith w
      ((RunState.ofCode run).getD .running) := by
  obtain ⟨hi, -, hothers⟩ := agreedWindow_alone t sect hroles h
  obtain ⟨⟨p, hwindows, hp⟩, hacq, -⟩ := agreedClosed_leaves t o sect run x ho hroles h
  simp only [refreshLeds_frame, agree_eq, meetBoundary_windows _ x i (flipIndex_set t hi hothers hp hwindows), hacq,
    if_pos hbusy, hwindows, Quad.get_set_same _ _ _ hi]
  exact hp

theorem liveIndex_lt : t.liveIndex < 4 := by
  rw [liveIndex]
  cases hlive : t.smg.windows.find (fun w => decide (w.role = .live)) with
  | none => simp
  | some k => exact (Quad.find_some _ _ _ hlive).1

/-- A pending flip performed at the boundary leaves its window the LIVE one, and the old LIVE window FREE (R159). -/
theorem meetBoundary_live (h : t.flipIndex = some i) (hidle : ¬ (t.acq.state = .posttrig ∨ t.acq.state = .aligning))
    (hcount : t.smg.windows.count (fun w => decide (w.role = .live)) = 1) :
    (t.meetBoundary x).live = flippedWindow (t.smg.windows.get i) ∧
    (t.meetBoundary x).smg.windows.get i = flippedWindow (t.smg.windows.get i) ∧
    (t.liveIndex ≠ i → (t.meetBoundary x).smg.windows.get t.liveIndex = Window.blank) := by
  have hi := (flipIndex_some t i h).1
  have hwindows := meetBoundary_windows t x i h
  rw [if_neg hidle] at hwindows
  have hlive : (t.meetBoundary x).liveIndex = i := by
    rw [liveIndex, hwindows]
    exact (congrArg (Option.getD · 0) (find_live_flipped t.smg.windows i Window.blank
      (flippedWindow (t.smg.windows.get i)) hi rfl (by decide) hcount) :)
  rw [live, hlive, hwindows, Quad.get_set_same _ _ _ hi]
  refine ⟨rfl, rfl, fun hne => ?_⟩
  rw [Quad.get_set_other _ _ _ _ hi (liveIndex_lt t) (Ne.symm hne), Quad.get_set_same _ _ _ (liveIndex_lt t)]

/-- In any other state the agreed setup is flipped in at once (R125, R159). -/
theorem agree_flips (ho : t.smg.op = some o) (hroles : rolesOk t.smg.windows = true) (h : agreedWindow sect i w t)
    (hidle : ¬ (t.acq.state = .posttrig ∨ t.acq.state = .aligning)) :
    let u := (t.agree o sect run x).refreshLeds x
    u.live =
      { Window.blank with
        role := .live, common := { w.common with runmode := w.runMode }, chA := w.chA, chB := w.chB } ∧
    (u.smg.windows.get i).role = .live ∧
    (t.liveIndex ≠ i → (u.smg.windows.get t.liveIndex).role = .free) ∧
    t.flippedIn u ((RunState.ofCode run).getD .running) ∧
    t.showsReadouts u { w.common with runmode := w.runMode } w.chA w.chB := by
  rw [agree_eq]
  obtain ⟨hi, hnotLive, hothers⟩ := agreedWindow_alone t sect hroles h
  obtain ⟨⟨p, hwindows, hp⟩, hacq, htgu, hrse⟩ := agreedClosed_leaves t o sect run x ho hroles h
  obtain ⟨hstraps, hstandby⟩ := agreedClosed_frame t o sect run x
  generalize t.agreedClosed o sect run x = v at *
  have hflip := flipIndex_set t hi hothers hp hwindows
  obtain ⟨hrole, -, hrun, hcommon, hA, hB, hmode⟩ := hp
  have halike : decide (p.role = .live) = decide ((t.smg.windows.get i).role = .live) := by simp [hrole, hnotLive]
  have hliveIndex : v.liveIndex = t.liveIndex := by
    rw [liveIndex, hwindows, Quad.find_set_alike hi halike]
    rfl
  have hcount : v.smg.windows.count (fun w => decide (w.role = .live)) = 1 := by
    simp only [rolesOk, Bool.and_eq_true, decide_eq_true_eq] at hroles
    rw [hwindows, Quad.count_set_alike hi halike]
    exact hroles.1.1
  rw [← hacq] at hidle
  have hget : v.smg.windows.get i = p := by rw [hwindows, Quad.get_set_same _ _ _ hi]
  obtain ⟨hlive, hnew, hold⟩ := meetBoundary_live v x hflip hidle hcount
  have hflips := meetBoundary_flips v x i hflip hidle
  have hshows := meetBoundary_shows v x i hflip hidle hcount
  rw [hget] at hlive hnew hflips
  have hrefreshed : ((v.meetBoundary x).refreshLeds x).live = (v.meetBoundary x).live := live_congr (by simp)
  simp only [hrefreshed, flippedIn, showsReadouts, refreshLeds_frame]
  refine ⟨?_, by rw [hnew]; rfl, fun hne => ?_, ?_, ?_⟩
  · rw [hlive, flippedWindow, hcommon, hA, hB, hmode]
  · rw [← hliveIndex, hold (hliveIndex ▸ hne)]
    rfl
  · rw [hrun] at hflips
    simpa only [flippedIn, htgu, hrse, hstandby] using hflips
  · simp only [hget, hcommon, hA, hB, hmode] at hshows
    simpa only [showsReadouts, hrse, hstraps] using hshows

/-- What the move of the boot recall chain at a close looks at. -/
theorem chainCloses_of {s s' u u' : Station} {kind : OpKind} {c : OutcomeCode} (h : s'.chainCloses u' kind c)
    (hs : chainOf s = chainOf s') (hu : chainOf u = chainOf u') (htx : u.lif.tx = u'.lif.tx) :
    s.chainCloses u kind c := by
  simp only [chainOf, Prod.mk.injEq] at hs hu
  obtain ⟨hchain, hwait, hkept⟩ := hs
  obtain ⟨kchain, kwait, kkept⟩ := hu
  simpa only [chainCloses, chainOffers, hchain, hwait, hkept, kchain, kwait, kkept, htx] using h

/-- The agreement closes the operation OK, and restarts the settle timer behind the close's save (R151, R157, log 17).
-/
theorem agree_closes (ho : t.smg.op = some o) :
    let u := (t.agree o sect run x).refreshLeds x
    u.closedWith o .ok x ∧ t.chainCloses u o.kind .ok ∧ u.smg.settle = some (x + 10000 * Config.ms) ∧
    u.smg.untracked = true ∧ t.closeSaves u := by
  have hop : (t.agreedPending o sect run).smg.op = some o := (agreedPending_savesAlike t o sect run).op.trans ho
  obtain ⟨hnone, hlast, hled⟩ := closeOp_closedWith (t.agreedPending o sect run) o .ok x hop
  have hkeeps := startKeeps_meetBoundary (t.agreedClosed o sect run x) x
  have hrecords : (t.agree o sect run x).records = (none, some ⟨o.kind, o.slot, .ok⟩) :=
    (records_meetBoundary _ x).trans (congrArg₂ Prod.mk hnone hlast)
  have hpns : (t.agree o sect run x).pns = ((t.agreedPending o sect run).closeOp .ok x).pns := by
    simp [agree_eq, agreedClosed]
  have hstandby : (t.agree o sect run x).standby = ((t.agreedPending o sect run).closeOp .ok x).standby := by
    simp [agree_eq, agreedClosed]
  have hsmg : ((t.agree o sect run x).refreshLeds x).smg = (t.agree o sect run x).smg := by simp
  have hchain := closeOp_chain (t.agreedPending o sect run) o .ok x hop
  refine ⟨⟨?_, ?_, fun hawake => refreshLeds_overlay _ x _ _ ?_⟩, ?_, ?_, ?_, ?_⟩
  · rw [hsmg]
    exact congrArg Prod.fst hrecords
  · rw [hsmg]
    exact congrArg Prod.snd hrecords
  · rw [hpns]
    exact hled (hstandby ▸ (by simpa using hawake))
  · refine chainCloses_of hchain (agreedPending_chain t o sect run).symm ?_ ?_
    · exact (congrArg (fun m : Smg => (m.chain, m.chainWait, m.keptChain)) hsmg).trans hkeeps.chainOf
    · simp only [refreshLeds_frame]
      exact hkeeps.tx
  · rw [hsmg]
    exact hkeeps.settle
  · rw [hsmg]
    exact hkeeps.unt
  · simpa only [closeSaves, requested, refreshLeds_frame] using agree_saves t o sect run x ho

end

end Station

/-- Settles O30: the last STAGED frame closes the RECALL with an outcome, or brings the agreed setup in. -/
theorem lastStagedResultDecides : Obligations.LastStagedResultDecides := by
  unfold Obligations.LastStagedResultDecides
  refine ⟨fun rs => ⟨?closes, fun hfits d sect run others hok => ?agreed⟩, ?frame⟩
  case closes =>
    intro before r behind hrs hok habsent hbefore
    exact hrs ▸ decideStaging_first hok habsent hbefore
  case agreed => exact ⟨decideStaging_agreed hfits hok, decideStaging_differs hfits hok⟩
  case frame =>
    intro s e rest code digest run sect htakes hwf hwindows
    have hcount := Station.count_le_of_wf hwf
    refine ⟨_, State.on_takeFrame s htakes Msg.stagedFields Station.stagedEffect rfl, ?taken, fun h => ?ignored⟩
    case taken =>
      intro o outcome hop hcode hkind hround hsender hawaited results
      rw [Station.stagedEffect_takes (s.station.pop rest) o outcome e code digest run sect hop hcode hkind hround
        ((Station.awaits_iff hwf o e.sender).mpr ⟨hsender, hawaited⟩)]
      refine ⟨fun ⟨i, hi, hnone⟩ => ?_, fun rs hrs => ?_⟩
      · rw [Station.takeStagedResult_waits (s.station.pop rest) _ _ _ _ (allResults_eq_none hcount hi hnone)]
        rfl
      · refine ⟨fun shared run' hagreed => ?_, fun c hcloses => ?_⟩
        · rw [Station.takeStagedResult_agreed (s.station.pop rest) o run' e.sender e.acceptedAt shared _ hrs hagreed,
            ← hkind]
          obtain ⟨t, ht⟩ : ∃ t, t = (s.station.pop rest).enterResult o e.sender (.staged outcome digest sect run) :=
            ⟨_, rfl⟩
          have htop : t.smg.op = some { o with results := results } := by subst ht; rfl
          have hroles : rolesOk t.smg.windows = true := by
            simp only [Station.windowsOk, Bool.and_eq_true] at hwindows
            subst ht
            exact hwindows.1.1.1.1
          rw [← ht]
          obtain ⟨hwith, hchain, hsettle, huntracked, hsaves⟩ := Station.agree_closes t _ shared run' e.acceptedAt htop
          have hwaits := fun i w => Station.agree_waits t _ shared run' e.acceptedAt (i := i) (w := w) htop hroles
          have hflips := fun i w => Station.agree_flips t _ shared run' e.acceptedAt (i := i) (w := w) htop hroles
          subst ht
          refine ⟨hwith, hchain, hsettle, huntracked, hsaves, fun i w r hr hw => hr ▸ ⟨hwaits i w hw, hflips i w hw⟩⟩
        · rw [Station.takeStagedResult_closes (s.station.pop rest) o e.sender e.acceptedAt _ hrs hcloses, ← hkind]
          exact Station.closes_afterResult s.station rest o e.sender (.staged outcome digest sect run) c e.acceptedAt
    case ignored =>
      refine Station.stagedEffect_ignored (s.station.pop rest) e code digest run sect (h.imp_right fun h o hop => ?_)
      rw [Station.awaits_eq_false_iff (t := s.station.pop rest) hwf]
      exact h o hop

end Sys2Proof.Machine
